-- ==== Sys2Proof/Word.lean ====
section
/-! DEFINITION. The word types of the MC 680x0 model and the three operation sizes (spec/00_scope.md rules R9, R10).
Only names for widths stand here: every operation on them that a test could show wrong is in Sys2Proof/Machine. -/

namespace Sys2Proof

/-- 8 bits: the smallest unit memory is addressed in (R10, R60). -/
abbrev Byte := BitVec 8

/-- 16 bits: one instruction word (R10, R100). -/
abbrev Word := BitVec 16

/-- 32 bits: a register, an address, the program counter (R20, R22, R26). -/
abbrev Long := BitVec 32

/-- The number of a data or address register, 0 to 7 (R20, R22). -/
abbrev RegNum := BitVec 3

/-- The three operation sizes of R10. -/
inductive Size where
  | byte
  | word
  | long
deriving DecidableEq, Repr

/-- `nbytes(sz)` of R10. -/
def Size.bytes : Size → Nat
  | .byte => 1
  | .word => 2
  | .long => 4

/-- `sz` of R10, in bits. -/
def Size.bits : Size → Nat
  | .byte => 8
  | .word => 16
  | .long => 32

end Sys2Proof
end

