-- ==== Sys2Proof/Config.lean ====
section
/-! DEFINITION. The parameters of the model (spec/00_scope.md rules R7, R8; spec/92_eei_decisions.md) and the one
source of free values. A parameter is plain data: it is held in the state and no step changes it (R485). -/

namespace Sys2Proof

/-- The family members of R7, in the order the spec compares them in. -/
inductive Cpu where
  | mc68000
  | mc68hc000
  | mc68010
  | mc68020
  | mc68030
deriving DecidableEq, Repr

/-- `CPU >= MC68020` of R7: the test behind every "(68020+)" mark. -/
def Cpu.is020 : Cpu → Bool
  | .mc68000 | .mc68hc000 | .mc68010 => false
  | .mc68020 | .mc68030 => true

/-- `TRAP_MODEL` of R8: what an exception does (R421, R446). -/
inductive TrapModel where
  /-- R421, the default: the exception ends the run as a recorded fault. -/
  | fault
  /-- R446: the exception pushes a frame and enters the handler. -/
  | frame
deriving DecidableEq, Repr

/-- `MISALIGN` of R8: a Word or Long data access at an odd address. -/
inductive Misalign where
  /-- R67: address error below MC68020, byte by byte from MC68020 on. -/
  | byCpu
  /-- A platform that faults whatever the member. -/
  | fault
  /-- A platform that performs the access byte by byte whatever the member. -/
  | bytewise
deriving DecidableEq, Repr

/-- The three kinds of address of R70. -/
inductive RegionKind where
  | ram
  | device
  | absent
deriving DecidableEq, Repr

/-- One entry of `REGIONS` (R70): `len` byte addresses from `base` are of this kind. -/
structure Region where
  base : Nat
  len  : Nat
  kind : RegionKind
deriving DecidableEq, Repr

/-- One piece of `TEXT` (R85): `len` byte addresses from `base` hold the program. -/
structure TextRange where
  base : Nat
  len  : Nat
deriving DecidableEq, Repr

/-- The parameters of R8 as one record. `BKPT_RESPONSE` is no field: D9 fixes it to the exception response.
`IRQ` and the coprocessor answers are consumed as the machine runs and are fields of the state. -/
structure Config where
  /-- `CPU` (D2). -/
  cpu       : Cpu
  /-- `ADDR_BITS` (D5): how many address bits reach memory. -/
  addrBits  : Nat
  /-- `MISALIGN` (D3). -/
  misalign  : Misalign
  /-- `TRAP_MODEL` (D6). -/
  trapModel : TrapModel
  /-- `COPROC` (D10): the ids of the coprocessors that answer. -/
  coproc    : List (BitVec 3)
  /-- `REGIONS` (D13): the first entry that holds an address decides; an address in none is `ram`. -/
  regions   : List Region
  /-- `TEXT` (D14). -/
  text      : List TextRange
  /-- `END_PC` (D22). R8 leaves it open; that it may be absent is a DESIGN CHOICE (notes/assumptions/47.md). -/
  endPc     : Option Long
deriving DecidableEq, Repr

/-- The parameters at the defaults of R8, where R8 gives one. Three it leaves open, each a DESIGN CHOICE here: `cpu` (D2)
is MC68020 (notes/assumptions/1.md); `text` (D14) is empty until a program is loaded (notes/assumptions/12.md); `endPc`
(D22) is absent, so that the run is never over (notes/assumptions/47.md). -/
def Config.default : Config where
  cpu       := .mc68020
  addrBits  := 32
  misalign  := .byCpu
  trapModel := .fault
  coproc    := []
  regions   := []
  text      := []
  endPc     := none

/-- `draw(N)` of R15: the value the spec leaves open at the `k`-th draw of a run; a use of width N takes the low N
bits. It has no body, so nothing can be proved of a drawn value. Free value: notes/assumptions/24.md. -/
opaque Config.draw : Nat → Long

end Sys2Proof
end

