-- ==== Sys2Proof/Syntax.lean ====
section
/-! DEFINITION. The instructions of spec/opcode_table.json: one constructor per row, with the operands the encoding
figures give (spec/30_encoding.md rules R102 to R131). Register numbers and small fields are the bit fields of the
encoding; everything else is an inductive of its own. -/

namespace Sys2Proof

/-- The general register `Rn` of R25: a data or an address register. -/
inductive GReg where
  | dn (n : RegNum)
  | an (n : RegNum)
deriving DecidableEq, Repr

/-- Immediate data at the operation size (R106). -/
inductive Imm where
  | byte (v : Byte)
  | word (v : Word)
  | long (v : Long)
deriving DecidableEq, Repr

/-- The size of an immediate. -/
def Imm.size : Imm → Size
  | .byte _ => .byte
  | .word _ => .word
  | .long _ => .long

/-- The index register of an indexed mode (R116): its name, its size (W/L) and its scale field. -/
structure IndexReg where
  reg   : GReg
  /-- W/L: the whole register, else its sign-extended low word. -/
  long  : Bool
  /-- The SCALE field: 00 is x1, 01 is x2, 10 is x4, 11 is x8. -/
  scale : BitVec 2
deriving DecidableEq, Repr

/-- A base or outer displacement of the full extension format (R117): absent, one word, or two words. -/
inductive Disp where
  | null
  | word (v : Word)
  | long (v : Long)
deriving DecidableEq, Repr

/-- The I/IS field of the full extension format (R117): no memory indirection, or one before or after the index is
added. With the index suppressed there is one indirect form only, written `pre`. -/
inductive Indirection where
  | none
  | pre  (od : Disp)
  | post (od : Disp)
deriving DecidableEq, Repr

/-- The extension of an indexed mode: the brief word of R116 or the full format of R117. In the full format
`baseSup` is BS; `idx` is the register the word names and `indexSup` is IS, with which the register is not used. -/
inductive IndexExt where
  | brief (idx : IndexReg) (d8 : Byte)
  | full  (baseSup : Bool) (indexSup : Bool) (idx : IndexReg) (bd : Disp) (ind : Indirection)
deriving DecidableEq, Repr

/-- The effective address (R110): the twelve encodings of MODE and REGISTER with their extension words. -/
inductive Ea where
  | dreg    (n : RegNum)
  | areg    (n : RegNum)
  | ind     (n : RegNum)
  | postinc (n : RegNum)
  | predec  (n : RegNum)
  | disp    (n : RegNum) (d16 : Word)
  | index   (n : RegNum) (x : IndexExt)
  | absw    (a : Word)
  | absl    (a : Long)
  | pcdisp  (d16 : Word)
  | pcindex (x : IndexExt)
  | imm     (v : Imm)
deriving DecidableEq, Repr

/-- The twelve addressing-mode names of R110, in its order. -/
inductive EaMode where
  | dreg | areg | ind | postinc | predec | disp | index | absw | absl | pcdisp | pcindex | imm
deriving DecidableEq, Repr

/-- The mode of an effective address. -/
def Ea.mode : Ea → EaMode
  | .dreg _    => .dreg
  | .areg _    => .areg
  | .ind _     => .ind
  | .postinc _ => .postinc
  | .predec _  => .predec
  | .disp _ _  => .disp
  | .index _ _ => .index
  | .absw _    => .absw
  | .absl _    => .absl
  | .pcdisp _  => .pcdisp
  | .pcindex _ => .pcindex
  | .imm _     => .imm

/-- The fourteen conditions a Bcc can have (R130). -/
inductive Cond where
  | hi | ls | cc | cs | ne | eq | vc | vs | pl | mi | ge | lt | gt | le
deriving DecidableEq, Repr

/-- The NUMBER/REGISTER field of a register shift with its i/r bit (R222): an immediate count (000 is 8) or the data
register that holds the count. -/
inductive ShiftCount where
  | imm (c : BitVec 3)
  | reg (n : RegNum)
deriving DecidableEq, Repr

/-- Offset or width of a bit field (R260): the 5-bit field itself, or the data register it names. -/
inductive BfField where
  | imm (v : BitVec 5)
  | reg (n : RegNum)
deriving DecidableEq, Repr

/-- The offset and the width of a bit-field instruction (R260). -/
structure BfSpec where
  offset : BfField
  width  : BfField
deriving DecidableEq, Repr

/-- The offset of Bcc, BRA, BSR in its three encodings (R323). -/
inductive BranchOff where
  | byte (d : Byte)
  | word (d : Word)
  | long (d : Long)
deriving DecidableEq, Repr

/-- One register pair of CAS2 (R383): the register that holds the address, Du and Dc. -/
structure CasPair where
  rn : GReg
  du : RegNum
  dc : RegNum
deriving DecidableEq, Repr

/-- The R/M bit of ABCD and ADDX (R164, R290). -/
inductive XForm where
  /-- R/M = 0: data register to data register. -/
  | data
  /-- R/M = 1: memory to memory with predecrement. -/
  | predec
deriving DecidableEq, Repr

/-- The instructions in scope (R4): one constructor per row of spec/opcode_table.json. Of a coprocessor instruction
only the operation word is syntax: how many words follow is known to the coprocessor alone (R105, R389), so its
meaning fetches them. -/
inductive Instr where
  /-- `ADD <ea>,Dn` (R160). -/
  | addToReg (sz : Size) (r : RegNum) (ea : Ea)
  /-- `ADD Dn,<ea>` (R160). -/
  | addToMem (sz : Size) (r : RegNum) (ea : Ea)
  /-- `ADDA <ea>,An`, Long when `isLong` (R161). -/
  | adda (isLong : Bool) (a : RegNum) (ea : Ea)
  /-- `ADDI #<data>,<ea>` (R162). -/
  | addi (v : Imm) (ea : Ea)
  /-- `ADDQ #<data>,<ea>` with the DATA field (R163). -/
  | addq (sz : Size) (q : BitVec 3) (ea : Ea)
  /-- `ADDX` Ry to Rx (R164). -/
  | addx (sz : Size) (form : XForm) (x y : RegNum)
  /-- `CLR <ea>` (R165). -/
  | clr (sz : Size) (ea : Ea)
  /-- `CMP <ea>,Dn` (R166). -/
  | cmp (sz : Size) (r : RegNum) (ea : Ea)
  /-- `CMPA <ea>,An`, Long when `isLong` (R167). -/
  | cmpa (isLong : Bool) (a : RegNum) (ea : Ea)
  /-- `CMPI #<data>,<ea>` (R168). -/
  | cmpi (v : Imm) (ea : Ea)
  /-- `CMPM (Ay)+,(Ax)+` (R169). -/
  | cmpm (sz : Size) (x y : RegNum)
  /-- `CMP2 <ea>,Rn` (R170). -/
  | cmp2 (sz : Size) (rn : GReg) (ea : Ea)
  /-- `AND <ea>,Dn` (R200). -/
  | andToReg (sz : Size) (r : RegNum) (ea : Ea)
  /-- `AND Dn,<ea>` (R200). -/
  | andToMem (sz : Size) (r : RegNum) (ea : Ea)
  /-- `ANDI #<data>,<ea>` (R201). -/
  | andi (v : Imm) (ea : Ea)
  /-- `ASL Dx,Dy` and `ASL #<data>,Dy` (R220). -/
  | aslReg (sz : Size) (count : ShiftCount) (r : RegNum)
  /-- `ASL <ea>`, a word by one bit (R220). -/
  | aslMem (ea : Ea)
  /-- `ASR Dx,Dy` and `ASR #<data>,Dy` (R221). -/
  | asrReg (sz : Size) (count : ShiftCount) (r : RegNum)
  /-- `ASR <ea>`, a word by one bit (R221). -/
  | asrMem (ea : Ea)
  /-- `BTST Dn,<ea>` (R243). -/
  | btstReg (r : RegNum) (ea : Ea)
  /-- `BTST #<data>,<ea>` (R243). -/
  | btstImm (n : Byte) (ea : Ea)
  /-- `BCHG Dn,<ea>` (R240). -/
  | bchgReg (r : RegNum) (ea : Ea)
  /-- `BCHG #<data>,<ea>` (R240). -/
  | bchgImm (n : Byte) (ea : Ea)
  /-- `BCLR Dn,<ea>` (R241). -/
  | bclrReg (r : RegNum) (ea : Ea)
  /-- `BCLR #<data>,<ea>` (R241). -/
  | bclrImm (n : Byte) (ea : Ea)
  /-- `BSET Dn,<ea>` (R242). -/
  | bsetReg (r : RegNum) (ea : Ea)
  /-- `BSET #<data>,<ea>` (R242). -/
  | bsetImm (n : Byte) (ea : Ea)
  /-- `BFTST <ea>{offset:width}` (R269). -/
  | bftst (p : BfSpec) (ea : Ea)
  /-- `BFEXTU <ea>{offset:width},Dn` (R265). -/
  | bfextu (p : BfSpec) (dn : RegNum) (ea : Ea)
  /-- `BFCHG <ea>{offset:width}` (R262). -/
  | bfchg (p : BfSpec) (ea : Ea)
  /-- `BFEXTS <ea>{offset:width},Dn` (R264). -/
  | bfexts (p : BfSpec) (dn : RegNum) (ea : Ea)
  /-- `BFCLR <ea>{offset:width}` (R263). -/
  | bfclr (p : BfSpec) (ea : Ea)
  /-- `BFFFO <ea>{offset:width},Dn` (R266). -/
  | bfffo (p : BfSpec) (dn : RegNum) (ea : Ea)
  /-- `BFSET <ea>{offset:width}` (R268). -/
  | bfset (p : BfSpec) (ea : Ea)
  /-- `BFINS Dn,<ea>{offset:width}` (R267). -/
  | bfins (p : BfSpec) (dn : RegNum) (ea : Ea)
  /-- `ABCD` Ry to Rx (R290). -/
  | abcd (form : XForm) (x y : RegNum)
  /-- `Bcc <label>` (R320). -/
  | bcc (c : Cond) (off : BranchOff)
  /-- `BRA <label>` (R321). -/
  | bra (off : BranchOff)
  /-- `BSR <label>` (R322). -/
  | bsr (off : BranchOff)
  /-- `ANDI #<data>,SR` (R342). -/
  | andiToSr (v : Word)
  /-- `ANDI #<data>,CCR` (R370). -/
  | andiToCcr (v : Byte)
  /-- `BKPT #<data>` (R350). -/
  | bkpt (v : BitVec 3)
  /-- `CHK.W <ea>,Dn` (R351). -/
  | chkW (r : RegNum) (ea : Ea)
  /-- `CHK.L <ea>,Dn` (R351). -/
  | chkL (r : RegNum) (ea : Ea)
  /-- `CHK2 <ea>,Rn` (R352). -/
  | chk2 (sz : Size) (rn : GReg) (ea : Ea)
  /-- `CAS Dc,Du,<ea>` (R382). -/
  | cas (sz : Size) (du dc : RegNum) (ea : Ea)
  /-- `CAS2.W Dc1:Dc2,Du1:Du2,(Rn1):(Rn2)` (R383). -/
  | cas2W (p1 p2 : CasPair)
  /-- `CAS2.L Dc1:Dc2,Du1:Du2,(Rn1):(Rn2)` (R383). -/
  | cas2L (p1 p2 : CasPair)
  /-- `cpBcc <label>`, a Long offset when `isLong`, with the coprocessor condition (R390). -/
  | cpBcc (id : BitVec 3) (isLong : Bool) (cond : BitVec 6)
  /-- `cpDBcc Dn,<label>` (R391). -/
  | cpDBcc (id : BitVec 3) (r : RegNum)
  /-- `cpGEN` with its six MODE and REGISTER bits (R392). -/
  | cpGen (id : BitVec 3) (field : BitVec 6)
  /-- `cpRESTORE <ea>` with its MODE and REGISTER bits (R393). -/
  | cpRestore (id : BitVec 3) (field : BitVec 6)
  /-- `cpSAVE <ea>` with its MODE and REGISTER bits (R394). -/
  | cpSave (id : BitVec 3) (field : BitVec 6)
  /-- `cpScc <ea>` with its MODE and REGISTER bits (R395). -/
  | cpScc (id : BitVec 3) (field : BitVec 6)
deriving DecidableEq, Repr

end Sys2Proof
end

