-- ==== Sys2Proof/Machine/Modes.lean ====
section
/-! DEFINITION. The named sets of addressing modes (spec/30_encoding.md rules R125, R126) and the MODE and REGISTER
field (R110). The checks of WellFormed and the decoder both read these. -/

namespace Sys2Proof

/-- The names of R125. -/
inductive EaSet where
  | all | data | dataNoImm | alt | dataAlt | memAlt | control | bfAlt | bfRd | cpRest | cpSave
deriving DecidableEq, Repr

/-- The members of each set of R125. -/
def EaSet.modes : EaSet → List EaMode
  | .all       => [.dreg, .areg, .ind, .postinc, .predec, .disp, .index, .absw, .absl, .pcdisp, .pcindex, .imm]
  | .data      => [.dreg, .ind, .postinc, .predec, .disp, .index, .absw, .absl, .pcdisp, .pcindex, .imm]
  | .dataNoImm => [.dreg, .ind, .postinc, .predec, .disp, .index, .absw, .absl, .pcdisp, .pcindex]
  | .alt       => [.dreg, .areg, .ind, .postinc, .predec, .disp, .index, .absw, .absl]
  | .dataAlt   => [.dreg, .ind, .postinc, .predec, .disp, .index, .absw, .absl]
  | .memAlt    => [.ind, .postinc, .predec, .disp, .index, .absw, .absl]
  | .control   => [.ind, .disp, .index, .absw, .absl, .pcdisp, .pcindex]
  | .bfAlt     => [.dreg, .ind, .disp, .index, .absw, .absl]
  | .bfRd      => [.dreg, .ind, .disp, .index, .absw, .absl, .pcdisp, .pcindex]
  | .cpRest    => [.ind, .postinc, .disp, .index, .absw, .absl, .pcdisp, .pcindex]
  | .cpSave    => [.ind, .postinc, .disp, .index, .absw, .absl]

/-- Is the mode a member of the set (R125)? -/
def EaSet.has (set : EaSet) (m : EaMode) : Bool := set.modes.contains m

/-- The mode a MODE and REGISTER field names (R110): MODE 111 with REGISTER 101 to 111 names none. -/
def eaModeOf (field : BitVec 6) : Option EaMode :=
  match (field.extractLsb' 3 3).toNat with
  | 0 => some .dreg
  | 1 => some .areg
  | 2 => some .ind
  | 3 => some .postinc
  | 4 => some .predec
  | 5 => some .disp
  | 6 => some .index
  | _ =>
    match (field.extractLsb' 0 3).toNat with
    | 0 => some .absw
    | 1 => some .absl
    | 2 => some .pcdisp
    | 3 => some .pcindex
    | 4 => some .imm
    | _ => none

/-- Does the field name a mode of the set? -/
def EaSet.hasField (set : EaSet) (field : BitVec 6) : Bool :=
  match eaModeOf field with
  | some m => set.has m
  | none   => false

/-- The modes CMPI has on a member (R126): the PC-relative ones from MC68020 on. -/
def cmpiSet (cpu : Cpu) : EaSet := if cpu.is020 then .dataNoImm else .dataAlt

end Sys2Proof
end

