-- ==== Sys2Proof/Decode.lean ====
section
/-! DEFINITION. The decoder, total on any words and rejecting by name (spec/30_encoding.md rules R100 to R126, R140,
R141; spec/49_pmmu_multiprocessor_coprocessor.md rule R388), then the encoder from the same figures, the lengths, and
the host's decodeTableWord. A decoder step reads one word at a time, so a caller that fetches a word only when the
answer is `needsMore` fetches exactly the words the instruction has. -/

namespace Sys2Proof

/-- Why no instruction was read. -/
inductive DecodeStop where
  /-- The instruction has a further word that was not given. -/
  | needsMore
  /-- A following word holds a reserved field (R141 step 1, R117). -/
  | reservedField
  /-- No row of the table has the operation word (R141 step 4). -/
  | notDescribed (w : Word)
  /-- A row has it and the member is below the row's (R141 step 2). -/
  | illegal (w : Word)
  /-- A line F word on a member below MC68020 or with CP-ID 0 (R388). -/
  | lineF (w : Word)
  /-- A line F word with a CP-ID whose form no page describes (R388, last line). -/
  | lineFOther (id : BitVec 3) (w : Word)
deriving DecidableEq, Repr

/-- The rows of opcode_table.json by name. CMP2 and CHK2 share every operation word and are one row here, told apart by
bit 11 of the second word (R140). -/
inductive RowId where
  | addToReg | addToMem | adda | addi | addq | addx | clr | cmp | cmpa | cmpi | cmpm | bounds2 | andToReg | andToMem
  | andi | aslReg | aslMem | asrReg | asrMem | btstReg | btstImm | bchgReg | bchgImm | bclrReg | bclrImm | bsetReg
  | bsetImm | bftst | bfextu | bfchg | bfexts | bfclr | bfffo | bfset | bfins | abcd | bcc | bra | bsr | andiToSr
  | andiToCcr | bkpt | chkW | chkL | cas | cas2W | cas2L | cpBcc | cpDBcc | cpGen | cpRestore | cpSave | cpScc
deriving DecidableEq, Repr

/-- One row of opcode_table.json: `match`, `mask`, the allowed modes where the row has an `<ea>`, and whether its `cpu`
is MC68020. -/
structure Row where
  id       : RowId
  pattern  : Word
  mask     : Word
  set      : Option EaSet
  needs020 : Bool
deriving DecidableEq, Repr

/-- The rows outside line F. -/
def rows : List Row :=
  [ ⟨.addToReg, 0xD000, 0xF100, some .all, false⟩,
    ⟨.addToMem, 0xD100, 0xF100, some .memAlt, false⟩,
    ⟨.adda,     0xD0C0, 0xF0C0, some .all, false⟩,
    ⟨.addi,     0x0600, 0xFF00, some .dataAlt, false⟩,
    ⟨.addq,     0x5000, 0xF100, some .alt, false⟩,
    ⟨.addx,     0xD100, 0xF130, none, false⟩,
    ⟨.clr,      0x4200, 0xFF00, some .dataAlt, false⟩,
    ⟨.cmp,      0xB000, 0xF100, some .all, false⟩,
    ⟨.cmpa,     0xB0C0, 0xF0C0, some .all, false⟩,
    ⟨.cmpi,     0x0C00, 0xFF00, some .dataNoImm, false⟩,
    ⟨.cmpm,     0xB108, 0xF138, none, false⟩,
    ⟨.bounds2,  0x00C0, 0xF9C0, some .control, true⟩,
    ⟨.andToReg, 0xC000, 0xF100, some .data, false⟩,
    ⟨.andToMem, 0xC100, 0xF100, some .memAlt, false⟩,
    ⟨.andi,     0x0200, 0xFF00, some .dataAlt, false⟩,
    ⟨.aslReg,   0xE100, 0xF118, none, false⟩,
    ⟨.aslMem,   0xE1C0, 0xFFC0, some .memAlt, false⟩,
    ⟨.asrReg,   0xE000, 0xF118, none, false⟩,
    ⟨.asrMem,   0xE0C0, 0xFFC0, some .memAlt, false⟩,
    ⟨.btstReg,  0x0100, 0xF1C0, some .data, false⟩,
    ⟨.btstImm,  0x0800, 0xFFC0, some .dataNoImm, false⟩,
    ⟨.bchgReg,  0x0140, 0xF1C0, some .dataAlt, false⟩,
    ⟨.bchgImm,  0x0840, 0xFFC0, some .dataAlt, false⟩,
    ⟨.bclrReg,  0x0180, 0xF1C0, some .dataAlt, false⟩,
    ⟨.bclrImm,  0x0880, 0xFFC0, some .dataAlt, false⟩,
    ⟨.bsetReg,  0x01C0, 0xF1C0, some .dataAlt, false⟩,
    ⟨.bsetImm,  0x08C0, 0xFFC0, some .dataAlt, false⟩,
    ⟨.bftst,    0xE8C0, 0xFFC0, some .bfRd, true⟩,
    ⟨.bfextu,   0xE9C0, 0xFFC0, some .bfRd, true⟩,
    ⟨.bfchg,    0xEAC0, 0xFFC0, some .bfAlt, true⟩,
    ⟨.bfexts,   0xEBC0, 0xFFC0, some .bfRd, true⟩,
    ⟨.bfclr,    0xECC0, 0xFFC0, some .bfAlt, true⟩,
    ⟨.bfffo,    0xEDC0, 0xFFC0, some .bfRd, true⟩,
    ⟨.bfset,    0xEEC0, 0xFFC0, some .bfAlt, true⟩,
    ⟨.bfins,    0xEFC0, 0xFFC0, some .bfAlt, true⟩,
    ⟨.abcd,     0xC100, 0xF1F0, none, false⟩,
    ⟨.bcc,      0x6000, 0xF000, none, false⟩,
    ⟨.bra,      0x6000, 0xFF00, none, false⟩,
    ⟨.bsr,      0x6100, 0xFF00, none, false⟩,
    ⟨.andiToSr,  0x027C, 0xFFFF, none, false⟩,
    ⟨.andiToCcr, 0x023C, 0xFFFF, none, false⟩,
    ⟨.bkpt,     0x4848, 0xFFF8, none, false⟩,
    ⟨.chkW,     0x4180, 0xF1C0, some .data, false⟩,
    ⟨.chkL,     0x4100, 0xF1C0, some .data, true⟩,
    ⟨.cas,      0x08C0, 0xF9C0, some .memAlt, true⟩,
    ⟨.cas2W,    0x0CFC, 0xFFFF, none, true⟩,
    ⟨.cas2L,    0x0EFC, 0xFFFF, none, true⟩ ]

/-- The line F rows (R388). -/
def lineFRows : List Row :=
  [ ⟨.cpBcc,     0xF080, 0xF180, none, true⟩,
    ⟨.cpDBcc,    0xF048, 0xF1F8, none, true⟩,
    ⟨.cpGen,     0xF000, 0xF1C0, none, true⟩,
    ⟨.cpRestore, 0xF140, 0xF1C0, some .cpRest, true⟩,
    ⟨.cpSave,    0xF100, 0xF1C0, some .cpSave, true⟩,
    ⟨.cpScc,     0xF040, 0xF1C0, some .dataAlt, true⟩ ]

/-- The MODE and REGISTER bits of an operation word (R110). -/
def eaFieldOf (w : Word) : BitVec 6 := w.extractLsb' 0 6

/-- The `where` and `except` conditions of the rows: a size field that is not 11 (CAS: not 00), no Byte operand in an
address register, a Bcc condition that is neither BRA nor BSR; and R126 for CMPI. -/
def sideCondition (cpu : Cpu) (id : RowId) (w : Word) : Bool :=
  let size67 : Bool := w.extractLsb' 6 2 != 3
  let noByteAn : Bool := !(w.extractLsb' 6 2 == 0 && w.extractLsb' 3 3 == 1)
  match id with
  | .addToReg | .addq | .cmp => size67 && noByteAn
  | .cmpi => size67 && (cmpiSet cpu).hasField (eaFieldOf w)
  | .addToMem | .addi | .addx | .clr | .cmpm | .andToReg | .andToMem | .andi | .aslReg | .asrReg => size67
  | .bounds2 => w.extractLsb' 9 2 != 3
  | .cas => w.extractLsb' 9 2 != 0
  | .bcc => w.extractLsb' 9 3 != 0
  | .adda | .cmpa | .aslMem | .asrMem | .btstReg | .btstImm | .bchgReg | .bchgImm | .bclrReg | .bclrImm | .bsetReg
  | .bsetImm | .bftst | .bfextu | .bfchg | .bfexts | .bfclr | .bfffo | .bfset | .bfins | .abcd | .bra | .bsr
  | .andiToSr | .andiToCcr | .bkpt | .chkW | .chkL | .cas2W | .cas2L | .cpBcc | .cpDBcc | .cpGen | .cpRestore
  | .cpSave | .cpScc => true

/-- Is the operation word an instance of the row: pattern, `where` conditions and allowed modes (R141 step 1)? -/
def Row.fits (cpu : Cpu) (w : Word) (r : Row) : Bool :=
  (w &&& r.mask == r.pattern)
    && (match r.set with
        | some set => set.hasField (eaFieldOf w)
        | none     => true)
    && sideCondition cpu r.id w

/-- The first row of a list that has the operation word. The rows are disjoint (R140), so the order plays no part. -/
def findRow (cpu : Cpu) (w : Word) : List Row → Option Row
  | []      => none
  | r :: rs => if r.fits cpu w then some r else findRow cpu w rs

/-! A parser of following words answers the part it read and the words left, or why it stopped. -/

/-- One following word. -/
def takeWord : List Word → Except DecodeStop (Word × List Word)
  | []      => .error .needsMore
  | w :: ws => .ok (w, ws)

/-- A 32-bit quantity of the instruction stream: the high word comes first (R64). -/
def takeLong (ws : List Word) : Except DecodeStop (Long × List Word) := do
  let (hi, ws) ← takeWord ws
  let (lo, ws) ← takeWord ws
  return (hi ++ lo, ws)

/-- The immediate of the operation size (R106): bits 15 to 8 of a Byte immediate's word are not looked at. -/
def takeImm (sz : Size) (ws : List Word) : Except DecodeStop (Imm × List Word) :=
  match sz with
  | .byte => do
    let (w, ws) ← takeWord ws
    return (.byte (w.extractLsb' 0 8), ws)
  | .word => do
    let (w, ws) ← takeWord ws
    return (.word w, ws)
  | .long => do
    let (v, ws) ← takeLong ws
    return (.long v, ws)

/-- A register named by a D/A bit and a number (R25). -/
def gregOf (da : Bool) (n : RegNum) : GReg := if da then .an n else .dn n

/-- The index register of an extension word (R116). -/
def indexRegOf (w : Word) : IndexReg where
  reg   := gregOf (w.getLsbD 15) (w.extractLsb' 12 3)
  long  := w.getLsbD 11
  scale := w.extractLsb' 9 2

/-- A displacement of the full format by its two-bit size (R117): 01 null, 10 word, 11 long; 00 is reserved. -/
def takeDisp (size : BitVec 2) (ws : List Word) : Except DecodeStop (Disp × List Word) :=
  match size.toNat with
  | 0 => .error .reservedField
  | 1 => .ok (.null, ws)
  | 2 => do
    let (w, ws) ← takeWord ws
    return (.word w, ws)
  | _ => do
    let (v, ws) ← takeLong ws
    return (.long v, ws)

/-- The indirection of the full format by IS and I/IS (R117): 000 none; the low two bits size the outer displacement;
bit 2 is "postindexed" and is reserved with IS = 1; 100 is reserved. -/
def takeIndirection (indexSup : Bool) (iis : BitVec 3) (ws : List Word) : Except DecodeStop (Indirection × List Word) :=
  if iis = 0 then .ok (.none, ws)
  else if iis.getLsbD 2 then
    if indexSup then .error .reservedField
    else do
      let (od, ws) ← takeDisp (iis.extractLsb' 0 2) ws
      return (.post od, ws)
  else do
    let (od, ws) ← takeDisp (iis.extractLsb' 0 2) ws
    return (.pre od, ws)

/-- Is the full extension word reserved (R117): BDSZ 00, bit 3 set, or an I/IS the table marks reserved? -/
def fullExtReserved (w : Word) : Bool :=
  w.extractLsb' 4 2 == 0 || w.getLsbD 3 || w.extractLsb' 0 3 == 4 || (w.getLsbD 6 && w.getLsbD 2)

/-- The extension of an indexed mode (R116, R117). Before MC68020 a word with bits 10 to 8 not 000 is refused; from
MC68020 on bit 8 selects the full format. -/
def takeIndexExt (cpu : Cpu) (ws : List Word) : Except DecodeStop (IndexExt × List Word) := do
  let (w, ws) ← takeWord ws
  if w.getLsbD 8 then
    if !cpu.is020 || fullExtReserved w then
      .error .reservedField
    else do
      let (bd, ws) ← takeDisp (w.extractLsb' 4 2) ws
      let (ind, ws) ← takeIndirection (w.getLsbD 6) (w.extractLsb' 0 3) ws
      return (.full (w.getLsbD 7) (w.getLsbD 6) (indexRegOf w) bd ind, ws)
  else if !cpu.is020 && w.extractLsb' 9 2 != 0 then
    .error .reservedField
  else
    return (.brief (indexRegOf w) (w.extractLsb' 0 8), ws)

/-- The effective address of a MODE and REGISTER field with its extension words (R110 to R122). A row has checked that
the field names a mode, so the last answer is never given. -/
def takeEa (cpu : Cpu) (sz : Size) (field : BitVec 6) (ws : List Word) : Except DecodeStop (Ea × List Word) :=
  let n : RegNum := field.extractLsb' 0 3
  match eaModeOf field with
  | some .dreg    => .ok (.dreg n, ws)
  | some .areg    => .ok (.areg n, ws)
  | some .ind     => .ok (.ind n, ws)
  | some .postinc => .ok (.postinc n, ws)
  | some .predec  => .ok (.predec n, ws)
  | some .disp    => do
    let (w, ws) ← takeWord ws
    return (.disp n w, ws)
  | some .index   => do
    let (x, ws) ← takeIndexExt cpu ws
    return (.index n x, ws)
  | some .absw    => do
    let (w, ws) ← takeWord ws
    return (.absw w, ws)
  | some .absl    => do
    let (v, ws) ← takeLong ws
    return (.absl v, ws)
  | some .pcdisp  => do
    let (w, ws) ← takeWord ws
    return (.pcdisp w, ws)
  | some .pcindex => do
    let (x, ws) ← takeIndexExt cpu ws
    return (.pcindex x, ws)
  | some .imm     => do
    let (v, ws) ← takeImm sz ws
    return (.imm v, ws)
  | none          => .error .reservedField

/-- The standard SIZE field (R103): 00 Byte, 01 Word, 10 Long; 11 is outside every row that uses it. -/
def sizeOf (f : BitVec 2) : Size :=
  match f.toNat with
  | 0 => .byte
  | 1 => .word
  | _ => .long

/-- The SIZE field of CAS (R103): 01 Byte, 10 Word, 11 Long. -/
def casSizeOf (f : BitVec 2) : Size :=
  match f.toNat with
  | 1 => .byte
  | 2 => .word
  | _ => .long

/-- The condition of a CONDITION field (R130); 0000 and 0001 are BRA and BSR and outside the row. -/
def condOf (f : BitVec 4) : Cond :=
  match f.toNat with
  | 2  => .hi
  | 3  => .ls
  | 4  => .cc
  | 5  => .cs
  | 6  => .ne
  | 7  => .eq
  | 8  => .vc
  | 9  => .vs
  | 10 => .pl
  | 11 => .mi
  | 12 => .ge
  | 13 => .lt
  | 14 => .gt
  | _  => .le

/-- The offset of a branch (R323): byte 00 is followed by a word, byte FF from MC68020 on by two. -/
def takeBranchOff (cpu : Cpu) (d : Byte) (ws : List Word) : Except DecodeStop (BranchOff × List Word) :=
  if d = 0 then do
    let (w, ws) ← takeWord ws
    return (.word w, ws)
  else if cpu.is020 && d == 0xFF then do
    let (v, ws) ← takeLong ws
    return (.long v, ws)
  else
    .ok (.byte d, ws)

/-- The offset and width of a bit-field word (R260); bits 10-9 or 4-3 of a register form that are not zero make the
word reserved. -/
def bfSpecOf (w : Word) : Except DecodeStop BfSpec :=
  if w.getLsbD 11 && w.extractLsb' 9 2 != 0 then .error .reservedField
  else if w.getLsbD 5 && w.extractLsb' 3 2 != 0 then .error .reservedField
  else .ok { offset := if w.getLsbD 11 then .reg (w.extractLsb' 6 3) else .imm (w.extractLsb' 6 5)
             width  := if w.getLsbD 5 then .reg (w.extractLsb' 0 3) else .imm (w.extractLsb' 0 5) }

/-- The word of a bit-field instruction and its register field (R260): bit 15 is zero, and bits 14 to 12 are too where
the instruction has no register. -/
def takeBf (hasReg : Bool) (ws : List Word) : Except DecodeStop ((BfSpec × RegNum) × List Word) := do
  let (w, ws) ← takeWord ws
  if w.getLsbD 15 || (!hasReg && w.extractLsb' 12 3 != 0) then .error .reservedField
  else do
    let p ← bfSpecOf w
    return ((p, w.extractLsb' 12 3), ws)

/-- The word of CAS (R382): Du and Dc; bits 15-9 and 5-3 are zero. -/
def takeCas (ws : List Word) : Except DecodeStop ((RegNum × RegNum) × List Word) := do
  let (w, ws) ← takeWord ws
  if w.extractLsb' 9 7 != 0 || w.extractLsb' 3 3 != 0 then .error .reservedField
  else return ((w.extractLsb' 6 3, w.extractLsb' 0 3), ws)

/-- A word of CAS2 (R383): Rn, Du and Dc; bits 11-9 and 5-3 are zero. They are checked before the word after it is asked
for (DESIGN CHOICE, notes/assumptions/51.md). -/
def takeCasPair (ws : List Word) : Except DecodeStop (CasPair × List Word) := do
  let (w, ws) ← takeWord ws
  if w.extractLsb' 9 3 != 0 || w.extractLsb' 3 3 != 0 then .error .reservedField
  else return (⟨gregOf (w.getLsbD 15) (w.extractLsb' 12 3), w.extractLsb' 6 3, w.extractLsb' 0 3⟩, ws)

/-- The word of CMP2 and CHK2 (R170, R352): Rn and bit 11, which is set in CHK2; bits 10-0 are zero. -/
def takeBounds2 (ws : List Word) : Except DecodeStop ((GReg × Bool) × List Word) := do
  let (w, ws) ← takeWord ws
  if w.extractLsb' 0 11 != 0 then .error .reservedField
  else return ((gregOf (w.getLsbD 15) (w.extractLsb' 12 3), w.getLsbD 11), ws)

/-- R/M = 0 or 1 (R164, R290). -/
def xformOf (rm : Bool) : XForm := if rm then .predec else .data

/-- The count of a register shift (R222). -/
def shiftCountOf (ir : Bool) (c : BitVec 3) : ShiftCount := if ir then .reg c else .imm c

/-- An instruction of one `<ea>` and nothing before its extension words. -/
def withEa (cpu : Cpu) (sz : Size) (w : Word) (ws : List Word) (mk : Ea → Instr) : Except DecodeStop (Instr × List Word) := do
  let (ea, ws) ← takeEa cpu sz (eaFieldOf w) ws
  return (mk ea, ws)

/-- An immediate instruction: the immediate, then the `<ea>` (R101). -/
def withImmEa (cpu : Cpu) (w : Word) (ws : List Word) (mk : Imm → Ea → Instr) : Except DecodeStop (Instr × List Word) := do
  let (v, ws) ← takeImm (sizeOf (w.extractLsb' 6 2)) ws
  let (ea, ws) ← takeEa cpu v.size (eaFieldOf w) ws
  return (mk v ea, ws)

/-- A bit instruction with an immediate bit number: the number, then the `<ea>` (R245). -/
def withBitEa (cpu : Cpu) (w : Word) (ws : List Word) (mk : Byte → Ea → Instr) : Except DecodeStop (Instr × List Word) := do
  let (n, ws) ← takeWord ws
  let (ea, ws) ← takeEa cpu .byte (eaFieldOf w) ws
  return (mk (n.extractLsb' 0 8) ea, ws)

/-- A bit-field instruction without a register field. -/
def withBfEa (cpu : Cpu) (w : Word) (ws : List Word) (mk : BfSpec → Ea → Instr) : Except DecodeStop (Instr × List Word) := do
  let (p, ws) ← takeBf false ws
  let (ea, ws) ← takeEa cpu .byte (eaFieldOf w) ws
  return (mk p.1 ea, ws)

/-- A bit-field instruction with a register field. -/
def withBfRegEa (cpu : Cpu) (w : Word) (ws : List Word) (mk : BfSpec → RegNum → Ea → Instr) : Except DecodeStop (Instr × List Word) := do
  let (p, ws) ← takeBf true ws
  let (ea, ws) ← takeEa cpu .byte (eaFieldOf w) ws
  return (mk p.1 p.2 ea, ws)

/-- The instruction of a row, from the operation word and the words after it. -/
def parseRow (cpu : Cpu) (id : RowId) (w : Word) (ws : List Word) : Except DecodeStop (Instr × List Word) :=
  let hi : RegNum := w.extractLsb' 9 3
  let lo : RegNum := w.extractLsb' 0 3
  let sz : Size := sizeOf (w.extractLsb' 6 2)
  match id with
  | .addToReg => withEa cpu sz w ws (.addToReg sz hi)
  | .addToMem => withEa cpu sz w ws (.addToMem sz hi)
  | .adda     => withEa cpu (if w.getLsbD 8 then .long else .word) w ws (.adda (w.getLsbD 8) hi)
  | .addi     => withImmEa cpu w ws .addi
  | .addq     => withEa cpu sz w ws (.addq sz hi)
  | .addx     => .ok (.addx sz (xformOf (w.getLsbD 3)) hi lo, ws)
  | .clr      => withEa cpu sz w ws (.clr sz)
  | .cmp      => withEa cpu sz w ws (.cmp sz hi)
  | .cmpa     => withEa cpu (if w.getLsbD 8 then .long else .word) w ws (.cmpa (w.getLsbD 8) hi)
  | .cmpi     => withImmEa cpu w ws .cmpi
  | .cmpm     => .ok (.cmpm sz hi lo, ws)
  | .bounds2  => do
    let (r, ws) ← takeBounds2 ws
    let size := sizeOf (w.extractLsb' 9 2)
    let (ea, ws) ← takeEa cpu size (eaFieldOf w) ws
    return (if r.2 then .chk2 size r.1 ea else .cmp2 size r.1 ea, ws)
  | .andToReg => withEa cpu sz w ws (.andToReg sz hi)
  | .andToMem => withEa cpu sz w ws (.andToMem sz hi)
  | .andi     => withImmEa cpu w ws .andi
  | .aslReg   => .ok (.aslReg sz (shiftCountOf (w.getLsbD 5) hi) lo, ws)
  | .aslMem   => withEa cpu .word w ws .aslMem
  | .asrReg   => .ok (.asrReg sz (shiftCountOf (w.getLsbD 5) hi) lo, ws)
  | .asrMem   => withEa cpu .word w ws .asrMem
  | .btstReg  => withEa cpu .byte w ws (.btstReg hi)
  | .btstImm  => withBitEa cpu w ws .btstImm
  | .bchgReg  => withEa cpu .byte w ws (.bchgReg hi)
  | .bchgImm  => withBitEa cpu w ws .bchgImm
  | .bclrReg  => withEa cpu .byte w ws (.bclrReg hi)
  | .bclrImm  => withBitEa cpu w ws .bclrImm
  | .bsetReg  => withEa cpu .byte w ws (.bsetReg hi)
  | .bsetImm  => withBitEa cpu w ws .bsetImm
  | .bftst    => withBfEa cpu w ws .bftst
  | .bfextu   => withBfRegEa cpu w ws .bfextu
  | .bfchg    => withBfEa cpu w ws .bfchg
  | .bfexts   => withBfRegEa cpu w ws .bfexts
  | .bfclr    => withBfEa cpu w ws .bfclr
  | .bfffo    => withBfRegEa cpu w ws .bfffo
  | .bfset    => withBfEa cpu w ws .bfset
  | .bfins    => withBfRegEa cpu w ws .bfins
  | .abcd     => .ok (.abcd (xformOf (w.getLsbD 3)) hi lo, ws)
  | .bcc      => do
    let (off, ws) ← takeBranchOff cpu (w.extractLsb' 0 8) ws
    return (.bcc (condOf (w.extractLsb' 8 4)) off, ws)
  | .bra      => do
    let (off, ws) ← takeBranchOff cpu (w.extractLsb' 0 8) ws
    return (.bra off, ws)
  | .bsr      => do
    let (off, ws) ← takeBranchOff cpu (w.extractLsb' 0 8) ws
    return (.bsr off, ws)
  | .andiToSr => do
    let (v, ws) ← takeWord ws
    return (.andiToSr v, ws)
  | .andiToCcr => do
    let (v, ws) ← takeWord ws
    return (.andiToCcr (v.extractLsb' 0 8), ws)
  | .bkpt     => .ok (.bkpt lo, ws)
  | .chkW     => withEa cpu .word w ws (.chkW hi)
  | .chkL     => withEa cpu .long w ws (.chkL hi)
  | .cas      => do
    let (r, ws) ← takeCas ws
    let size := casSizeOf (w.extractLsb' 9 2)
    let (ea, ws) ← takeEa cpu size (eaFieldOf w) ws
    return (.cas size r.1 r.2 ea, ws)
  | .cas2W    => do
    let (p1, ws) ← takeCasPair ws
    let (p2, ws) ← takeCasPair ws
    return (.cas2W p1 p2, ws)
  | .cas2L    => do
    let (p1, ws) ← takeCasPair ws
    let (p2, ws) ← takeCasPair ws
    return (.cas2L p1 p2, ws)
  | .cpBcc     => .ok (.cpBcc hi (w.getLsbD 6) (w.extractLsb' 0 6), ws)
  | .cpDBcc    => .ok (.cpDBcc hi lo, ws)
  | .cpGen     => .ok (.cpGen hi (eaFieldOf w), ws)
  | .cpRestore => .ok (.cpRestore hi (eaFieldOf w), ws)
  | .cpSave    => .ok (.cpSave hi (eaFieldOf w), ws)
  | .cpScc     => .ok (.cpScc hi (eaFieldOf w), ws)

/-- R388 up to the questions that need the state: line F below MC68020 and for CP-ID 0, else the described form. -/
def decodeLineF (cpu : Cpu) (w : Word) (ws : List Word) : Except DecodeStop (Instr × List Word) :=
  if !cpu.is020 || w.extractLsb' 9 3 == 0 then .error (.lineF w)
  else
    match findRow cpu w lineFRows with
    | none   => .error (.lineFOther (w.extractLsb' 9 3) w)
    | some r => parseRow cpu r.id w ws

/-- R141: the instruction at the head of the words, with the words left over. -/
def decode (cpu : Cpu) (ws : List Word) : Except DecodeStop (Instr × List Word) :=
  match ws with
  | [] => .error .needsMore
  | w :: ws =>
    if w.extractLsb' 12 4 == 15 then decodeLineF cpu w ws
    else
      match findRow cpu w rows with
      | none   => .error (.notDescribed w)
      | some r => if r.needs020 && !cpu.is020 then .error (.illegal w) else parseRow cpu r.id w ws

/-! ## The encoder -/

/-- The standard SIZE field (R103). -/
def sizeField : Size → BitVec 2
  | .byte => 0
  | .word => 1
  | .long => 2

/-- The SIZE field of CAS (R103). -/
def casSizeField : Size → BitVec 2
  | .byte => 1
  | .word => 2
  | .long => 3

/-- The MODE and REGISTER field (R110). -/
def eaField : Ea → BitVec 6
  | .dreg n    => 0b000#3 ++ n
  | .areg n    => 0b001#3 ++ n
  | .ind n     => 0b010#3 ++ n
  | .postinc n => 0b011#3 ++ n
  | .predec n  => 0b100#3 ++ n
  | .disp n _  => 0b101#3 ++ n
  | .index n _ => 0b110#3 ++ n
  | .absw _    => 0b111000#6
  | .absl _    => 0b111001#6
  | .pcdisp _  => 0b111010#6
  | .pcindex _ => 0b111011#6
  | .imm _     => 0b111100#6

/-- The two words of a long, high word first (R64). -/
def longWords (v : Long) : List Word := [v.extractLsb' 16 16, v.extractLsb' 0 16]

/-- The words of an immediate (R106); assemblers emit zeros above a Byte immediate. -/
def immWords : Imm → List Word
  | .byte v => [0#8 ++ v]
  | .word v => [v]
  | .long v => longWords v

/-- The D/A bit and the number of a register (R25). -/
def gregField : GReg → BitVec 4
  | .dn n => 0#1 ++ n
  | .an n => 1#1 ++ n

/-- The size of a displacement in the full format (R117). -/
def dispField : Disp → BitVec 2
  | .null   => 1
  | .word _ => 2
  | .long _ => 3

/-- The words of a displacement. -/
def dispWords : Disp → List Word
  | .null   => []
  | .word w => [w]
  | .long v => longWords v

/-- The I/IS field (R117). -/
def indirectionField : Indirection → BitVec 3
  | .none    => 0
  | .pre od  => 0#1 ++ dispField od
  | .post od => 1#1 ++ dispField od

/-- The outer displacement's words. -/
def indirectionWords : Indirection → List Word
  | .none    => []
  | .pre od  => dispWords od
  | .post od => dispWords od

/-- Bits 15 to 9 of an extension word (R116). -/
def indexField (x : IndexReg) : BitVec 7 := gregField x.reg ++ BitVec.ofBool x.long ++ x.scale

/-- The extension words of an indexed mode (R116, R117). -/
def indexExtWords : IndexExt → List Word
  | .brief idx d8 => [indexField idx ++ 0#1 ++ d8]
  | .full baseSup indexSup idx bd ind =>
    (indexField idx ++ 1#1 ++ BitVec.ofBool baseSup ++ BitVec.ofBool indexSup ++ dispField bd ++ 0#1
      ++ indirectionField ind) :: (dispWords bd ++ indirectionWords ind)

/-- The extension words of an effective address (R111 to R122). -/
def eaExtWords : Ea → List Word
  | .dreg _ | .areg _ | .ind _ | .postinc _ | .predec _ => []
  | .disp _ w  => [w]
  | .index _ x => indexExtWords x
  | .absw w    => [w]
  | .absl v    => longWords v
  | .pcdisp w  => [w]
  | .pcindex x => indexExtWords x
  | .imm v     => immWords v

/-- The CONDITION field (R130). -/
def condField : Cond → BitVec 4
  | .hi => 2
  | .ls => 3
  | .cc => 4
  | .cs => 5
  | .ne => 6
  | .eq => 7
  | .vc => 8
  | .vs => 9
  | .pl => 10
  | .mi => 11
  | .ge => 12
  | .lt => 13
  | .gt => 14
  | .le => 15

/-- Bits 7 to 0 of a branch's operation word (R323). -/
def branchByte : BranchOff → Byte
  | .byte d => d
  | .word _ => 0
  | .long _ => 0xFF

/-- The offset words of a branch (R323). -/
def branchWords : BranchOff → List Word
  | .byte _ => []
  | .word w => [w]
  | .long v => longWords v

/-- The i/r bit of a register shift and its NUMBER/REGISTER field (R222). -/
def shiftIr : ShiftCount → BitVec 1
  | .imm _ => 0
  | .reg _ => 1

/-- The NUMBER/REGISTER field (R222). -/
def shiftNum : ShiftCount → BitVec 3
  | .imm c => c
  | .reg n => n

/-- The D bit and the five bits of an offset or a width (R260). -/
def bfField : BfField → BitVec 6
  | .imm v => 0#1 ++ v
  | .reg n => 1#1 ++ 0#2 ++ n

/-- The word of a bit-field instruction (R260). -/
def bfWord (p : BfSpec) (dn : RegNum) : Word := 0#1 ++ dn ++ bfField p.offset ++ bfField p.width

/-- A word of CAS2 (R383). -/
def casPairWord (p : CasPair) : Word := gregField p.rn ++ 0#3 ++ p.du ++ 0#3 ++ p.dc

/-- R/M (R164, R290). -/
def xformBit : XForm → BitVec 1
  | .data   => 0
  | .predec => 1

/-- The operation word of an instruction (R102 and the Encoding line of each page). -/
def opWord : Instr → Word
  | .addToReg sz r ea => 0b1101#4 ++ r ++ 0#1 ++ sizeField sz ++ eaField ea
  | .addToMem sz r ea => 0b1101#4 ++ r ++ 1#1 ++ sizeField sz ++ eaField ea
  | .adda l a ea      => 0b1101#4 ++ a ++ BitVec.ofBool l ++ 0b11#2 ++ eaField ea
  | .addi v ea        => 0b00000110#8 ++ sizeField v.size ++ eaField ea
  | .addq sz q ea     => 0b0101#4 ++ q ++ 0#1 ++ sizeField sz ++ eaField ea
  | .addx sz f x y    => 0b1101#4 ++ x ++ 1#1 ++ sizeField sz ++ 0#2 ++ xformBit f ++ y
  | .clr sz ea        => 0b01000010#8 ++ sizeField sz ++ eaField ea
  | .cmp sz r ea      => 0b1011#4 ++ r ++ 0#1 ++ sizeField sz ++ eaField ea
  | .cmpa l a ea      => 0b1011#4 ++ a ++ BitVec.ofBool l ++ 0b11#2 ++ eaField ea
  | .cmpi v ea        => 0b00001100#8 ++ sizeField v.size ++ eaField ea
  | .cmpm sz x y      => 0b1011#4 ++ x ++ 1#1 ++ sizeField sz ++ 0b001#3 ++ y
  | .cmp2 sz _ ea     => 0b00000#5 ++ sizeField sz ++ 0b011#3 ++ eaField ea
  | .andToReg sz r ea => 0b1100#4 ++ r ++ 0#1 ++ sizeField sz ++ eaField ea
  | .andToMem sz r ea => 0b1100#4 ++ r ++ 1#1 ++ sizeField sz ++ eaField ea
  | .andi v ea        => 0b00000010#8 ++ sizeField v.size ++ eaField ea
  | .aslReg sz c r    => 0b1110#4 ++ shiftNum c ++ 1#1 ++ sizeField sz ++ shiftIr c ++ 0b00#2 ++ r
  | .aslMem ea        => 0b1110000111#10 ++ eaField ea
  | .asrReg sz c r    => 0b1110#4 ++ shiftNum c ++ 0#1 ++ sizeField sz ++ shiftIr c ++ 0b00#2 ++ r
  | .asrMem ea        => 0b1110000011#10 ++ eaField ea
  | .btstReg r ea     => 0b0000#4 ++ r ++ 0b100#3 ++ eaField ea
  | .btstImm _ ea     => 0b0000100000#10 ++ eaField ea
  | .bchgReg r ea     => 0b0000#4 ++ r ++ 0b101#3 ++ eaField ea
  | .bchgImm _ ea     => 0b0000100001#10 ++ eaField ea
  | .bclrReg r ea     => 0b0000#4 ++ r ++ 0b110#3 ++ eaField ea
  | .bclrImm _ ea     => 0b0000100010#10 ++ eaField ea
  | .bsetReg r ea     => 0b0000#4 ++ r ++ 0b111#3 ++ eaField ea
  | .bsetImm _ ea     => 0b0000100011#10 ++ eaField ea
  | .bftst _ ea       => 0b1110100011#10 ++ eaField ea
  | .bfextu _ _ ea    => 0b1110100111#10 ++ eaField ea
  | .bfchg _ ea       => 0b1110101011#10 ++ eaField ea
  | .bfexts _ _ ea    => 0b1110101111#10 ++ eaField ea
  | .bfclr _ ea       => 0b1110110011#10 ++ eaField ea
  | .bfffo _ _ ea     => 0b1110110111#10 ++ eaField ea
  | .bfset _ ea       => 0b1110111011#10 ++ eaField ea
  | .bfins _ _ ea     => 0b1110111111#10 ++ eaField ea
  | .abcd f x y       => 0b1100#4 ++ x ++ 0b10000#5 ++ xformBit f ++ y
  | .bcc c off        => 0b0110#4 ++ condField c ++ branchByte off
  | .bra off          => 0b01100000#8 ++ branchByte off
  | .bsr off          => 0b01100001#8 ++ branchByte off
  | .andiToSr _       => 0x027C#16
  | .andiToCcr _      => 0x023C#16
  | .bkpt v           => 0b0100100001001#13 ++ v
  | .chkW r ea        => 0b0100#4 ++ r ++ 0b110#3 ++ eaField ea
  | .chkL r ea        => 0b0100#4 ++ r ++ 0b100#3 ++ eaField ea
  | .chk2 sz _ ea     => 0b00000#5 ++ sizeField sz ++ 0b011#3 ++ eaField ea
  | .cas sz _ _ ea    => 0b00001#5 ++ casSizeField sz ++ 0b011#3 ++ eaField ea
  | .cas2W _ _        => 0x0CFC#16
  | .cas2L _ _        => 0x0EFC#16
  | .cpBcc id l c     => 0b1111#4 ++ id ++ 0b01#2 ++ BitVec.ofBool l ++ c
  | .cpDBcc id r      => 0b1111#4 ++ id ++ 0b001001#6 ++ r
  | .cpGen id f       => 0b1111#4 ++ id ++ 0b000#3 ++ f
  | .cpRestore id f   => 0b1111#4 ++ id ++ 0b101#3 ++ f
  | .cpSave id f      => 0b1111#4 ++ id ++ 0b100#3 ++ f
  | .cpScc id f       => 0b1111#4 ++ id ++ 0b001#3 ++ f

/-- The words of an instruction between its operation word and the extension words of its `<ea>` (R101). -/
def ownWords : Instr → List Word
  | .addi v _ | .cmpi v _ | .andi v _ => immWords v
  | .btstImm n _ | .bchgImm n _ | .bclrImm n _ | .bsetImm n _ => [0#8 ++ n]
  | .bftst p _ | .bfchg p _ | .bfclr p _ | .bfset p _ => [bfWord p 0]
  | .bfextu p dn _ | .bfexts p dn _ | .bfffo p dn _ | .bfins p dn _ => [bfWord p dn]
  | .bcc _ off | .bra off | .bsr off => branchWords off
  | .andiToSr v => [v]
  | .andiToCcr v => [0#8 ++ v]
  | .cmp2 _ rn _ => [gregField rn ++ 0#12]
  | .chk2 _ rn _ => [gregField rn ++ 1#1 ++ 0#11]
  | .cas _ du dc _ => [0#7 ++ du ++ 0#3 ++ dc]
  | .cas2W p1 p2 | .cas2L p1 p2 => [casPairWord p1, casPairWord p2]
  | .addToReg _ _ _ | .addToMem _ _ _ | .adda _ _ _ | .addq _ _ _ | .addx _ _ _ _ | .clr _ _ | .cmp _ _ _
  | .cmpa _ _ _ | .cmpm _ _ _ | .andToReg _ _ _ | .andToMem _ _ _ | .aslReg _ _ _ | .aslMem _ | .asrReg _ _ _
  | .asrMem _ | .btstReg _ _ | .bchgReg _ _ | .bclrReg _ _ | .bsetReg _ _ | .abcd _ _ _ | .bkpt _ | .chkW _ _
  | .chkL _ _ | .cpBcc _ _ _ | .cpDBcc _ _ | .cpGen _ _ | .cpRestore _ _ | .cpSave _ _ | .cpScc _ _ => []

/-- The `<ea>` of an instruction that has one among its decoded operands. -/
def instrEa : Instr → Option Ea
  | .addToReg _ _ ea | .addToMem _ _ ea | .adda _ _ ea | .addi _ ea | .addq _ _ ea | .clr _ ea | .cmp _ _ ea
  | .cmpa _ _ ea | .cmpi _ ea | .cmp2 _ _ ea | .andToReg _ _ ea | .andToMem _ _ ea | .andi _ ea | .aslMem ea
  | .asrMem ea | .btstReg _ ea | .btstImm _ ea | .bchgReg _ ea | .bchgImm _ ea | .bclrReg _ ea | .bclrImm _ ea
  | .bsetReg _ ea | .bsetImm _ ea | .bftst _ ea | .bfextu _ _ ea | .bfchg _ ea | .bfexts _ _ ea | .bfclr _ ea
  | .bfffo _ _ ea | .bfset _ ea | .bfins _ _ ea | .chkW _ ea | .chkL _ ea | .chk2 _ _ ea | .cas _ _ _ ea => some ea
  | .addx _ _ _ _ | .cmpm _ _ _ | .aslReg _ _ _ | .asrReg _ _ _ | .abcd _ _ _ | .bcc _ _ | .bra _ | .bsr _
  | .andiToSr _ | .andiToCcr _ | .bkpt _ | .cas2W _ _ | .cas2L _ _ | .cpBcc _ _ _ | .cpDBcc _ _ | .cpGen _ _
  | .cpRestore _ _ | .cpSave _ _ | .cpScc _ _ => none

/-- The words of a well-formed instruction: operation word, own words, extension words of the `<ea>` (R101). -/
def encode (i : Instr) : List Word :=
  opWord i :: (ownWords i ++ (match instrEa i with
    | some ea => eaExtWords ea
    | none    => []))

/-! ## Lengths -/

/-- How many words an immediate takes (R106). -/
def immLen (sz : Size) : Nat :=
  match sz with
  | .byte => 1
  | .word => 1
  | .long => 2

/-- How many words a displacement of the full format takes (R117). -/
def dispLen : Disp → Nat
  | .null   => 0
  | .word _ => 1
  | .long _ => 2

/-- How many words the extension of an indexed mode takes (R116, R117). -/
def indexExtLen : IndexExt → Nat
  | .brief _ _ => 1
  | .full _ _ _ bd ind => 1 + dispLen bd + (match ind with
    | .none    => 0
    | .pre od  => dispLen od
    | .post od => dispLen od)

/-- How many extension words an effective address has (R111 to R122). -/
def eaLen : Ea → Nat
  | .dreg _ | .areg _ | .ind _ | .postinc _ | .predec _ => 0
  | .disp _ _ | .absw _ | .pcdisp _ => 1
  | .absl _    => 2
  | .index _ x => indexExtLen x
  | .pcindex x => indexExtLen x
  | .imm v     => immLen v.size

/-- How many offset words a branch has (R323). -/
def branchLen : BranchOff → Nat
  | .byte _ => 0
  | .word _ => 1
  | .long _ => 2

/-! ## The host's question -/

/-- Word `k` of an instruction numbered as opcode_table.json numbers its bits: bit 0 is the least significant bit of the
first word, and a later word's bits count on from it. -/
def tableWord (nbits w k : Nat) : Word := BitVec.ofNat 16 ((w % 2 ^ nbits) >>> (16 * k))

/-- The eight words, the longest instruction, of a numbered instruction. -/
def tableWords (nbits w : Nat) : List Word :=
  [tableWord nbits w 0, tableWord nbits w 1, tableWord nbits w 2, tableWord nbits w 3,
   tableWord nbits w 4, tableWord nbits w 5, tableWord nbits w 6, tableWord nbits w 7]

/-- A word as the hardware stores it: the more significant byte at the lower address (R64). -/
def wordBytes (w : Word) : List Byte := [w.extractLsb' 8 8, w.extractLsb' 0 8]

/-- The words of stored bytes, two bytes each, the first the more significant (R64). -/
def bytesToWords : List Byte → List Word
  | hi :: lo :: bs => (hi ++ lo) :: bytesToWords bs
  | _ => []

/-- The bytes of a numbered instruction as memory holds them. -/
def tableBytes (nbits w : Nat) : List Byte := (tableWords nbits w).flatMap wordBytes

/-- The instruction the decoder reads from a numbered instruction, on the member `State.reset` is of. -/
def decodeTableWord (nbits w : Nat) : Option Instr :=
  match decode Config.default.cpu (bytesToWords (tableBytes nbits w)) with
  | .ok (i, _) => some i
  | .error _   => none

end Sys2Proof
end

