-- ==== Sys2Proof/Machine/Bits.lean ====
section
/-! DEFINITION. Values at an operation size (spec/00_scope.md rules R9 to R12; spec/10_state.md rule R21). A value of
any size is carried in 32 bits, of which the operation size's low bits count. -/

namespace Sys2Proof.Machine

/-- `v[sz-1:0]`, the other bits zero (R11). -/
def trunc (sz : Size) (v : Long) : Long :=
  match sz with
  | .byte => (v.extractLsb' 0 8).setWidth 32
  | .word => (v.extractLsb' 0 16).setWidth 32
  | .long => v

/-- `sext_32` of the low `sz` bits (R11). -/
def sext (sz : Size) (v : Long) : Long :=
  match sz with
  | .byte => (v.extractLsb' 0 8).signExtend 32
  | .word => (v.extractLsb' 0 16).signExtend 32
  | .long => v

/-- `old[sz-1:0] <- new` (R21): the low bits replaced, the others kept. -/
def mergeLow (sz : Size) (old new : Long) : Long :=
  match sz with
  | .byte => old.extractLsb' 8 24 ++ new.extractLsb' 0 8
  | .word => old.extractLsb' 16 16 ++ new.extractLsb' 0 16
  | .long => new

/-- `msb(v)` at the size (R11). -/
def msb (sz : Size) (v : Long) : Bool :=
  match sz with
  | .byte => v.getLsbD 7
  | .word => v.getLsbD 15
  | .long => v.getLsbD 31

/-- Is the value zero at the size? -/
def isZero (sz : Size) (v : Long) : Bool := trunc sz v == 0

/-- `u(v)` at the size (R11). -/
def uval (sz : Size) (v : Long) : Nat := (trunc sz v).toNat

/-- `s(v)` at the size (R11). -/
def sval (sz : Size) (v : Long) : Int := (sext sz v).toInt

/-- A byte widened to the 32-bit carrier. -/
def ofByte (b : Byte) : Long := b.setWidth 32

/-- A word widened to the 32-bit carrier. -/
def ofWord (w : Word) : Long := w.setWidth 32

/-- Byte `k` of a value, byte 0 the least significant. -/
def byteAt (v : Long) (k : Nat) : Byte := v.extractLsb' (8 * k) 8

/-- A value with one more, less significant, byte (R64). -/
def snocByte (v : Long) (b : Byte) : Long := v.extractLsb' 0 24 ++ b

/-- Is the address odd (R66, R67)? -/
def isOdd (a : Long) : Bool := a.getLsbD 0

end Sys2Proof.Machine
end

