-- ==== Sys2Proof/Machine/State.lean ====
section
/-! DEFINITION. The state of the machine, the events it can stop with, and the state after reset (spec/10_state.md;
spec/60_exceptions.md rules R421 to R427). All plain data. -/

namespace Sys2Proof.Machine

/-- The five flags of the condition code register (R28). -/
structure Ccr where
  x : Bool
  n : Bool
  z : Bool
  v : Bool
  c : Bool
deriving DecidableEq, Repr

/-- One access to a `DEVICE` region (R70, R73): its direction, address, number of bytes, and the value read or written. -/
structure DeviceEvent where
  write : Bool
  addr  : Long
  bytes : Nat
  value : Long
deriving DecidableEq, Repr

/-- What the interrupting device answers to the acknowledge cycle (R430): nothing but the level's autovector, a vector
number of its own, or a bus error, which makes the interrupt spurious. -/
inductive IrqAck where
  | auto
  | device (vector : Byte)
  | spurious
deriving DecidableEq, Repr

/-- `IRQ` at one step (R430): the level requested, 0 for none, and the answer to its acknowledge cycle. -/
structure IrqSample where
  level : BitVec 3
  ack   : IrqAck
deriving DecidableEq, Repr

/-- A coprocessor's answer to one condition (R389): `cp.cond` and `cp.k`, the number of optional extension words. -/
structure CpAnswer where
  cond : Bool
  k    : Nat
deriving DecidableEq, Repr

/-- The exceptions of R425, each with the information R425 records, and the format error of R449. Taking one is safe to
reason from: R422 lets a proof conclude that the hardware takes it. -/
inductive Exc where
  /-- CHK and CHK2 out of bounds (R351, R352): the next instruction's address and the flags written. -/
  | chk (next : Long) (flags : Ccr)
  /-- BKPT with its number (R350), or a 68020 form on an older member (R141 step 2). -/
  | illegal (w : Word) (bkpt : Option (BitVec 3))
  /-- A line F word no coprocessor takes (R388). -/
  | lineF (w : Word)
  /-- A privileged instruction in user state (R440). -/
  | privilege (w : Word)
  /-- An odd instruction address, or an odd Word or Long operand below MC68020 (R66, R67). -/
  | addressError (addr : Long) (write : Bool)
  /-- An access to an `ABSENT` byte (R70). -/
  | busError (addr : Long) (write : Bool)
  /-- An interrupt above the mask (R430), with the level and the vector number of its acknowledge cycle. -/
  | interrupt (level : BitVec 3) (vector : Byte)
  /-- An instruction at `instr` completed with a trace bit set (R452). -/
  | trace (instr : Long)
  /-- A return from exception met a frame format it does not know (R449). -/
  | formatError
deriving DecidableEq, Repr

/-- Why the machine stops with a fault. -/
inductive Fault where
  /-- R421: an exception under `TRAP_MODEL = fault`, or a terminal one (R447), with its vector number and the address of
  the instruction. Raised by any instruction and by the fetch. Safe: the hardware takes this exception here. -/
  | exception (e : Exc) (vector : Nat) (instr : Long)
  /-- R426: a read of a memory byte nothing has written, reported as R421 reports an exception, with no vector: the
  address of the byte and that of the instruction. Raised by data reads, fetches and the reads of exception processing.
  Safe: the hardware would read whatever the cell holds, and the model claims nothing. -/
  | unwrittenRead (addr instr : Long)
  /-- R446: a bus or address error while an exception is being taken. Raised by exception entry alone. Safe: the hardware
  halts. -/
  | doubleBusFault (e : Exc)
deriving DecidableEq, Repr

/-- Why the machine refuses: the reasons of R427, and two of the model's own. Every refusal is safe: nothing may be
concluded from it (R422). -/
inductive Refusal where
  /-- An instruction without a meaning yet. Raised by the arms of `exec` that have none. -/
  | notModelled (mnemonic : String)
  /-- The operation word is none of the described instructions (R141 step 4, R388). Raised by decoding. -/
  | notDescribed (w : Word)
  /-- A following word holds a reserved field (R117, R141 step 1). Raised by decoding and by the coprocessor forms. -/
  | reservedField
  /-- A coprocessor instruction to a present coprocessor whose answer is not known, with the id and the instruction
  (R388, R389). Raised by the cp forms. -/
  | coprocessorOpaque (id : BitVec 3) (instr : Instr)
  /-- A write into `TEXT` (R85). Raised by any store. -/
  | storeToText (addr : Long)
  /-- A fetch at an even address outside `TEXT` (R481). Raised by the fetch. -/
  | fetchOutsideText (addr : Long)
  /-- An access whose bytes run past the last address (R61). Raised by any data access. -/
  | addressWrap (addr : Long)
  /-- CALLM, whose page has no format (R380). Raised by name only, never by decoding. -/
  | callmStub
  /-- The model's own: an instruction term that stands for no encoding, such as a store to an immediate operand. Never
  raised on a decoded instruction. -/
  | illFormed
deriving DecidableEq, Repr

/-- How a part of an instruction stops (R15): an exception, a read of the unwritten byte at an address (R426), or a
refusal. The end of the instruction adds its address to the record. -/
inductive Stop where
  | raise (e : Exc)
  | unwritten (addr : Long)
  | refuse (r : Refusal)
deriving DecidableEq, Repr

/-- The machine's state (R37, and every further register R24, R33 name). Each field is an element of INVENTORY.md's
State list. -/
structure State where
  /-- D0 to D7 (R20). -/
  d         : Vector Long 8
  /-- A0 to A6 (R22); A7 names one of the three stack pointers (R24). -/
  a         : Vector Long 7
  /-- User stack pointer (R24). -/
  usp       : Long
  /-- Interrupt stack pointer; the one supervisor stack pointer below MC68020 (R24). -/
  isp       : Long
  /-- Master stack pointer (R24). -/
  msp       : Long
  /-- Program counter (R26). -/
  pc        : Long
  /-- The system byte, bits 15 to 8 of the status register (R31, R32). -/
  sys       : Byte
  /-- The condition codes, bits 4 to 0 of the status register (R28); bits 7 to 5 read as zero and are held nowhere. -/
  ccr       : Ccr
  /-- Vector base register (R33). -/
  vbr       : Long
  /-- Cache control register (R33). -/
  cacr      : Long
  /-- Cache address register (R33). -/
  caar      : Long
  /-- Source function code (R33). -/
  sfc       : BitVec 3
  /-- Destination function code (R33). -/
  dfc       : BitVec 3
  /-- Memory (R60, R85): the bytes that hold a value, addresses strictly rising. -/
  mem       : List Host.Cell
  /-- The accesses made to `DEVICE` regions, latest first (R70, R73). -/
  deviceLog : List DeviceEvent
  /-- The MODEL's own field: how many free values have been used (R15). -/
  draws     : Nat
  /-- `IRQ` for the steps to come (R430): one sample a step; none left means level 0. -/
  irq       : List IrqSample
  /-- The level of the last sample: level 7 is taken on its rise (R430). Before the first sample it is 0 (DESIGN CHOICE,
  notes/assumptions/20.md). -/
  irqLast   : BitVec 3
  /-- The coprocessors' answers to the conditions to come (R389). -/
  cpAnswers : List CpAnswer
  /-- The parameters (R8); no step changes them. -/
  config    : Config
deriving DecidableEq, Repr

/-- Right after reset (R45, R471): supervisor state, interrupt mask 7, tracing and M off, VBR and the cache enables
clear (PRESUMED, notes/assumptions/3.md and 4.md); every register without a reset value zero (DESIGN CHOICE,
notes/assumptions/2.md); memory with nothing listed; the parameters at their defaults (R8). No level came before the
first sample of a run, and `irqLast` is 0, so that a first request of level 7 counts as rising (DESIGN CHOICE,
notes/assumptions/20.md). -/
def State.reset : State where
  d         := #v[0, 0, 0, 0, 0, 0, 0, 0]
  a         := #v[0, 0, 0, 0, 0, 0, 0]
  usp       := 0
  isp       := 0
  msp       := 0
  pc        := 0
  sys       := 0x27
  ccr       := ⟨false, false, false, false, false⟩
  vbr       := 0
  cacr      := 0
  caar      := 0
  sfc       := 0
  dfc       := 0
  mem       := []
  deviceLog := []
  draws     := 0
  irq       := []
  irqLast   := 0
  cpAnswers := []
  config    := Config.default

end Sys2Proof.Machine
end

