-- ==== Sys2Proof/Machine/Ops.lean ====
section
/-! DEFINITION. The named operations over registers and memory, and taking and leaving an exception
(spec/10_state.md; spec/20_memory.md; spec/60_exceptions.md). Every read and write of the state goes through these.
An operation that can stop answers `Except Stop`; one that reads memory also answers the state after the read, since a
`DEVICE` read changes it. -/

namespace Sys2Proof.Machine

/-! ## Status register -/

/-- The implemented bits of the system byte (R32). -/
def sysImplemented (cpu : Cpu) : Byte := if cpu.is020 then 0xF7 else 0xA7

/-- The condition code register as a byte: bits 7 to 5 read as zero (R28). -/
def ccrByte (f : Ccr) : Byte :=
  0#3 ++ BitVec.ofBool f.x ++ BitVec.ofBool f.n ++ BitVec.ofBool f.z ++ BitVec.ofBool f.v ++ BitVec.ofBool f.c

/-- The five flags of a condition code byte (R28). -/
def ccrOf (b : Byte) : Ccr where
  x := b.getLsbD 4
  n := b.getLsbD 3
  z := b.getLsbD 2
  v := b.getLsbD 1
  c := b.getLsbD 0

/-- The status register (R31): the system byte over the condition codes. -/
def State.sr (s : State) : BitVec 16 := s.sys ++ ccrByte s.ccr

/-- Write the flags (R28). -/
def State.setCcr (s : State) (f : Ccr) : State := { s with ccr := f }

/-- Write the system byte (R32). -/
def State.setSys (s : State) (v : Byte) : State := { s with sys := v }

/-- Write the whole status register (R31): bits 7 to 5 ignore the write (R28). -/
def State.setSr (s : State) (v : BitVec 16) : State :=
  (s.setSys (v.extractLsb' 8 8)).setCcr (ccrOf (v.extractLsb' 0 8))

/-- The flags with those cleared whose bit of a byte is zero (R342, R370). -/
def Ccr.and (f : Ccr) (b : Byte) : Ccr where
  x := f.x && b.getLsbD 4
  n := f.n && b.getLsbD 3
  z := f.z && b.getLsbD 2
  v := f.v && b.getLsbD 1
  c := f.c && b.getLsbD 0

/-- S: supervisor state (R32, R440). -/
def State.supervisor (s : State) : Bool := s.sys.getLsbD 5

/-- T1: trace every instruction (R32, R452). -/
def State.traceAll (s : State) : Bool := s.sys.getLsbD 7

/-- T0: trace on change of flow, from MC68020 on (R32, R452). -/
def State.traceFlow (s : State) : Bool := s.config.cpu.is020 && s.sys.getLsbD 6

/-- M: the master stack is the supervisor stack, from MC68020 on (R24, R32). -/
def State.master (s : State) : Bool := s.config.cpu.is020 && s.sys.getLsbD 4

/-- The interrupt mask I2..I0 (R32). -/
def State.irqMask (s : State) : BitVec 3 := s.sys.extractLsb' 0 3

/-! ## Registers -/

/-- Read `D[n]` (R13, R20). -/
def State.getD (s : State) (n : RegNum) : Long := s.d[n.toNat]

/-- Write `D[n]` (R13, R20). -/
def State.setD (s : State) (n : RegNum) (v : Long) : State := { s with d := s.d.set n.toNat v }

/-- `D[n][sz-1:0] <- v` (R21). -/
def State.setDLow (s : State) (sz : Size) (n : RegNum) (v : Long) : State := s.setD n (mergeLow sz (s.getD n) v)

/-- The stack pointer A7 names (R24). -/
def State.sp (s : State) : Long :=
  if s.supervisor then (if s.master then s.msp else s.isp) else s.usp

/-- Write the stack pointer A7 names (R24). -/
def State.setSp (s : State) (v : Long) : State :=
  if s.supervisor then (if s.master then { s with msp := v } else { s with isp := v }) else { s with usp := v }

/-- Read `A[n]` (R13, R22, R24). -/
def State.getA (s : State) (n : RegNum) : Long :=
  if h : n.toNat < 7 then s.a[n.toNat] else s.sp

/-- Write `A[n]`, always whole (R13, R22, R24). -/
def State.setA (s : State) (n : RegNum) (v : Long) : State :=
  if h : n.toNat < 7 then { s with a := s.a.set n.toNat v } else s.setSp v

/-- `R(da, n)` (R25). -/
def State.getR (s : State) : GReg → Long
  | .dn n => s.getD n
  | .an n => s.getA n

/-- Write the program counter. -/
def State.setPc (s : State) (v : Long) : State := { s with pc := v }

/-- The address `k` words after the operation word (R27, R100). -/
def State.pcPlus (s : State) (k : Nat) : Long := s.pc + BitVec.ofNat 32 (2 * k)

/-- `pc <- address of the next instruction` for one of `k` words (R27). -/
def State.advance (s : State) (k : Nat) : State := s.setPc (s.pcPlus k)

/-! ## Free values -/

/-- `draw(N)` (R15): a fresh free value of which a use of width N takes the low N bits. Free value:
notes/assumptions/24.md. -/
def draw (s : State) : Long × State := (Config.draw s.draws, { s with draws := s.draws + 1 })

/-- `draw(1)` (R15). -/
def drawBit (s : State) : Bool × State := ((draw s).1.getLsbD 0, (draw s).2)

/-! ## Memory -/

/-- The byte listed at an address. -/
def lookup : List Host.Cell → Nat → Option Byte
  | [], _ => none
  | (k, b) :: m, p => if k = p then some b else lookup m p

/-- The list with a byte written, its addresses still strictly rising. -/
def store : List Host.Cell → Nat → Byte → List Host.Cell
  | [], p, b => [(p, b)]
  | (k, c) :: m, p, b =>
    if p < k then (p, b) :: (k, c) :: m
    else if p = k then (p, b) :: m
    else (k, c) :: store m p b

/-- Addresses strictly rising from `lo` and below 2^32. An unlisted byte reads as nothing, so every entry differs from
what an unlisted address reads as. -/
def wfFrom : Nat → List Host.Cell → Bool
  | _, [] => true
  | lo, (k, _) :: m => decide (lo ≤ k) && decide (k < 2 ^ 32) && wfFrom (k + 1) m

/-- The canonical form of memory. -/
def Memory.wf (m : List Host.Cell) : Bool := wfFrom 0 m

/-- The address that reaches memory (R61). -/
def State.physical (s : State) (a : Long) : Nat := a.toNat % 2 ^ s.config.addrBits

/-- Is the byte part of the program (R85)? -/
def State.inText (s : State) (a : Long) : Bool :=
  s.config.text.any fun r => decide (r.base ≤ s.physical a) && decide (s.physical a < r.base + r.len)

/-- The kind a list of regions gives an address (R70): the first entry that holds it decides, else `ram`. -/
def kindIn : List Region → Nat → RegionKind
  | [], _ => .ram
  | r :: rs, p => if r.base ≤ p ∧ p < r.base + r.len then r.kind else kindIn rs p

/-- The kind of a byte address (R70). The program's bytes are memory whatever the regions say. -/
def State.kindAt (s : State) (a : Long) : RegionKind :=
  if s.inText a then .ram else kindIn s.config.regions (s.physical a)

/-- One byte of memory as the list holds it: nothing where no value was written (R38). -/
def State.peek (s : State) (a : Long) : Option Byte := lookup s.mem (s.physical a)

/-- Put one byte into the list. -/
def State.poke (s : State) (a : Long) (b : Byte) : State := { s with mem := store s.mem (s.physical a) b }

/-- Do the `n` bytes from `a` all exist (R70)? The first that is `ABSENT` is the bus error's address. -/
def checkPresent (s : State) (write : Bool) : Nat → Long → Except Stop Unit
  | 0, _ => .ok ()
  | n + 1, a =>
    match s.kindAt a with
    | .absent => .error (.raise (.busError a write))
    | .ram | .device => checkPresent s write n (a + 1)

/-- Are the `n` bytes from `a` all outside `TEXT` (R85)? -/
def checkNotText (s : State) : Nat → Long → Except Stop Unit
  | 0, _ => .ok ()
  | n + 1, a => if s.inText a then .error (.refuse (.storeToText a)) else checkNotText s n (a + 1)

/-- Is one of the `n` bytes from `a` in a `DEVICE` region? -/
def touchesDevice (s : State) : Nat → Long → Bool
  | 0, _ => false
  | n + 1, a => s.kindAt a == .device || touchesDevice s n (a + 1)

/-- The value of one present byte: a fresh free value in a `DEVICE` region, the byte written in memory (R68, R70). -/
def loadByte (s : State) (a : Long) : Except Stop (Byte × State) :=
  if s.kindAt a = .device then .ok ((draw s).1.extractLsb' 0 8, (draw s).2)
  else
    match s.peek a with
    | some b => .ok (b, s)
    | none   => .error (.unwritten a)

/-- `n` bytes from `a` in ascending order, the first the most significant (R64), after the value `acc`. -/
def loadBytes : Nat → Long → Long → State → Except Stop (Long × State)
  | 0, _, acc, s => .ok (acc, s)
  | n + 1, a, acc, s => do
    let (b, s) ← loadByte s a
    loadBytes n (a + 1) (snocByte acc b) s

/-- Record an access that touched a `DEVICE` region (R70, R73). -/
def State.logAccess (s : State) (write : Bool) (n : Nat) (a v : Long) : State :=
  if touchesDevice s n a then { s with deviceLog := ⟨write, a, n, v⟩ :: s.deviceLog } else s

/-- One read access of `n` bytes. -/
def readAccess (n : Nat) (a : Long) (s : State) : Except Stop (Long × State) := do
  checkPresent s false n a
  let (v, s) ← loadBytes n a 0 s
  return (v, s.logAccess false n a v)

/-- `n` byte accesses in ascending order (R67), after the value `acc`. -/
def readEach : Nat → Long → Long → State → Except Stop (Long × State)
  | 0, _, acc, s => .ok (acc, s)
  | n + 1, a, acc, s => do
    let (v, s) ← readAccess 1 a s
    readEach n (a + 1) (snocByte acc (v.extractLsb' 0 8)) s

/-- Write one byte: only memory keeps it (R70). -/
def storeByte (s : State) (a : Long) (b : Byte) : State := if s.kindAt a = .device then s else s.poke a b

/-- Write the low `n` bytes of a value from `a` on, the most significant first (R64). -/
def storeBytes : Nat → Long → Long → State → State
  | 0, _, _, s => s
  | n + 1, a, v, s => storeBytes n (a + 1) v (storeByte s a (byteAt v n))

/-- One write access of `n` bytes: nothing is written unless all of them may be (R68, R85). -/
def writeAccess (n : Nat) (a v : Long) (s : State) : Except Stop State := do
  checkPresent s true n a
  checkNotText s n a
  return (storeBytes n a v s).logAccess true n a v

/-- `n` byte accesses in ascending order (R67). -/
def writeEach : Nat → Long → Long → State → Except Stop State
  | 0, _, _, s => .ok s
  | n + 1, a, v, s => do
    let s ← writeAccess 1 a (ofByte (byteAt v n)) s
    writeEach n (a + 1) v s

/-- Does a Word or Long data access at an odd address fault on this machine (R67, `MISALIGN` of R8)? -/
def State.faultsMisaligned (s : State) : Bool :=
  match s.config.misalign with
  | .byCpu    => !s.config.cpu.is020
  | .fault    => true
  | .bytewise => false

/-- Is the access a Word or Long at an odd address (R67)? -/
def misaligned (sz : Size) (a : Long) : Bool := sz != .byte && isOdd a

/-- Do the bytes run past the top of the address space (R61)? -/
def wraps (sz : Size) (a : Long) : Bool := decide (a.toNat + sz.bytes > 2 ^ 32)

/-- `MemRead(a, n)` (R14, R61, R64, R67, R68). -/
def memRead (s : State) (sz : Size) (a : Long) : Except Stop (Long × State) :=
  if misaligned sz a && s.faultsMisaligned then .error (.raise (.addressError a false))
  else if wraps sz a then .error (.refuse (.addressWrap a))
  else if misaligned sz a then readEach sz.bytes a 0 s
  else readAccess sz.bytes a s

/-- `MemWrite(a, n, v)` (R14, R61, R64, R67, R68). -/
def memWrite (s : State) (sz : Size) (a v : Long) : Except Stop State :=
  if misaligned sz a && s.faultsMisaligned then .error (.raise (.addressError a true))
  else if wraps sz a then .error (.refuse (.addressWrap a))
  else if misaligned sz a then writeEach sz.bytes a v s
  else writeAccess sz.bytes a (trunc sz v) s

/-- A push of a size: predecrement, then the write (R23, R322). -/
def push (s : State) (sz : Size) (v : Long) : Except Stop State :=
  memWrite (s.setSp (s.sp - BitVec.ofNat 32 sz.bytes)) sz (s.sp - BitVec.ofNat 32 sz.bytes) v

/-! ## Instruction fetch -/

/-- A byte of the program as a fetch sees it. -/
def fetchByte (s : State) (a : Long) : Except Stop Byte :=
  match s.peek a with
  | some b => .ok b
  | none   => .error (.unwritten a)

/-- `Fetch16(a)` (R14, R66, R85, R481). -/
def fetch16 (s : State) (a : Long) : Except Stop Word :=
  if isOdd a then .error (.raise (.addressError a false))
  else if !(s.inText a && s.inText (a + 1)) then .error (.refuse (.fetchOutsideText a))
  else do
    let hi ← fetchByte s a
    let lo ← fetchByte s (a + 1)
    return hi ++ lo

/-! ## Taking an exception -/

/-- The vector number of an exception (R425, R448). -/
def Exc.vector : Exc → Nat
  | .chk _ _          => 6
  | .illegal _ _      => 4
  | .lineF _          => 11
  | .privilege _      => 8
  | .addressError _ _ => 3
  | .busError _ _     => 2
  | .interrupt _ v    => v.toNat
  | .trace _          => 9
  | .formatError      => 14

/-- The vector number an acknowledge cycle gives (R430, R448). -/
def IrqAck.vector (ack : IrqAck) (level : BitVec 3) : Byte :=
  match ack with
  | .auto     => 24 + level.setWidth 8
  | .device v => v
  | .spurious => 24

/-- Address and bus errors end the run whatever `TRAP_MODEL` is (R447). -/
def Exc.terminal : Exc → Bool
  | .addressError _ _ | .busError _ _ => true
  | .chk _ _ | .illegal _ _ | .lineF _ | .privilege _ | .interrupt _ _ | .trace _ | .formatError => false

/-- The address of the instruction an exception belongs to (R421, R447), in the state it is raised in. -/
def Exc.instrAddr (s : State) : Exc → Long
  | .trace a => a
  | .chk _ _ | .illegal _ _ | .lineF _ | .privilege _ | .addressError _ _ | .busError _ _ | .interrupt _ _
  | .formatError => s.pc

/-- The PC a frame holds (R447): the next instruction's for CHK, CHK2, trace and interrupts, else the instruction's. The
format error is in no row of R447's table: that it stacks the address of the returning instruction is the model's choice
(DESIGN CHOICE, notes/assumptions/46.md). -/
def Exc.stackedPc (s : State) : Exc → Long
  | .chk next _ => next
  | .illegal _ _ | .lineF _ | .privilege _ | .addressError _ _ | .busError _ _ | .interrupt _ _ | .trace _
  | .formatError => s.pc

/-- The frames of R447 that an exception in scope pushes. -/
inductive FrameKind where
  /-- SR and PC, no format word: MC68000 and MC68HC000. -/
  | threeWord
  /-- Format $0. -/
  | fourWord
  /-- Format $2: the address of the instruction in addition. -/
  | sixWord
deriving DecidableEq, Repr

/-- Which frame a member pushes for an exception (R447). -/
def frameKind (cpu : Cpu) (e : Exc) : FrameKind :=
  match cpu with
  | .mc68000 | .mc68hc000 => .threeWord
  | .mc68010 => .fourWord
  | .mc68020 | .mc68030 =>
    match e with
    | .chk _ _ | .trace _ => .sixWord
    | .illegal _ _ | .lineF _ | .privilege _ | .addressError _ _ | .busError _ _ | .interrupt _ _ | .formatError =>
      .fourWord

/-- The format and vector offset word (R447): bits 15-12 the format, bits 11-0 four times the vector number. -/
def formatWord (format : BitVec 4) (vector : Nat) : Long := ofWord (format ++ BitVec.ofNat 12 (4 * vector))

/-- Push SR, PC and, where the frame has one, the format word: the lowest address last (R447). -/
def pushFour (s : State) (sr : BitVec 16) (pc : Long) (format : BitVec 4) (vector : Nat) : Except Stop State := do
  let s ← push s .word (formatWord format vector)
  let s ← push s .long pc
  push s .word (ofWord sr)

/-- Push an exception's frame (R447). -/
def pushFrame (s : State) (kind : FrameKind) (sr : BitVec 16) (pc instr : Long) (vector : Nat) : Except Stop State :=
  match kind with
  | .threeWord => do
    let s ← push s .long pc
    push s .word (ofWord sr)
  | .fourWord => pushFour s sr pc 0 vector
  | .sixWord => do
    let s ← push s .long instr
    pushFour s sr pc 2 vector

/-- The system byte on entry (R446): S set, T1 and T0 clear. -/
def sysOnEntry (sys : Byte) : Byte := (sys &&& 0x3F) ||| 0x20

/-- The system byte with the interrupt mask replaced (R446). -/
def sysWithMask (sys : Byte) (level : BitVec 3) : Byte := sys.extractLsb' 3 5 ++ level

/-- The system byte with M clear (R446). -/
def sysWithoutM (sys : Byte) : Byte := sys &&& 0xEF

/-- The system byte during the entry for an exception: an interrupt raises the mask to its level (R446). -/
def sysForEntry (e : Exc) (sys : Byte) : Byte :=
  match e with
  | .interrupt level _ => sysWithMask (sysOnEntry sys) level
  | .chk _ _ | .illegal _ _ | .lineF _ | .privilege _ | .addressError _ _ | .busError _ _ | .trace _ | .formatError =>
    sysOnEntry sys

/-- Where the vector table begins: MC68000 and MC68HC000 have no VBR (R76, R446). -/
def State.vectorBase (s : State) : Long :=
  match s.config.cpu with
  | .mc68000 | .mc68hc000 => 0
  | .mc68010 | .mc68020 | .mc68030 => s.vbr

/-- Is a throwaway frame pushed after the first: an interrupt while M is set (R446)? -/
def throwsAway (e : Exc) (s : State) : Bool :=
  match e with
  | .interrupt _ _ => s.master
  | .chk _ _ | .illegal _ _ | .lineF _ | .privilege _ | .addressError _ _ | .busError _ _ | .trace _ | .formatError =>
    false

/-- The entry of R446 in its order: the copy of SR, the new SR, the frame, the throwaway frame, the vector, the pc. -/
def enterHandler (e : Exc) (s : State) : Except Stop State := do
  let s1 := s.setSys (sysForEntry e s.sys)
  let s2 ← pushFrame s1 (frameKind s.config.cpu e) s.sr (e.stackedPc s) (e.instrAddr s) e.vector
  let s3 ←
    if throwsAway e s2 then pushFour (s2.setSys (sysWithoutM s2.sys)) s.sr (e.stackedPc s) 1 e.vector
    else .ok s2
  let (handler, s4) ← memRead s3 .long (s3.vectorBase + BitVec.ofNat 32 (4 * e.vector))
  return s4.setPc handler

/-- What a failure inside exception processing for the instruction at `instr` is: a bus or address error is a double bus
fault (R446), an unwritten byte is recorded with the instruction (R426). -/
def entryFailure (instr : Long) : Stop → Host.Outcome State Fault Refusal
  | .raise e     => .fault (.doubleBusFault e)
  | .unwritten a => .fault (.unwrittenRead a instr)
  | .refuse r    => .refused r

/-- TAKING AN EXCEPTION: under `TRAP_MODEL = fault`, and for a terminal one, the recorded fault of R421; under `frame`
the entry of R446. `s` is the state the exception finds, its pc still at the instruction. -/
def takeException (e : Exc) (s : State) : Host.Outcome State Fault Refusal :=
  if s.config.trapModel = .fault || e.terminal then .fault (.exception e e.vector (e.instrAddr s))
  else
    match enterHandler e s with
    | .ok t       => .next t
    | .error stop => entryFailure (e.instrAddr s) stop

/-- The outcome of an instruction that began in `s` and completed or stopped; a stop leaves that state (R424), and a read
of an unwritten byte is recorded with the instruction's address (R421, R426). -/
def finish (s : State) (r : Except Stop State) : Host.Outcome State Fault Refusal :=
  match r with
  | .ok t                 => .next t
  | .error (.raise e)     => takeException e s
  | .error (.unwritten a) => .fault (.unwrittenRead a s.pc)
  | .error (.refuse why)  => .refused why

/-- The privilege test of R440; `w` is the operation word the record holds. -/
def privilegedCheck (s : State) (w : Word) : Except Stop Unit :=
  if s.supervisor then .ok () else .error (.raise (.privilege w))

/-! ## Return from exception -/

/-- Drop `n` bytes from the active stack, restore SR and then the PC (R449). -/
def restore (s : State) (n : Nat) (sr pc : Long) : State :=
  (((s.setSp (s.sp + BitVec.ofNat 32 n)).setSys (sr.extractLsb' 8 8 &&& sysImplemented s.config.cpu)).setCcr
    (ccrOf (sr.extractLsb' 0 8))).setPc pc

/-- The SR, the PC and the format of the frame at A7 (R447). -/
def readFrame (s : State) : Except Stop ((Long × Long × BitVec 4) × State) := do
  let (sr, s) ← memRead s .word s.sp
  let (pc, s) ← memRead s .long (s.sp + 2)
  let (fw, s) ← memRead s .word (s.sp + 6)
  return ((sr, pc, fw.extractLsb' 12 4), s)

/-- How many bytes a frame format that is no throwaway frame has (R447): 4, 6, 10, 16 and 46 words from MC68020 on, 4
and 29 below; nothing for a format the member does not know, among which MC68010 has the throwaway format $1 (DESIGN
CHOICE, notes/assumptions/41.md). -/
def frameBytes (is020 : Bool) (format : BitVec 4) : Option Nat :=
  match is020, format.toNat with
  | _, 0      => some 8
  | false, 8  => some 58
  | true, 2   => some 12
  | true, 9   => some 20
  | true, 10  => some 32
  | true, 11  => some 92
  | _, _      => none

/-- Unstack a frame that is no throwaway frame (R447, R449): SR and PC are restored and the frame is removed whole; a
format the member does not know raises the format error. -/
def unstackPlain (f : Long × Long × BitVec 4) (s : State) : Except Stop State :=
  match frameBytes s.config.cpu.is020 f.2.2 with
  | some n => .ok (restore s n f.1 f.2.1)
  | none   => .error (.raise .formatError)

/-- The master stack made the active one (R449): S and M set. -/
def State.toMasterStack (s : State) : State := s.setSys (s.sys ||| 0x30)

/-- Unstack the frame at A7 (R449). A throwaway frame (format $1) gives SR alone: it is dropped and the next frame is
unstacked from the master stack, whose SR then counts. On MC68010, which has no master stack, format $1 raises the
format error (DESIGN CHOICE, notes/assumptions/41.md). -/
def unstack (s : State) : Except Stop State :=
  match s.config.cpu with
  | .mc68000 | .mc68hc000 => do
    let (sr, s) ← memRead s .word s.sp
    let (pc, s) ← memRead s .long (s.sp + 2)
    return restore s 6 sr pc
  | .mc68010 | .mc68020 | .mc68030 => do
    let (f, s) ← readFrame s
    if s.config.cpu.is020 && f.2.2 == 1 then
      let (g, s) ← readFrame (restore s 8 f.1 f.2.1).toMasterStack
      unstackPlain g s
    else unstackPlain f s

/-- RETURNING FROM AN EXCEPTION, the operation of RTE (R449): privileged; `w` is RTE's operation word. The instruction
itself has no page and no encoding (R355), so no word decodes to it. -/
def returnFromException (w : Word) (s : State) : Host.Outcome State Fault Refusal :=
  finish s (do
    privilegedCheck s w
    unstack s)

end Sys2Proof.Machine
end

