-- ==== Sys2Proof/Machine/Flags.lean ====
section
/-! DEFINITION. Every flag computation of the spec (spec/00_scope.md rule R12; spec/40_arithmetic.md rules R171, R172;
spec/41_logic.md rule R202; spec/30_encoding.md rule R130; spec/44_bit_field.md rule R270), on exact integers. -/

namespace Sys2Proof.Machine

/-- A carry-in of 0 or 1. -/
def bit (b : Bool) : Nat := if b then 1 else 0

/-- `add_carry` (R12). -/
def addCarry (sz : Size) (a b : Long) (c : Bool) : Bool :=
  decide (uval sz a + uval sz b + bit c ≥ 2 ^ sz.bits)

/-- Is an exact result outside the signed numbers of the size (R12)? -/
def outsideSigned (sz : Size) (r : Int) : Bool :=
  decide (r < -(2 ^ (sz.bits - 1))) || decide (r > 2 ^ (sz.bits - 1) - 1)

/-- `add_ovf` (R12). -/
def addOvf (sz : Size) (a b : Long) (c : Bool) : Bool := outsideSigned sz (sval sz a + sval sz b + bit c)

/-- `sub_borrow` without a borrow-in (R12). -/
def subBorrow (sz : Size) (d s : Long) : Bool := decide (uval sz d < uval sz s)

/-- `sub_ovf` without a borrow-in (R12). -/
def subOvf (sz : Size) (d s : Long) : Bool := outsideSigned sz (sval sz d - sval sz s)

/-- The sum with a carry-in, modulo the size. -/
def addValue (sz : Size) (src dst : Long) (c : Bool) : Long := trunc sz (src + dst + BitVec.ofNat 32 (bit c))

/-- `add_flags` (R171). -/
def addFlags (sz : Size) (src dst : Long) : Ccr where
  x := addCarry sz src dst false
  n := msb sz (addValue sz src dst false)
  z := isZero sz (addValue sz src dst false)
  v := addOvf sz src dst false
  c := addCarry sz src dst false

/-- The flags of ADDX (R164): Z is only ever cleared. -/
def addxFlags (sz : Size) (src dst : Long) (old : Ccr) : Ccr where
  x := addCarry sz src dst old.x
  n := msb sz (addValue sz src dst old.x)
  z := isZero sz (addValue sz src dst old.x) && old.z
  v := addOvf sz src dst old.x
  c := addCarry sz src dst old.x

/-- `dst - src` modulo the size. -/
def subValue (sz : Size) (src dst : Long) : Long := trunc sz (dst - src)

/-- `cmp_flags` (R171): X is kept. -/
def cmpFlags (sz : Size) (src dst : Long) (old : Ccr) : Ccr where
  x := old.x
  n := msb sz (subValue sz src dst)
  z := isZero sz (subValue sz src dst)
  v := subOvf sz dst src
  c := subBorrow sz dst src

/-- `logic_flags` (R202): X is kept, V and C cleared. -/
def logicFlags (sz : Size) (res : Long) (old : Ccr) : Ccr where
  x := old.x
  n := msb sz res
  z := isZero sz res
  v := false
  c := false

/-- The flags of CLR (R165). -/
def clrFlags (old : Ccr) : Ccr where
  x := old.x
  n := false
  z := true
  v := false
  c := false

/-- `cond(cccc)` (R130). -/
def condHolds (c : Cond) (f : Ccr) : Bool :=
  match c with
  | .hi => !(f.c || f.z)
  | .ls => f.c || f.z
  | .cc => !f.c
  | .cs => f.c
  | .ne => !f.z
  | .eq => f.z
  | .vc => !f.v
  | .vs => f.v
  | .pl => !f.n
  | .mi => f.n
  | .ge => !(f.n ^^ f.v)
  | .lt => f.n ^^ f.v
  | .gt => !(f.z || (f.n ^^ f.v))
  | .le => f.z || (f.n ^^ f.v)

/-- `out_of_bounds` (R172) for values of a size: none where the bounds are in neither order. -/
def outOfBounds (sz : Size) (r lo hi : Long) : Option Bool :=
  if sval sz lo ≤ sval sz hi then some (decide (sval sz r < sval sz lo) || decide (sval sz r > sval sz hi))
  else if uval sz lo ≤ uval sz hi then some (decide (uval sz r < uval sz lo) || decide (uval sz r > uval sz hi))
  else none

end Sys2Proof.Machine
end

