-- ==== Sys2Proof/Machine/Operands.lean ====
section
/-! DEFINITION. Every operand form of the spec (spec/30_encoding.md rules R106 to R124): the address an effective
address computes with its register side effects, reading and writing the operand, and the shapes instructions share:
read an operand, change an operand in place. `own` counts the words of an instruction before the extension words of its
`<ea>`, the operation word included. -/

namespace Sys2Proof.Machine

/-- The value of an immediate in the 32-bit carrier (R106). -/
def immVal : Imm → Long
  | .byte v => v.setWidth 32
  | .word v => v.setWidth 32
  | .long v => v

/-- The value of a displacement: sign-extended, nothing for an absent one (R117). -/
def dispVal : Disp → Long
  | .null   => 0
  | .word w => w.signExtend 32
  | .long v => v

/-- `inc` and `dec` of R113 and R114: the size in bytes, 2 for a Byte through A7 (R69). -/
def stepOf (sz : Size) (n : RegNum) : Long :=
  if sz = .byte ∧ n = 7 then 2 else BitVec.ofNat 32 sz.bytes

/-- The index of an indexed mode: the register, whole or its sign-extended low word, times the scale (R116). -/
def indexVal (s : State) (x : IndexReg) : Long :=
  (if x.long then s.getR x.reg else sext .word (s.getR x.reg)) <<< x.scale.toNat

/-- The address of an indexed mode with the given base register value (R116, R117, R121). -/
def indexedAddr (s : State) (base : Long) (x : IndexExt) : Except Stop (Long × State) :=
  match x with
  | .brief idx d8 => .ok (base + d8.signExtend 32 + indexVal s idx, s)
  | .full baseSup indexSup idx bd ind =>
    let b : Long := if baseSup then 0 else base
    let i : Long := if indexSup then 0 else indexVal s idx
    match ind with
    | .none => .ok (b + dispVal bd + i, s)
    | .pre od => do
      let (p, s) ← memRead s .long (b + dispVal bd + i)
      return (p + dispVal od, s)
    | .post od => do
      let (p, s) ← memRead s .long (b + dispVal bd)
      return (p + i + dispVal od, s)

/-- `ea_addr` (R112 to R121, R124): the address of a memory mode and the state after its register side effect and
intermediate read. `pcx` is the address of the first extension word. Registers and immediates have no address. -/
def eaAddr (s : State) (sz : Size) (pcx : Long) (ea : Ea) : Except Stop (Long × State) :=
  match ea with
  | .ind n        => .ok (s.getA n, s)
  | .postinc n    => .ok (s.getA n, s.setA n (s.getA n + stepOf sz n))
  | .predec n     => .ok (s.getA n - stepOf sz n, s.setA n (s.getA n - stepOf sz n))
  | .disp n d     => .ok (s.getA n + d.signExtend 32, s)
  | .index n x    => indexedAddr s (s.getA n) x
  | .absw w       => .ok (w.signExtend 32, s)
  | .absl v       => .ok (v, s)
  | .pcdisp d     => .ok (pcx + d.signExtend 32, s)
  | .pcindex x    => indexedAddr s pcx x
  | .dreg _ | .areg _ | .imm _ => .error (.refuse .illFormed)

/-- Where an operand is (R124). -/
inductive Loc where
  | dreg (n : RegNum)
  | areg (n : RegNum)
  | mem (a : Long)
  | imm (v : Long)
deriving DecidableEq, Repr

/-- `ea_decode` (R124). -/
def eaDecode (s : State) (sz : Size) (pcx : Long) (ea : Ea) : Except Stop (Loc × State) :=
  match ea with
  | .dreg n => .ok (.dreg n, s)
  | .areg n => .ok (.areg n, s)
  | .imm v  => .ok (.imm (immVal v), s)
  | .ind _ | .postinc _ | .predec _ | .disp _ _ | .index _ _ | .absw _ | .absl _ | .pcdisp _ | .pcindex _ => do
    let (a, s) ← eaAddr s sz pcx ea
    return (.mem a, s)

/-- `ea_get` (R123, R124). -/
def eaGet (s : State) (sz : Size) (loc : Loc) : Except Stop (Long × State) :=
  match loc with
  | .dreg n => .ok (trunc sz (s.getD n), s)
  | .areg n => .ok (trunc sz (s.getA n), s)
  | .mem a  => memRead s sz a
  | .imm v  => .ok (trunc sz v, s)

/-- `ea_put` (R111, R124). An address register is written whole. -/
def eaPut (s : State) (sz : Size) (loc : Loc) (v : Long) : Except Stop State :=
  match loc with
  | .dreg n => .ok (s.setDLow sz n v)
  | .areg n => .ok (s.setA n v)
  | .mem a  => memWrite s sz a v
  | .imm _  => .error (.refuse .illFormed)

/-- `ea_read` (R123, R124): the operand of an instruction with `own` words before the extension words. -/
def eaRead (s : State) (sz : Size) (own : Nat) (ea : Ea) : Except Stop (Long × State) := do
  let (loc, s) ← eaDecode s sz (s.pcPlus own) ea
  eaGet s sz loc

/-- The address of the next instruction (R27): own words and extension words further. -/
def advanceEa (s : State) (own : Nat) (ea : Ea) : State := s.advance (own + eaLen ea)

/-- READ AN OPERAND and go on with `use`, which has the operand and the state after the read; then the next
instruction. -/
def withOperand (s : State) (sz : Size) (own : Nat) (ea : Ea) (use : Long → State → State) : Except Stop State := do
  let (v, t) ← eaRead s sz own ea
  return advanceEa (use v t) own ea

/-- CHANGE AN OPERAND IN PLACE (R124): the address is computed once, the operand read, and the result of `f` on it and
the flags written back, with the flags `f` gives; then the next instruction. -/
def modifyOperand (s : State) (sz : Size) (own : Nat) (ea : Ea) (f : Long → Ccr → Long × Ccr) : Except Stop State := do
  let (loc, s1) ← eaDecode s sz (s.pcPlus own) ea
  let (dst, s2) ← eaGet s1 sz loc
  let s3 ← eaPut s2 sz loc (f dst s2.ccr).1
  return advanceEa (s3.setCcr (f dst s2.ccr).2) own ea

/-- The operands of the memory form of ADDX and ABCD (R164, R290): the source below A[y] read first, then the
destination below A[x]; answers both and the state after the reads, in which A[x] is the destination's address. -/
def predecPair (s : State) (sz : Size) (x y : RegNum) : Except Stop ((Long × Long) × State) := do
  let s := s.setA y (s.getA y - stepOf sz y)
  let (src, s) ← memRead s sz (s.getA y)
  let s := s.setA x (s.getA x - stepOf sz x)
  let (dst, s) ← memRead s sz (s.getA x)
  return ((src, dst), s)

end Sys2Proof.Machine
end

