-- ==== Sys2Proof/WellFormed.lean ====
section
/-! DEFINITION. Which instruction terms stand for words of the encoding on a given family member: the allowed modes of
each page (spec/30_encoding.md rules R125, R126), the sizes (R103, R111), the extension words a member has (R116,
R117), and the offsets a branch can encode (R323). -/

namespace Sys2Proof

/-- Which indexed extensions a member has: before MC68020 the brief word without scale (R116, R126); a suppressed index
has no postindexed form (R117). -/
def IndexExt.wf (cpu : Cpu) : IndexExt → Bool
  | .brief idx _ => cpu.is020 || idx.scale == 0
  | .full _ indexSup _ _ ind =>
    cpu.is020 && (match ind with
      | .post _ => !indexSup
      | _ => true)

/-- Is the effective address one a page with this set and operation size allows on this member: a mode of the set, no
Byte operand in an address register (R111), an immediate of the operation size (R106), an extension the member has? -/
def Ea.wf (cpu : Cpu) (set : EaSet) (sz : Size) (ea : Ea) : Bool :=
  set.has ea.mode && (match ea with
    | .areg _     => sz != .byte
    | .imm v      => v.size == sz
    | .index _ x  => x.wf cpu
    | .pcindex x  => x.wf cpu
    | _           => true)

/-- The offsets a branch can encode (R323): byte 00 selects the Word form and, from MC68020 on, FF the Long form. -/
def BranchOff.wf (cpu : Cpu) : BranchOff → Bool
  | .byte d => d != 0 && !(cpu.is020 && d == 0xFF)
  | .word _ => true
  | .long _ => cpu.is020

/-- Word or Long, the sizes of ADDA and CMPA. -/
def wordOrLong (isLong : Bool) : Size := if isLong then .long else .word

/-- Well-formed on a family member: the term stands for words of the member's encoding. -/
def Instr.wf (cpu : Cpu) : Instr → Bool
  | .addToReg sz _ ea  => ea.wf cpu .all sz
  | .addToMem sz _ ea  => ea.wf cpu .memAlt sz
  | .adda l _ ea       => ea.wf cpu .all (wordOrLong l)
  | .addi v ea         => ea.wf cpu .dataAlt v.size
  | .addq sz _ ea      => ea.wf cpu .alt sz
  | .addx _ _ _ _      => true
  | .clr sz ea         => ea.wf cpu .dataAlt sz
  | .cmp sz _ ea       => ea.wf cpu .all sz
  | .cmpa l _ ea       => ea.wf cpu .all (wordOrLong l)
  | .cmpi v ea         => ea.wf cpu (cmpiSet cpu) v.size
  | .cmpm _ _ _        => true
  | .cmp2 sz _ ea      => cpu.is020 && ea.wf cpu .control sz
  | .andToReg sz _ ea  => ea.wf cpu .data sz
  | .andToMem sz _ ea  => ea.wf cpu .memAlt sz
  | .andi v ea         => ea.wf cpu .dataAlt v.size
  | .aslReg _ _ _      => true
  | .aslMem ea         => ea.wf cpu .memAlt .word
  | .asrReg _ _ _      => true
  | .asrMem ea         => ea.wf cpu .memAlt .word
  | .btstReg _ ea      => ea.wf cpu .data .byte
  | .btstImm _ ea      => ea.wf cpu .dataNoImm .byte
  | .bchgReg _ ea      => ea.wf cpu .dataAlt .byte
  | .bchgImm _ ea      => ea.wf cpu .dataAlt .byte
  | .bclrReg _ ea      => ea.wf cpu .dataAlt .byte
  | .bclrImm _ ea      => ea.wf cpu .dataAlt .byte
  | .bsetReg _ ea      => ea.wf cpu .dataAlt .byte
  | .bsetImm _ ea      => ea.wf cpu .dataAlt .byte
  | .bftst _ ea        => cpu.is020 && ea.wf cpu .bfRd .byte
  | .bfextu _ _ ea     => cpu.is020 && ea.wf cpu .bfRd .byte
  | .bfchg _ ea        => cpu.is020 && ea.wf cpu .bfAlt .byte
  | .bfexts _ _ ea     => cpu.is020 && ea.wf cpu .bfRd .byte
  | .bfclr _ ea        => cpu.is020 && ea.wf cpu .bfAlt .byte
  | .bfffo _ _ ea      => cpu.is020 && ea.wf cpu .bfRd .byte
  | .bfset _ ea        => cpu.is020 && ea.wf cpu .bfAlt .byte
  | .bfins _ _ ea      => cpu.is020 && ea.wf cpu .bfAlt .byte
  | .abcd _ _ _        => true
  | .bcc _ off         => off.wf cpu
  | .bra off           => off.wf cpu
  | .bsr off           => off.wf cpu
  | .andiToSr _        => true
  | .andiToCcr _       => true
  | .bkpt _            => true
  | .chkW _ ea         => ea.wf cpu .data .word
  | .chkL _ ea         => cpu.is020 && ea.wf cpu .data .long
  | .chk2 sz _ ea      => cpu.is020 && ea.wf cpu .control sz
  | .cas sz _ _ ea     => cpu.is020 && ea.wf cpu .memAlt sz
  | .cas2W _ _         => cpu.is020
  | .cas2L _ _         => cpu.is020
  | .cpBcc id _ _      => cpu.is020 && id != 0
  | .cpDBcc id _       => cpu.is020 && id != 0
  | .cpGen id _        => cpu.is020 && id != 0
  | .cpRestore id f    => cpu.is020 && id != 0 && EaSet.cpRest.hasField f
  | .cpSave id f       => cpu.is020 && id != 0 && EaSet.cpSave.hasField f
  | .cpScc id f        => cpu.is020 && id != 0 && EaSet.dataAlt.hasField f

end Sys2Proof
end

