-- ==== Sys2Proof/Machine/Arithmetic.lean ====
section
/-! DEFINITION. The arithmetic instructions (spec/40_arithmetic.md). -/

namespace Sys2Proof.Machine

/-- `ADD <ea>,Dn` (R160). -/
def execAddToReg (sz : Size) (r : RegNum) (ea : Ea) (s : State) : Host.Outcome State Fault Refusal :=
  finish s (withOperand s sz 1 ea fun src t =>
    (t.setDLow sz r (addValue sz src (t.getD r) false)).setCcr (addFlags sz src (t.getD r)))

/-- `ADD Dn,<ea>` (R160). -/
def execAddToMem (sz : Size) (r : RegNum) (ea : Ea) (s : State) : Host.Outcome State Fault Refusal :=
  finish s (modifyOperand s sz 1 ea fun dst _ => (addValue sz (s.getD r) dst false, addFlags sz (s.getD r) dst))

/-- `ADDA <ea>,An` (R161): the register is read after the source operand, and no flag changes. -/
def execAdda (isLong : Bool) (a : RegNum) (ea : Ea) (s : State) : Host.Outcome State Fault Refusal :=
  finish s (withOperand s (wordOrLong isLong) 1 ea fun src t => t.setA a (t.getA a + sext (wordOrLong isLong) src))

/-- `ADDI #<data>,<ea>` (R162). -/
def execAddi (v : Imm) (ea : Ea) (s : State) : Host.Outcome State Fault Refusal :=
  finish s (modifyOperand s v.size (1 + immLen v.size) ea fun dst _ =>
    (addValue v.size (immVal v) dst false, addFlags v.size (immVal v) dst))

/-- The DATA field of ADDQ (R107): 000 is 8. -/
def quickVal (q : BitVec 3) : Long := if q = 0 then 8 else q.setWidth 32

/-- `ADDQ #<data>,<ea>` (R163): an address register is added to whole and no flag changes. -/
def execAddq (sz : Size) (q : BitVec 3) (ea : Ea) (s : State) : Host.Outcome State Fault Refusal :=
  match ea with
  | .areg n => .next ((s.setA n (s.getA n + quickVal q)).advance 1)
  | .dreg _ | .ind _ | .postinc _ | .predec _ | .disp _ _ | .index _ _ | .absw _ | .absl _ | .pcdisp _ | .pcindex _
  | .imm _ =>
    finish s (modifyOperand s sz 1 ea fun dst _ => (addValue sz (quickVal q) dst false, addFlags sz (quickVal q) dst))

/-- `ADDX` (R164). -/
def execAddx (sz : Size) (form : XForm) (x y : RegNum) (s : State) : Host.Outcome State Fault Refusal :=
  match form with
  | .data =>
    .next (((s.setDLow sz x (addValue sz (s.getD y) (s.getD x) s.ccr.x)).setCcr
      (addxFlags sz (s.getD y) (s.getD x) s.ccr)).advance 1)
  | .predec =>
    finish s (do
      let (ops, t) ← predecPair s sz x y
      let u ← memWrite t sz (t.getA x) (addValue sz ops.1 ops.2 s.ccr.x)
      return (u.setCcr (addxFlags sz ops.1 ops.2 s.ccr)).advance 1)

/-- Is the location one of memory? -/
def Loc.isMem : Loc → Bool
  | .mem _ => true
  | .dreg _ | .areg _ | .imm _ => false

/-- Does this member's CLR read a memory destination first (R165)? -/
def clrReads (cpu : Cpu) : Bool :=
  match cpu with
  | .mc68000 | .mc68hc000 => true
  | .mc68010 | .mc68020 | .mc68030 => false

/-- `CLR <ea>` (R165). -/
def execClr (sz : Size) (ea : Ea) (s : State) : Host.Outcome State Fault Refusal :=
  finish s (do
    let (loc, s1) ← eaDecode s sz (s.pcPlus 1) ea
    let (_, s2) ← if loc.isMem && clrReads s.config.cpu then eaGet s1 sz loc else .ok (0, s1)
    let s3 ← eaPut s2 sz loc 0
    return advanceEa (s3.setCcr (clrFlags s3.ccr)) 1 ea)

/-- `CMP <ea>,Dn` (R166). -/
def execCmp (sz : Size) (r : RegNum) (ea : Ea) (s : State) : Host.Outcome State Fault Refusal :=
  finish s (withOperand s sz 1 ea fun src t => t.setCcr (cmpFlags sz src (t.getD r) t.ccr))

/-- `CMPA <ea>,An` (R167): at 32 bits. -/
def execCmpa (isLong : Bool) (a : RegNum) (ea : Ea) (s : State) : Host.Outcome State Fault Refusal :=
  finish s (withOperand s (wordOrLong isLong) 1 ea fun src t =>
    t.setCcr (cmpFlags .long (sext (wordOrLong isLong) src) (t.getA a) t.ccr))

/-- `CMPI #<data>,<ea>` (R168). -/
def execCmpi (v : Imm) (ea : Ea) (s : State) : Host.Outcome State Fault Refusal :=
  finish s (withOperand s v.size (1 + immLen v.size) ea fun dst t =>
    t.setCcr (cmpFlags v.size (immVal v) dst t.ccr))

/-- `CMPM (Ay)+,(Ax)+` (R169): the source first. -/
def execCmpm (sz : Size) (x y : RegNum) (s : State) : Host.Outcome State Fault Refusal :=
  finish s (do
    let (src, s1) ← memRead s sz (s.getA y)
    let s2 := s1.setA y (s1.getA y + stepOf sz y)
    let (dst, s3) ← memRead s2 sz (s2.getA x)
    let s4 := s3.setA x (s3.getA x + stepOf sz x)
    return (s4.setCcr (cmpFlags sz src dst s4.ccr)).advance 1)

/-- The two bounds of CMP2 and CHK2 (R170, R352): the lower at the address of `<ea>`, the upper next to it. -/
def readBounds (s : State) (sz : Size) (own : Nat) (ea : Ea) : Except Stop ((Long × Long) × State) := do
  let (a, s) ← eaAddr s sz (s.pcPlus own) ea
  let (lo, s) ← memRead s sz a
  let (hi, s) ← memRead s sz (a + BitVec.ofNat 32 sz.bytes)
  return ((lo, hi), s)

/-- The size a bounds test is made at: the operation's for a data register, 32 bits for an address register (R170). -/
def boundsSize (sz : Size) : GReg → Size
  | .dn _ => sz
  | .an _ => .long

/-- A bound as the test takes it: sign-extended for an address register (R170, R352). -/
def boundVal (sz : Size) (rn : GReg) (b : Long) : Long :=
  match rn with
  | .dn _ => b
  | .an _ => sext sz b

/-- C of CMP2 and CHK2 (R172): free where the bounds are in neither order. -/
def boundsCarry (s : State) (sz : Size) (r lo hi : Long) : Bool × State :=
  match outOfBounds sz r lo hi with
  | some c => (c, s)
  | none   => drawBit s

/-- The flags of CMP2 and CHK2 (R170, R352): Z on equality with a bound, C out of bounds, N and V free, X kept. -/
def boundsFlags (s : State) (sz : Size) (rn : GReg) (lo hi : Long) : State :=
  let w := boundsSize sz rn
  let l := boundVal sz rn lo
  let h := boundVal sz rn hi
  let r := s.getR rn
  let (c, s) := boundsCarry s w r l h
  let (n, s) := drawBit s
  let (v, s) := drawBit s
  s.setCcr { x := s.ccr.x, n := n, z := trunc w r == trunc w l || trunc w r == trunc w h, v := v, c := c }

/-- `CMP2 <ea>,Rn` (R170). -/
def execCmp2 (sz : Size) (rn : GReg) (ea : Ea) (s : State) : Host.Outcome State Fault Refusal :=
  finish s (do
    let (b, t) ← readBounds s sz 2 ea
    return advanceEa (boundsFlags t sz rn b.1 b.2) 2 ea)

end Sys2Proof.Machine
end

