-- ==== Sys2Proof/Machine/Bcd.lean ====
section
/-! DEFINITION. ABCD (spec/45_bcd.md). -/

namespace Sys2Proof.Machine

/-- `valid(b)` (R290): both digits of the low byte at most 9. -/
def bcdValid (v : Long) : Bool :=
  decide ((v.extractLsb' 4 4).toNat ≤ 9) && decide ((v.extractLsb' 0 4).toNat ≤ 9)

/-- `bcd(b)` (R290). -/
def bcdVal (v : Long) : Nat := 10 * (v.extractLsb' 4 4).toNat + (v.extractLsb' 0 4).toNat

/-- A number below 100 as a packed BCD byte (R290). -/
def bcdPack (r : Nat) : Long := ofByte (BitVec.ofNat 4 (r / 10) ++ BitVec.ofNat 4 (r % 10))

/-- The decimal sum with the extend bit (R290): result byte and carry, both free when an operand is no packed BCD. -/
def bcdAdd (src dst : Long) (x : Bool) (s : State) : (Long × Bool) × State :=
  if bcdValid src && bcdValid dst then
    let t := bcdVal src + bcdVal dst + (if x then 1 else 0)
    ((bcdPack (t % 100), decide (t ≥ 100)), s)
  else
    let (r, s) := draw s
    let (c, s) := drawBit s
    ((trunc .byte r, c), s)

/-- The flags of ABCD (R290): X and C the decimal carry, Z only ever cleared, N and V free. -/
def abcdFlags (s : State) (old : Ccr) (res : Long) (cy : Bool) : State :=
  let (n, s) := drawBit s
  let (v, s) := drawBit s
  s.setCcr { x := cy, n := n, z := isZero .byte res && old.z, v := v, c := cy }

/-- `ABCD` (R290). -/
def execAbcd (form : XForm) (x y : RegNum) (s : State) : Host.Outcome State Fault Refusal :=
  match form with
  | .data =>
    let (r, t) := bcdAdd (s.getD y) (s.getD x) s.ccr.x s
    .next ((abcdFlags (t.setDLow .byte x r.1) s.ccr r.1 r.2).advance 1)
  | .predec =>
    finish s (do
      let (ops, t) ← predecPair s .byte x y
      let (r, t) := bcdAdd ops.1 ops.2 s.ccr.x t
      let u ← memWrite t .byte (t.getA x) r.1
      return (abcdFlags u s.ccr r.1 r.2).advance 1)

end Sys2Proof.Machine
end

