-- ==== Sys2Proof/Machine/BitField.lean ====
section
/-! DEFINITION. The bit field instructions (spec/44_bit_field.md). A field is found in a buffer of up to 40 bits: the
register rotated so that the field comes first, or the one to five bytes that hold it. -/

namespace Sys2Proof.Machine

/-- `off` of R260: the field itself, or the register as a signed number. -/
def bfOffset (s : State) (p : BfSpec) : Int :=
  match p.offset with
  | .imm v => v.toNat
  | .reg n => (s.getD n).toInt

/-- `wr` of R260. -/
def bfWidthRaw (s : State) (p : BfSpec) : Nat :=
  match p.width with
  | .imm v => v.toNat
  | .reg n => (s.getD n).toNat % 32

/-- `w` of R260: 1 to 32. -/
def bfWidth (s : State) (p : BfSpec) : Nat := if bfWidthRaw s p = 0 then 32 else bfWidthRaw s p

/-- Where a field lies (R261): in a data register rotated left by `o`, or in `nb` bytes from `ba` with its first bit
`bo` bits into them. -/
inductive BfPlace where
  | reg (n : RegNum) (o : Nat)
  | mem (ba : Long) (bo nb : Nat)
deriving DecidableEq, Repr

/-- The bytes a memory field lies in (R261). -/
def bfMemPlace (base : Long) (off : Int) (w : Nat) : BfPlace :=
  .mem (base + BitVec.ofInt 32 (off / 8)) (off % 8).toNat (((off % 8).toNat + w + 7) / 8)

/-- Locate the field (R261). The word of the instruction stands before the extension words of `<ea>`. -/
def bfLocate (s : State) (p : BfSpec) (ea : Ea) : Except Stop (BfPlace × State) :=
  match ea with
  | .dreg n => .ok (.reg n (bfOffset s p % 32).toNat, s)
  | .areg _ | .ind _ | .postinc _ | .predec _ | .disp _ _ | .index _ _ | .absw _ | .absl _ | .pcdisp _ | .pcindex _
  | .imm _ => do
    let (base, t) ← eaAddr s .byte (s.pcPlus 2) ea
    return (bfMemPlace base (bfOffset s p) (bfWidth s p), t)

/-- `n` bytes from an address, one access each, ascending, after the bits `acc` (R261). -/
def bfLoad : Nat → Long → BitVec 40 → State → Except Stop (BitVec 40 × State)
  | 0, _, acc, s => .ok (acc, s)
  | n + 1, a, acc, s => do
    let (v, s) ← memRead s .byte a
    bfLoad n (a + 1) (acc.extractLsb' 0 32 ++ v.extractLsb' 0 8) s

/-- The low `8 * n` bits of a buffer written back, one access a byte, ascending (R261). -/
def bfStore : Nat → Long → BitVec 40 → State → Except Stop State
  | 0, _, _, s => .ok s
  | n + 1, a, buf, s => do
    let s ← memWrite s .byte a (ofByte (buf.extractLsb' (8 * n) 8))
    bfStore n (a + 1) buf s

/-- The buffer the field lies in (R261). -/
def bfBuffer (place : BfPlace) (s : State) : Except Stop (BitVec 40 × State) :=
  match place with
  | .reg n o      => .ok (((s.getD n).rotateLeft o).setWidth 40, s)
  | .mem ba _ nb  => bfLoad nb ba 0 s

/-- How many bits of the buffer follow the field (R261). -/
def bfBelow (place : BfPlace) (w : Nat) : Nat :=
  match place with
  | .reg _ _     => 32 - w
  | .mem _ bo nb => 8 * nb - bo - w

/-- `w` ones. -/
def bfOnes (w : Nat) : BitVec 40 := (1#40 <<< w) - 1

/-- The field of a buffer, `w` bits, zero above (R261). -/
def bfField (buf : BitVec 40) (below w : Nat) : Long := ((buf >>> below) &&& bfOnes w).setWidth 32

/-- The buffer with the field replaced by the low `w` bits of a value (R261). -/
def bfReplace (buf : BitVec 40) (below w : Nat) (new : Long) : BitVec 40 :=
  (buf &&& ~~~(bfOnes w <<< below)) ||| ((new.setWidth 40 &&& bfOnes w) <<< below)

/-- `store(new)` of R261: the buffer written back where it came from. -/
def bfWriteBack (place : BfPlace) (buf : BitVec 40) (s : State) : Except Stop State :=
  match place with
  | .reg n o     => .ok (s.setD n ((buf.extractLsb' 0 32).rotateRight o))
  | .mem ba _ nb => bfStore nb ba buf s

/-- `bf_flags` (R270). -/
def bfFlags (w : Nat) (f : Long) (old : Ccr) : Ccr where
  x := old.x
  n := f.getLsbD (w - 1)
  z := f == 0
  v := false
  c := false

/-- Locate and read a field; answers its place, its buffer and the field. -/
def bfRead (s : State) (p : BfSpec) (ea : Ea) : Except Stop ((BfPlace × BitVec 40 × Long) × State) := do
  let (place, t) ← bfLocate s p ea
  let (buf, t) ← bfBuffer place t
  return ((place, buf, bfField buf (bfBelow place (bfWidth s p)) (bfWidth s p)), t)

/-- The frame of BFTST, BFEXTU, BFEXTS and BFFFO: the flags from the field, then `use` with the field. -/
def bfExtract (s : State) (p : BfSpec) (ea : Ea) (use : Long → State → State) : Except Stop State := do
  let (r, t) ← bfRead s p ea
  return advanceEa (use r.2.2 (t.setCcr (bfFlags (bfWidth s p) r.2.2 t.ccr))) 2 ea

/-- The frame of BFCHG, BFCLR, BFSET and BFINS: `new` gives the field's new value and `tested` what the flags are taken
from, both of the old field. -/
def bfChange (s : State) (p : BfSpec) (ea : Ea) (new tested : Long → Long) : Except Stop State := do
  let (r, t) ← bfRead s p ea
  let buf := bfReplace r.2.1 (bfBelow r.1 (bfWidth s p)) (bfWidth s p) (new r.2.2)
  let u ← bfWriteBack r.1 buf t
  return advanceEa (u.setCcr (bfFlags (bfWidth s p) (tested r.2.2) u.ccr)) 2 ea

/-- `sext_32` of a field of `w` bits (R264). -/
def bfSext (w : Nat) (f : Long) : Long := (f <<< (32 - w)).sshiftRight (32 - w)

/-- The low `w` bits of a register (R267). -/
def bfLow (w : Nat) (v : Long) : Long := (v.setWidth 40 &&& bfOnes w).setWidth 32

/-- Leading zeros of the low `w` bits, counted from bit `w - 1` (R266). -/
def leadingZeros : Nat → Long → Nat
  | 0, _ => 0
  | w + 1, f => if f.getLsbD w then 0 else leadingZeros w f + 1

/-- Is the operand a data register with an offset outside 0 to 31 (R266)? -/
def bfffoOpen (s : State) (p : BfSpec) (ea : Ea) : Bool :=
  ea.mode == .dreg && (decide (bfOffset s p < 0) || decide (bfOffset s p > 31))

/-- Dn of BFFFO (R266): offset plus position; free where the spec leaves it open. -/
def bfffoWrite (s : State) (p : BfSpec) (dn : RegNum) (ea : Ea) (f : Long) (t : State) : State :=
  if bfffoOpen s p ea then (draw t).2.setD dn (draw t).1
  else t.setD dn (BitVec.ofInt 32 (bfOffset s p + leadingZeros (bfWidth s p) f))

/-- `BFTST <ea>{offset:width}` (R269). -/
def execBftst (p : BfSpec) (ea : Ea) (s : State) : Host.Outcome State Fault Refusal :=
  finish s (bfExtract s p ea fun _ t => t)

/-- `BFEXTU <ea>{offset:width},Dn` (R265). -/
def execBfextu (p : BfSpec) (dn : RegNum) (ea : Ea) (s : State) : Host.Outcome State Fault Refusal :=
  finish s (bfExtract s p ea fun f t => t.setD dn f)

/-- `BFCHG <ea>{offset:width}` (R262). -/
def execBfchg (p : BfSpec) (ea : Ea) (s : State) : Host.Outcome State Fault Refusal :=
  finish s (bfChange s p ea (fun f => ~~~f) id)

/-- `BFEXTS <ea>{offset:width},Dn` (R264). -/
def execBfexts (p : BfSpec) (dn : RegNum) (ea : Ea) (s : State) : Host.Outcome State Fault Refusal :=
  finish s (bfExtract s p ea fun f t => t.setD dn (bfSext (bfWidth s p) f))

/-- `BFCLR <ea>{offset:width}` (R263). -/
def execBfclr (p : BfSpec) (ea : Ea) (s : State) : Host.Outcome State Fault Refusal :=
  finish s (bfChange s p ea (fun _ => 0) id)

/-- `BFFFO <ea>{offset:width},Dn` (R266). -/
def execBfffo (p : BfSpec) (dn : RegNum) (ea : Ea) (s : State) : Host.Outcome State Fault Refusal :=
  finish s (bfExtract s p ea fun f t => bfffoWrite s p dn ea f t)

/-- `BFSET <ea>{offset:width}` (R268). -/
def execBfset (p : BfSpec) (ea : Ea) (s : State) : Host.Outcome State Fault Refusal :=
  finish s (bfChange s p ea (fun _ => 0xFFFFFFFF) id)

/-- `BFINS Dn,<ea>{offset:width}` (R267): the flags from the inserted value. -/
def execBfins (p : BfSpec) (dn : RegNum) (ea : Ea) (s : State) : Host.Outcome State Fault Refusal :=
  finish s (bfChange s p ea (fun _ => bfLow (bfWidth s p) (s.getD dn)) fun _ => bfLow (bfWidth s p) (s.getD dn))

end Sys2Proof.Machine
end

