-- ==== Sys2Proof/Machine/BitOps.lean ====
section
/-! DEFINITION. The bit manipulation instructions (spec/43_bit_manipulation.md). -/

namespace Sys2Proof.Machine

/-- `v` with bit `b` replaced (R246). -/
def withBit (v : Long) (b : Nat) (x : Bool) : Long :=
  if x then v ||| (1#32 <<< b) else v &&& ~~~(1#32 <<< b)

/-- The flags with Z from the bit tested (R246). -/
def bitFlags (old : Ccr) (tested : Bool) : Ccr := { old with z := !tested }

/-- The frame of BCHG, BCLR and BSET (R246): `raw` is the bit number before its reduction (R245). -/
def changeBit (s : State) (own : Nat) (raw : Nat) (ea : Ea) (f : Bool → Bool) : Except Stop State :=
  match ea with
  | .dreg n =>
    let old := s.getD n
    let b := raw % 32
    .ok (((s.setD n (withBit old b (f (old.getLsbD b)))).setCcr (bitFlags s.ccr (old.getLsbD b))).advance own)
  | .areg _ | .ind _ | .postinc _ | .predec _ | .disp _ _ | .index _ _ | .absw _ | .absl _ | .pcdisp _ | .pcindex _
  | .imm _ =>
    modifyOperand s .byte own ea fun old fl =>
      (withBit old (raw % 8) (f (old.getLsbD (raw % 8))), bitFlags fl (old.getLsbD (raw % 8)))

/-- The frame of BTST (R246, R243): nothing is written but Z. -/
def testBit (s : State) (own : Nat) (raw : Nat) (ea : Ea) : Except Stop State :=
  match ea with
  | .dreg n => .ok ((s.setCcr (bitFlags s.ccr ((s.getD n).getLsbD (raw % 32)))).advance own)
  | .areg _ | .ind _ | .postinc _ | .predec _ | .disp _ _ | .index _ _ | .absw _ | .absl _ | .pcdisp _ | .pcindex _
  | .imm _ =>
    withOperand s .byte own ea fun old t => t.setCcr (bitFlags t.ccr (old.getLsbD (raw % 8)))

/-- `BTST Dn,<ea>` (R243). -/
def execBtstReg (r : RegNum) (ea : Ea) (s : State) : Host.Outcome State Fault Refusal :=
  finish s (testBit s 1 (s.getD r).toNat ea)

/-- `BTST #<data>,<ea>` (R243). -/
def execBtstImm (n : Byte) (ea : Ea) (s : State) : Host.Outcome State Fault Refusal :=
  finish s (testBit s 2 n.toNat ea)

/-- `BCHG Dn,<ea>` (R240). -/
def execBchgReg (r : RegNum) (ea : Ea) (s : State) : Host.Outcome State Fault Refusal :=
  finish s (changeBit s 1 (s.getD r).toNat ea not)

/-- `BCHG #<data>,<ea>` (R240). -/
def execBchgImm (n : Byte) (ea : Ea) (s : State) : Host.Outcome State Fault Refusal :=
  finish s (changeBit s 2 n.toNat ea not)

/-- `BCLR Dn,<ea>` (R241). -/
def execBclrReg (r : RegNum) (ea : Ea) (s : State) : Host.Outcome State Fault Refusal :=
  finish s (changeBit s 1 (s.getD r).toNat ea fun _ => false)

/-- `BCLR #<data>,<ea>` (R241). -/
def execBclrImm (n : Byte) (ea : Ea) (s : State) : Host.Outcome State Fault Refusal :=
  finish s (changeBit s 2 n.toNat ea fun _ => false)

/-- `BSET Dn,<ea>` (R242). -/
def execBsetReg (r : RegNum) (ea : Ea) (s : State) : Host.Outcome State Fault Refusal :=
  finish s (changeBit s 1 (s.getD r).toNat ea fun _ => true)

/-- `BSET #<data>,<ea>` (R242). -/
def execBsetImm (n : Byte) (ea : Ea) (s : State) : Host.Outcome State Fault Refusal :=
  finish s (changeBit s 2 n.toNat ea fun _ => true)

end Sys2Proof.Machine
end

