-- ==== Sys2Proof/Machine/Fetch.lean ====
section
/-! DEFINITION. Fetching an instruction's words one at a time, as the decoder asks for them (spec/60_exceptions.md rule
R423 steps 3 and 4; spec/30_encoding.md rule R105), and placing a numbered instruction where the next step fetches. -/

namespace Sys2Proof.Machine

/-- What a decoder's stop means to the machine (R141, R388): a line F word of a form no page describes raises line F
unless its coprocessor is present, and is then refused. -/
def decodeStop (s : State) : DecodeStop → Stop
  | .needsMore       => .refuse .illFormed
  | .reservedField   => .refuse .reservedField
  | .notDescribed w  => .refuse (.notDescribed w)
  | .illegal w       => .raise (.illegal w none)
  | .lineF w         => .raise (.lineF w)
  | .lineFOther id w => if s.config.coproc.contains id then .refuse (.notDescribed w) else .raise (.lineF w)

/-- Parse from the words at an address on, fetching a word only when the parser asks for one: a reserved field of a word
is met before a later word is fetched (R423 step 4 leaves it open; DESIGN CHOICE, notes/assumptions/51.md). `fuel` is
one more than the words the longest form has, so it does not run out. -/
def fetchParse {α : Type} (s : State) (parse : List Word → Except DecodeStop (α × List Word)) :
    Nat → Long → List Word → Except Stop α
  | 0, _, _ => .error (.refuse .illFormed)
  | fuel + 1, a, ws =>
    match parse ws with
    | .ok (x, _) => .ok x
    | .error .needsMore => do
      let w ← fetch16 s a
      fetchParse s parse fuel (a + 2) (ws ++ [w])
    | .error stop => .error (decodeStop s stop)

/-- The longest instruction has eight words. -/
def maxWords : Nat := 8

/-- The instruction at the program counter (R141). ANDI to SR tests the privilege before its immediate is fetched
(R342; notes/assumptions/44.md). -/
def fetchDecode (s : State) : Except Stop Instr := do
  let w ← fetch16 s s.pc
  if w = 0x027C then
    privilegedCheck s w
  fetchParse s (decode s.config.cpu) maxWords (s.pc + 2) [w]

/-- Put bytes into memory from an address on. -/
def placeBytes : List Byte → Long → State → State
  | [], _, s => s
  | b :: bs, a, s => placeBytes bs (a + 1) (s.poke a b)

/-- `len` byte addresses from `a` on as ranges of `TEXT`, one a byte, so that a range may run past the top. -/
def textFrom (s : State) : Nat → Long → List TextRange
  | 0, _ => []
  | n + 1, a => ⟨s.physical a, 1⟩ :: textFrom s n (a + 1)

/-- The host's load (R470): the instruction's bytes stored at the program counter and made part of `TEXT`; a run that
would be over there goes on, and the next step sees no interrupt request, before the ones to come. -/
def placeInstruction (s : State) (nbits w : Nat) : State :=
  let bytes := tableBytes nbits w
  let text := textFrom s bytes.length s.pc ++ s.config.text
  let endPc := if s.config.endPc = some s.pc then none else s.config.endPc
  placeBytes bytes s.pc { s with irq := ⟨0, .auto⟩ :: s.irq, config := { s.config with text := text, endPc := endPc } }

end Sys2Proof.Machine
end

