-- ==== Sys2Proof/Machine/Coproc.lean ====
section
/-! DEFINITION. The coprocessor instructions (spec/49_pmmu_multiprocessor_coprocessor.md rules R388 to R395). A present
coprocessor's answer to a condition is the head of `cpAnswers`; with none the instruction is opaque (R389). -/

namespace Sys2Proof.Machine

/-- R388 up to the coprocessor: line F below MC68020 and for CP-ID 0, the privilege of cpSAVE and cpRESTORE, and line F
when no coprocessor answers. `w` is the operation word. -/
def cpGate (s : State) (w : Word) (id : BitVec 3) (privileged : Bool) : Except Stop Unit :=
  if !s.config.cpu.is020 || id == 0 then .error (.raise (.lineF w))
  else if privileged && !s.supervisor then .error (.raise (.privilege w))
  else if s.config.coproc.contains id then .ok ()
  else .error (.raise (.lineF w))

/-- The coprocessor's answer to an instruction, taken from the answers to come (R389). -/
def cpAnswer (s : State) (i : Instr) (id : BitVec 3) : Except Stop (CpAnswer × State) :=
  match s.cpAnswers with
  | []      => .error (.refuse (.coprocessorOpaque id i))
  | r :: rs => .ok (r, { s with cpAnswers := rs })

/-- The gate, then the answer. -/
def cpAsk (s : State) (i : Instr) (id : BitVec 3) : Except Stop (CpAnswer × State) := do
  cpGate s (opWord i) id false
  cpAnswer s i id

/-- An instruction to a present coprocessor whose part is not given (R389): the gate, then the refusal. -/
def cpOpaque (s : State) (i : Instr) (id : BitVec 3) (privileged : Bool) : Except Stop State := do
  cpGate s (opWord i) id privileged
  .error (.refuse (.coprocessorOpaque id i))

/-- The condition word of cpDBcc and cpScc, after the operation word: bits 15 to 6 are zero (R391, R395). -/
def cpCondWord (s : State) : Except Stop Word := do
  let w ← fetch16 s (s.pcPlus 1)
  if w.extractLsb' 6 10 != 0 then .error (.refuse .reservedField)
  else return w

/-- An offset at `scanPC`: one word sign-extended, or two, the high word first (R390). -/
def cpOffset (s : State) (scan : Long) (isLong : Bool) : Except Stop Long := do
  let hi ← fetch16 s scan
  if isLong then do
    let lo ← fetch16 s (scan + 2)
    return hi ++ lo
  else return hi.signExtend 32

/-- `cpBcc <label>` (R390). -/
def execCpBcc (id : BitVec 3) (isLong : Bool) (cond : BitVec 6) (s : State) : Host.Outcome State Fault Refusal :=
  finish s (do
    let (r, t) ← cpAsk s (.cpBcc id isLong cond) id
    let scan := t.pcPlus (1 + r.k)
    let off ← cpOffset t scan isLong
    return t.setPc (if r.cond then scan + off else scan + (if isLong then 4 else 2)))

/-- `cpDBcc Dn,<label>` (R391). -/
def execCpDBcc (id : BitVec 3) (n : RegNum) (s : State) : Host.Outcome State Fault Refusal :=
  finish s (do
    let (r, t) ← cpAsk s (.cpDBcc id n) id
    let _ ← cpCondWord t
    let scan := t.pcPlus (2 + r.k)
    let off ← cpOffset t scan false
    if r.cond then return t.setPc (scan + 2)
    else
      let u := t.setDLow .word n (t.getD n - 1)
      return u.setPc (if trunc .word (u.getD n) = 0xFFFF then scan + 2 else scan + off))

/-- `cpGEN` (R392): what a present coprocessor makes of the command word is not given (R389). -/
def execCpGen (id : BitVec 3) (field : BitVec 6) (s : State) : Host.Outcome State Fault Refusal :=
  finish s (cpOpaque s (.cpGen id field) id false)

/-- `cpRESTORE <ea>` (R393): privileged; the context's size and layout are not given (R389). -/
def execCpRestore (id : BitVec 3) (field : BitVec 6) (s : State) : Host.Outcome State Fault Refusal :=
  finish s (cpOpaque s (.cpRestore id field) id true)

/-- `cpSAVE <ea>` (R394): privileged; the context's size and layout are not given (R389). -/
def execCpSave (id : BitVec 3) (field : BitVec 6) (s : State) : Host.Outcome State Fault Refusal :=
  finish s (cpOpaque s (.cpSave id field) id true)

/-- `cpScc <ea>` (R395): a write of FF or 00, with no read. The extension words of `<ea>` follow the condition word and
the coprocessor's extension words. -/
def execCpScc (id : BitVec 3) (field : BitVec 6) (s : State) : Host.Outcome State Fault Refusal :=
  finish s (do
    let (r, t) ← cpAsk s (.cpScc id field) id
    let _ ← cpCondWord t
    let own := 2 + r.k
    let ea ← fetchParse t (takeEa t.config.cpu .byte field) maxWords (t.pcPlus own) []
    let (loc, u) ← eaDecode t .byte (t.pcPlus own) ea
    let v ← eaPut u .byte loc (if r.cond then 0xFF else 0)
    return advanceEa v own ea)

end Sys2Proof.Machine
end

