-- ==== Sys2Proof/Machine/Flow.lean ====
section
/-! DEFINITION. Bcc, BRA and BSR (spec/47_flow_control.md). -/

namespace Sys2Proof.Machine

/-- The signed offset in 32 bits (R323). -/
def branchVal : BranchOff → Long
  | .byte d => d.signExtend 32
  | .word d => d.signExtend 32
  | .long d => d

/-- `target` of R323: from the word after the operation word. -/
def branchTarget (s : State) (off : BranchOff) : Long := s.pc + 2 + branchVal off

/-- `next` of R323. -/
def branchNext (s : State) (off : BranchOff) : Long := s.pcPlus (1 + branchLen off)

/-- `Bcc <label>` (R320). -/
def execBcc (c : Cond) (off : BranchOff) (s : State) : Host.Outcome State Fault Refusal :=
  .next (s.setPc (if condHolds c s.ccr then branchTarget s off else branchNext s off))

/-- `BRA <label>` (R321). -/
def execBra (off : BranchOff) (s : State) : Host.Outcome State Fault Refusal := .next (s.setPc (branchTarget s off))

/-- `BSR <label>` (R322). -/
def execBsr (off : BranchOff) (s : State) : Host.Outcome State Fault Refusal :=
  finish s (do
    let t ← push s .long (branchNext s off)
    return t.setPc (branchTarget s off))

end Sys2Proof.Machine
end

