-- ==== Sys2Proof/Machine/Logic.lean ====
section
/-! DEFINITION. The logic instructions (spec/41_logic.md). -/

namespace Sys2Proof.Machine

/-- `AND <ea>,Dn` (R200). -/
def execAndToReg (sz : Size) (r : RegNum) (ea : Ea) (s : State) : Host.Outcome State Fault Refusal :=
  finish s (withOperand s sz 1 ea fun src t =>
    (t.setDLow sz r (src &&& t.getD r)).setCcr (logicFlags sz (src &&& t.getD r) t.ccr))

/-- `AND Dn,<ea>` (R200). -/
def execAndToMem (sz : Size) (r : RegNum) (ea : Ea) (s : State) : Host.Outcome State Fault Refusal :=
  finish s (modifyOperand s sz 1 ea fun dst f => (dst &&& s.getD r, logicFlags sz (dst &&& s.getD r) f))

/-- `ANDI #<data>,<ea>` (R201). -/
def execAndi (v : Imm) (ea : Ea) (s : State) : Host.Outcome State Fault Refusal :=
  finish s (modifyOperand s v.size (1 + immLen v.size) ea fun dst f =>
    (dst &&& immVal v, logicFlags v.size (dst &&& immVal v) f))

end Sys2Proof.Machine
end

