-- ==== Sys2Proof/Machine/Multi.lean ====
section
/-! DEFINITION. CAS and CAS2 (spec/49_pmmu_multiprocessor_coprocessor.md rules R382, R383). -/

namespace Sys2Proof.Machine

/-- `CAS Dc,Du,<ea>` (R382). -/
def execCas (sz : Size) (du dc : RegNum) (ea : Ea) (s : State) : Host.Outcome State Fault Refusal :=
  finish s (do
    let (loc, s1) ← eaDecode s sz (s.pcPlus 2) ea
    let (dst, s2) ← eaGet s1 sz loc
    let flags := cmpFlags sz (s2.getD dc) dst s2.ccr
    let s3 ← if flags.z then eaPut s2 sz loc (s2.getD du) else .ok (s2.setDLow sz dc dst)
    return advanceEa (s3.setCcr flags) 2 ea)

/-- The flags of CAS2 (R383): those of the last comparison made. -/
def cas2Flags (sz : Size) (c1 d1 c2 d2 : Long) (old : Ccr) : Ccr :=
  if (cmpFlags sz c1 d1 old).z then cmpFlags sz c2 d2 old else cmpFlags sz c1 d1 old

/-- CAS2 at a size (R383): both operands read, both written or both Dc loaded, first pair first. -/
def cas2Operands (sz : Size) (p1 p2 : CasPair) (s : State) : Except Stop State := do
  let a1 := s.getR p1.rn
  let a2 := s.getR p2.rn
  let (d1, s1) ← memRead s sz a1
  let (d2, s2) ← memRead s1 sz a2
  let flags := cas2Flags sz (s2.getD p1.dc) d1 (s2.getD p2.dc) d2 s2.ccr
  let s3 ←
    if flags.z then do
      let t ← memWrite s2 sz a1 (s2.getD p1.du)
      memWrite t sz a2 (s2.getD p2.du)
    else .ok ((s2.setDLow sz p1.dc d1).setDLow sz p2.dc d2)
  return (s3.setCcr flags).advance 3

/-- `CAS2.W` (R383). -/
def execCas2W (p1 p2 : CasPair) (s : State) : Host.Outcome State Fault Refusal := finish s (cas2Operands .word p1 p2 s)

/-- `CAS2.L` (R383). -/
def execCas2L (p1 p2 : CasPair) (s : State) : Host.Outcome State Fault Refusal := finish s (cas2Operands .long p1 p2 s)

end Sys2Proof.Machine
end

