-- ==== Sys2Proof/Machine/Shift.lean ====
section
/-! DEFINITION. ASL and ASR (spec/42_shift_rotate.md), one bit at a time as the spec states them. -/

namespace Sys2Proof.Machine

/-- `cnt` of R222: the field with 000 as 8, or the register modulo 64. -/
def shiftCount (s : State) : ShiftCount → Nat
  | .imm c => if c = 0 then 8 else c.toNat
  | .reg n => (s.getD n).toNat % 64

/-- What the loops of R220 and R221 carry: the operand, X, C and V. -/
structure ShiftAcc where
  v  : Long
  x  : Bool
  c  : Bool
  ov : Bool
deriving DecidableEq, Repr

/-- One bit to the left (R220). -/
def aslOnce (sz : Size) (p : ShiftAcc) : ShiftAcc where
  v  := trunc sz (p.v <<< 1)
  x  := msb sz p.v
  c  := msb sz p.v
  ov := p.ov || (msb sz (p.v <<< 1) != msb sz p.v)

/-- One bit to the right, the sign copied (R221). -/
def asrOnce (sz : Size) (p : ShiftAcc) : ShiftAcc where
  v  := trunc sz ((sext sz p.v).sshiftRight 1)
  x  := p.v.getLsbD 0
  c  := p.v.getLsbD 0
  ov := p.ov

/-- `repeat cnt times` (R220, R221). -/
def shiftLoop (once : ShiftAcc → ShiftAcc) : Nat → ShiftAcc → ShiftAcc
  | 0, p => p
  | k + 1, p => shiftLoop once k (once p)

/-- The loop's end from an operand and the old X. -/
def shiftResult (once : ShiftAcc → ShiftAcc) (cnt : Nat) (sz : Size) (v : Long) (x : Bool) : ShiftAcc :=
  shiftLoop once cnt { v := trunc sz v, x := x, c := false, ov := false }

/-- The flags of a shift (R223). -/
def shiftFlags (sz : Size) (p : ShiftAcc) : Ccr where
  x := p.x
  n := msb sz p.v
  z := isZero sz p.v
  v := p.ov
  c := p.c

/-- The register form (R222). -/
def shiftReg (once : ShiftAcc → ShiftAcc) (sz : Size) (count : ShiftCount) (r : RegNum) (s : State) : State :=
  let p := shiftResult once (shiftCount s count) sz (s.getD r) s.ccr.x
  ((s.setDLow sz r p.v).setCcr (shiftFlags sz p)).advance 1

/-- The memory form (R222): a word by one bit. -/
def shiftMem (once : ShiftAcc → ShiftAcc) (ea : Ea) (s : State) : Except Stop State :=
  modifyOperand s .word 1 ea fun dst f =>
    ((shiftResult once 1 .word dst f.x).v, shiftFlags .word (shiftResult once 1 .word dst f.x))

/-- `ASL Dx,Dy`, `ASL #<data>,Dy` (R220). -/
def execAslReg (sz : Size) (count : ShiftCount) (r : RegNum) (s : State) : Host.Outcome State Fault Refusal :=
  .next (shiftReg (aslOnce sz) sz count r s)

/-- `ASL <ea>` (R220). -/
def execAslMem (ea : Ea) (s : State) : Host.Outcome State Fault Refusal := finish s (shiftMem (aslOnce .word) ea s)

/-- `ASR Dx,Dy`, `ASR #<data>,Dy` (R221). -/
def execAsrReg (sz : Size) (count : ShiftCount) (r : RegNum) (s : State) : Host.Outcome State Fault Refusal :=
  .next (shiftReg (asrOnce sz) sz count r s)

/-- `ASR <ea>` (R221). -/
def execAsrMem (ea : Ea) (s : State) : Host.Outcome State Fault Refusal := finish s (shiftMem (asrOnce .word) ea s)

end Sys2Proof.Machine
end

