-- ==== Sys2Proof/Machine/System.lean ====
section
/-! DEFINITION. The privileged, exception and CCR instructions (spec/48_privileged_exception_ccr.md) and the stub CALLM. -/

namespace Sys2Proof.Machine

/-- `ANDI #<data>,SR` (R342): privileged; clearing S or M makes A7 name another stack pointer (R24). -/
def execAndiToSr (v : Word) (s : State) : Host.Outcome State Fault Refusal :=
  finish s (do
    privilegedCheck s (opWord (.andiToSr v))
    return ((s.setSys (s.sys &&& v.extractLsb' 8 8)).setCcr (s.ccr.and (v.extractLsb' 0 8))).advance 2)

/-- `ANDI #<data>,CCR` (R370). -/
def execAndiToCcr (v : Byte) (s : State) : Host.Outcome State Fault Refusal :=
  .next ((s.setCcr (s.ccr.and v)).advance 2)

/-- `BKPT #<data>` (R350, D9): the illegal instruction exception on every member, with the breakpoint number. -/
def execBkpt (v : BitVec 3) (s : State) : Host.Outcome State Fault Refusal :=
  takeException (.illegal (opWord (.bkpt v)) (some v)) s

/-- The end of CHK and CHK2: `trap` says whether the exception is taken, from the state with the flags written. -/
def settleCheck (s : State) (own : Nat) (ea : Ea) (r : Except Stop (Bool × State)) :
    Host.Outcome State Fault Refusal :=
  match r with
  | .error stop => finish s (.error stop)
  | .ok (trap, t) =>
    if trap then takeException (.chk (s.pcPlus (own + eaLen ea)) t.ccr) t
    else .next (advanceEa t own ea)

/-- The test of CHK against zero and the bound (R351): whether it traps and the state with the flags written: Z, V and C
free, N 1 below zero, 0 above the bound, free in bounds. -/
def checkBound (s : State) (sz : Size) (v bound : Long) : Bool × State :=
  let (z, s) := drawBit s
  let (o, s) := drawBit s
  let (c, s) := drawBit s
  if sval sz v < 0 then (true, s.setCcr { x := s.ccr.x, n := true, z := z, v := o, c := c })
  else if sval sz v > sval sz bound then (true, s.setCcr { x := s.ccr.x, n := false, z := z, v := o, c := c })
  else
    let (n, s) := drawBit s
    (false, s.setCcr { x := s.ccr.x, n := n, z := z, v := o, c := c })

/-- CHK at a size (R351). -/
def chkOperand (sz : Size) (r : RegNum) (ea : Ea) (s : State) : Host.Outcome State Fault Refusal :=
  settleCheck s 1 ea (do
    let (bound, t) ← eaRead s sz 1 ea
    return checkBound t sz (t.getD r) bound)

/-- `CHK.W <ea>,Dn` (R351). -/
def execChkW (r : RegNum) (ea : Ea) (s : State) : Host.Outcome State Fault Refusal := chkOperand .word r ea s

/-- `CHK.L <ea>,Dn` (R351). -/
def execChkL (r : RegNum) (ea : Ea) (s : State) : Host.Outcome State Fault Refusal := chkOperand .long r ea s

/-- `CHK2 <ea>,Rn` (R352). -/
def execChk2 (sz : Size) (rn : GReg) (ea : Ea) (s : State) : Host.Outcome State Fault Refusal :=
  settleCheck s 2 ea (do
    let (b, t) ← readBounds s sz 2 ea
    return ((boundsFlags t sz rn b.1 b.2).ccr.c, boundsFlags t sz rn b.1 b.2))

/-- CALLM (R380): a page without a format, so no word decodes to it; called by name it is refused. -/
def callm (_ : State) : Host.Outcome State Fault Refusal := .refused .callmStub

end Sys2Proof.Machine
end

