-- ==== Sys2Proof/Machine/Dispatch.lean ====
section
/-! DEFINITION. One arm per instruction: each is one direct call of its meaning. -/

namespace Sys2Proof.Machine

/-- What an instruction does, in the state whose pc is at its operation word. -/
def exec (i : Instr) (s : State) : Host.Outcome State Fault Refusal :=
  match i with
  | .addToReg sz r ea => Sys2Proof.Machine.execAddToReg sz r ea s
  | .addToMem sz r ea => Sys2Proof.Machine.execAddToMem sz r ea s
  | .adda isLong a ea => Sys2Proof.Machine.execAdda isLong a ea s
  | .addi v ea => Sys2Proof.Machine.execAddi v ea s
  | .addq sz q ea => Sys2Proof.Machine.execAddq sz q ea s
  | .addx sz form x y => Sys2Proof.Machine.execAddx sz form x y s
  | .clr sz ea => Sys2Proof.Machine.execClr sz ea s
  | .cmp sz r ea => Sys2Proof.Machine.execCmp sz r ea s
  | .cmpa isLong a ea => Sys2Proof.Machine.execCmpa isLong a ea s
  | .cmpi v ea => Sys2Proof.Machine.execCmpi v ea s
  | .cmpm sz x y => Sys2Proof.Machine.execCmpm sz x y s
  | .cmp2 sz rn ea => Sys2Proof.Machine.execCmp2 sz rn ea s
  | .andToReg sz r ea => Sys2Proof.Machine.execAndToReg sz r ea s
  | .andToMem sz r ea => Sys2Proof.Machine.execAndToMem sz r ea s
  | .andi v ea => Sys2Proof.Machine.execAndi v ea s
  | .aslReg sz count r => Sys2Proof.Machine.execAslReg sz count r s
  | .aslMem ea => Sys2Proof.Machine.execAslMem ea s
  | .asrReg sz count r => Sys2Proof.Machine.execAsrReg sz count r s
  | .asrMem ea => Sys2Proof.Machine.execAsrMem ea s
  | .btstReg r ea => Sys2Proof.Machine.execBtstReg r ea s
  | .btstImm n ea => Sys2Proof.Machine.execBtstImm n ea s
  | .bchgReg r ea => Sys2Proof.Machine.execBchgReg r ea s
  | .bchgImm n ea => Sys2Proof.Machine.execBchgImm n ea s
  | .bclrReg r ea => Sys2Proof.Machine.execBclrReg r ea s
  | .bclrImm n ea => Sys2Proof.Machine.execBclrImm n ea s
  | .bsetReg r ea => Sys2Proof.Machine.execBsetReg r ea s
  | .bsetImm n ea => Sys2Proof.Machine.execBsetImm n ea s
  | .bftst p ea => Sys2Proof.Machine.execBftst p ea s
  | .bfextu p dn ea => Sys2Proof.Machine.execBfextu p dn ea s
  | .bfchg p ea => Sys2Proof.Machine.execBfchg p ea s
  | .bfexts p dn ea => Sys2Proof.Machine.execBfexts p dn ea s
  | .bfclr p ea => Sys2Proof.Machine.execBfclr p ea s
  | .bfffo p dn ea => Sys2Proof.Machine.execBfffo p dn ea s
  | .bfset p ea => Sys2Proof.Machine.execBfset p ea s
  | .bfins p dn ea => Sys2Proof.Machine.execBfins p dn ea s
  | .abcd form x y => Sys2Proof.Machine.execAbcd form x y s
  | .bcc c off => Sys2Proof.Machine.execBcc c off s
  | .bra off => Sys2Proof.Machine.execBra off s
  | .bsr off => Sys2Proof.Machine.execBsr off s
  | .andiToSr v => Sys2Proof.Machine.execAndiToSr v s
  | .andiToCcr v => Sys2Proof.Machine.execAndiToCcr v s
  | .bkpt v => Sys2Proof.Machine.execBkpt v s
  | .chkW r ea => Sys2Proof.Machine.execChkW r ea s
  | .chkL r ea => Sys2Proof.Machine.execChkL r ea s
  | .chk2 sz rn ea => Sys2Proof.Machine.execChk2 sz rn ea s
  | .cas sz du dc ea => Sys2Proof.Machine.execCas sz du dc ea s
  | .cas2W p1 p2 => Sys2Proof.Machine.execCas2W p1 p2 s
  | .cas2L p1 p2 => Sys2Proof.Machine.execCas2L p1 p2 s
  | .cpBcc id isLong cond => Sys2Proof.Machine.execCpBcc id isLong cond s
  | .cpDBcc id r => Sys2Proof.Machine.execCpDBcc id r s
  | .cpGen id field => Sys2Proof.Machine.execCpGen id field s
  | .cpRestore id field => Sys2Proof.Machine.execCpRestore id field s
  | .cpSave id field => Sys2Proof.Machine.execCpSave id field s
  | .cpScc id field => Sys2Proof.Machine.execCpScc id field s

end Sys2Proof.Machine
end

