-- ==== Sys2Proof/Machine/Cycle.lean ====
section
/-! DEFINITION. One step of the machine around `exec` (spec/60_exceptions.md rules R422, R423, R430, R431, R452;
spec/70_reset_and_hazards.md rule R480). -/

namespace Sys2Proof.Machine

/-- Is a request taken (R430): above the mask, or level 7 on its rise? -/
def irqTaken (mask last level : BitVec 3) : Bool :=
  decide (level.toNat > mask.toNat) || (level == 7 && last != 7)

/-- The interrupt test of a step (R423 step 2, R430): the next sample is used up; none left is level 0. -/
def sampleIrq (s : State) : Option Exc × State :=
  match s.irq with
  | [] => (none, { s with irqLast := 0 })
  | r :: rs =>
    let t := { s with irq := rs, irqLast := r.level }
    if irqTaken s.irqMask s.irqLast r.level then (some (.interrupt r.level (r.ack.vector r.level)), t) else (none, t)

/-- Is the instruction turned away before it begins, by the privilege test or line F (R388, R440, group 3 of R435)? -/
def turnedAway (i : Instr) (s : State) : Bool :=
  match i with
  | .andiToSr _ => !s.supervisor
  | .cpBcc id _ _ | .cpDBcc id _ | .cpGen id _ | .cpScc id _ =>
    match cpGate s 0 id false with
    | .ok _    => false
    | .error _ => true
  | .cpRestore id _ | .cpSave id _ =>
    match cpGate s 0 id true with
    | .ok _    => false
    | .error _ => true
  | .addToReg _ _ _ | .addToMem _ _ _ | .adda _ _ _ | .addi _ _ | .addq _ _ _ | .addx _ _ _ _ | .clr _ _ | .cmp _ _ _
  | .cmpa _ _ _ | .cmpi _ _ | .cmpm _ _ _ | .cmp2 _ _ _ | .andToReg _ _ _ | .andToMem _ _ _ | .andi _ _
  | .aslReg _ _ _ | .aslMem _ | .asrReg _ _ _ | .asrMem _ | .btstReg _ _ | .btstImm _ _ | .bchgReg _ _ | .bchgImm _ _
  | .bclrReg _ _ | .bclrImm _ _ | .bsetReg _ _ | .bsetImm _ _ | .bftst _ _ | .bfextu _ _ _ | .bfchg _ _ | .bfexts _ _ _
  | .bfclr _ _ | .bfffo _ _ _ | .bfset _ _ | .bfins _ _ _ | .abcd _ _ _ | .bcc _ _ | .bra _ | .bsr _ | .andiToCcr _
  | .bkpt _ | .chkW _ _ | .chkL _ _ | .chk2 _ _ _ | .cas _ _ _ _ | .cas2W _ _ | .cas2L _ _ => false

/-- Does the instruction change the flow (T0 of R452): a branch that is taken, wherever it goes
(notes/assumptions/21.md)? The state is the one it begins in. -/
def changesFlow (i : Instr) (s : State) : Bool :=
  match i with
  | .bra _ | .bsr _ => true
  | .bcc c _ => condHolds c s.ccr
  | .cpBcc _ _ _ =>
    match s.cpAnswers with
    | []     => false
    | r :: _ => r.cond
  | .cpDBcc _ n =>
    match s.cpAnswers with
    | []     => false
    | r :: _ => !r.cond && uval .word (s.getD n) != 0
  | .addToReg _ _ _ | .addToMem _ _ _ | .adda _ _ _ | .addi _ _ | .addq _ _ _ | .addx _ _ _ _ | .clr _ _ | .cmp _ _ _
  | .cmpa _ _ _ | .cmpi _ _ | .cmpm _ _ _ | .cmp2 _ _ _ | .andToReg _ _ _ | .andToMem _ _ _ | .andi _ _
  | .aslReg _ _ _ | .aslMem _ | .asrReg _ _ _ | .asrMem _ | .btstReg _ _ | .btstImm _ _ | .bchgReg _ _ | .bchgImm _ _
  | .bclrReg _ _ | .bclrImm _ _ | .bsetReg _ _ | .bsetImm _ _ | .bftst _ _ | .bfextu _ _ _ | .bfchg _ _ | .bfexts _ _ _
  | .bfclr _ _ | .bfffo _ _ _ | .bfset _ _ | .bfins _ _ _ | .abcd _ _ _ | .andiToSr _ | .andiToCcr _ | .bkpt _
  | .chkW _ _ | .chkL _ _ | .chk2 _ _ _ | .cas _ _ _ _ | .cas2W _ _ | .cas2L _ _ | .cpGen _ _ | .cpRestore _ _
  | .cpSave _ _ | .cpScc _ _ => false

/-- Does the instruction end with the trace exception (R452)? The trace bits are those it began with. -/
def traced (i : Instr) (s : State) : Bool :=
  (s.traceAll || (s.traceFlow && changesFlow i s)) && !turnedAway i s

/-- The end of an instruction: the trace exception where a trace bit asks for it (R452). -/
def traceAfter (i : Instr) (s : State) (o : Host.Outcome State Fault Refusal) : Host.Outcome State Fault Refusal :=
  match o with
  | .next t    => if traced i s then takeException (.trace s.pc) t else .next t
  | .fault f   => .fault f
  | .refused r => .refused r

/-- Fetch, decode and execute (R423 steps 3 to 7). -/
def runInstruction (s : State) : Host.Outcome State Fault Refusal :=
  match fetchDecode s with
  | .error stop => finish s (.error stop)
  | .ok i       => traceAfter i s (exec i s)

/-- One step (R423): at `END_PC` the run is over and nothing changes (R480); then the interrupt test; then the
instruction. -/
def cycle (s : State) : Host.Outcome State Fault Refusal :=
  if s.config.endPc = some s.pc then .next s
  else
    match sampleIrq s with
    | (some e, t) => takeException e t
    | (none, t)   => runInstruction t

end Sys2Proof.Machine
end

