-- ==== Sys2Proof/Machine/Step.lean ====
section
/-! DEFINITION. The step function and the host's load, each one call of its definition. -/

namespace Sys2Proof.Machine

/-- One step of the machine (R422, R423). -/
def step (s : State) : Host.Outcome State Fault Refusal := cycle s

/-- The host's load of one numbered instruction where the next step fetches (notes/assumptions/12.md). -/
def State.withFetchWord (s : State) (nbits w : Nat) : State := placeInstruction s nbits w

end Sys2Proof.Machine
end

