-- ==== Sys2Proof/Safety.lean ====
section
/-! DEFINITION. The terms claims are made in: the invariant of a state, what two states share, which registers, flags and
bytes an instruction may change (spec/10_state.md rule R30; spec/20_memory.md rule R71), and how many words it has. -/

namespace Sys2Proof.Machine

/-! ## Safe states and runs -/

/-- The invariant: memory in its canonical form, and no unimplemented bit of the system byte set (R32). -/
def StateInv (s : State) : Prop := Memory.wf s.mem = true ∧ s.sys &&& sysImplemented s.config.cpu = s.sys

/-- A step that neither faults nor refuses (R422). -/
def SafeStep (s : State) : Prop := ∃ t, step s = .next t

/-- `k` safe steps lead from one state to another. -/
def Runs : Nat → State → State → Prop
  | 0, s, t => s = t
  | k + 1, s, t => ∃ u, step s = .next u ∧ Runs k u t

/-! ## What two states share -/

/-- The parameters and the registers no instruction in scope can reach (R33, R485). -/
def SameControl (s t : State) : Prop :=
  t.config = s.config ∧ t.vbr = s.vbr ∧ t.cacr = s.cacr ∧ t.caar = s.caar ∧ t.sfc = s.sfc ∧ t.dfc = s.dfc

/-- The three stack pointers (R24). -/
def SameStacks (s t : State) : Prop := t.usp = s.usp ∧ t.isp = s.isp ∧ t.msp = s.msp

/-- Nothing but the free-value counter and the device log differs: what a read may change (R70). -/
def SameButDevice (s t : State) : Prop := ∃ k l, t = { s with draws := k, deviceLog := l }

/-- The stack pointers differ at most in the one A7 names. -/
def SameInactiveStacks (s t : State) : Prop :=
  ∃ v, t.usp = (s.setSp v).usp ∧ t.isp = (s.setSp v).isp ∧ t.msp = (s.setSp v).msp

/-- Is `b` none of the `n` bytes from `a`, as addresses that reach memory? -/
def Outside (s : State) (a : Long) (n : Nat) (b : Long) : Prop :=
  ∀ k, k < n → s.physical (a + BitVec.ofNat 32 k) ≠ s.physical b

/-- Are the `n` bytes from `a` plain memory outside the program? -/
def PlainRam (s : State) (a : Long) (n : Nat) : Prop :=
  ∀ k, k < n → s.inText (a + BitVec.ofNat 32 k) = false ∧ s.kindAt (a + BitVec.ofNat 32 k) = .ram

/-- May a size be accessed at an address: no misalignment fault and no run past the top (R61, R67)? -/
def Accessible (s : State) (sz : Size) (a : Long) : Prop :=
  (misaligned sz a && s.faultsMisaligned) = false ∧ a.toNat + sz.bytes ≤ 2 ^ 32

/-! ## The operand -/

/-- The operation size of an instruction's `<ea>`. -/
def opSize : Instr → Size
  | .addToReg sz _ _ | .addToMem sz _ _ | .addq sz _ _ | .clr sz _ | .cmp sz _ _ | .cmp2 sz _ _ | .andToReg sz _ _
  | .andToMem sz _ _ | .chk2 sz _ _ | .cas sz _ _ _ | .addx sz _ _ _ | .cmpm sz _ _ | .aslReg sz _ _
  | .asrReg sz _ _ => sz
  | .adda l _ _ | .cmpa l _ _ => wordOrLong l
  | .addi v _ | .cmpi v _ | .andi v _ => v.size
  | .aslMem _ | .asrMem _ | .chkW _ _ | .cas2W _ _ | .andiToSr _ => .word
  | .chkL _ _ | .cas2L _ _ => .long
  | .btstReg _ _ | .btstImm _ _ | .bchgReg _ _ | .bchgImm _ _ | .bclrReg _ _ | .bclrImm _ _ | .bsetReg _ _
  | .bsetImm _ _ | .bftst _ _ | .bfextu _ _ _ | .bfchg _ _ | .bfexts _ _ _ | .bfclr _ _ | .bfffo _ _ _ | .bfset _ _
  | .bfins _ _ _ | .abcd _ _ _ | .bcc _ _ | .bra _ | .bsr _ | .andiToCcr _ | .bkpt _ | .cpBcc _ _ _ | .cpDBcc _ _
  | .cpGen _ _ | .cpRestore _ _ | .cpSave _ _ | .cpScc _ _ => .byte

/-- How many words stand before the extension words of the `<ea>` (R101). -/
def ownLen (i : Instr) : Nat := 1 + (ownWords i).length

/-- How many words an instruction has (R105). Of the coprocessor forms this counts the operation word alone. -/
def instrLen (i : Instr) : Nat :=
  ownLen i + (match instrEa i with
    | some ea => eaLen ea
    | none    => 0)

/-- The state after the register side effect of an effective address (R113, R114). -/
def eaSideEffect (s : State) (sz : Size) : Ea → State
  | .postinc n => s.setA n (s.getA n + stepOf sz n)
  | .predec n  => s.setA n (s.getA n - stepOf sz n)
  | .dreg _ | .areg _ | .ind _ | .disp _ _ | .index _ _ | .absw _ | .absl _ | .pcdisp _ | .pcindex _ | .imm _ => s

/-- Does the effective address name a place in memory? -/
def eaIsMem : Ea → Bool
  | .dreg _ | .areg _ | .imm _ => false
  | .ind _ | .postinc _ | .predec _ | .disp _ _ | .index _ _ | .absw _ | .absl _ | .pcdisp _ | .pcindex _ => true

/-! ## What an instruction may change -/

/-- The data register an `<ea>` names. -/
def eaData : Ea → List RegNum
  | .dreg n => [n]
  | .areg _ | .ind _ | .postinc _ | .predec _ | .disp _ _ | .index _ _ | .absw _ | .absl _ | .pcdisp _ | .pcindex _
  | .imm _ => []

/-- The address register an `<ea>` changes (R113, R114). -/
def eaAddress : Ea → List RegNum
  | .postinc n | .predec n => [n]
  | .dreg _ | .areg _ | .ind _ | .disp _ _ | .index _ _ | .absw _ | .absl _ | .pcdisp _ | .pcindex _ | .imm _ => []

/-- The register of a coprocessor field when the field names this mode. -/
def fieldReg (m : EaMode) (field : BitVec 6) : List RegNum :=
  if eaModeOf field = some m then [field.extractLsb' 0 3] else []

/-- The destination data registers of an instruction. -/
def destData : Instr → List RegNum
  | .addToReg _ r _ | .andToReg _ r _ | .aslReg _ _ r | .asrReg _ _ r | .cpDBcc _ r => [r]
  | .bfextu _ dn _ | .bfexts _ dn _ | .bfffo _ dn _ => [dn]
  | .addi _ ea | .addq _ _ ea | .clr _ ea | .andi _ ea | .bchgReg _ ea | .bchgImm _ ea | .bclrReg _ ea | .bclrImm _ ea
  | .bsetReg _ ea | .bsetImm _ ea | .bfchg _ ea | .bfclr _ ea | .bfset _ ea | .bfins _ _ ea
  | .addToMem _ _ ea | .andToMem _ _ ea | .aslMem ea | .asrMem ea => eaData ea
  | .addx _ .data x _ | .abcd .data x _ => [x]
  | .addx _ .predec _ _ | .abcd .predec _ _ => []
  | .cas _ _ dc ea => dc :: eaData ea
  | .cas2W p1 p2 | .cas2L p1 p2 => [p1.dc, p2.dc]
  | .cpScc _ f => fieldReg .dreg f
  | .adda _ _ _ | .cmp _ _ _ | .cmpa _ _ _ | .cmpi _ _ | .cmpm _ _ _ | .cmp2 _ _ _ | .btstReg _ _ | .btstImm _ _
  | .bftst _ _ | .bcc _ _ | .bra _ | .bsr _ | .andiToSr _ | .andiToCcr _ | .bkpt _ | .chkW _ _ | .chkL _ _
  | .chk2 _ _ _ | .cpBcc _ _ _ | .cpGen _ _ | .cpRestore _ _ | .cpSave _ _ => []

/-- The address register an `<ea>` writes as an operand. -/
def eaAddressDest : Ea → List RegNum
  | .areg n => [n]
  | .dreg _ | .ind _ | .postinc _ | .predec _ | .disp _ _ | .index _ _ | .absw _ | .absl _ | .pcdisp _ | .pcindex _
  | .imm _ => []

/-- The address registers an instruction may change: its destination, the one its addressing mode moves, the stack
pointer of BSR. -/
def destAddress : Instr → List RegNum
  | .adda _ a ea => a :: eaAddress ea
  | .addx _ .predec x y | .abcd .predec x y => [x, y]
  | .cmpm _ x y => [x, y]
  | .addx _ .data _ _ | .abcd .data _ _ => []
  | .bsr _ => [7]
  | .addi _ ea | .addq _ _ ea | .clr _ ea | .andi _ ea | .bchgReg _ ea | .bchgImm _ ea | .bclrReg _ ea | .bclrImm _ ea
  | .bsetReg _ ea | .bsetImm _ ea | .addToMem _ _ ea | .andToMem _ _ ea | .aslMem ea | .asrMem ea | .cas _ _ _ ea =>
    eaAddress ea ++ eaAddressDest ea
  | .addToReg _ _ ea | .cmp _ _ ea | .cmpa _ _ ea | .cmpi _ ea | .cmp2 _ _ ea | .andToReg _ _ ea | .btstReg _ ea
  | .btstImm _ ea | .bftst _ ea | .bfextu _ _ ea | .bfchg _ ea | .bfexts _ _ ea | .bfclr _ ea | .bfffo _ _ ea
  | .bfset _ ea | .bfins _ _ ea | .chkW _ ea | .chkL _ ea | .chk2 _ _ ea => eaAddress ea
  | .cpScc _ f => fieldReg .areg f ++ fieldReg .postinc f ++ fieldReg .predec f
  | .aslReg _ _ _ | .asrReg _ _ _ | .bcc _ _ | .bra _ | .andiToSr _ | .andiToCcr _ | .bkpt _ | .cas2W _ _ | .cas2L _ _
  | .cpBcc _ _ _ | .cpDBcc _ _ | .cpGen _ _ | .cpRestore _ _ | .cpSave _ _ => []

/-- Which flags an instruction leaves unchanged (the `-` entries of R30). -/
structure Keeps where
  x : Bool
  n : Bool
  z : Bool
  v : Bool
  c : Bool
deriving DecidableEq, Repr

/-- All five flags unchanged. -/
def Keeps.all : Keeps := ⟨true, true, true, true, true⟩

/-- No flag unchanged. -/
def Keeps.none : Keeps := ⟨false, false, false, false, false⟩

/-- X alone unchanged. -/
def Keeps.xOnly : Keeps := ⟨true, false, false, false, false⟩

/-- Every flag but Z unchanged. -/
def Keeps.allButZ : Keeps := ⟨true, true, false, true, true⟩

/-- The table of R30. -/
def keptFlags : Instr → Keeps
  | .addToReg _ _ _ | .addToMem _ _ _ | .addi _ _ | .addx _ _ _ _ | .abcd _ _ _ | .andiToCcr _ | .andiToSr _
  | .aslReg _ _ _ | .aslMem _ | .asrReg _ _ _ | .asrMem _ => .none
  | .addq _ _ ea => if ea.mode = .areg then .all else .none
  | .adda _ _ _ | .bcc _ _ | .bra _ | .bsr _ | .bkpt _ | .cpBcc _ _ _ | .cpDBcc _ _ | .cpGen _ _ | .cpRestore _ _
  | .cpSave _ _ | .cpScc _ _ => .all
  | .andToReg _ _ _ | .andToMem _ _ _ | .andi _ _ | .clr _ _ | .cmp _ _ _ | .cmpa _ _ _ | .cmpi _ _ | .cmpm _ _ _
  | .cmp2 _ _ _ | .chkW _ _ | .chkL _ _ | .chk2 _ _ _ | .cas _ _ _ _ | .cas2W _ _ | .cas2L _ _ | .bftst _ _
  | .bfextu _ _ _ | .bfchg _ _ | .bfexts _ _ _ | .bfclr _ _ | .bfffo _ _ _ | .bfset _ _ | .bfins _ _ _ => .xOnly
  | .btstReg _ _ | .btstImm _ _ | .bchgReg _ _ | .bchgImm _ _ | .bclrReg _ _ | .bclrImm _ _ | .bsetReg _ _
  | .bsetImm _ _ => .allButZ

/-- Two sets of flags agree on the flags kept. -/
def Keeps.holds (k : Keeps) (f g : Ccr) : Prop :=
  (k.x = true → g.x = f.x) ∧ (k.n = true → g.n = f.n) ∧ (k.z = true → g.z = f.z) ∧ (k.v = true → g.v = f.v)
    ∧ (k.c = true → g.c = f.c)

/-- Does the instruction, completing without an exception, store nothing (R71)? -/
def storesNothing : Instr → Bool
  | .addToReg _ _ _ | .adda _ _ _ | .cmp _ _ _ | .cmpa _ _ _ | .cmpi _ _ | .cmpm _ _ _ | .cmp2 _ _ _ | .andToReg _ _ _
  | .aslReg _ _ _ | .asrReg _ _ _ | .btstReg _ _ | .btstImm _ _ | .bftst _ _ | .bfextu _ _ _ | .bfexts _ _ _
  | .bfffo _ _ _ | .bcc _ _ | .bra _ | .andiToSr _ | .andiToCcr _ | .bkpt _ | .chkW _ _ | .chkL _ _ | .chk2 _ _ _
  | .cpBcc _ _ _ | .cpDBcc _ _ | .cpGen _ _ | .cpRestore _ _ | .cpSave _ _ => true
  | .addToMem _ _ ea | .addi _ ea | .addq _ _ ea | .clr _ ea | .andToMem _ _ ea | .andi _ ea | .aslMem ea | .asrMem ea
  | .bchgReg _ ea | .bchgImm _ ea | .bclrReg _ ea | .bclrImm _ ea | .bsetReg _ ea | .bsetImm _ ea | .bfchg _ ea
  | .bfclr _ ea | .bfset _ ea | .bfins _ _ ea | .cas _ _ _ ea => !eaIsMem ea
  | .addx _ .data _ _ | .abcd .data _ _ => true
  | .addx _ .predec _ _ | .abcd .predec _ _ => false
  | .bsr _ | .cas2W _ _ | .cas2L _ _ => false
  | .cpScc _ f => eaModeOf f == some .dreg

/-- Does the instruction store its result where its `<ea>` names it, at its operation size (R71)? -/
def storesOperand : Instr → Bool
  | .addToMem _ _ _ | .addi _ _ | .addq _ _ _ | .clr _ _ | .andToMem _ _ _ | .andi _ _ | .aslMem _ | .asrMem _
  | .bchgReg _ _ | .bchgImm _ _ | .bclrReg _ _ | .bclrImm _ _ | .bsetReg _ _ | .bsetImm _ _ | .cas _ _ _ _ => true
  | .addToReg _ _ _ | .adda _ _ _ | .cmp _ _ _ | .cmpa _ _ _ | .cmpi _ _ | .cmpm _ _ _ | .cmp2 _ _ _ | .andToReg _ _ _
  | .aslReg _ _ _ | .asrReg _ _ _ | .btstReg _ _ | .btstImm _ _ | .bftst _ _ | .bfextu _ _ _ | .bfchg _ _
  | .bfexts _ _ _ | .bfclr _ _ | .bfffo _ _ _ | .bfset _ _ | .bfins _ _ _ | .addx _ _ _ _ | .abcd _ _ _ | .bcc _ _
  | .bra _ | .bsr _ | .andiToSr _ | .andiToCcr _ | .bkpt _ | .chkW _ _ | .chkL _ _ | .chk2 _ _ _ | .cas2W _ _
  | .cas2L _ _ | .cpBcc _ _ _ | .cpDBcc _ _ | .cpGen _ _ | .cpRestore _ _ | .cpSave _ _ | .cpScc _ _ => false

/-- The bit field and specification of an instruction that writes a field back (R261). -/
def storesField : Instr → Option (BfSpec × Ea)
  | .bfchg p ea | .bfclr p ea | .bfset p ea | .bfins p _ ea => some (p, ea)
  | .addToReg _ _ _ | .addToMem _ _ _ | .adda _ _ _ | .addi _ _ | .addq _ _ _ | .addx _ _ _ _ | .clr _ _ | .cmp _ _ _
  | .cmpa _ _ _ | .cmpi _ _ | .cmpm _ _ _ | .cmp2 _ _ _ | .andToReg _ _ _ | .andToMem _ _ _ | .andi _ _
  | .aslReg _ _ _ | .aslMem _ | .asrReg _ _ _ | .asrMem _ | .btstReg _ _ | .btstImm _ _ | .bchgReg _ _ | .bchgImm _ _
  | .bclrReg _ _ | .bclrImm _ _ | .bsetReg _ _ | .bsetImm _ _ | .bftst _ _ | .bfextu _ _ _ | .bfexts _ _ _
  | .bfffo _ _ _ | .abcd _ _ _ | .bcc _ _ | .bra _ | .bsr _ | .andiToSr _ | .andiToCcr _ | .bkpt _ | .chkW _ _
  | .chkL _ _ | .chk2 _ _ _ | .cas _ _ _ _ | .cas2W _ _ | .cas2L _ _ | .cpBcc _ _ _ | .cpDBcc _ _ | .cpGen _ _
  | .cpRestore _ _ | .cpSave _ _ | .cpScc _ _ => none

/-- The address the memory form of ADDX and ABCD stores to: A[x] after both predecrements (R74, R164, R290). -/
def predecDest (s : State) (sz : Size) (x y : RegNum) : Long :=
  (s.setA y (s.getA y - stepOf sz y)).getA x - stepOf sz x

/-- The CP-ID of a coprocessor instruction (R388). -/
def coprocId : Instr → Option (BitVec 3)
  | .cpBcc id _ _ | .cpDBcc id _ | .cpGen id _ | .cpRestore id _ | .cpSave id _ | .cpScc id _ => some id
  | .addToReg _ _ _ | .addToMem _ _ _ | .adda _ _ _ | .addi _ _ | .addq _ _ _ | .addx _ _ _ _ | .clr _ _ | .cmp _ _ _
  | .cmpa _ _ _ | .cmpi _ _ | .cmpm _ _ _ | .cmp2 _ _ _ | .andToReg _ _ _ | .andToMem _ _ _ | .andi _ _
  | .aslReg _ _ _ | .aslMem _ | .asrReg _ _ _ | .asrMem _ | .btstReg _ _ | .btstImm _ _ | .bchgReg _ _ | .bchgImm _ _
  | .bclrReg _ _ | .bclrImm _ _ | .bsetReg _ _ | .bsetImm _ _ | .bftst _ _ | .bfextu _ _ _ | .bfchg _ _ | .bfexts _ _ _
  | .bfclr _ _ | .bfffo _ _ _ | .bfset _ _ | .bfins _ _ _ | .abcd _ _ _ | .bcc _ _ | .bra _ | .bsr _ | .andiToSr _
  | .andiToCcr _ | .bkpt _ | .chkW _ _ | .chkL _ _ | .chk2 _ _ _ | .cas _ _ _ _ | .cas2W _ _ | .cas2L _ _ => none

/-- Does the instruction leave the pc elsewhere than at the next instruction when it completes without an exception
(R27), or is its length the coprocessor's (R105)? -/
def branches : Instr → Bool
  | .bcc _ _ | .bra _ | .bsr _ | .cpBcc _ _ _ | .cpDBcc _ _ | .cpGen _ _ | .cpRestore _ _ | .cpSave _ _
  | .cpScc _ _ => true
  | .addToReg _ _ _ | .addToMem _ _ _ | .adda _ _ _ | .addi _ _ | .addq _ _ _ | .addx _ _ _ _ | .clr _ _ | .cmp _ _ _
  | .cmpa _ _ _ | .cmpi _ _ | .cmpm _ _ _ | .cmp2 _ _ _ | .andToReg _ _ _ | .andToMem _ _ _ | .andi _ _
  | .aslReg _ _ _ | .aslMem _ | .asrReg _ _ _ | .asrMem _ | .btstReg _ _ | .btstImm _ _ | .bchgReg _ _ | .bchgImm _ _
  | .bclrReg _ _ | .bclrImm _ _ | .bsetReg _ _ | .bsetImm _ _ | .bftst _ _ | .bfextu _ _ _ | .bfchg _ _ | .bfexts _ _ _
  | .bfclr _ _ | .bfffo _ _ _ | .bfset _ _ | .bfins _ _ _ | .abcd _ _ _ | .andiToSr _ | .andiToCcr _ | .bkpt _
  | .chkW _ _ | .chkL _ _ | .chk2 _ _ _ | .cas _ _ _ _ | .cas2W _ _ | .cas2L _ _ => false

end Sys2Proof.Machine
end

