-- ==== Sys2Proof/Certificates/Slice0/Obligations.lean ====
section
/-! DEFINITION. The statements for the provers: what decoding, memory, exceptions and every instruction of the model do,
each with the rules of spec/ it formalises. -/

open Sys2Proof Sys2Proof.Machine

/-! ## Encoding -/

/-- Every well-formed instruction of every member is read back from its own words, whatever follows them (R101, R102,
R141 step 1). The order of an instruction's words and the extension word formats are marked general knowledge there
(log 33, 35). -/
def Obligations.DecodeEncodeRoundTrip : Prop :=
  ∀ (cpu : Cpu) (i : Instr) (rest : List Word), i.wf cpu = true → decode cpu (encode i ++ rest) = .ok (i, rest)

/-- No operation word is an instance of two rows of the opcode table (R140). -/
def Obligations.OpcodeRowsDisjoint : Prop :=
  ∀ (cpu : Cpu) (w : Word) (p q : Row), p ∈ rows ++ lineFRows → q ∈ rows ++ lineFRows →
    p.fits cpu w = true → q.fits cpu w = true → p = q

/-- Words written out in the Example lines of the pages decode to the instructions they stand for (R160, R162, R170,
R220, R240, R265, R290, R320, R342, R382, R383, R390). -/
def Obligations.ExampleWordsDecode : Prop :=
  decode .mc68000 [0xD081] = .ok (.addToReg .long 0 (.dreg 1), []) ∧
  decode .mc68000 [0x0600, 0x0001] = .ok (.addi (.byte 1) (.dreg 0), []) ∧
  decode .mc68020 [0x02D0, 0x1000] = .ok (.cmp2 .word (.dn 1) (.ind 0), []) ∧
  decode .mc68000 [0xE340] = .ok (.aslReg .word (.imm 1) 0, []) ∧
  decode .mc68000 [0x0340] = .ok (.bchgReg 1 (.dreg 0), []) ∧
  decode .mc68020 [0xE9C0, 0x1204] = .ok (.bfextu ⟨.imm 8, .imm 4⟩ 1 (.dreg 0), []) ∧
  decode .mc68000 [0xC109] = .ok (.abcd .predec 0 1, []) ∧
  decode .mc68000 [0x6700, 0x0100] = .ok (.bcc .eq (.word 0x0100), []) ∧
  decode .mc68000 [0x027C, 0xDFFF] = .ok (.andiToSr 0xDFFF, []) ∧
  decode .mc68020 [0x0CD0, 0x0040] = .ok (.cas .word 1 0 (.ind 0), []) ∧
  decode .mc68020 [0x0EFC, 0x8080, 0x90C1] = .ok (.cas2L ⟨.an 0, 2, 0⟩ ⟨.an 1, 3, 1⟩, []) ∧
  decode .mc68020 [0xF280] = .ok (.cpBcc 1 false 0, [])

/-- Words outside the member's rows stop by name: a word with the pattern, conditions and modes of a 68020 row is
illegal on an older member, whatever follows it (R141 step 2); a word below 1111 that fits no row is refused as not
described on every member (R141 step 4), a 1010 word (R425) and NOP's 4E71, a named-only instruction, among them; a
1111 word raises line F below MC68020 and with CP-ID 0 (R388). That a 68020 row is illegal on an older member, and line
F below MC68020, are marked general knowledge there; the refusal is the spec's decision D8 (log 36). -/
def Obligations.OlderMemberAndLineWordsStop : Prop :=
  ∀ (cpu : Cpu) (w : Word) (ws : List Word),
    (∀ r, cpu.is020 = false → r ∈ rows → r.needs020 = true → r.fits cpu w = true →
      decode cpu (w :: ws) = .error (.illegal w)) ∧
    (w.extractLsb' 12 4 ≠ 15 → (∀ r, r ∈ rows → r.fits cpu w = false) →
      decode cpu (w :: ws) = .error (.notDescribed w)) ∧
    (w.extractLsb' 12 4 = 10 → decode cpu (w :: ws) = .error (.notDescribed w)) ∧
    decode cpu (0x4E71 :: ws) = .error (.notDescribed 0x4E71) ∧
    (w.extractLsb' 12 4 = 15 → (cpu.is020 = false ∨ w.extractLsb' 9 3 = 0) →
      decode cpu (w :: ws) = .error (.lineF w))

/-- The DATA field of ADDQ, bits 11 to 9 of its word, in each of the three sizes: 000 stands for 8, any other value for
itself, zero-extended (R107). -/
def Obligations.QuickDataField : Prop :=
  ∀ (cpu : Cpu) (q n : BitVec 3) (ws : List Word),
    decode cpu ((0b0101#4 ++ q ++ 0b000000#6 ++ n) :: ws) = .ok (.addq .byte q (.dreg n), ws) ∧
    decode cpu ((0b0101#4 ++ q ++ 0b001000#6 ++ n) :: ws) = .ok (.addq .word q (.dreg n), ws) ∧
    decode cpu ((0b0101#4 ++ q ++ 0b010000#6 ++ n) :: ws) = .ok (.addq .long q (.dreg n), ws) ∧
    quickVal 0 = 8 ∧ (q ≠ 0 → (quickVal q).toNat = q.toNat)

/-! ## Memory -/

/-- A read of plain memory gives its bytes, the one at the lowest address the most significant, and changes nothing
(R64, R65). The byte order is the spec's decision D1, from general knowledge (log 9). -/
def Obligations.ReadsAreBigEndian : Prop :=
  ∀ (s : State) (a : Long) (b0 b1 b2 b3 : Byte),
    (∀ k, k < 4 → s.kindAt (a + BitVec.ofNat 32 k) = .ram) →
    s.peek a = some b0 → s.peek (a + 1) = some b1 → s.peek (a + 2) = some b2 → s.peek (a + 3) = some b3 →
    Accessible s .long a →
    memRead s .long a = .ok (b0 ++ b1 ++ b2 ++ b3, s) ∧
    memRead s .word a = .ok (0#16 ++ b0 ++ b1, s) ∧
    memRead s .byte a = .ok (0#24 ++ b0, s)

/-- A write to plain memory always completes; reading there then gives the value at its size, aligned or not, and every
byte outside reads as before (R64, R67, R80). Byte order and the bytewise misaligned access are the spec's decisions D1
and D3 (log 9, 10). -/
def Obligations.WriteThenReadBack : Prop :=
  ∀ (s : State) (sz : Size) (a v : Long), 2 ≤ s.config.addrBits → PlainRam s a sz.bytes → Accessible s sz a →
    ∃ t, memWrite s sz a v = .ok t ∧ memRead t sz a = .ok (trunc sz v, t) ∧
      (∀ b, Outside s a sz.bytes b → t.peek b = s.peek b)

/-- Where an access stops. A fetch at an odd address is an address error on every member (R66), and at an even address
outside the program it is refused (R481). A Word or Long data access at an odd address is an address error below
MC68020 (R67). A Byte read of a byte of plain memory that nothing wrote, and a fetch of one, stops and does not read as
a value (R38, R68), and an instruction that such a read ends is recorded with the address of the byte and its own
(R421, R426); of a byte of an absent region it is a bus error (R70). These stops are the spec's decisions D3, D4, D7,
D13 and D14 (log 6, 10, 12). -/
def Obligations.AccessesThatStop : Prop :=
  ∀ (s : State) (sz : Size) (a v : Long) (rest : Long × State → Except Stop State),
    (isOdd a = true → fetch16 s a = .error (.raise (.addressError a false))) ∧
    (isOdd a = false → (s.inText a && s.inText (a + 1)) = false →
      fetch16 s a = .error (.refuse (.fetchOutsideText a))) ∧
    (isOdd a = true → s.config.misalign = .byCpu → s.config.cpu.is020 = false → sz ≠ .byte →
      memRead s sz a = .error (.raise (.addressError a false)) ∧
      memWrite s sz a v = .error (.raise (.addressError a true))) ∧
    (isOdd a = false → (s.inText a && s.inText (a + 1)) = true → s.peek a = none →
      fetch16 s a = .error (.unwritten a)) ∧
    (s.kindAt a = .ram → s.peek a = none → memRead s .byte a = .error (.unwritten a) ∧
      finish s (memRead s .byte a >>= rest) = .fault (.unwrittenRead a s.pc)) ∧
    (s.kindAt a = .absent → memRead s .byte a = .error (.raise (.busError a false)))

/-- A store that touches a byte of the program is refused when nothing stops it before (R68, R85). The refusal is the
spec's decision D14 (log 12). -/
def Obligations.StoreIntoTextRefused : Prop :=
  ∀ (s : State) (sz : Size) (a v : Long), Accessible s sz a →
    (∀ k, k < sz.bytes → s.kindAt (a + BitVec.ofNat 32 k) ≠ .absent) →
    (∃ k, k < sz.bytes ∧ s.inText (a + BitVec.ofNat 32 k) = true) →
    ∃ b, memWrite s sz a v = .error (.refuse (.storeToText b))

/-! ## Operands -/

/-- The address each memory mode computes, with its register side effect: displacements and absolute words
sign-extended, the step of (An)+ and -(An) the size in bytes and 2 for a Byte through A7, the index whole or its low
word sign-extended and scaled, base and index suppressed, memory indirection before and after the index, a PC-relative
base at the address `pcx` of the first extension word, which stands after the `own` words of the instruction; and how
an operand is then read, from memory, from a register or from the instruction (R69, R106, R111 to R123). Everything in
it but the names, the syntaxes and the counts of extension words is marked general knowledge there (log 33, 34, 35). -/
def Obligations.EffectiveAddressByMode : Prop :=
  ∀ (s : State) (sz : Size) (own : Nat) (pcx base a : Long) (n : RegNum) (w : Word) (d8 : Byte) (im : Imm)
      (x : IndexReg) (bs is : Bool) (bd od : Disp) (ext : IndexExt) (ea : Ea),
    (let step : Long := if sz = .byte ∧ n = 7 then 2 else match sz with | .byte => 1 | .word => 2 | .long => 4
     let idx : Long := (if x.long then s.getR x.reg else ((s.getR x.reg).extractLsb' 0 16).signExtend 32) *
       BitVec.ofNat 32 (2 ^ x.scale.toNat)
     let b : Long := if bs then 0 else base
     let i : Long := if is then 0 else idx
     (eaAddr s sz pcx (.ind n) = .ok (s.getA n, s) ∧
      eaAddr s sz pcx (.postinc n) = .ok (s.getA n, s.setA n (s.getA n + step)) ∧
      eaAddr s sz pcx (.predec n) = .ok (s.getA n - step, s.setA n (s.getA n - step)) ∧
      eaAddr s sz pcx (.disp n w) = .ok (s.getA n + w.signExtend 32, s) ∧
      eaAddr s sz pcx (.absw w) = .ok (w.signExtend 32, s) ∧
      eaAddr s sz pcx (.absl a) = .ok (a, s) ∧
      eaAddr s sz pcx (.pcdisp w) = .ok (pcx + w.signExtend 32, s)) ∧
     ((ea = .index n ext ∧ base = s.getA n) ∨ (ea = .pcindex ext ∧ base = pcx) →
       (ext = .brief x d8 → eaAddr s sz pcx ea = .ok (base + d8.signExtend 32 + idx, s)) ∧
       (ext = .full bs is x bd .none → eaAddr s sz pcx ea = .ok (b + dispVal bd + i, s)) ∧
       (ext = .full bs is x bd (.pre od) → ∀ p u, memRead s .long (b + dispVal bd + i) = .ok (p, u) →
         eaAddr s sz pcx ea = .ok (p + dispVal od, u)) ∧
       (ext = .full bs is x bd (.post od) → ∀ p u, memRead s .long (b + dispVal bd) = .ok (p, u) →
         eaAddr s sz pcx ea = .ok (p + i + dispVal od, u)))) ∧
    (dispVal .null = 0 ∧ dispVal (.word w) = w.signExtend 32 ∧ dispVal (.long a) = a) ∧
    s.pcPlus own = s.pc + BitVec.ofNat 32 (2 * own) ∧
    (∀ u, eaAddr s sz (s.pcPlus own) ea = .ok (a, u) →
      eaDecode s sz (s.pcPlus own) ea = .ok (.mem a, u) ∧ eaRead s sz own ea = memRead u sz a) ∧
    (eaRead s sz own (.dreg n) = .ok (trunc sz (s.getD n), s) ∧ eaRead s sz own (.areg n) = .ok (trunc sz (s.getA n), s) ∧
      eaRead s sz own (.imm im) = .ok (trunc sz (immVal im), s))

/-! ## Exceptions -/

/-- Under `TRAP_MODEL = fault` every exception ends the run as the record of its name, its vector number and the
address of the instruction, for an interrupt of the one not yet started (R421), with the vector numbers of R425, the
format error's of R449, and for an interrupt the number of its acknowledge cycle: the autovector 24 + level, the
device's number, or 24 for a spurious cycle (R430, R448). The terminal fault is the spec's decision D6 (log 14); every
number but 6 is marked general knowledge (log 15, 20). -/
def Obligations.ExceptionRecord : Prop :=
  ∀ (s : State) (next a : Long) (f : Ccr) (w : Word) (b : Option (BitVec 3)) (wr : Bool) (level : BitVec 3)
    (v : Byte), s.config.trapModel = .fault →
    takeException (.chk next f) s = .fault (.exception (.chk next f) 6 s.pc) ∧
    takeException (.illegal w b) s = .fault (.exception (.illegal w b) 4 s.pc) ∧
    takeException (.lineF w) s = .fault (.exception (.lineF w) 11 s.pc) ∧
    takeException (.privilege w) s = .fault (.exception (.privilege w) 8 s.pc) ∧
    takeException (.addressError a wr) s = .fault (.exception (.addressError a wr) 3 s.pc) ∧
    takeException (.busError a wr) s = .fault (.exception (.busError a wr) 2 s.pc) ∧
    takeException (.trace a) s = .fault (.exception (.trace a) 9 a) ∧
    takeException (.interrupt level v) s = .fault (.exception (.interrupt level v) v.toNat s.pc) ∧
    takeException .formatError s = .fault (.exception .formatError 14 s.pc) ∧
    (IrqAck.auto.vector level).toNat = 24 + level.toNat ∧ (IrqAck.device v).vector level = v ∧
    (IrqAck.spurious.vector level).toNat = 24

/-- The state an exception's handler starts in under `TRAP_MODEL = frame`: supervisor state, tracing off, an
interrupt's level in the mask, every other register kept, the pc the long that stands at the exception's vector, read
where it is plain memory (R446). The entry sequence is marked general knowledge there (log 15). -/
def Obligations.HandlerEntryState : Prop :=
  ∀ (e : Exc) (s t : State), enterHandler e s = .ok t →
    t.supervisor = true ∧ t.sr.getLsbD 15 = false ∧ t.sr.getLsbD 14 = false ∧ t.ccr = s.ccr ∧
    (∀ level v, e = .interrupt level v → t.irqMask = level ∧ t.master = false) ∧
    ((∀ level v, e ≠ .interrupt level v) → t.irqMask = s.irqMask ∧ t.master = s.master) ∧
    (∀ n, t.getD n = s.getD n) ∧ t.a = s.a ∧ t.usp = s.usp ∧ SameControl s t ∧
    ((∀ k, k < 4 → s.kindAt (s.vectorBase + BitVec.ofNat 32 (4 * e.vector) + BitVec.ofNat 32 k) = .ram) →
      memRead t .long (s.vectorBase + BitVec.ofNat 32 (4 * e.vector)) = .ok (t.pc, t))

/-- Returning from a handler that has changed nothing restores SR, the PC the frame holds and all three stack pointers
(R446, R447, R449), for every exception that pushes no throwaway frame. Frames and return are marked general knowledge
there (log 15, 41). -/
def Obligations.EntryThenReturn : Prop :=
  ∀ (e : Exc) (s t : State) (w : Word), StateInv s → 4 ≤ s.config.addrBits → throwsAway e s = false →
    PlainRam s ((s.setSys (sysForEntry e s.sys)).sp - 12) 12 → enterHandler e s = .ok t →
    ∃ u, returnFromException w t = .next u ∧ u.sr = s.sr ∧ u.pc = e.stackedPc s ∧ SameStacks s u ∧
      (∀ n, u.getD n = s.getD n) ∧ u.a = s.a

/-- The interrupt test of a step comes before the fetch and uses up one sample: a request above the mask, or level 7
rising, is taken as an interrupt, any other leaves the step to the instruction; with no sample there is no request
(R423 step 2, R430, R431). Level, mask and acknowledge are marked general knowledge there; the list of samples is the
model's (log 20). -/
def Obligations.InterruptTest : Prop :=
  ∀ (s : State) (r : IrqSample) (rs : List IrqSample), s.config.endPc ≠ some s.pc →
    (s.irq = r :: rs → (r.level.toNat > s.irqMask.toNat ∨ (r.level = 7 ∧ s.irqLast ≠ 7)) →
      step s = takeException (.interrupt r.level (r.ack.vector r.level)) { s with irq := rs, irqLast := r.level }) ∧
    (s.irq = r :: rs → ¬ (r.level.toNat > s.irqMask.toNat ∨ (r.level = 7 ∧ s.irqLast ≠ 7)) →
      step s = runInstruction { s with irq := rs, irqLast := r.level }) ∧
    (s.irq = [] → step s = runInstruction { s with irqLast := 0 })

/-! ## The step -/

/-- A step runs the instruction decoded at the pc: away from `END_PC`, with no interrupt requested and no trace bit
set, it is `exec` of that instruction. With T1 set an instruction that leads on ends with the trace exception for its
address, with T0 alone set, from MC68020 on, if it is a branch that is taken; one turned away by the privilege test or
line F does not, and one that stops stays as `exec` has it (R388, R422, R423, R440, R452). What the trace bits do is
marked general knowledge there (log 21). -/
def Obligations.StepRunsDecoded : Prop :=
  ∀ (s : State) (i : Instr),
    (turnedAway i s = true ↔ (s.supervisor = false ∧ ∃ v, i = .andiToSr v) ∨
      ∃ id, coprocId i = some id ∧ (s.config.cpu.is020 = false ∨ id = 0 ∨ id ∉ s.config.coproc ∨
        (s.supervisor = false ∧ ∃ field, i = .cpRestore id field ∨ i = .cpSave id field))) ∧
    (changesFlow i s = true ↔ (∃ d, i = .bra d ∨ i = .bsr d) ∨ (∃ c d, i = .bcc c d ∧ condHolds c s.ccr = true) ∨
      (∃ id isLong cond r rs, i = .cpBcc id isLong cond ∧ s.cpAnswers = r :: rs ∧ r.cond = true) ∨
      (∃ id n r rs, i = .cpDBcc id n ∧ s.cpAnswers = r :: rs ∧ r.cond = false ∧ uval .word (s.getD n) ≠ 0)) ∧
    (s.config.endPc ≠ some s.pc → s.irq = [] → s.irqLast = 0 → fetchDecode s = .ok i →
      step s = traceAfter i s (exec i s) ∧
      (s.sr.getLsbD 15 = false → s.sr.getLsbD 14 = false → step s = exec i s) ∧
      ((∀ t, exec i s ≠ .next t) ∨ turnedAway i s = true → step s = exec i s) ∧
      (∀ t, exec i s = .next t → turnedAway i s = false →
        (s.sr.getLsbD 15 = true ∨
            (s.config.cpu.is020 = true ∧ s.sr.getLsbD 14 = true ∧ changesFlow i s = true) →
          step s = takeException (.trace s.pc) t) ∧
        (s.sr.getLsbD 15 = false → (s.config.cpu.is020 = false ∨ changesFlow i s = false) → step s = .next t)))

/-- The words of a well-formed instruction at the pc are fetched, one by one, as that instruction (R66, R100, R101,
R105). ANDI to SR is tested for privilege before its immediate is fetched. The order of the words is the spec's
decision D19 (log 35), the early privilege test an inference from R423 (log 44). -/
def Obligations.FetchReadsEncoding : Prop :=
  ∀ (s : State) (i : Instr), i.wf s.config.cpu = true →
    (∀ k w, (encode i)[k]? = some w → fetch16 s (s.pcPlus k) = .ok w) →
    (s.supervisor = true ∨ opWord i ≠ 0x027C) → fetchDecode s = .ok i

/-- Every step from every state keeps memory in its canonical form and every unimplemented bit of SR clear (R28, R32).
The canonical form is the model's; the layout of SR is marked general knowledge there (log 6, 7). -/
def Obligations.StepKeepsInvariant : Prop :=
  ∀ s t : State, StateInv s → step s = .next t → StateInv t

/-- The state after reset: the invariant holds, the machine is in supervisor state with the mask at 7 and tracing off
(R45, R471), and memory lists nothing. The register values it holds are the model's: notes/assumptions/2.md to 4.md.
Both passages are marked general knowledge in the spec. -/
def Obligations.ResetState : Prop :=
  StateInv State.reset ∧ State.reset.supervisor = true ∧ State.reset.irqMask = 7 ∧ State.reset.sr.getLsbD 15 = false ∧
  State.reset.sr.getLsbD 14 = false ∧ State.reset.master = false ∧ State.reset.vbr = 0 ∧
  (∀ a, State.reset.peek a = none)

/-- No step changes a parameter or one of the control registers that no instruction in scope reaches (R33, R485). -/
def Obligations.StepKeepsControl : Prop :=
  ∀ s t : State, step s = .next t → SameControl s t

/-- The program text is immutable: no step, not even one that takes an exception, changes a byte of it (R85). The
spec's decision D14 (log 12). -/
def Obligations.TextIsImmutable : Prop :=
  ∀ (s t : State) (a : Long), step s = .next t → s.inText a = true → t.peek a = s.peek a

/-- Under `TRAP_MODEL = fault` a step sets no bit of the system byte: supervisor state is not entered, the mask is not
raised, no trace bit is set (R342, R440, R452). The layout and the meaning of these bits are marked general knowledge
there (log 7). -/
def Obligations.SystemByteOnlyLosesBits : Prop :=
  ∀ s t : State, s.config.trapModel = .fault → step s = .next t →
    ∀ j, 8 ≤ j → j < 16 → t.sr.getLsbD j = true → s.sr.getLsbD j = true

/-- Under `TRAP_MODEL = fault` a step in user state changes no bit of the system byte and neither supervisor stack
pointer (R24, R440). The stack pointer banks and the privilege test are marked general knowledge there (log 7, 8). -/
def Obligations.UserStateIsConfined : Prop :=
  ∀ s t : State, s.config.trapModel = .fault → s.supervisor = false → step s = .next t →
    t.isp = s.isp ∧ t.msp = s.msp ∧ t.supervisor = false ∧
    (∀ j, 8 ≤ j → j < 16 → t.sr.getLsbD j = s.sr.getLsbD j)

/-- An instruction of `k` words that is no branch and no coprocessor form ends at the address `k` words further, where
`k` is the length of its encoding (R27, R100). -/
def Obligations.PcAdvancesByLength : Prop :=
  ∀ (i : Instr) (s t : State), s.config.trapModel = .fault → branches i = false → exec i s = .next t →
    t.pc = s.pc + BitVec.ofNat 32 (2 * (encode i).length)

/-! ## Frames -/

/-- An instruction that completes changes no data register but its destinations (R20, R21): stated for every
instruction and whatever `TRAP_MODEL` is. -/
def Obligations.DataRegisterFrame : Prop :=
  ∀ (i : Instr) (s t : State) (n : RegNum), exec i s = .next t → n ∉ destData i → t.getD n = s.getD n

/-- An instruction that completes changes no address register but its destination, the one its addressing mode moves
and the stack pointer of BSR; of the three stack pointers it changes at most the one A7 names (R22, R24, R113, R114,
R322). The stack pointer banks and the steps of the modes are marked general knowledge there (log 8, 34). -/
def Obligations.AddressRegisterFrame : Prop :=
  ∀ (i : Instr) (s t : State), s.config.trapModel = .fault → exec i s = .next t →
    (∀ n, n ≠ 7 → n ∉ destAddress i → ∀ h : n.toNat < 7, t.a[n.toNat] = s.a[n.toNat]) ∧
    SameInactiveStacks s t ∧ (7 ∉ destAddress i → SameStacks s t)

/-- An instruction that completes leaves unchanged the flags R30 marks so, and every other bit of SR unless it is ANDI
to SR (R30, R31). -/
def Obligations.FlagFrame : Prop :=
  ∀ (i : Instr) (s t : State), s.config.trapModel = .fault → exec i s = .next t →
    (keptFlags i).holds s.ccr t.ccr ∧
    ((∀ v, i ≠ .andiToSr v) → ∀ j, 8 ≤ j → j < 16 → t.sr.getLsbD j = s.sr.getLsbD j)

/-- A form that stores nothing leaves every byte of memory as it was (R71). -/
def Obligations.MemoryFrameNoStore : Prop :=
  ∀ (i : Instr) (s t : State) (b : Long), s.config.trapModel = .fault → storesNothing i = true → exec i s = .next t →
    t.peek b = s.peek b

/-- ADD and AND to memory, ADDI, ADDQ, ANDI, CLR, ASL and ASR on memory, BCHG, BCLR, BSET and CAS store at most the
bytes of their size at the address of their operand (R71, R124). -/
def Obligations.MemoryFrameOperand : Prop :=
  ∀ (i : Instr) (ea : Ea) (s t u : State) (a b : Long), storesOperand i = true → instrEa i = some ea →
    eaAddr s (opSize i) (s.pcPlus (ownLen i)) ea = .ok (a, u) → exec i s = .next t →
    Outside s a (opSize i).bytes b → t.peek b = s.peek b

/-- ADDX and ABCD with predecrement store at most at A[x] after both decrements, BSR at most at the four bytes below
A7, CAS2 at most at its two addresses, cpScc at most at the byte of its operand (R71, R74, R322, R383, R395). The order
of the two operands is the spec's decision D23 (log 39). -/
def Obligations.MemoryFrameRegisterAddressed : Prop :=
  ∀ (s t : State) (b : Long),
    (∀ sz x y, exec (.addx sz .predec x y) s = .next t → Outside s (predecDest s sz x y) sz.bytes b →
      t.peek b = s.peek b) ∧
    (∀ x y, exec (.abcd .predec x y) s = .next t → Outside s (predecDest s .byte x y) 1 b → t.peek b = s.peek b) ∧
    (∀ off, exec (.bsr off) s = .next t → Outside s (s.sp - 4) 4 b → t.peek b = s.peek b) ∧
    (∀ p q, exec (.cas2W p q) s = .next t → Outside s (s.getR p.rn) 2 b → Outside s (s.getR q.rn) 2 b →
      t.peek b = s.peek b) ∧
    (∀ p q, exec (.cas2L p q) s = .next t → Outside s (s.getR p.rn) 4 b → Outside s (s.getR q.rn) 4 b →
      t.peek b = s.peek b) ∧
    (∀ id field r rs ea a u, s.config.trapModel = .fault → s.cpAnswers = r :: rs →
      fetchParse s (takeEa s.config.cpu .byte field) maxWords (s.pcPlus (2 + r.k)) [] = .ok ea →
      eaAddr { s with cpAnswers := rs } .byte (s.pcPlus (2 + r.k)) ea = .ok (a, u) →
      exec (.cpScc id field) s = .next t → Outside s a 1 b → t.peek b = s.peek b)

/-- BFCHG, BFCLR, BFSET and BFINS on memory store at most the one to five bytes that hold the field (R71, R261). The
bytes touched are marked general knowledge there (log 30). -/
def Obligations.MemoryFrameBitField : Prop :=
  ∀ (i : Instr) (p : BfSpec) (ea : Ea) (s t u : State) (ba b : Long) (bo nb : Nat),
    storesField i = some (p, ea) → bfLocate s p ea = .ok (.mem ba bo nb, u) → exec i s = .next t →
    1 ≤ nb ∧ nb ≤ 5 ∧ (Outside s ba nb b → t.peek b = s.peek b)

/-! ## Flags -/

/-- The flags of an addition and of a comparison: carry is the unsigned result leaving the size, overflow the signed
result leaving it, borrow the unsigned order, and X follows the carry of an addition and is kept by a comparison (R12,
R171). The formulas of R12 are marked as derived there. -/
def Obligations.ArithmeticFlagsExact : Prop :=
  ∀ (sz : Size) (src dst : Long) (old : Ccr),
    ((addFlags sz src dst).c = true ↔ uval sz (src + dst) ≠ uval sz src + uval sz dst) ∧
    ((addFlags sz src dst).v = true ↔ sval sz (src + dst) ≠ sval sz src + sval sz dst) ∧
    (addFlags sz src dst).x = (addFlags sz src dst).c ∧
    ((addFlags sz src dst).n = true ↔ sval sz (src + dst) < 0) ∧
    ((addFlags sz src dst).z = true ↔ uval sz (src + dst) = 0) ∧
    ((cmpFlags sz src dst old).c = true ↔ uval sz dst < uval sz src) ∧
    ((cmpFlags sz src dst old).v = true ↔ sval sz (dst - src) ≠ sval sz dst - sval sz src) ∧
    ((cmpFlags sz src dst old).z = true ↔ uval sz dst = uval sz src) ∧
    ((cmpFlags sz src dst old).n = true ↔ sval sz (dst - src) < 0) ∧
    (cmpFlags sz src dst old).x = old.x

/-- `out_of_bounds`: the signed test where the bounds are ordered as signed numbers, else the unsigned one where they
are ordered as unsigned numbers, else free; the two agree where both apply, and every answer is that of the one modular
test (R172). The definition is the spec's decision D26 (log 29). -/
def Obligations.OutOfBoundsIsModular : Prop :=
  ∀ (sz : Size) (r lo hi : Long),
    (sval sz lo ≤ sval sz hi →
      outOfBounds sz r lo hi = some (decide (sval sz r < sval sz lo ∨ sval sz r > sval sz hi))) ∧
    (¬ sval sz lo ≤ sval sz hi → uval sz lo ≤ uval sz hi →
      outOfBounds sz r lo hi = some (decide (uval sz r < uval sz lo ∨ uval sz r > uval sz hi))) ∧
    (¬ sval sz lo ≤ sval sz hi → ¬ uval sz lo ≤ uval sz hi → outOfBounds sz r lo hi = none) ∧
    (sval sz lo ≤ sval sz hi → uval sz lo ≤ uval sz hi →
      ((sval sz r < sval sz lo ∨ sval sz r > sval sz hi) ↔ (uval sz r < uval sz lo ∨ uval sz r > uval sz hi))) ∧
    (∀ c, outOfBounds sz r lo hi = some c → c = decide (uval sz (r - lo) > uval sz (hi - lo)))

/-- The flags of a logical operation: X not affected, N the most significant bit of the result, Z set if the result is
zero, V and C cleared (R202). -/
def Obligations.LogicFlagRule : Prop :=
  ∀ (sz : Size) (res : Long) (old : Ccr),
    (logicFlags sz res old).x = old.x ∧ (logicFlags sz res old).n = res.getLsbD (sz.bits - 1) ∧
    ((logicFlags sz res old).z = true ↔ ∀ j, j < sz.bits → res.getLsbD j = false) ∧
    (logicFlags sz res old).v = false ∧ (logicFlags sz res old).c = false

/-! ## Results: arithmetic and logic -/

/-- ADD in both directions and ADDI complete whenever their operand can be read and, for a memory destination, written:
the sum at the size goes to the destination, the flags are those of the addition, the pc moves past the words (R160,
R162). -/
def Obligations.AddCompletes : Prop :=
  ∀ (s u v t : State) (sz : Size) (r : RegNum) (im : Imm) (ea : Ea) (loc : Loc) (x : Long),
    (eaRead s sz 1 ea = .ok (x, u) →
      exec (.addToReg sz r ea) s = .next (((u.setDLow sz r (x + u.getD r)).setCcr (addFlags sz x (u.getD r))).setPc
        (s.pc + BitVec.ofNat 32 (2 * (1 + eaLen ea))))) ∧
    (eaDecode s sz (s.pcPlus 1) ea = .ok (loc, u) → eaGet u sz loc = .ok (x, v) →
      eaPut v sz loc (trunc sz (s.getD r + x)) = .ok t →
      exec (.addToMem sz r ea) s = .next ((t.setCcr (addFlags sz (s.getD r) x)).setPc
        (s.pc + BitVec.ofNat 32 (2 * (1 + eaLen ea))))) ∧
    (eaDecode s im.size (s.pcPlus (1 + immLen im.size)) ea = .ok (loc, u) → eaGet u im.size loc = .ok (x, v) →
      eaPut v im.size loc (trunc im.size (immVal im + x)) = .ok t →
      exec (.addi im ea) s = .next ((t.setCcr (addFlags im.size (immVal im) x)).setPc
        (s.pc + BitVec.ofNat 32 (2 * (1 + immLen im.size + eaLen ea)))))

/-- ADDA adds the sign-extended source to the whole register, read after the source, and changes no flag; ADDQ adds 1
to 8 to its destination, to an address register whole and with no flag changed (R161, R163). That ADDA reads its
register after the source is the spec's decision D23, the model's choice (log 39). -/
def Obligations.AddressAndQuickAddComplete : Prop :=
  ∀ (s u v t : State) (sz : Size) (isLong : Bool) (n : RegNum) (q : BitVec 3) (ea : Ea) (loc : Loc) (x : Long),
    (eaRead s (wordOrLong isLong) 1 ea = .ok (x, u) →
      exec (.adda isLong n ea) s = .next ((u.setA n (u.getA n + sext (wordOrLong isLong) x)).setPc
        (s.pc + BitVec.ofNat 32 (2 * (1 + eaLen ea))))) ∧
    exec (.addq sz q (.areg n)) s = .next ((s.setA n (s.getA n + quickVal q)).setPc (s.pc + 2)) ∧
    ((∀ m, ea ≠ .areg m) → eaDecode s sz (s.pcPlus 1) ea = .ok (loc, u) → eaGet u sz loc = .ok (x, v) →
      eaPut v sz loc (trunc sz (quickVal q + x)) = .ok t →
      exec (.addq sz q ea) s = .next ((t.setCcr (addFlags sz (quickVal q) x)).setPc
        (s.pc + BitVec.ofNat 32 (2 * (1 + eaLen ea)))))

/-- ADDX adds both operands and X, on registers always, on memory whenever both operands can be read and the second
written. Its flags: X and C the carry out of the exact sum, V that the exact signed sum leaves the size, N the sign of
the result, Z cleared by a result that is not zero and else unchanged (R12, R164). The order of the memory operands is
the spec's decision D23 (log 39). -/
def Obligations.AddxCompletes : Prop :=
  ∀ (s u t : State) (sz : Size) (x y : RegNum) (src dst : Long) (old : Ccr),
    exec (.addx sz .data x y) s = .next (((s.setDLow sz x (addValue sz (s.getD y) (s.getD x) s.ccr.x)).setCcr
      (addxFlags sz (s.getD y) (s.getD x) s.ccr)).setPc (s.pc + 2)) ∧
    (predecPair s sz x y = .ok ((src, dst), u) →
      memWrite u sz (predecDest s sz x y) (addValue sz src dst s.ccr.x) = .ok t →
      exec (.addx sz .predec x y) s = .next ((t.setCcr (addxFlags sz src dst s.ccr)).setPc (s.pc + 2))) ∧
    addValue sz src dst old.x = trunc sz (src + dst + (if old.x then 1 else 0)) ∧
    ((addxFlags sz src dst old).c = true ↔ uval sz src + uval sz dst + (if old.x then 1 else 0) ≥ 2 ^ sz.bits) ∧
    (addxFlags sz src dst old).x = (addxFlags sz src dst old).c ∧
    ((addxFlags sz src dst old).v = true ↔
      sval sz (addValue sz src dst old.x) ≠ sval sz src + sval sz dst + (if old.x then 1 else 0)) ∧
    ((addxFlags sz src dst old).n = true ↔ sval sz (addValue sz src dst old.x) < 0) ∧
    ((addxFlags sz src dst old).z = true ↔ old.z = true ∧ uval sz (addValue sz src dst old.x) = 0)

/-- CLR writes zero and sets Z alone; a memory destination is read first on MC68000 and MC68HC000 and not on the others
(R165). -/
def Obligations.ClrCompletes : Prop :=
  ∀ (s u v t : State) (sz : Size) (n : RegNum) (ea : Ea) (a x : Long),
    exec (.clr sz (.dreg n)) s = .next (((s.setDLow sz n 0).setCcr ⟨s.ccr.x, false, true, false, false⟩).setPc
      (s.pc + 2)) ∧
    (eaAddr s sz (s.pcPlus 1) ea = .ok (a, u) → s.config.cpu ≠ .mc68000 → s.config.cpu ≠ .mc68hc000 →
      memWrite u sz a 0 = .ok t →
      exec (.clr sz ea) s = .next ((t.setCcr ⟨s.ccr.x, false, true, false, false⟩).setPc
        (s.pc + BitVec.ofNat 32 (2 * (1 + eaLen ea))))) ∧
    (eaAddr s sz (s.pcPlus 1) ea = .ok (a, u) → (s.config.cpu = .mc68000 ∨ s.config.cpu = .mc68hc000) →
      memRead u sz a = .ok (x, v) → memWrite v sz a 0 = .ok t →
      exec (.clr sz ea) s = .next ((t.setCcr ⟨s.ccr.x, false, true, false, false⟩).setPc
        (s.pc + BitVec.ofNat 32 (2 * (1 + eaLen ea)))))

/-- CMP, CMPA and CMPI complete whenever their operand can be read: the flags are those of destination minus source and
nothing else changes but the pc; CMPA compares 32 bits with the sign-extended source; CMPM reads the source at A[y],
then the destination at A[x], and moves both registers up (R74, R166, R167, R168, R169). The order of CMPM's operands
is the spec's decision D23 (log 39). -/
def Obligations.CompareCompletes : Prop :=
  ∀ (s u v : State) (sz : Size) (isLong : Bool) (n y : RegNum) (im : Imm) (ea : Ea) (x z : Long),
    (eaRead s sz 1 ea = .ok (x, u) →
      exec (.cmp sz n ea) s = .next ((u.setCcr (cmpFlags sz x (s.getD n) s.ccr)).setPc
        (s.pc + BitVec.ofNat 32 (2 * (1 + eaLen ea))))) ∧
    (eaRead s (wordOrLong isLong) 1 ea = .ok (x, u) →
      exec (.cmpa isLong n ea) s = .next ((u.setCcr (cmpFlags .long (sext (wordOrLong isLong) x) (u.getA n) s.ccr)).setPc
        (s.pc + BitVec.ofNat 32 (2 * (1 + eaLen ea))))) ∧
    (eaRead s im.size (1 + immLen im.size) ea = .ok (x, u) →
      exec (.cmpi im ea) s = .next ((u.setCcr (cmpFlags im.size (immVal im) x s.ccr)).setPc
        (s.pc + BitVec.ofNat 32 (2 * (1 + immLen im.size + eaLen ea))))) ∧
    (memRead s sz (s.getA y) = .ok (x, u) →
      memRead (u.setA y (s.getA y + stepOf sz y)) sz ((s.setA y (s.getA y + stepOf sz y)).getA n) = .ok (z, v) →
      exec (.cmpm sz n y) s = .next (((v.setA n ((s.setA y (s.getA y + stepOf sz y)).getA n + stepOf sz n)).setCcr
        (cmpFlags sz x z s.ccr)).setPc (s.pc + 2)))

/-- CMP2 completes whenever both bounds can be read: Z says that the register equals a bound, C that it is out of
bounds where the bounds are ordered, X and every register but the pc are as the reads left them; N and V are free
(R170). The bounds test is the spec's decision D26 (log 28, 29). -/
def Obligations.Cmp2Completes : Prop :=
  ∀ (s u : State) (sz : Size) (rn : GReg) (ea : Ea) (lo hi : Long), readBounds s sz 2 ea = .ok ((lo, hi), u) →
    ∃ t, exec (.cmp2 sz rn ea) s = .next t ∧ t.pc = s.pc + BitVec.ofNat 32 (2 * (2 + eaLen ea)) ∧
      t.d = s.d ∧ t.a = u.a ∧ SameStacks u t ∧ t.mem = s.mem ∧ t.ccr.x = s.ccr.x ∧
      (t.ccr.z = true ↔
        uval (boundsSize sz rn) (u.getR rn) = uval (boundsSize sz rn) (boundVal sz rn lo) ∨
        uval (boundsSize sz rn) (u.getR rn) = uval (boundsSize sz rn) (boundVal sz rn hi)) ∧
      (∀ c, outOfBounds (boundsSize sz rn) (u.getR rn) (boundVal sz rn lo) (boundVal sz rn hi) = some c →
        t.ccr.c = c)

/-- AND in both directions and ANDI complete whenever their operand can be read and, for a memory destination, written:
the bitwise and goes to the destination with the flags of a logical operation (R200, R201). -/
def Obligations.AndCompletes : Prop :=
  ∀ (s u v t : State) (sz : Size) (r : RegNum) (im : Imm) (ea : Ea) (loc : Loc) (x : Long),
    (eaRead s sz 1 ea = .ok (x, u) →
      exec (.andToReg sz r ea) s = .next (((u.setDLow sz r (x &&& s.getD r)).setCcr
        (logicFlags sz (x &&& s.getD r) s.ccr)).setPc (s.pc + BitVec.ofNat 32 (2 * (1 + eaLen ea))))) ∧
    (eaDecode s sz (s.pcPlus 1) ea = .ok (loc, u) → eaGet u sz loc = .ok (x, v) →
      eaPut v sz loc (x &&& s.getD r) = .ok t →
      exec (.andToMem sz r ea) s = .next ((t.setCcr (logicFlags sz (x &&& s.getD r) s.ccr)).setPc
        (s.pc + BitVec.ofNat 32 (2 * (1 + eaLen ea))))) ∧
    (eaDecode s im.size (s.pcPlus (1 + immLen im.size)) ea = .ok (loc, u) → eaGet u im.size loc = .ok (x, v) →
      eaPut v im.size loc (x &&& immVal im) = .ok t →
      exec (.andi im ea) s = .next ((t.setCcr (logicFlags im.size (x &&& immVal im) s.ccr)).setPc
        (s.pc + BitVec.ofNat 32 (2 * (1 + immLen im.size + eaLen ea)))))

/-! ## Results: shifts -/

/-- ASL and ASR on a register always complete, each by its closed form for every count 0 to 63. The count is the
immediate 1 to 7, 8 for an immediate 000, or a register modulo 64. ASL: the value shifted, C the last bit out and
cleared for 0, X the same and kept for 0, V set if the top `cnt + 1` bits are not all equal. ASR: the signed value
shifted right with its sign copied, C the last bit out and cleared for 0, X the same and kept for 0, V clear (R108,
R220, R221, R222, R223). The two count conventions are marked general knowledge there (log 32). -/
def Obligations.ShiftRegisterClosedForm : Prop :=
  ∀ (s : State) (sz : Size) (count : ShiftCount) (r : RegNum),
    (shiftCount s (.imm 0) = 8 ∧ (∀ c : BitVec 3, c ≠ 0 → shiftCount s (.imm c) = c.toNat) ∧
      shiftCount s (.reg r) = (s.getD r).toNat % 64) ∧
    (∃ t, exec (.aslReg sz count r) s = .next t ∧ t.pc = s.pc + 2 ∧
      t.getD r = mergeLow sz (s.getD r) (s.getD r <<< shiftCount s count) ∧
      t.ccr.c = (decide (0 < shiftCount s count) && decide (shiftCount s count ≤ sz.bits) &&
        (s.getD r).getLsbD (sz.bits - shiftCount s count)) ∧
      t.ccr.x = (if shiftCount s count = 0 then s.ccr.x else t.ccr.c) ∧
      (t.ccr.v = true ↔ ∃ j, 1 ≤ j ∧ j ≤ shiftCount s count ∧
        (trunc sz (s.getD r <<< j)).getLsbD (sz.bits - 1) ≠ (trunc sz (s.getD r)).getLsbD (sz.bits - 1)) ∧
      t.ccr.n = (t.getD r).getLsbD (sz.bits - 1) ∧ (t.ccr.z = true ↔ uval sz (t.getD r) = 0)) ∧
    (∃ t, exec (.asrReg sz count r) s = .next t ∧ t.pc = s.pc + 2 ∧
      t.getD r = mergeLow sz (s.getD r) ((sext sz (s.getD r)).sshiftRight (shiftCount s count)) ∧
      t.ccr.c = (decide (0 < shiftCount s count) &&
        ((sext sz (s.getD r)).sshiftRight (shiftCount s count - 1)).getLsbD 0) ∧
      t.ccr.x = (if shiftCount s count = 0 then s.ccr.x else t.ccr.c) ∧ t.ccr.v = false ∧
      t.ccr.n = (t.getD r).getLsbD (sz.bits - 1) ∧ (t.ccr.z = true ↔ uval sz (t.getD r) = 0))

/-- ASL and ASR on memory complete whenever the word can be read and written: one bit to the left or to the right, C
and X the bit shifted out, V the change of the top bit (R220, R221, R222). -/
def Obligations.ShiftMemoryCompletes : Prop :=
  ∀ (s u v t : State) (ea : Ea) (loc : Loc) (x : Long), eaDecode s .word (s.pcPlus 1) ea = .ok (loc, u) →
    eaGet u .word loc = .ok (x, v) →
    (eaPut v .word loc (trunc .word (x <<< 1)) = .ok t →
      exec (.aslMem ea) s = .next ((t.setCcr ⟨x.getLsbD 15, x.getLsbD 14, isZero .word (x <<< 1),
        x.getLsbD 15 != x.getLsbD 14, x.getLsbD 15⟩).setPc (s.pc + BitVec.ofNat 32 (2 * (1 + eaLen ea))))) ∧
    (eaPut v .word loc (trunc .word ((sext .word x).sshiftRight 1)) = .ok t →
      exec (.asrMem ea) s = .next ((t.setCcr ⟨x.getLsbD 0, x.getLsbD 15, isZero .word ((sext .word x).sshiftRight 1),
        false, x.getLsbD 0⟩).setPc (s.pc + BitVec.ofNat 32 (2 * (1 + eaLen ea)))))

/-! ## Results: bits and bit fields -/

/-- BTST with a register or an immediate number sets Z from the bit, modulo 32 on a data register and modulo 8 on any
other operand, and changes nothing else (R243, R245, R246). -/
def Obligations.BitTestCompletes : Prop :=
  ∀ (s u : State) (r n : RegNum) (k : Byte) (ea : Ea) (x : Long),
    exec (.btstReg r (.dreg n)) s = .next ((s.setCcr { s.ccr with
      z := !(s.getD n).getLsbD ((s.getD r).toNat % 32) }).setPc (s.pc + 2)) ∧
    exec (.btstImm k (.dreg n)) s = .next ((s.setCcr { s.ccr with
      z := !(s.getD n).getLsbD (k.toNat % 32) }).setPc (s.pc + 4)) ∧
    ((∀ m, ea ≠ .dreg m) → eaRead s .byte 1 ea = .ok (x, u) →
      exec (.btstReg r ea) s = .next ((u.setCcr { s.ccr with z := !x.getLsbD ((s.getD r).toNat % 8) }).setPc
        (s.pc + BitVec.ofNat 32 (2 * (1 + eaLen ea))))) ∧
    ((∀ m, ea ≠ .dreg m) → eaRead s .byte 2 ea = .ok (x, u) →
      exec (.btstImm k ea) s = .next ((u.setCcr { s.ccr with z := !x.getLsbD (k.toNat % 8) }).setPc
        (s.pc + BitVec.ofNat 32 (2 * (2 + eaLen ea)))))

/-- BCHG, BCLR and BSET on a data register always complete: bit number modulo 32 inverted, cleared or set, every other
bit kept, Z from the bit before the change (R240, R241, R242, R245, R246). -/
def Obligations.BitChangeOnRegister : Prop :=
  ∀ (s : State) (r n : RegNum) (k : Byte) (i : Instr) (b : Nat) (f : Bool → Bool),
    ((i = .bchgReg r (.dreg n) ∧ b = (s.getD r).toNat % 32 ∧ f = not) ∨
     (i = .bchgImm k (.dreg n) ∧ b = k.toNat % 32 ∧ f = not) ∨
     (i = .bclrReg r (.dreg n) ∧ b = (s.getD r).toNat % 32 ∧ f = fun _ => false) ∨
     (i = .bclrImm k (.dreg n) ∧ b = k.toNat % 32 ∧ f = fun _ => false) ∨
     (i = .bsetReg r (.dreg n) ∧ b = (s.getD r).toNat % 32 ∧ f = fun _ => true) ∨
     (i = .bsetImm k (.dreg n) ∧ b = k.toNat % 32 ∧ f = fun _ => true)) →
    ∃ t, exec i s = .next t ∧ t.pc = s.pc + BitVec.ofNat 32 (2 * ownLen i) ∧
      t.ccr = { s.ccr with z := !(s.getD n).getLsbD b } ∧
      (∀ j, j < 32 → (t.getD n).getLsbD j = if j = b then f ((s.getD n).getLsbD b) else (s.getD n).getLsbD j)

/-- BCHG, BCLR and BSET on memory complete whenever the byte can be read and written: bit number modulo 8 of that byte
inverted, cleared or set, Z from the bit before the change (R240, R241, R242, R244, R245, R246). -/
def Obligations.BitChangeOnMemory : Prop :=
  ∀ (s u v t : State) (r : RegNum) (k : Byte) (ea : Ea) (a x : Long),
    (eaAddr s .byte (s.pcPlus 1) ea = .ok (a, u) → memRead u .byte a = .ok (x, v) →
      (memWrite v .byte a (withBit x ((s.getD r).toNat % 8) (!x.getLsbD ((s.getD r).toNat % 8))) = .ok t →
        exec (.bchgReg r ea) s = .next ((t.setCcr { s.ccr with z := !x.getLsbD ((s.getD r).toNat % 8) }).setPc
          (s.pc + BitVec.ofNat 32 (2 * (1 + eaLen ea))))) ∧
      (memWrite v .byte a (withBit x ((s.getD r).toNat % 8) false) = .ok t →
        exec (.bclrReg r ea) s = .next ((t.setCcr { s.ccr with z := !x.getLsbD ((s.getD r).toNat % 8) }).setPc
          (s.pc + BitVec.ofNat 32 (2 * (1 + eaLen ea))))) ∧
      (memWrite v .byte a (withBit x ((s.getD r).toNat % 8) true) = .ok t →
        exec (.bsetReg r ea) s = .next ((t.setCcr { s.ccr with z := !x.getLsbD ((s.getD r).toNat % 8) }).setPc
          (s.pc + BitVec.ofNat 32 (2 * (1 + eaLen ea)))))) ∧
    (eaAddr s .byte (s.pcPlus 2) ea = .ok (a, u) → memRead u .byte a = .ok (x, v) →
      (memWrite v .byte a (withBit x (k.toNat % 8) (!x.getLsbD (k.toNat % 8))) = .ok t →
        exec (.bchgImm k ea) s = .next ((t.setCcr { s.ccr with z := !x.getLsbD (k.toNat % 8) }).setPc
          (s.pc + BitVec.ofNat 32 (2 * (2 + eaLen ea))))) ∧
      (memWrite v .byte a (withBit x (k.toNat % 8) false) = .ok t →
        exec (.bclrImm k ea) s = .next ((t.setCcr { s.ccr with z := !x.getLsbD (k.toNat % 8) }).setPc
          (s.pc + BitVec.ofNat 32 (2 * (2 + eaLen ea))))) ∧
      (memWrite v .byte a (withBit x (k.toNat % 8) true) = .ok t →
        exec (.bsetImm k ea) s = .next ((t.setCcr { s.ccr with z := !x.getLsbD (k.toNat % 8) }).setPc
          (s.pc + BitVec.ofNat 32 (2 * (2 + eaLen ea))))))

/-- Which bits a bit field is, for every offset and width. The offset is the immediate 0 to 31 or a register's signed
value; the width is the immediate or the register modulo 32, 0 standing for 32. Bit `j` of the field, counted from its
least significant end, lies at offset `q`, the field's offset plus its width minus 1 minus `j`. In a data register that
is bit `31 - q mod 32`. In memory it is bit `7 - q mod 8` of the byte `floor(q / 8)` bytes from the effective address,
below it for a negative `q`, and the field can be read whenever those bytes are plain memory that was written (R260,
R261). The modulus 32 with wrap-around and the floor division are marked general knowledge there (log 30). -/
def Obligations.FieldBits : Prop :=
  ∀ (s u : State) (p : BfSpec) (n : RegNum) (v : BitVec 5) (z : BfField) (ea : Ea) (base : Long),
    (bfOffset s ⟨.imm v, z⟩ = v.toNat ∧ bfOffset s ⟨.reg n, z⟩ = (s.getD n).toInt ∧
      bfWidth s ⟨z, .imm v⟩ = (if v.toNat = 0 then 32 else v.toNat) ∧
      bfWidth s ⟨z, .reg n⟩ = (if (s.getD n).toNat % 32 = 0 then 32 else (s.getD n).toNat % 32)) ∧
    (∃ place buf f, bfRead s p (.dreg n) = .ok ((place, buf, f), s) ∧
      (∀ j, j < bfWidth s p → f.getLsbD j =
        (s.getD n).getLsbD (31 - ((bfOffset s p + bfWidth s p - 1 - j) % 32).toNat)) ∧
      (∀ j, bfWidth s p ≤ j → f.getLsbD j = false)) ∧
    (eaAddr s .byte (s.pcPlus 2) ea = .ok (base, u) →
      (∀ k : Nat, k < bfWidth s p → u.kindAt (base + BitVec.ofInt 32 ((bfOffset s p + k) / 8)) = .ram ∧
        ∃ b, u.peek (base + BitVec.ofInt 32 ((bfOffset s p + k) / 8)) = some b) →
      ∃ place buf f, bfRead s p ea = .ok ((place, buf, f), u) ∧
        (∀ j : Nat, j < bfWidth s p → ∀ b,
          u.peek (base + BitVec.ofInt 32 ((bfOffset s p + bfWidth s p - 1 - j) / 8)) = some b →
          f.getLsbD j = b.getLsbD (7 - ((bfOffset s p + bfWidth s p - 1 - j) % 8).toNat)) ∧
        (∀ j, bfWidth s p ≤ j → f.getLsbD j = false))

/-- BFTST, BFEXTU, BFEXTS and BFFFO complete whenever the field can be read: N and Z from the field, V and C clear; Dn
gets the field zero-extended, sign-extended, or offset plus the position of its first one. On a data register with an
offset outside 0 to 31 BFFFO still completes, and Dn's value is free (R264, R265, R266, R269, R270). The free value is
the spec's decision D27 (log 30). -/
def Obligations.BitFieldReadsComplete : Prop :=
  ∀ (s u : State) (p : BfSpec) (dn : RegNum) (ea : Ea) (place : BfPlace) (buf : BitVec 40) (f : Long),
    bfRead s p ea = .ok ((place, buf, f), u) →
    exec (.bftst p ea) s = .next ((u.setCcr (bfFlags (bfWidth s p) f s.ccr)).setPc
      (s.pc + BitVec.ofNat 32 (2 * (2 + eaLen ea)))) ∧
    exec (.bfextu p dn ea) s = .next (((u.setCcr (bfFlags (bfWidth s p) f s.ccr)).setD dn f).setPc
      (s.pc + BitVec.ofNat 32 (2 * (2 + eaLen ea)))) ∧
    exec (.bfexts p dn ea) s = .next (((u.setCcr (bfFlags (bfWidth s p) f s.ccr)).setD dn
      (if f.getLsbD (bfWidth s p - 1) then f - BitVec.ofNat 32 (2 ^ bfWidth s p) else f)).setPc
      (s.pc + BitVec.ofNat 32 (2 * (2 + eaLen ea)))) ∧
    (bfffoOpen s p ea = false →
      exec (.bfffo p dn ea) s = .next (((u.setCcr (bfFlags (bfWidth s p) f s.ccr)).setD dn
        (BitVec.ofInt 32 (bfOffset s p + leadingZeros (bfWidth s p) f))).setPc
        (s.pc + BitVec.ofNat 32 (2 * (2 + eaLen ea))))) ∧
    (∃ t, exec (.bfffo p dn ea) s = .next t ∧ t.pc = s.pc + BitVec.ofNat 32 (2 * (2 + eaLen ea)) ∧
      t.ccr = bfFlags (bfWidth s p) f s.ccr)

/-- BFCHG, BFCLR, BFSET and BFINS complete whenever the field can be read and written back: the field inverted,
cleared, set, or replaced by the low bits of Dn; N and Z from the old field, for BFINS from the inserted value (R262,
R263, R267, R268, R270). BFINS's flags from the inserted value are marked general knowledge there (log 31). -/
def Obligations.BitFieldWritesComplete : Prop :=
  ∀ (s u t : State) (p : BfSpec) (dn : RegNum) (ea : Ea) (place : BfPlace) (buf : BitVec 40) (f : Long),
    bfRead s p ea = .ok ((place, buf, f), u) →
    (bfWriteBack place (bfReplace buf (bfBelow place (bfWidth s p)) (bfWidth s p) (~~~f)) u = .ok t →
      exec (.bfchg p ea) s = .next ((t.setCcr (bfFlags (bfWidth s p) f s.ccr)).setPc
        (s.pc + BitVec.ofNat 32 (2 * (2 + eaLen ea))))) ∧
    (bfWriteBack place (bfReplace buf (bfBelow place (bfWidth s p)) (bfWidth s p) 0) u = .ok t →
      exec (.bfclr p ea) s = .next ((t.setCcr (bfFlags (bfWidth s p) f s.ccr)).setPc
        (s.pc + BitVec.ofNat 32 (2 * (2 + eaLen ea))))) ∧
    (bfWriteBack place (bfReplace buf (bfBelow place (bfWidth s p)) (bfWidth s p) 0xFFFFFFFF) u = .ok t →
      exec (.bfset p ea) s = .next ((t.setCcr (bfFlags (bfWidth s p) f s.ccr)).setPc
        (s.pc + BitVec.ofNat 32 (2 * (2 + eaLen ea))))) ∧
    (bfWriteBack place (bfReplace buf (bfBelow place (bfWidth s p)) (bfWidth s p)
        (bfLow (bfWidth s p) (s.getD dn))) u = .ok t →
      exec (.bfins p dn ea) s = .next ((t.setCcr (bfFlags (bfWidth s p) (bfLow (bfWidth s p) (s.getD dn)) s.ccr)).setPc
        (s.pc + BitVec.ofNat 32 (2 * (2 + eaLen ea)))))

/-- BFINS completes on a data register, and on memory whenever the bytes of the field are written plain memory outside
the program: the same field then holds the low bits of the inserted register, while every bit outside the field, of the
register or of those bytes, is kept (R261, R267). The wrap-around in a register and the floor division in memory are
marked general knowledge there (log 30). -/
def Obligations.InsertedFieldReadsBack : Prop :=
  ∀ (s u : State) (p : BfSpec) (dn n : RegNum) (ea : Ea) (base : Long),
    (∃ t, exec (.bfins p dn (.dreg n)) s = .next t ∧
      (∀ j, j < bfWidth s p →
        (t.getD n).getLsbD (31 - ((bfOffset s p + bfWidth s p - 1 - j) % 32).toNat) = (s.getD dn).getLsbD j) ∧
      (∀ q, q < 32 → (∀ j, j < bfWidth s p → q ≠ 31 - ((bfOffset s p + bfWidth s p - 1 - j) % 32).toNat) →
        (t.getD n).getLsbD q = (s.getD n).getLsbD q)) ∧
    (3 ≤ s.config.addrBits → eaAddr s .byte (s.pcPlus 2) ea = .ok (base, u) →
      (∀ k : Nat, k < bfWidth s p → PlainRam u (base + BitVec.ofInt 32 ((bfOffset s p + k) / 8)) 1 ∧
        ∃ b, u.peek (base + BitVec.ofInt 32 ((bfOffset s p + k) / 8)) = some b) →
      ∃ t, exec (.bfins p dn ea) s = .next t ∧
        (∀ j : Nat, j < bfWidth s p → ∃ b,
          t.peek (base + BitVec.ofInt 32 ((bfOffset s p + bfWidth s p - 1 - j) / 8)) = some b ∧
          b.getLsbD (7 - ((bfOffset s p + bfWidth s p - 1 - j) % 8).toNat) = (s.getD dn).getLsbD j) ∧
        (∀ q : Int, (q < bfOffset s p ∨ bfOffset s p + bfWidth s p ≤ q) → bfOffset s p / 8 ≤ q / 8 →
          q / 8 ≤ (bfOffset s p + bfWidth s p - 1) / 8 → ∃ b c,
          t.peek (base + BitVec.ofInt 32 (q / 8)) = some b ∧ u.peek (base + BitVec.ofInt 32 (q / 8)) = some c ∧
          b.getLsbD (7 - (q % 8).toNat) = c.getLsbD (7 - (q % 8).toNat)))

/-! ## Results: decimal, flow, status register -/

/-- ABCD on registers always completes; where both bytes are packed BCD the result is packed BCD, and with the carry as
its hundreds it is the decimal sum with X; C is X, Z is cleared by a result that is not zero and else unchanged, and
the upper bits of the destination are kept. Where they are not, the instruction completes with a free result (R290).
What packed BCD is, is marked general knowledge there; the free result is decision D15 (log 27). -/
def Obligations.AbcdOnRegisters : Prop :=
  ∀ (s : State) (x y : RegNum),
    ∃ t, exec (.abcd .data x y) s = .next t ∧ t.pc = s.pc + 2 ∧ t.ccr.x = t.ccr.c ∧
      (t.ccr.z = true ↔ s.ccr.z = true ∧ uval .byte (t.getD x) = 0) ∧
      (t.getD x).extractLsb' 8 24 = (s.getD x).extractLsb' 8 24 ∧
      (bcdValid (s.getD y) = true → bcdValid (s.getD x) = true →
        bcdValid (t.getD x) = true ∧
        bcdVal (t.getD x) + (if t.ccr.c then 100 else 0) =
          bcdVal (s.getD y) + bcdVal (s.getD x) + (if s.ccr.x then 1 else 0))

/-- ABCD on memory completes whenever both bytes can be read, the source below A[y], then the destination below A[x],
and the second be written, which does not depend on the value: a result byte is written, C is X, and Z is cleared by a
result that is not zero and else unchanged. Where both bytes are packed BCD the result is the decimal sum with X and C
its hundreds; where they are not, result and carry are free (R74, R290). The order of the operands is the spec's
decision D23 (log 39), the free result decision D15 (log 27). -/
def Obligations.AbcdOnMemory : Prop :=
  ∀ (s u w : State) (x y : RegNum) (src dst : Long), predecPair s .byte x y = .ok ((src, dst), u) →
    memWrite u .byte (predecDest s .byte x y) 0 = .ok w →
    ∃ res t v, memWrite u .byte (predecDest s .byte x y) res = .ok t ∧ exec (.abcd .predec x y) s = .next v ∧
      v.pc = s.pc + 2 ∧ v.mem = t.mem ∧ v.deviceLog = t.deviceLog ∧ v.d = s.d ∧ v.a = u.a ∧ SameStacks u v ∧
      v.ccr.x = v.ccr.c ∧ (v.ccr.z = true ↔ s.ccr.z = true ∧ uval .byte res = 0) ∧
      (bcdValid src = true → bcdValid dst = true →
        res = bcdPack ((bcdVal src + bcdVal dst + (if s.ccr.x then 1 else 0)) % 100) ∧
        (v.ccr.c = true ↔ 100 ≤ bcdVal src + bcdVal dst + (if s.ccr.x then 1 else 0)))

/-- Bcc and BRA always complete and change the pc alone: to the word after the operation word plus the sign-extended
offset when taken, else to the next instruction; the fourteen conditions are those of the table (R130, R320, R321,
R323). -/
def Obligations.BranchesComplete : Prop :=
  ∀ (s : State) (c : Cond) (off : BranchOff),
    exec (.bra off) s = .next { s with pc := s.pc + 2 + branchVal off } ∧
    exec (.bcc c off) s = .next { s with
      pc := if condHolds c s.ccr then s.pc + 2 + branchVal off
            else s.pc + BitVec.ofNat 32 (2 * (1 + branchLen off)) } ∧
    (condHolds c s.ccr = true ↔ match c with
      | .hi => s.sr.getLsbD 0 = false ∧ s.sr.getLsbD 2 = false
      | .ls => s.sr.getLsbD 0 = true ∨ s.sr.getLsbD 2 = true
      | .cc => s.sr.getLsbD 0 = false
      | .cs => s.sr.getLsbD 0 = true
      | .ne => s.sr.getLsbD 2 = false
      | .eq => s.sr.getLsbD 2 = true
      | .vc => s.sr.getLsbD 1 = false
      | .vs => s.sr.getLsbD 1 = true
      | .pl => s.sr.getLsbD 3 = false
      | .mi => s.sr.getLsbD 3 = true
      | .ge => s.sr.getLsbD 3 = s.sr.getLsbD 1
      | .lt => s.sr.getLsbD 3 ≠ s.sr.getLsbD 1
      | .gt => s.sr.getLsbD 2 = false ∧ s.sr.getLsbD 3 = s.sr.getLsbD 1
      | .le => s.sr.getLsbD 2 = true ∨ s.sr.getLsbD 3 ≠ s.sr.getLsbD 1)

/-- BSR completes whenever the four bytes below A7 are accessible plain memory: A7 moves down by 4, the long there is
the address after the instruction, and the pc is the target (R23, R322, R323). That a push is a predecrement by 4 and a
Long write is marked general knowledge there (log 34). -/
def Obligations.BsrCompletes : Prop :=
  ∀ (s : State) (off : BranchOff), 2 ≤ s.config.addrBits → PlainRam s (s.sp - 4) 4 → Accessible s .long (s.sp - 4) →
    ∃ t, exec (.bsr off) s = .next t ∧ t.sp = s.sp - 4 ∧ t.pc = s.pc + 2 + branchVal off ∧ t.sr = s.sr ∧
      memRead t .long t.sp = .ok (s.pc + BitVec.ofNat 32 (2 * (1 + branchLen off)), t)

/-- ANDI to CCR always completes and touches the low byte alone; ANDI to SR completes in supervisor state and clears
the bits of SR its immediate clears, after which A7 names the stack pointer the new S and M choose: the USP with S
clear, else the MSP where M was set and stays set from MC68020 on, else the ISP; in user state it raises the privilege
violation and changes nothing (R24, R342, R370, R440). Privilege test and stack pointer switch are marked general
knowledge there (log 7, 8). -/
def Obligations.AndiToStatusCompletes : Prop :=
  ∀ (s : State) (v : Word) (b : Byte),
    exec (.andiToCcr b) s = .next ((s.setSr (s.sr &&& (0xFF#8 ++ b))).setPc (s.pc + 4)) ∧
    (s.supervisor = true → exec (.andiToSr v) s = .next ((s.setSr (s.sr &&& v)).setPc (s.pc + 4))) ∧
    (s.supervisor = true → v.getLsbD 13 = false →
      ∃ t, exec (.andiToSr v) s = .next t ∧ t.supervisor = false ∧ t.getA 7 = s.usp) ∧
    (s.supervisor = true → v.getLsbD 13 = true →
      ∃ t, exec (.andiToSr v) s = .next t ∧ t.supervisor = true ∧
        t.getA 7 = if s.config.cpu.is020 && s.sr.getLsbD 12 && v.getLsbD 12 then s.msp else s.isp) ∧
    (s.supervisor = false → exec (.andiToSr v) s = takeException (.privilege 0x027C) s)

/-- BKPT raises the illegal instruction exception on every member, with its number in the record; under `TRAP_MODEL =
frame` it completes at the handler whenever the entry can be made (R350, R421, R446; that no debug hardware answers is
notes/assumptions/26.md). The response is the spec's decision D9, the frame entry marked general knowledge (log 15). -/
def Obligations.BkptTakesException : Prop :=
  ∀ (s t : State) (v : BitVec 3),
    (s.config.trapModel = .fault →
      exec (.bkpt v) s = .fault (.exception (.illegal (0b0100100001001#13 ++ v) (some v)) 4 s.pc)) ∧
    (s.config.trapModel = .frame → enterHandler (.illegal (0b0100100001001#13 ++ v) (some v)) s = .ok t →
      exec (.bkpt v) s = .next t)

/-- CHK in both sizes: with the register at least zero and at most the bound it completes, changing the flags and the
pc alone, X kept; below zero it traps with N set, else above the bound with N clear, and the record holds the next
instruction's address (R351, R425). The stacked address is marked general knowledge there (log 15, 18). -/
def Obligations.ChkChecksBounds : Prop :=
  ∀ (s u : State) (r : RegNum) (ea : Ea) (sz : Size) (i : Instr) (bound : Long),
    ((sz = .word ∧ i = .chkW r ea) ∨ (sz = .long ∧ i = .chkL r ea)) → eaRead s sz 1 ea = .ok (bound, u) →
    (0 ≤ sval sz (s.getD r) → sval sz (s.getD r) ≤ sval sz bound →
      ∃ t, exec i s = .next t ∧ t.pc = s.pc + BitVec.ofNat 32 (2 * (1 + eaLen ea)) ∧ t.d = s.d ∧ t.a = u.a ∧
        SameStacks u t ∧ t.mem = s.mem ∧ t.ccr.x = s.ccr.x) ∧
    ((sval sz (s.getD r) < 0 ∨ sval sz (s.getD r) > sval sz bound) →
      ∃ f t, exec i s = takeException (.chk (s.pc + BitVec.ofNat 32 (2 * (1 + eaLen ea))) f) t ∧
        t.ccr = f ∧ f.x = s.ccr.x ∧ f.n = decide (sval sz (s.getD r) < 0) ∧ t.pc = s.pc ∧ t.d = s.d ∧ t.mem = s.mem ∧
        t.config = s.config)

/-- CHK2 with the register within ordered bounds completes, changing the flags and the pc alone: Z on equality with a
bound, C clear, X kept; out of bounds it traps with those flags and C set; with bounds in neither order C is a free bit
and it traps exactly when that is 1 (R172, R352, R425). The bounds test is the spec's decision D26 (log 18, 29). -/
def Obligations.Chk2ChecksBounds : Prop :=
  ∀ (s u : State) (sz : Size) (rn : GReg) (ea : Ea) (lo hi : Long), readBounds s sz 2 ea = .ok ((lo, hi), u) →
    (outOfBounds (boundsSize sz rn) (u.getR rn) (boundVal sz rn lo) (boundVal sz rn hi) = some false →
      ∃ t, exec (.chk2 sz rn ea) s = .next t ∧ t.pc = s.pc + BitVec.ofNat 32 (2 * (2 + eaLen ea)) ∧ t.d = s.d ∧
        t.a = u.a ∧ SameStacks u t ∧ t.mem = s.mem ∧ t.ccr.x = s.ccr.x ∧ t.ccr.c = false ∧
        (t.ccr.z = true ↔
          uval (boundsSize sz rn) (u.getR rn) = uval (boundsSize sz rn) (boundVal sz rn lo) ∨
          uval (boundsSize sz rn) (u.getR rn) = uval (boundsSize sz rn) (boundVal sz rn hi))) ∧
    (outOfBounds (boundsSize sz rn) (u.getR rn) (boundVal sz rn lo) (boundVal sz rn hi) = some true →
      ∃ f t, exec (.chk2 sz rn ea) s = takeException (.chk (s.pc + BitVec.ofNat 32 (2 * (2 + eaLen ea))) f) t ∧
        t.ccr = f ∧ f.x = s.ccr.x ∧ f.c = true ∧ f.z = false ∧ t.pc = s.pc ∧ t.d = s.d ∧ t.mem = s.mem ∧
        t.config = s.config) ∧
    (outOfBounds (boundsSize sz rn) (u.getR rn) (boundVal sz rn lo) (boundVal sz rn hi) = none →
      ∃ f t, t.ccr = f ∧ f.x = s.ccr.x ∧ f.c = (drawBit u).1 ∧ t.d = s.d ∧ t.a = u.a ∧ SameStacks u t ∧
        t.mem = s.mem ∧ t.config = s.config ∧
        (f.z = true ↔
          uval (boundsSize sz rn) (u.getR rn) = uval (boundsSize sz rn) (boundVal sz rn lo) ∨
          uval (boundsSize sz rn) (u.getR rn) = uval (boundsSize sz rn) (boundVal sz rn hi)) ∧
        (f.c = false → exec (.chk2 sz rn ea) s = .next t ∧ t.pc = s.pc + BitVec.ofNat 32 (2 * (2 + eaLen ea))) ∧
        (f.c = true → t.pc = s.pc ∧ exec (.chk2 sz rn ea) s =
          takeException (.chk (s.pc + BitVec.ofNat 32 (2 * (2 + eaLen ea))) f) t))

/-! ## Results: multiprocessor and coprocessor -/

/-- CAS and CAS2 complete whenever their operands can be read and, on equality, written. CAS: on equality Du goes to
the operand, else the operand to Dc, with the flags of operand minus Dc. CAS2 in both sizes: on equality of both, both
Du are stored, else both operands are loaded into Dc; the flags are those of the first comparison that finds a
difference, else of the second (R382, R383). The order of CAS2's two stores and of its two loads into Dc is the spec's
decision D23, the model's choice (log 39). -/
def Obligations.CompareAndSwapCompletes : Prop :=
  ∀ (s u v w t : State) (sz : Size) (i : Instr) (p q : CasPair) (du dc : RegNum) (ea : Ea) (a x y : Long),
    (eaAddr s sz (s.pcPlus 2) ea = .ok (a, u) → memRead u sz a = .ok (x, v) →
      (uval sz x = uval sz (s.getD dc) → memWrite v sz a (s.getD du) = .ok t →
        exec (.cas sz du dc ea) s = .next ((t.setCcr (cmpFlags sz (s.getD dc) x s.ccr)).setPc
          (s.pc + BitVec.ofNat 32 (2 * (2 + eaLen ea))))) ∧
      (uval sz x ≠ uval sz (s.getD dc) →
        exec (.cas sz du dc ea) s = .next (((v.setDLow sz dc x).setCcr (cmpFlags sz (s.getD dc) x s.ccr)).setPc
          (s.pc + BitVec.ofNat 32 (2 * (2 + eaLen ea)))))) ∧
    (((sz = .word ∧ i = .cas2W p q) ∨ (sz = .long ∧ i = .cas2L p q)) →
      memRead s sz (s.getR p.rn) = .ok (x, u) → memRead u sz (s.getR q.rn) = .ok (y, v) →
      (uval sz x = uval sz (s.getD p.dc) → uval sz y = uval sz (s.getD q.dc) →
        memWrite v sz (s.getR p.rn) (s.getD p.du) = .ok w → memWrite w sz (s.getR q.rn) (s.getD q.du) = .ok t →
        exec i s = .next ((t.setCcr (cmpFlags sz (s.getD q.dc) y s.ccr)).setPc (s.pc + 6))) ∧
      (uval sz x ≠ uval sz (s.getD p.dc) →
        exec i s = .next ((((v.setDLow sz p.dc x).setDLow sz q.dc y).setCcr (cmpFlags sz (s.getD p.dc) x s.ccr)).setPc
          (s.pc + 6))) ∧
      (uval sz x = uval sz (s.getD p.dc) → uval sz y ≠ uval sz (s.getD q.dc) →
        exec i s = .next ((((v.setDLow sz p.dc x).setDLow sz q.dc y).setCcr (cmpFlags sz (s.getD q.dc) y s.ccr)).setPc
          (s.pc + 6))))

/-- cpBcc, cpDBcc and cpScc to a present coprocessor whose answer is given complete: the branch from the address of the
first offset word, the counter decremented and tested against -1, the byte set to FF or 00 (R389, R390, R391, R395).
The answer is an oracle of the spec's decision D10 (log 25). -/
def Obligations.CoprocessorConditionsComplete : Prop :=
  ∀ (s : State) (id : BitVec 3) (r : CpAnswer) (rs : List CpAnswer), s.config.cpu.is020 = true → id ≠ 0 →
    id ∈ s.config.coproc → s.cpAnswers = r :: rs →
    (∀ (isLong : Bool) (cond : BitVec 6) (off : Long), cpOffset s (s.pcPlus (1 + r.k)) isLong = .ok off →
      exec (.cpBcc id isLong cond) s = .next { s with
        cpAnswers := rs
        pc := s.pcPlus (1 + r.k) + (if r.cond then off else if isLong then 4 else 2) }) ∧
    (∀ (n : RegNum) (cw : Word) (off : Long), fetch16 s (s.pcPlus 1) = .ok cw → cw.extractLsb' 6 10 = 0 →
      cpOffset s (s.pcPlus (2 + r.k)) false = .ok off →
      (r.cond = true → exec (.cpDBcc id n) s = .next { s with cpAnswers := rs, pc := s.pcPlus (3 + r.k) }) ∧
      (r.cond = false → exec (.cpDBcc id n) s = .next { s.setDLow .word n (s.getD n - 1) with
        cpAnswers := rs
        pc := if uval .word (s.getD n) = 0 then s.pcPlus (3 + r.k) else s.pcPlus (2 + r.k) + off })) ∧
    (∀ (n : RegNum) (cw : Word), fetch16 s (s.pcPlus 1) = .ok cw → cw.extractLsb' 6 10 = 0 →
      exec (.cpScc id (0b000#3 ++ n)) s = .next { s.setDLow .byte n (if r.cond then 0xFF else 0) with
        cpAnswers := rs
        pc := s.pcPlus (2 + r.k) }) ∧
    (∀ (field : BitVec 6) (ea : Ea) (cw : Word) (u t : State) (a : Long), fetch16 s (s.pcPlus 1) = .ok cw →
      cw.extractLsb' 6 10 = 0 →
      fetchParse s (takeEa s.config.cpu .byte field) maxWords (s.pcPlus (2 + r.k)) [] = .ok ea →
      eaAddr { s with cpAnswers := rs } .byte (s.pcPlus (2 + r.k)) ea = .ok (a, u) →
      memWrite u .byte a (if r.cond then 0xFF else 0) = .ok t →
      exec (.cpScc id field) s = .next (t.setPc (s.pc + BitVec.ofNat 32 (2 * (2 + r.k + eaLen ea)))))

/-- The gate of every coprocessor form: line F below MC68020, with CP-ID 0 and with an id no coprocessor answers; the
privilege violation of cpSAVE and cpRESTORE in user state before the id is looked up; and cpGEN, cpSAVE and cpRESTORE
to a present coprocessor, and a condition it has no answer to, are refused with the id and the instruction, since what
it does is not given. Under `TRAP_MODEL = frame` the line F form completes at the handler whenever the entry can be
made (R388, R389, R392, R393, R394, R446). Line F below MC68020 and with no answer is marked general knowledge there
(log 36). -/
def Obligations.CoprocessorGate : Prop :=
  ∀ (s : State) (id : BitVec 3) (isLong : Bool) (cond field : BitVec 6) (n : RegNum) (i : Instr),
    ((s.config.cpu.is020 = false ∨ id = 0 ∨ (id ∉ s.config.coproc ∧
        (s.supervisor = true ∨ (i ≠ .cpRestore id field ∧ i ≠ .cpSave id field)))) →
      (i = .cpBcc id isLong cond ∨ i = .cpDBcc id n ∨ i = .cpGen id field ∨ i = .cpRestore id field ∨
        i = .cpSave id field ∨ i = .cpScc id field) →
      exec i s = takeException (.lineF (opWord i)) s ∧
      (∀ t, s.config.trapModel = .frame → enterHandler (.lineF (opWord i)) s = .ok t → exec i s = .next t)) ∧
    (s.config.cpu.is020 = true → id ≠ 0 → s.supervisor = false → (i = .cpRestore id field ∨ i = .cpSave id field) →
      exec i s = takeException (.privilege (opWord i)) s) ∧
    (s.config.cpu.is020 = true → id ≠ 0 → id ∈ s.config.coproc →
      (i = .cpGen id field ∨ (s.supervisor = true ∧ (i = .cpRestore id field ∨ i = .cpSave id field)) ∨
        (s.cpAnswers = [] ∧ (i = .cpBcc id isLong cond ∨ i = .cpDBcc id n ∨ i = .cpScc id field))) →
      exec i s = .refused (.coprocessorOpaque id i))
end

