-- ==== Sys2Proof/Laws/Bits.lean ====
section
/-! SUPPORT. What the operations on values at a size read as: truncation, merging, the exact values, one bit. -/

namespace Sys2Proof.Machine

/-- Truncation is the remainder by two to the size. -/
theorem toNat_trunc (sz : Size) (v : Long) : (trunc sz v).toNat = v.toNat % 2 ^ sz.bits := by
  cases sz <;> simp [trunc, Size.bits] <;> have := v.isLt <;> omega

theorem uval_eq_mod (sz : Size) (v : Long) : uval sz v = v.toNat % 2 ^ sz.bits := toNat_trunc sz v

theorem uval_lt (sz : Size) (v : Long) : uval sz v < 2 ^ sz.bits := by
  rw [uval_eq_mod]
  exact Nat.mod_lt _ (Nat.two_pow_pos _)

@[simp] theorem trunc_trunc (sz : Size) (v : Long) : trunc sz (trunc sz v) = trunc sz v := by
  apply BitVec.eq_of_toNat_eq
  simp [toNat_trunc]

/-- Equal unsigned values at a size are equal low bits. -/
theorem uval_inj (sz : Size) (a b : Long) : uval sz a = uval sz b ↔ trunc sz a = trunc sz b := by
  simp [uval, BitVec.toNat_inj]

theorem isZero_iff (sz : Size) (v : Long) : isZero sz v = true ↔ uval sz v = 0 := by
  simp only [isZero, beq_iff_eq, uval, ← BitVec.toNat_inj]
  rfl

@[simp] theorem sext_trunc (sz : Size) (v : Long) : sext sz (trunc sz v) = sext sz v := by
  cases sz <;> simp [sext, trunc, BitVec.extractLsb'_setWidth_of_le]

@[simp] theorem mergeLow_trunc (sz : Size) (old v : Long) : mergeLow sz old (trunc sz v) = mergeLow sz old v := by
  cases sz <;> simp [mergeLow, trunc, BitVec.extractLsb'_setWidth_of_le]

/-- The most significant bit by its number. -/
theorem msb_eq (sz : Size) (v : Long) : msb sz v = v.getLsbD (sz.bits - 1) := by cases sz <;> rfl

theorem getLsbD_trunc (sz : Size) (v : Long) (i : Nat) : (trunc sz v).getLsbD i = (decide (i < sz.bits) && v.getLsbD i) := by
  cases sz <;> simp only [trunc, Size.bits, BitVec.getLsbD_setWidth, BitVec.getLsbD_extractLsb', Nat.zero_add]
  · by_cases h : i < 8
    · simp [h, show i < 32 by omega]
    · simp [h]
  · by_cases h : i < 16
    · simp [h, show i < 32 by omega]
    · simp [h]
  · by_cases h : i < 32
    · simp [h]
    · simp [h, BitVec.getLsbD_of_ge v i (by omega)]

/-- A merged register: the new low bits below the size, the old bits above. -/
theorem getLsbD_mergeLow (sz : Size) (old new : Long) (i : Nat) (h : i < 32) :
    (mergeLow sz old new).getLsbD i = if i < sz.bits then new.getLsbD i else old.getLsbD i := by
  cases sz
  · simp only [mergeLow, Size.bits, BitVec.getLsbD_append, BitVec.getLsbD_extractLsb']
    by_cases h8 : i < 8
    · simp [h8]
    · simp [h8, show i - 8 < 24 by omega, show 8 + (i - 8) = i by omega]
  · simp only [mergeLow, Size.bits, BitVec.getLsbD_append, BitVec.getLsbD_extractLsb']
    by_cases h16 : i < 16
    · simp [h16]
    · simp [h16, show i - 16 < 16 by omega, show 16 + (i - 16) = i by omega]
  · simp [mergeLow, Size.bits, h]

/-- A sum without a carry-in. -/
@[simp] theorem addValue_false (sz : Size) (a b : Long) : addValue sz a b false = trunc sz (a + b) := by
  simp [addValue, bit]

/-- One bit replaced, the others kept. -/
theorem getLsbD_withBit (v : Long) (b : Nat) (x : Bool) (j : Nat) (hj : j < 32) :
    (withBit v b x).getLsbD j = if j = b then x else v.getLsbD j := by
  unfold withBit
  cases x <;> simp [hj] <;> by_cases h : j = b <;> simp [h] <;> omega

/-- Z of a comparison says that both operands are equal at the size. -/
theorem cmpFlags_z (sz : Size) (src dst : Long) (old : Ccr) :
    (cmpFlags sz src dst old).z = true ↔ uval sz dst = uval sz src := by
  simp only [cmpFlags, isZero, subValue, trunc_trunc, beq_iff_eq, uval, ← BitVec.toNat_inj, toNat_trunc]
  rw [BitVec.toNat_sub]
  have := src.isLt
  have := dst.isLt
  cases sz <;> simp [Size.bits] <;> omega

end Sys2Proof.Machine
end

