-- ==== Sys2Proof/Laws/State.lean ====
section
/-! SUPPORT. One lemma per field per update of the state, so that no proof unfolds a record update; and what the
accessors read after each update. -/

namespace Sys2Proof.Machine

/-! ## `setD` -/

@[simp] theorem State.setD_a (s : State) (n : RegNum) (v : Long) : (s.setD n v).a = s.a := rfl
@[simp] theorem State.setD_usp (s : State) (n : RegNum) (v : Long) : (s.setD n v).usp = s.usp := rfl
@[simp] theorem State.setD_isp (s : State) (n : RegNum) (v : Long) : (s.setD n v).isp = s.isp := rfl
@[simp] theorem State.setD_msp (s : State) (n : RegNum) (v : Long) : (s.setD n v).msp = s.msp := rfl
@[simp] theorem State.setD_pc (s : State) (n : RegNum) (v : Long) : (s.setD n v).pc = s.pc := rfl
@[simp] theorem State.setD_sys (s : State) (n : RegNum) (v : Long) : (s.setD n v).sys = s.sys := rfl
@[simp] theorem State.setD_ccr (s : State) (n : RegNum) (v : Long) : (s.setD n v).ccr = s.ccr := rfl
@[simp] theorem State.setD_sr (s : State) (n : RegNum) (v : Long) : (s.setD n v).sr = s.sr := rfl
@[simp] theorem State.setD_vbr (s : State) (n : RegNum) (v : Long) : (s.setD n v).vbr = s.vbr := rfl
@[simp] theorem State.setD_cacr (s : State) (n : RegNum) (v : Long) : (s.setD n v).cacr = s.cacr := rfl
@[simp] theorem State.setD_caar (s : State) (n : RegNum) (v : Long) : (s.setD n v).caar = s.caar := rfl
@[simp] theorem State.setD_sfc (s : State) (n : RegNum) (v : Long) : (s.setD n v).sfc = s.sfc := rfl
@[simp] theorem State.setD_dfc (s : State) (n : RegNum) (v : Long) : (s.setD n v).dfc = s.dfc := rfl
@[simp] theorem State.setD_mem (s : State) (n : RegNum) (v : Long) : (s.setD n v).mem = s.mem := rfl
@[simp] theorem State.setD_deviceLog (s : State) (n : RegNum) (v : Long) : (s.setD n v).deviceLog = s.deviceLog := rfl
@[simp] theorem State.setD_draws (s : State) (n : RegNum) (v : Long) : (s.setD n v).draws = s.draws := rfl
@[simp] theorem State.setD_irq (s : State) (n : RegNum) (v : Long) : (s.setD n v).irq = s.irq := rfl
@[simp] theorem State.setD_irqLast (s : State) (n : RegNum) (v : Long) : (s.setD n v).irqLast = s.irqLast := rfl
@[simp] theorem State.setD_cpAnswers (s : State) (n : RegNum) (v : Long) : (s.setD n v).cpAnswers = s.cpAnswers := rfl
@[simp] theorem State.setD_config (s : State) (n : RegNum) (v : Long) : (s.setD n v).config = s.config := rfl

/-! ## `setPc` -/

@[simp] theorem State.setPc_d (s : State) (v : Long) : (s.setPc v).d = s.d := rfl
@[simp] theorem State.setPc_a (s : State) (v : Long) : (s.setPc v).a = s.a := rfl
@[simp] theorem State.setPc_usp (s : State) (v : Long) : (s.setPc v).usp = s.usp := rfl
@[simp] theorem State.setPc_isp (s : State) (v : Long) : (s.setPc v).isp = s.isp := rfl
@[simp] theorem State.setPc_msp (s : State) (v : Long) : (s.setPc v).msp = s.msp := rfl
@[simp] theorem State.setPc_sys (s : State) (v : Long) : (s.setPc v).sys = s.sys := rfl
@[simp] theorem State.setPc_ccr (s : State) (v : Long) : (s.setPc v).ccr = s.ccr := rfl
@[simp] theorem State.setPc_sr (s : State) (v : Long) : (s.setPc v).sr = s.sr := rfl
@[simp] theorem State.setPc_vbr (s : State) (v : Long) : (s.setPc v).vbr = s.vbr := rfl
@[simp] theorem State.setPc_cacr (s : State) (v : Long) : (s.setPc v).cacr = s.cacr := rfl
@[simp] theorem State.setPc_caar (s : State) (v : Long) : (s.setPc v).caar = s.caar := rfl
@[simp] theorem State.setPc_sfc (s : State) (v : Long) : (s.setPc v).sfc = s.sfc := rfl
@[simp] theorem State.setPc_dfc (s : State) (v : Long) : (s.setPc v).dfc = s.dfc := rfl
@[simp] theorem State.setPc_mem (s : State) (v : Long) : (s.setPc v).mem = s.mem := rfl
@[simp] theorem State.setPc_deviceLog (s : State) (v : Long) : (s.setPc v).deviceLog = s.deviceLog := rfl
@[simp] theorem State.setPc_draws (s : State) (v : Long) : (s.setPc v).draws = s.draws := rfl
@[simp] theorem State.setPc_irq (s : State) (v : Long) : (s.setPc v).irq = s.irq := rfl
@[simp] theorem State.setPc_irqLast (s : State) (v : Long) : (s.setPc v).irqLast = s.irqLast := rfl
@[simp] theorem State.setPc_cpAnswers (s : State) (v : Long) : (s.setPc v).cpAnswers = s.cpAnswers := rfl
@[simp] theorem State.setPc_config (s : State) (v : Long) : (s.setPc v).config = s.config := rfl

/-! ## `setSr` -/

@[simp] theorem State.setSr_d (s : State) (v : BitVec 16) : (s.setSr v).d = s.d := rfl
@[simp] theorem State.setSr_a (s : State) (v : BitVec 16) : (s.setSr v).a = s.a := rfl
@[simp] theorem State.setSr_usp (s : State) (v : BitVec 16) : (s.setSr v).usp = s.usp := rfl
@[simp] theorem State.setSr_isp (s : State) (v : BitVec 16) : (s.setSr v).isp = s.isp := rfl
@[simp] theorem State.setSr_msp (s : State) (v : BitVec 16) : (s.setSr v).msp = s.msp := rfl
@[simp] theorem State.setSr_pc (s : State) (v : BitVec 16) : (s.setSr v).pc = s.pc := rfl
@[simp] theorem State.setSr_vbr (s : State) (v : BitVec 16) : (s.setSr v).vbr = s.vbr := rfl
@[simp] theorem State.setSr_cacr (s : State) (v : BitVec 16) : (s.setSr v).cacr = s.cacr := rfl
@[simp] theorem State.setSr_caar (s : State) (v : BitVec 16) : (s.setSr v).caar = s.caar := rfl
@[simp] theorem State.setSr_sfc (s : State) (v : BitVec 16) : (s.setSr v).sfc = s.sfc := rfl
@[simp] theorem State.setSr_dfc (s : State) (v : BitVec 16) : (s.setSr v).dfc = s.dfc := rfl
@[simp] theorem State.setSr_mem (s : State) (v : BitVec 16) : (s.setSr v).mem = s.mem := rfl
@[simp] theorem State.setSr_deviceLog (s : State) (v : BitVec 16) : (s.setSr v).deviceLog = s.deviceLog := rfl
@[simp] theorem State.setSr_draws (s : State) (v : BitVec 16) : (s.setSr v).draws = s.draws := rfl
@[simp] theorem State.setSr_irq (s : State) (v : BitVec 16) : (s.setSr v).irq = s.irq := rfl
@[simp] theorem State.setSr_irqLast (s : State) (v : BitVec 16) : (s.setSr v).irqLast = s.irqLast := rfl
@[simp] theorem State.setSr_cpAnswers (s : State) (v : BitVec 16) : (s.setSr v).cpAnswers = s.cpAnswers := rfl
@[simp] theorem State.setSr_config (s : State) (v : BitVec 16) : (s.setSr v).config = s.config := rfl

/-! ## `setSys` -/

@[simp] theorem State.setSys_d (s : State) (v : Byte) : (s.setSys v).d = s.d := rfl
@[simp] theorem State.setSys_a (s : State) (v : Byte) : (s.setSys v).a = s.a := rfl
@[simp] theorem State.setSys_usp (s : State) (v : Byte) : (s.setSys v).usp = s.usp := rfl
@[simp] theorem State.setSys_isp (s : State) (v : Byte) : (s.setSys v).isp = s.isp := rfl
@[simp] theorem State.setSys_msp (s : State) (v : Byte) : (s.setSys v).msp = s.msp := rfl
@[simp] theorem State.setSys_pc (s : State) (v : Byte) : (s.setSys v).pc = s.pc := rfl
@[simp] theorem State.setSys_ccr (s : State) (v : Byte) : (s.setSys v).ccr = s.ccr := rfl
@[simp] theorem State.setSys_vbr (s : State) (v : Byte) : (s.setSys v).vbr = s.vbr := rfl
@[simp] theorem State.setSys_cacr (s : State) (v : Byte) : (s.setSys v).cacr = s.cacr := rfl
@[simp] theorem State.setSys_caar (s : State) (v : Byte) : (s.setSys v).caar = s.caar := rfl
@[simp] theorem State.setSys_sfc (s : State) (v : Byte) : (s.setSys v).sfc = s.sfc := rfl
@[simp] theorem State.setSys_dfc (s : State) (v : Byte) : (s.setSys v).dfc = s.dfc := rfl
@[simp] theorem State.setSys_mem (s : State) (v : Byte) : (s.setSys v).mem = s.mem := rfl
@[simp] theorem State.setSys_deviceLog (s : State) (v : Byte) : (s.setSys v).deviceLog = s.deviceLog := rfl
@[simp] theorem State.setSys_draws (s : State) (v : Byte) : (s.setSys v).draws = s.draws := rfl
@[simp] theorem State.setSys_irq (s : State) (v : Byte) : (s.setSys v).irq = s.irq := rfl
@[simp] theorem State.setSys_irqLast (s : State) (v : Byte) : (s.setSys v).irqLast = s.irqLast := rfl
@[simp] theorem State.setSys_cpAnswers (s : State) (v : Byte) : (s.setSys v).cpAnswers = s.cpAnswers := rfl
@[simp] theorem State.setSys_config (s : State) (v : Byte) : (s.setSys v).config = s.config := rfl

/-! ## `setCcr` -/

@[simp] theorem State.setCcr_d (s : State) (f : Ccr) : (s.setCcr f).d = s.d := rfl
@[simp] theorem State.setCcr_a (s : State) (f : Ccr) : (s.setCcr f).a = s.a := rfl
@[simp] theorem State.setCcr_usp (s : State) (f : Ccr) : (s.setCcr f).usp = s.usp := rfl
@[simp] theorem State.setCcr_isp (s : State) (f : Ccr) : (s.setCcr f).isp = s.isp := rfl
@[simp] theorem State.setCcr_msp (s : State) (f : Ccr) : (s.setCcr f).msp = s.msp := rfl
@[simp] theorem State.setCcr_pc (s : State) (f : Ccr) : (s.setCcr f).pc = s.pc := rfl
@[simp] theorem State.setCcr_sys (s : State) (f : Ccr) : (s.setCcr f).sys = s.sys := rfl
@[simp] theorem State.setCcr_vbr (s : State) (f : Ccr) : (s.setCcr f).vbr = s.vbr := rfl
@[simp] theorem State.setCcr_cacr (s : State) (f : Ccr) : (s.setCcr f).cacr = s.cacr := rfl
@[simp] theorem State.setCcr_caar (s : State) (f : Ccr) : (s.setCcr f).caar = s.caar := rfl
@[simp] theorem State.setCcr_sfc (s : State) (f : Ccr) : (s.setCcr f).sfc = s.sfc := rfl
@[simp] theorem State.setCcr_dfc (s : State) (f : Ccr) : (s.setCcr f).dfc = s.dfc := rfl
@[simp] theorem State.setCcr_mem (s : State) (f : Ccr) : (s.setCcr f).mem = s.mem := rfl
@[simp] theorem State.setCcr_deviceLog (s : State) (f : Ccr) : (s.setCcr f).deviceLog = s.deviceLog := rfl
@[simp] theorem State.setCcr_draws (s : State) (f : Ccr) : (s.setCcr f).draws = s.draws := rfl
@[simp] theorem State.setCcr_irq (s : State) (f : Ccr) : (s.setCcr f).irq = s.irq := rfl
@[simp] theorem State.setCcr_irqLast (s : State) (f : Ccr) : (s.setCcr f).irqLast = s.irqLast := rfl
@[simp] theorem State.setCcr_cpAnswers (s : State) (f : Ccr) : (s.setCcr f).cpAnswers = s.cpAnswers := rfl
@[simp] theorem State.setCcr_config (s : State) (f : Ccr) : (s.setCcr f).config = s.config := rfl

/-! ## `poke` -/

@[simp] theorem State.poke_d (s : State) (p : Long) (b : Byte) : (s.poke p b).d = s.d := rfl
@[simp] theorem State.poke_a (s : State) (p : Long) (b : Byte) : (s.poke p b).a = s.a := rfl
@[simp] theorem State.poke_usp (s : State) (p : Long) (b : Byte) : (s.poke p b).usp = s.usp := rfl
@[simp] theorem State.poke_isp (s : State) (p : Long) (b : Byte) : (s.poke p b).isp = s.isp := rfl
@[simp] theorem State.poke_msp (s : State) (p : Long) (b : Byte) : (s.poke p b).msp = s.msp := rfl
@[simp] theorem State.poke_pc (s : State) (p : Long) (b : Byte) : (s.poke p b).pc = s.pc := rfl
@[simp] theorem State.poke_sys (s : State) (p : Long) (b : Byte) : (s.poke p b).sys = s.sys := rfl
@[simp] theorem State.poke_ccr (s : State) (p : Long) (b : Byte) : (s.poke p b).ccr = s.ccr := rfl
@[simp] theorem State.poke_sr (s : State) (p : Long) (b : Byte) : (s.poke p b).sr = s.sr := rfl
@[simp] theorem State.poke_vbr (s : State) (p : Long) (b : Byte) : (s.poke p b).vbr = s.vbr := rfl
@[simp] theorem State.poke_cacr (s : State) (p : Long) (b : Byte) : (s.poke p b).cacr = s.cacr := rfl
@[simp] theorem State.poke_caar (s : State) (p : Long) (b : Byte) : (s.poke p b).caar = s.caar := rfl
@[simp] theorem State.poke_sfc (s : State) (p : Long) (b : Byte) : (s.poke p b).sfc = s.sfc := rfl
@[simp] theorem State.poke_dfc (s : State) (p : Long) (b : Byte) : (s.poke p b).dfc = s.dfc := rfl
@[simp] theorem State.poke_deviceLog (s : State) (p : Long) (b : Byte) : (s.poke p b).deviceLog = s.deviceLog := rfl
@[simp] theorem State.poke_draws (s : State) (p : Long) (b : Byte) : (s.poke p b).draws = s.draws := rfl
@[simp] theorem State.poke_irq (s : State) (p : Long) (b : Byte) : (s.poke p b).irq = s.irq := rfl
@[simp] theorem State.poke_irqLast (s : State) (p : Long) (b : Byte) : (s.poke p b).irqLast = s.irqLast := rfl
@[simp] theorem State.poke_cpAnswers (s : State) (p : Long) (b : Byte) : (s.poke p b).cpAnswers = s.cpAnswers := rfl
@[simp] theorem State.poke_config (s : State) (p : Long) (b : Byte) : (s.poke p b).config = s.config := rfl

/-! ## `setDLow` -/

@[simp] theorem State.setDLow_a (s : State) (sz : Size) (n : RegNum) (v : Long) : (s.setDLow sz n v).a = s.a := rfl
@[simp] theorem State.setDLow_usp (s : State) (sz : Size) (n : RegNum) (v : Long) : (s.setDLow sz n v).usp = s.usp := rfl
@[simp] theorem State.setDLow_isp (s : State) (sz : Size) (n : RegNum) (v : Long) : (s.setDLow sz n v).isp = s.isp := rfl
@[simp] theorem State.setDLow_msp (s : State) (sz : Size) (n : RegNum) (v : Long) : (s.setDLow sz n v).msp = s.msp := rfl
@[simp] theorem State.setDLow_pc (s : State) (sz : Size) (n : RegNum) (v : Long) : (s.setDLow sz n v).pc = s.pc := rfl
@[simp] theorem State.setDLow_sys (s : State) (sz : Size) (n : RegNum) (v : Long) : (s.setDLow sz n v).sys = s.sys := rfl
@[simp] theorem State.setDLow_ccr (s : State) (sz : Size) (n : RegNum) (v : Long) : (s.setDLow sz n v).ccr = s.ccr := rfl
@[simp] theorem State.setDLow_sr (s : State) (sz : Size) (n : RegNum) (v : Long) : (s.setDLow sz n v).sr = s.sr := rfl
@[simp] theorem State.setDLow_vbr (s : State) (sz : Size) (n : RegNum) (v : Long) : (s.setDLow sz n v).vbr = s.vbr := rfl
@[simp] theorem State.setDLow_cacr (s : State) (sz : Size) (n : RegNum) (v : Long) : (s.setDLow sz n v).cacr = s.cacr := rfl
@[simp] theorem State.setDLow_caar (s : State) (sz : Size) (n : RegNum) (v : Long) : (s.setDLow sz n v).caar = s.caar := rfl
@[simp] theorem State.setDLow_sfc (s : State) (sz : Size) (n : RegNum) (v : Long) : (s.setDLow sz n v).sfc = s.sfc := rfl
@[simp] theorem State.setDLow_dfc (s : State) (sz : Size) (n : RegNum) (v : Long) : (s.setDLow sz n v).dfc = s.dfc := rfl
@[simp] theorem State.setDLow_mem (s : State) (sz : Size) (n : RegNum) (v : Long) : (s.setDLow sz n v).mem = s.mem := rfl
@[simp] theorem State.setDLow_deviceLog (s : State) (sz : Size) (n : RegNum) (v : Long) : (s.setDLow sz n v).deviceLog = s.deviceLog := rfl
@[simp] theorem State.setDLow_draws (s : State) (sz : Size) (n : RegNum) (v : Long) : (s.setDLow sz n v).draws = s.draws := rfl
@[simp] theorem State.setDLow_irq (s : State) (sz : Size) (n : RegNum) (v : Long) : (s.setDLow sz n v).irq = s.irq := rfl
@[simp] theorem State.setDLow_irqLast (s : State) (sz : Size) (n : RegNum) (v : Long) : (s.setDLow sz n v).irqLast = s.irqLast := rfl
@[simp] theorem State.setDLow_cpAnswers (s : State) (sz : Size) (n : RegNum) (v : Long) : (s.setDLow sz n v).cpAnswers = s.cpAnswers := rfl
@[simp] theorem State.setDLow_config (s : State) (sz : Size) (n : RegNum) (v : Long) : (s.setDLow sz n v).config = s.config := rfl

/-! ## `advance` -/

@[simp] theorem State.advance_d (s : State) (k : Nat) : (s.advance k).d = s.d := rfl
@[simp] theorem State.advance_a (s : State) (k : Nat) : (s.advance k).a = s.a := rfl
@[simp] theorem State.advance_usp (s : State) (k : Nat) : (s.advance k).usp = s.usp := rfl
@[simp] theorem State.advance_isp (s : State) (k : Nat) : (s.advance k).isp = s.isp := rfl
@[simp] theorem State.advance_msp (s : State) (k : Nat) : (s.advance k).msp = s.msp := rfl
@[simp] theorem State.advance_sys (s : State) (k : Nat) : (s.advance k).sys = s.sys := rfl
@[simp] theorem State.advance_ccr (s : State) (k : Nat) : (s.advance k).ccr = s.ccr := rfl
@[simp] theorem State.advance_sr (s : State) (k : Nat) : (s.advance k).sr = s.sr := rfl
@[simp] theorem State.advance_vbr (s : State) (k : Nat) : (s.advance k).vbr = s.vbr := rfl
@[simp] theorem State.advance_cacr (s : State) (k : Nat) : (s.advance k).cacr = s.cacr := rfl
@[simp] theorem State.advance_caar (s : State) (k : Nat) : (s.advance k).caar = s.caar := rfl
@[simp] theorem State.advance_sfc (s : State) (k : Nat) : (s.advance k).sfc = s.sfc := rfl
@[simp] theorem State.advance_dfc (s : State) (k : Nat) : (s.advance k).dfc = s.dfc := rfl
@[simp] theorem State.advance_mem (s : State) (k : Nat) : (s.advance k).mem = s.mem := rfl
@[simp] theorem State.advance_deviceLog (s : State) (k : Nat) : (s.advance k).deviceLog = s.deviceLog := rfl
@[simp] theorem State.advance_draws (s : State) (k : Nat) : (s.advance k).draws = s.draws := rfl
@[simp] theorem State.advance_irq (s : State) (k : Nat) : (s.advance k).irq = s.irq := rfl
@[simp] theorem State.advance_irqLast (s : State) (k : Nat) : (s.advance k).irqLast = s.irqLast := rfl
@[simp] theorem State.advance_cpAnswers (s : State) (k : Nat) : (s.advance k).cpAnswers = s.cpAnswers := rfl
@[simp] theorem State.advance_config (s : State) (k : Nat) : (s.advance k).config = s.config := rfl

/-! ## `draw` -/

@[simp] theorem draw_d (s : State) : (draw s).2.d = s.d := rfl
@[simp] theorem draw_a (s : State) : (draw s).2.a = s.a := rfl
@[simp] theorem draw_usp (s : State) : (draw s).2.usp = s.usp := rfl
@[simp] theorem draw_isp (s : State) : (draw s).2.isp = s.isp := rfl
@[simp] theorem draw_msp (s : State) : (draw s).2.msp = s.msp := rfl
@[simp] theorem draw_pc (s : State) : (draw s).2.pc = s.pc := rfl
@[simp] theorem draw_sys (s : State) : (draw s).2.sys = s.sys := rfl
@[simp] theorem draw_ccr (s : State) : (draw s).2.ccr = s.ccr := rfl
@[simp] theorem draw_sr (s : State) : (draw s).2.sr = s.sr := rfl
@[simp] theorem draw_vbr (s : State) : (draw s).2.vbr = s.vbr := rfl
@[simp] theorem draw_cacr (s : State) : (draw s).2.cacr = s.cacr := rfl
@[simp] theorem draw_caar (s : State) : (draw s).2.caar = s.caar := rfl
@[simp] theorem draw_sfc (s : State) : (draw s).2.sfc = s.sfc := rfl
@[simp] theorem draw_dfc (s : State) : (draw s).2.dfc = s.dfc := rfl
@[simp] theorem draw_mem (s : State) : (draw s).2.mem = s.mem := rfl
@[simp] theorem draw_deviceLog (s : State) : (draw s).2.deviceLog = s.deviceLog := rfl
@[simp] theorem draw_irq (s : State) : (draw s).2.irq = s.irq := rfl
@[simp] theorem draw_irqLast (s : State) : (draw s).2.irqLast = s.irqLast := rfl
@[simp] theorem draw_cpAnswers (s : State) : (draw s).2.cpAnswers = s.cpAnswers := rfl
@[simp] theorem draw_config (s : State) : (draw s).2.config = s.config := rfl
@[simp] theorem draw_draws (s : State) : (draw s).2.draws = s.draws + 1 := rfl

@[simp] theorem drawBit_d (s : State) : (drawBit s).2.d = s.d := rfl
@[simp] theorem drawBit_a (s : State) : (drawBit s).2.a = s.a := rfl
@[simp] theorem drawBit_usp (s : State) : (drawBit s).2.usp = s.usp := rfl
@[simp] theorem drawBit_isp (s : State) : (drawBit s).2.isp = s.isp := rfl
@[simp] theorem drawBit_msp (s : State) : (drawBit s).2.msp = s.msp := rfl
@[simp] theorem drawBit_pc (s : State) : (drawBit s).2.pc = s.pc := rfl
@[simp] theorem drawBit_sys (s : State) : (drawBit s).2.sys = s.sys := rfl
@[simp] theorem drawBit_ccr (s : State) : (drawBit s).2.ccr = s.ccr := rfl
@[simp] theorem drawBit_sr (s : State) : (drawBit s).2.sr = s.sr := rfl
@[simp] theorem drawBit_vbr (s : State) : (drawBit s).2.vbr = s.vbr := rfl
@[simp] theorem drawBit_cacr (s : State) : (drawBit s).2.cacr = s.cacr := rfl
@[simp] theorem drawBit_caar (s : State) : (drawBit s).2.caar = s.caar := rfl
@[simp] theorem drawBit_sfc (s : State) : (drawBit s).2.sfc = s.sfc := rfl
@[simp] theorem drawBit_dfc (s : State) : (drawBit s).2.dfc = s.dfc := rfl
@[simp] theorem drawBit_mem (s : State) : (drawBit s).2.mem = s.mem := rfl
@[simp] theorem drawBit_deviceLog (s : State) : (drawBit s).2.deviceLog = s.deviceLog := rfl
@[simp] theorem drawBit_irq (s : State) : (drawBit s).2.irq = s.irq := rfl
@[simp] theorem drawBit_irqLast (s : State) : (drawBit s).2.irqLast = s.irqLast := rfl
@[simp] theorem drawBit_cpAnswers (s : State) : (drawBit s).2.cpAnswers = s.cpAnswers := rfl
@[simp] theorem drawBit_config (s : State) : (drawBit s).2.config = s.config := rfl
@[simp] theorem drawBit_draws (s : State) : (drawBit s).2.draws = s.draws + 1 := rfl

/-! ## `setSp` and `setA` -/

@[simp] theorem State.setSp_d (s : State) (v : Long) : (s.setSp v).d = s.d := by
  unfold State.setSp; split <;> [split <;> rfl; rfl]
@[simp] theorem State.setSp_a (s : State) (v : Long) : (s.setSp v).a = s.a := by
  unfold State.setSp; split <;> [split <;> rfl; rfl]
@[simp] theorem State.setSp_pc (s : State) (v : Long) : (s.setSp v).pc = s.pc := by
  unfold State.setSp; split <;> [split <;> rfl; rfl]
@[simp] theorem State.setSp_sys (s : State) (v : Long) : (s.setSp v).sys = s.sys := by
  unfold State.setSp; split <;> [split <;> rfl; rfl]
@[simp] theorem State.setSp_ccr (s : State) (v : Long) : (s.setSp v).ccr = s.ccr := by
  unfold State.setSp; split <;> [split <;> rfl; rfl]
@[simp] theorem State.setSp_sr (s : State) (v : Long) : (s.setSp v).sr = s.sr := by simp [State.sr]
@[simp] theorem State.setSp_vbr (s : State) (v : Long) : (s.setSp v).vbr = s.vbr := by
  unfold State.setSp; split <;> [split <;> rfl; rfl]
@[simp] theorem State.setSp_cacr (s : State) (v : Long) : (s.setSp v).cacr = s.cacr := by
  unfold State.setSp; split <;> [split <;> rfl; rfl]
@[simp] theorem State.setSp_caar (s : State) (v : Long) : (s.setSp v).caar = s.caar := by
  unfold State.setSp; split <;> [split <;> rfl; rfl]
@[simp] theorem State.setSp_sfc (s : State) (v : Long) : (s.setSp v).sfc = s.sfc := by
  unfold State.setSp; split <;> [split <;> rfl; rfl]
@[simp] theorem State.setSp_dfc (s : State) (v : Long) : (s.setSp v).dfc = s.dfc := by
  unfold State.setSp; split <;> [split <;> rfl; rfl]
@[simp] theorem State.setSp_mem (s : State) (v : Long) : (s.setSp v).mem = s.mem := by
  unfold State.setSp; split <;> [split <;> rfl; rfl]
@[simp] theorem State.setSp_deviceLog (s : State) (v : Long) : (s.setSp v).deviceLog = s.deviceLog := by
  unfold State.setSp; split <;> [split <;> rfl; rfl]
@[simp] theorem State.setSp_draws (s : State) (v : Long) : (s.setSp v).draws = s.draws := by
  unfold State.setSp; split <;> [split <;> rfl; rfl]
@[simp] theorem State.setSp_irq (s : State) (v : Long) : (s.setSp v).irq = s.irq := by
  unfold State.setSp; split <;> [split <;> rfl; rfl]
@[simp] theorem State.setSp_irqLast (s : State) (v : Long) : (s.setSp v).irqLast = s.irqLast := by
  unfold State.setSp; split <;> [split <;> rfl; rfl]
@[simp] theorem State.setSp_cpAnswers (s : State) (v : Long) : (s.setSp v).cpAnswers = s.cpAnswers := by
  unfold State.setSp; split <;> [split <;> rfl; rfl]
@[simp] theorem State.setSp_config (s : State) (v : Long) : (s.setSp v).config = s.config := by
  unfold State.setSp; split <;> [split <;> rfl; rfl]

@[simp] theorem State.setA_d (s : State) (n : RegNum) (v : Long) : (s.setA n v).d = s.d := by
  unfold State.setA; split <;> [rfl; exact s.setSp_d v]
@[simp] theorem State.setA_pc (s : State) (n : RegNum) (v : Long) : (s.setA n v).pc = s.pc := by
  unfold State.setA; split <;> [rfl; exact s.setSp_pc v]
@[simp] theorem State.setA_sys (s : State) (n : RegNum) (v : Long) : (s.setA n v).sys = s.sys := by
  unfold State.setA; split <;> [rfl; exact s.setSp_sys v]
@[simp] theorem State.setA_ccr (s : State) (n : RegNum) (v : Long) : (s.setA n v).ccr = s.ccr := by
  unfold State.setA; split <;> [rfl; exact s.setSp_ccr v]
@[simp] theorem State.setA_sr (s : State) (n : RegNum) (v : Long) : (s.setA n v).sr = s.sr := by simp [State.sr]
@[simp] theorem State.setA_vbr (s : State) (n : RegNum) (v : Long) : (s.setA n v).vbr = s.vbr := by
  unfold State.setA; split <;> [rfl; exact s.setSp_vbr v]
@[simp] theorem State.setA_cacr (s : State) (n : RegNum) (v : Long) : (s.setA n v).cacr = s.cacr := by
  unfold State.setA; split <;> [rfl; exact s.setSp_cacr v]
@[simp] theorem State.setA_caar (s : State) (n : RegNum) (v : Long) : (s.setA n v).caar = s.caar := by
  unfold State.setA; split <;> [rfl; exact s.setSp_caar v]
@[simp] theorem State.setA_sfc (s : State) (n : RegNum) (v : Long) : (s.setA n v).sfc = s.sfc := by
  unfold State.setA; split <;> [rfl; exact s.setSp_sfc v]
@[simp] theorem State.setA_dfc (s : State) (n : RegNum) (v : Long) : (s.setA n v).dfc = s.dfc := by
  unfold State.setA; split <;> [rfl; exact s.setSp_dfc v]
@[simp] theorem State.setA_mem (s : State) (n : RegNum) (v : Long) : (s.setA n v).mem = s.mem := by
  unfold State.setA; split <;> [rfl; exact s.setSp_mem v]
@[simp] theorem State.setA_deviceLog (s : State) (n : RegNum) (v : Long) : (s.setA n v).deviceLog = s.deviceLog := by
  unfold State.setA; split <;> [rfl; exact s.setSp_deviceLog v]
@[simp] theorem State.setA_draws (s : State) (n : RegNum) (v : Long) : (s.setA n v).draws = s.draws := by
  unfold State.setA; split <;> [rfl; exact s.setSp_draws v]
@[simp] theorem State.setA_irq (s : State) (n : RegNum) (v : Long) : (s.setA n v).irq = s.irq := by
  unfold State.setA; split <;> [rfl; exact s.setSp_irq v]
@[simp] theorem State.setA_irqLast (s : State) (n : RegNum) (v : Long) : (s.setA n v).irqLast = s.irqLast := by
  unfold State.setA; split <;> [rfl; exact s.setSp_irqLast v]
@[simp] theorem State.setA_cpAnswers (s : State) (n : RegNum) (v : Long) : (s.setA n v).cpAnswers = s.cpAnswers := by
  unfold State.setA; split <;> [rfl; exact s.setSp_cpAnswers v]
@[simp] theorem State.setA_config (s : State) (n : RegNum) (v : Long) : (s.setA n v).config = s.config := by
  unfold State.setA; split <;> [rfl; exact s.setSp_config v]

/-! ## The accessors after an update -/

@[simp] theorem State.setPc_pc (s : State) (v : Long) : (s.setPc v).pc = v := rfl
@[simp] theorem State.setSys_sys (s : State) (v : Byte) : (s.setSys v).sys = v := rfl
@[simp] theorem State.setCcr_ccr (s : State) (f : Ccr) : (s.setCcr f).ccr = f := rfl
@[simp] theorem State.setSr_sys (s : State) (v : BitVec 16) : (s.setSr v).sys = v.extractLsb' 8 8 := rfl
@[simp] theorem State.setSr_ccr (s : State) (v : BitVec 16) : (s.setSr v).ccr = ccrOf (v.extractLsb' 0 8) := rfl
@[simp] theorem State.advance_pc (s : State) (k : Nat) : (s.advance k).pc = s.pcPlus k := rfl
@[simp] theorem State.poke_mem (s : State) (p : Long) (b : Byte) :
    (s.poke p b).mem = store s.mem (s.physical p) b := rfl

/-- The flags of a condition code byte are the flags it was made of. -/
@[simp] theorem ccrOf_ccrByte (f : Ccr) : ccrOf (ccrByte f) = f := by
  obtain ⟨x, n, z, v, c⟩ := f
  cases x <;> cases n <;> cases z <;> cases v <;> cases c <;> rfl

/-- Bits 15 to 8 of the status register are the system byte. -/
theorem State.sr_high (s : State) (i : Nat) (h : 8 ≤ i) : s.sr.getLsbD i = s.sys.getLsbD (i - 8) := by
  simp only [State.sr, BitVec.getLsbD_append]
  rw [if_neg (by omega)]

/-- Bits 7 to 0 of the status register are the condition code byte. -/
theorem State.sr_low (s : State) (i : Nat) (h : i < 8) : s.sr.getLsbD i = (ccrByte s.ccr).getLsbD i := by
  simp only [State.sr, BitVec.getLsbD_append]
  rw [if_pos h]

/-- The status register is its two halves. -/
theorem State.sr_congr {s t : State} (hs : t.sys = s.sys) (hc : t.ccr = s.ccr) : t.sr = s.sr := by
  simp only [State.sr, hs, hc]

/-! ### Supervisor state and the stack pointers -/

@[simp] theorem State.supervisor_setCcr (s : State) (f : Ccr) : (s.setCcr f).supervisor = s.supervisor := rfl
@[simp] theorem State.supervisor_setSp (s : State) (v : Long) : (s.setSp v).supervisor = s.supervisor := by
  simp [State.supervisor]
@[simp] theorem State.supervisor_setA (s : State) (n : RegNum) (v : Long) :
    (s.setA n v).supervisor = s.supervisor := by simp [State.supervisor]
@[simp] theorem State.supervisor_setD (s : State) (n : RegNum) (v : Long) :
    (s.setD n v).supervisor = s.supervisor := rfl
@[simp] theorem State.supervisor_setPc (s : State) (v : Long) : (s.setPc v).supervisor = s.supervisor := rfl
@[simp] theorem State.master_setCcr (s : State) (f : Ccr) : (s.setCcr f).master = s.master := rfl
@[simp] theorem State.master_setSp (s : State) (v : Long) : (s.setSp v).master = s.master := by simp [State.master]
@[simp] theorem State.master_setA (s : State) (n : RegNum) (v : Long) : (s.setA n v).master = s.master := by
  simp [State.master]
@[simp] theorem State.master_setD (s : State) (n : RegNum) (v : Long) : (s.setD n v).master = s.master := rfl
@[simp] theorem State.master_setPc (s : State) (v : Long) : (s.setPc v).master = s.master := rfl

/-- A7 reads what was written to it. -/
@[simp] theorem State.sp_setSp (s : State) (v : Long) : (s.setSp v).sp = v := by
  unfold State.sp
  rw [State.supervisor_setSp, State.master_setSp]
  unfold State.setSp
  split
  · split <;> rfl
  · rfl

/-- The stack pointer depends on the system byte, the member and the three registers alone. -/
theorem State.sp_congr {s t : State} (hsys : t.sys = s.sys) (hc : t.config = s.config) (hu : t.usp = s.usp)
    (hi : t.isp = s.isp) (hm : t.msp = s.msp) : t.sp = s.sp := by
  simp [State.sp, State.supervisor, State.master, hsys, hc, hu, hi, hm]

/-! ### Data and address registers -/

@[simp] theorem State.getD_setD_same (s : State) (n : RegNum) (v : Long) : (s.setD n v).getD n = v := by
  simp [State.getD, State.setD]

theorem State.getD_setD_ne (s : State) {n m : RegNum} (v : Long) (h : m ≠ n) : (s.setD n v).getD m = s.getD m := by
  have : n.toNat ≠ m.toNat := fun e => h (BitVec.eq_of_toNat_eq e.symm)
  simp [State.getD, State.setD, Vector.getElem_set_ne, this]

@[simp] theorem State.getD_setPc (s : State) (n : RegNum) (v : Long) : (s.setPc v).getD n = s.getD n := rfl
@[simp] theorem State.getD_setCcr (s : State) (n : RegNum) (f : Ccr) : (s.setCcr f).getD n = s.getD n := rfl
@[simp] theorem State.getD_setSr (s : State) (n : RegNum) (v : BitVec 16) : (s.setSr v).getD n = s.getD n := rfl
@[simp] theorem State.getD_poke (s : State) (n : RegNum) (p : Long) (b : Byte) : (s.poke p b).getD n = s.getD n := rfl
@[simp] theorem State.getD_draw (s : State) (n : RegNum) : (draw s).2.getD n = s.getD n := rfl
@[simp] theorem State.getD_setSp (s : State) (n : RegNum) (v : Long) : (s.setSp v).getD n = s.getD n := by
  simp [State.getD]
@[simp] theorem State.getD_setA (s : State) (n m : RegNum) (v : Long) : (s.setA m v).getD n = s.getD n := by
  simp [State.getD]

/-- The data registers decide what is read from them. -/
theorem State.getD_congr {s t : State} (h : t.d = s.d) (n : RegNum) : t.getD n = s.getD n := by
  simp [State.getD, h]

@[simp] theorem State.getA_setA_same (s : State) (n : RegNum) (v : Long) : (s.setA n v).getA n = v := by
  unfold State.getA State.setA
  by_cases h : n.toNat < 7
  · simp [h]
  · simp [h]

theorem State.getA_setA_ne (s : State) {n m : RegNum} (v : Long) (h : m ≠ n) : (s.setA n v).getA m = s.getA m := by
  have hne : n.toNat ≠ m.toNat := fun e => h (BitVec.eq_of_toNat_eq e.symm)
  unfold State.getA State.setA
  by_cases hn : n.toNat < 7
  · by_cases hm : m.toNat < 7
    · simp [hn, hm, Vector.getElem_set_ne, hne]
    · simp only [hn, hm, dite_true, dite_false]
      exact State.sp_congr rfl rfl rfl rfl rfl
  · by_cases hm : m.toNat < 7
    · simp [hn, hm]
    · omega

/-- What an address register reads depends on the address registers, the stack pointers, the system byte and the member alone. -/
theorem State.getA_congr {s t : State} (ha : t.a = s.a) (hsys : t.sys = s.sys) (hc : t.config = s.config)
    (hu : t.usp = s.usp) (hi : t.isp = s.isp) (hm : t.msp = s.msp) (n : RegNum) : t.getA n = s.getA n := by
  simp [State.getA, ha, State.sp_congr hsys hc hu hi hm]

@[simp] theorem State.getA_setD (s : State) (n m : RegNum) (v : Long) : (s.setD m v).getA n = s.getA n := rfl
@[simp] theorem State.getA_setPc (s : State) (n : RegNum) (v : Long) : (s.setPc v).getA n = s.getA n := rfl

/-! ### Addresses -/

/-- Where an address reaches memory depends on the parameters alone. -/
theorem State.physical_congr {s t : State} (h : t.config = s.config) (a : Long) : t.physical a = s.physical a := by
  simp [State.physical, h]

theorem State.inText_congr {s t : State} (h : t.config = s.config) (a : Long) : t.inText a = s.inText a := by
  simp only [State.inText, h, State.physical_congr h]

theorem State.kindAt_congr {s t : State} (h : t.config = s.config) (a : Long) : t.kindAt a = s.kindAt a := by
  simp only [State.kindAt, h, State.inText_congr h, State.physical_congr h]

theorem State.peek_congr {s t : State} (h : t.config = s.config) (hm : t.mem = s.mem) (a : Long) :
    t.peek a = s.peek a := by simp [State.peek, State.physical, h, hm]

/-- Every address that reaches memory is below 2^32. -/
theorem State.physical_lt (s : State) (a : Long) : s.physical a < 2 ^ 32 :=
  lt_of_le_of_lt (Nat.mod_le _ _) a.isLt

end Sys2Proof.Machine
end

