-- ==== Sys2Proof/Machine/Launch.lean ====
section
/-! DEFINITION. How a run begins (spec/70_reset_and_hazards.md rules R470, R471): the launch record with its conditions,
and the reset sequence over a memory image. No step calls these. -/

namespace Sys2Proof.Machine

/-- A piece of the program: words from an address on. -/
structure Chunk where
  base  : Long
  words : List Word
deriving DecidableEq, Repr

/-- `INIT` (R470), with the MSP and the VBR that R446 asks it for. A register or flag not given is zero here, not
unwritten (notes/assumptions/5.md, 45.md). -/
structure Init where
  pc    : Long
  srSys : Byte
  x     : Option Bool
  n     : Option Bool
  z     : Option Bool
  v     : Option Bool
  c     : Option Bool
  d     : Vector (Option Long) 8
  a     : Vector (Option Long) 8
  usp   : Option Long
  isp   : Option Long
  msp   : Option Long
  vbr   : Option Long
  mem   : List Host.Cell
deriving DecidableEq, Repr

/-- Why a launch is refused (R470), in the order the rule lists the conditions. -/
inductive LaunchRefusal where
  | pcOdd
  | pcOutsideText
  | traceBit
  | unimplementedBit
  | textAndMemOverlap
  | textNotWords
  | endPcOdd
  | endPcOutsideText
deriving DecidableEq, Repr

/-- The ranges of `TEXT` of a program. -/
def chunkRanges (p : List Chunk) : List TextRange := p.map fun k => ⟨k.base.toNat, 2 * k.words.length⟩

/-- A byte of a launch in memory, at the address it is given, whatever `ADDR_BITS` is (DESIGN CHOICE,
notes/assumptions/49.md); past the last address there is no byte to write (DESIGN CHOICE, notes/assumptions/50.md). -/
def launchByte (m : List Host.Cell) (p : Nat) (b : Byte) : List Host.Cell := if p < 2 ^ 32 then store m p b else m

/-- Write bytes from an address on. -/
def writeImage : List Byte → Nat → List Host.Cell → List Host.Cell
  | [], _, m => m
  | b :: bs, p, m => writeImage bs (p + 1) (launchByte m p b)

/-- The program's bytes in memory (R64, R85). R470 refuses no overlap of two chunks and none that runs past the last
address: of bytes given twice the later chunk's stand, and bytes past the last address are left out (DESIGN CHOICE,
notes/assumptions/50.md). -/
def chunkImage : List Chunk → List Host.Cell → List Host.Cell
  | [], m => m
  | k :: ks, m => chunkImage ks (writeImage (k.words.flatMap wordBytes) k.base.toNat m)

/-- The bytes of `INIT.MEM` in memory, the last for an address given twice (R470 has a map; DESIGN CHOICE,
notes/assumptions/50.md). -/
def cellImage : List Host.Cell → List Host.Cell → List Host.Cell
  | [], m => m
  | (p, b) :: cs, m => cellImage cs (launchByte m p b)

/-- The state a launch makes, before its conditions are tested. A7 is a name for the stack pointer the system byte makes
active, so an `INIT.A[7]` is written there, over an `INIT.USP`, `INIT.ISP` or `INIT.MSP` of the same place, and where it
is not given A7 reads as that one (DESIGN CHOICE, notes/assumptions/45.md). With `ADDR_BITS` below 32 the addresses of
`TEXT` and of `INIT.MEM` are taken as given and not reduced (DESIGN CHOICE, notes/assumptions/49.md), and the level
before the first interrupt sample is 0 (DESIGN CHOICE, notes/assumptions/20.md). -/
def launchState (cfg : Config) (p : List Chunk) (i : Init) : State :=
  let flags : Ccr :=
    { x := i.x.getD false, n := i.n.getD false, z := i.z.getD false, v := i.v.getD false, c := i.c.getD false }
  let s : State :=
    { State.reset with
      d      := i.d.map (·.getD 0)
      a      := (i.a.take 7).map (·.getD 0)
      usp    := i.usp.getD 0
      isp    := i.isp.getD 0
      msp    := i.msp.getD 0
      vbr    := i.vbr.getD 0
      pc     := i.pc
      sys    := i.srSys
      ccr    := flags
      mem    := chunkImage p (cellImage i.mem [])
      config := { cfg with text := chunkRanges p } }
  match i.a[7] with
  | some v => s.setSp v
  | none   => s

/-- The launch conditions of R470 over the state it makes. A launch without an `END_PC` is accepted and its run is never
over (DESIGN CHOICE, notes/assumptions/47.md). -/
def launchRefusal (p : List Chunk) (i : Init) (s : State) : Option LaunchRefusal :=
  if isOdd i.pc then some .pcOdd
  else if !(s.inText i.pc && s.inText (i.pc + 1)) then some .pcOutsideText
  else if i.srSys.getLsbD 7 || i.srSys.getLsbD 6 then some .traceBit
  else if i.srSys &&& sysImplemented s.config.cpu != i.srSys then some .unimplementedBit
  else if i.mem.any fun c => (chunkRanges p).any fun r => decide (r.base ≤ c.1) && decide (c.1 < r.base + r.len) then
    some .textAndMemOverlap
  else if p.any fun k => isOdd k.base then some .textNotWords
  else
    match s.config.endPc with
    | none   => none
    | some e =>
      if isOdd e then some .endPcOdd
      else if !(s.inText e && s.inText (e + 1)) then some .endPcOutsideText
      else none

/-- The launch of R470. -/
def launch (cfg : Config) (p : List Chunk) (i : Init) : Except LaunchRefusal State :=
  match launchRefusal p i (launchState cfg p i) with
  | some r => .error r
  | none   => .ok (launchState cfg p i)

/-- The cache enables of CACR (R33, R471): bit 0 E and bit 4, the instruction burst enable, are named there; of the data
cache bits 8 to 13, bit 8 as its enable and bit 12 as its burst enable are taken from the MC68030 (PRESUMED,
notes/assumptions/48.md). -/
def cacrEnables : Long := 0x1111

/-- The reset sequence of R471 over the memory a platform provides: the system byte, VBR and the cache enables, then the
interrupt stack pointer from the long at 0 and the pc from the long at 4; every other register is left as it is. -/
def coldStart (s : State) : Except Stop State := do
  let s := { s with sys := 0x27, vbr := 0, cacr := s.cacr &&& ~~~cacrEnables }
  let (sp, s) ← memRead s .long 0
  let (pc, s) ← memRead s .long 4
  return { s with isp := sp, pc := pc }

end Sys2Proof.Machine
end

