-- ==== Sys2Proof/Laws/Memory.lean ====
section
/-! SUPPORT. Memory as a list: what a store leaves to be read, and that every store keeps the canonical form; then, for
each memory operation, one lemma that says all it can do when it answers. -/

namespace Sys2Proof.Machine

/-! ## The list -/

theorem lookup_store_same (m : List Host.Cell) (p : Nat) (b : Byte) : lookup (store m p b) p = some b := by
  induction m with
  | nil => simp [store, lookup]
  | cons c m ih =>
    obtain ⟨k, x⟩ := c
    unfold store
    split
    · simp [lookup]
    · split
      · simp [lookup]
      · rename_i h1 h2
        simp [lookup, ih, show k ≠ p from fun e => h2 e.symm]

theorem lookup_store_ne (m : List Host.Cell) {p q : Nat} (b : Byte) (h : q ≠ p) :
    lookup (store m p b) q = lookup m q := by
  induction m with
  | nil => simp [store, lookup, Ne.symm h]
  | cons c m ih =>
    obtain ⟨k, x⟩ := c
    unfold store
    split
    · simp [lookup, Ne.symm h]
    · split
      · rename_i h1 h2
        subst h2
        simp [lookup, Ne.symm h]
      · simp only [lookup, ih]

theorem wfFrom_store (m : List Host.Cell) (lo p : Nat) (b : Byte) (hlo : lo ≤ p) (hp : p < 2 ^ 32)
    (h : wfFrom lo m = true) : wfFrom lo (store m p b) = true := by
  induction m generalizing lo with
  | nil =>
    simp only [store, wfFrom, Bool.and_eq_true, decide_eq_true_eq, and_true]
    exact ⟨hlo, hp⟩
  | cons c m ih =>
    obtain ⟨k, x⟩ := c
    simp only [wfFrom, Bool.and_eq_true, decide_eq_true_eq] at h
    unfold store
    split
    · rename_i h1
      simp only [wfFrom, Bool.and_eq_true, decide_eq_true_eq]
      exact ⟨⟨hlo, hp⟩, ⟨h1, h.1.2⟩, h.2⟩
    · split
      · rename_i h1 h2
        subst h2
        simp only [wfFrom, Bool.and_eq_true, decide_eq_true_eq]
        exact ⟨⟨hlo, hp⟩, h.2⟩
      · rename_i h1 h2
        simp only [wfFrom, Bool.and_eq_true, decide_eq_true_eq]
        exact ⟨h.1, ih (k + 1) (by omega) h.2⟩

/-- A store keeps the canonical form. -/
theorem store_wf (m : List Host.Cell) (p : Nat) (b : Byte) (hp : p < 2 ^ 32) (h : Memory.wf m = true) :
    Memory.wf (store m p b) = true := wfFrom_store m 0 p b (Nat.zero_le p) hp h

/-- A byte of a launch keeps the canonical form, wherever it is given. -/
theorem launchByte_wf (m : List Host.Cell) (p : Nat) (b : Byte) (h : Memory.wf m = true) :
    Memory.wf (launchByte m p b) = true := by
  unfold launchByte
  split
  · exact store_wf m p b ‹_› h
  · exact h

theorem writeImage_wf (bs : List Byte) (p : Nat) (m : List Host.Cell) (h : Memory.wf m = true) :
    Memory.wf (writeImage bs p m) = true := by
  induction bs generalizing p m with
  | nil => exact h
  | cons b bs ih => exact ih _ _ (launchByte_wf m p b h)

theorem chunkImage_wf (ks : List Chunk) (m : List Host.Cell) (h : Memory.wf m = true) :
    Memory.wf (chunkImage ks m) = true := by
  induction ks generalizing m with
  | nil => exact h
  | cons k ks ih => exact ih _ (writeImage_wf _ _ m h)

theorem cellImage_wf (cs : List Host.Cell) (m : List Host.Cell) (h : Memory.wf m = true) :
    Memory.wf (cellImage cs m) = true := by
  induction cs generalizing m with
  | nil => exact h
  | cons c cs ih => exact ih _ (launchByte_wf m c.1 c.2 h)

/-- A launch begins with canonical memory, whatever program and `INIT` it is given. -/
theorem launchState_wf (cfg : Config) (p : List Chunk) (i : Init) : Memory.wf (launchState cfg p i).mem = true := by
  have h := chunkImage_wf p _ (cellImage_wf i.mem [] rfl)
  unfold launchState
  cases i.a[7] <;> simpa using h

/-- An address below every listed one is unlisted. -/
theorem lookup_of_wfFrom (m : List Host.Cell) (lo p : Nat) (h : wfFrom lo m = true) (hp : p < lo) :
    lookup m p = none := by
  induction m generalizing lo with
  | nil => rfl
  | cons c m ih =>
    obtain ⟨k, x⟩ := c
    simp only [wfFrom, Bool.and_eq_true, decide_eq_true_eq] at h
    rw [lookup, if_neg (by omega)]
    exact ih (k + 1) h.2 (by omega)

/-- Canonical memories that read alike are equal. -/
theorem wfFrom_ext (m n : List Host.Cell) (lo : Nat) (hm : wfFrom lo m = true) (hn : wfFrom lo n = true)
    (h : ∀ p, lookup m p = lookup n p) : m = n := by
  induction m generalizing lo n with
  | nil =>
    cases n with
    | nil => rfl
    | cons c n => have := h c.1; simp [lookup] at this
  | cons c m ih =>
    obtain ⟨k, x⟩ := c
    cases n with
    | nil => have := h k; simp [lookup] at this
    | cons e n =>
      obtain ⟨l, y⟩ := e
      simp only [wfFrom, Bool.and_eq_true, decide_eq_true_eq] at hm hn
      have hkl : k = l := by
        rcases lt_trichotomy k l with hlt | heq | hgt
        · have h1 := h k
          rw [lookup, if_pos rfl, lookup, if_neg (by omega), lookup_of_wfFrom n (l + 1) k hn.2 (by omega)] at h1
          cases h1
        · exact heq
        · have h1 := h l
          rw [lookup, if_neg (by omega), lookup_of_wfFrom m (k + 1) l hm.2 (by omega), lookup, if_pos rfl] at h1
          cases h1
      subst hkl
      have hxy : x = y := by
        have h1 := h k
        simpa [lookup] using h1
      subst hxy
      congr 1
      refine ih n (k + 1) hm.2 hn.2 fun p => ?_
      by_cases hp : k = p
      · subst hp
        rw [lookup_of_wfFrom m (k + 1) k hm.2 (by omega), lookup_of_wfFrom n (k + 1) k hn.2 (by omega)]
      · have h1 := h p
        rwa [lookup, if_neg hp, lookup, if_neg hp] at h1

/-! ## One byte -/

theorem State.peek_poke_same (s : State) (a : Long) (b : Byte) : (s.poke a b).peek a = some b :=
  lookup_store_same s.mem (s.physical a) b

theorem State.peek_poke_ne (s : State) {a c : Long} (b : Byte) (h : s.physical c ≠ s.physical a) :
    (s.poke a b).peek c = s.peek c := lookup_store_ne s.mem b h

/-! ## Reads: nothing but the free-value counter and the device log changes -/

theorem SameButDevice.refl (s : State) : SameButDevice s s := ⟨s.draws, s.deviceLog, rfl⟩

theorem SameButDevice.trans {s t u : State} (h : SameButDevice s t) (g : SameButDevice t u) : SameButDevice s u := by
  obtain ⟨k, l, rfl⟩ := h
  obtain ⟨k', l', rfl⟩ := g
  exact ⟨k', l', rfl⟩

theorem SameButDevice.draw (s : State) : SameButDevice s (draw s).2 := ⟨s.draws + 1, s.deviceLog, rfl⟩

theorem SameButDevice.log (s : State) (w : Bool) (n : Nat) (a v : Long) : SameButDevice s (s.logAccess w n a v) := by
  unfold State.logAccess
  split
  · exact ⟨s.draws, _, rfl⟩
  · exact .refl s

theorem loadByte_spec {s t : State} {a : Long} {b : Byte} (h : loadByte s a = .ok (b, t)) : SameButDevice s t := by
  unfold loadByte at h
  split at h
  · cases h; exact .draw s
  · split at h
    · cases h; exact .refl s
    · cases h

theorem loadBytes_spec {n : Nat} {s t : State} {a acc v : Long} (h : loadBytes n a acc s = .ok (v, t)) :
    SameButDevice s t := by
  induction n generalizing a acc s with
  | zero => cases h; exact .refl _
  | succ n ih =>
    simp only [loadBytes, bind, Except.bind] at h
    split at h
    · cases h
    · rename_i r hr
      exact (loadByte_spec hr).trans (ih h)

theorem readAccess_spec {n : Nat} {s t : State} {a v : Long} (h : readAccess n a s = .ok (v, t)) :
    SameButDevice s t := by
  simp only [readAccess, bind, Except.bind] at h
  split at h
  · cases h
  · split at h
    · cases h
    · rename_i r hr
      cases h
      exact (loadBytes_spec hr).trans (.log _ _ _ _ _)

theorem readEach_spec {n : Nat} {s t : State} {a acc v : Long} (h : readEach n a acc s = .ok (v, t)) :
    SameButDevice s t := by
  induction n generalizing a acc s with
  | zero => cases h; exact .refl _
  | succ n ih =>
    simp only [readEach, bind, Except.bind] at h
    split at h
    · cases h
    · rename_i r hr
      exact (readAccess_spec hr).trans (ih h)

/-- ALL a data read can do when it answers: draw free values and record device events. -/
theorem memRead_spec {s t : State} {sz : Size} {a v : Long} (h : memRead s sz a = .ok (v, t)) : SameButDevice s t := by
  unfold memRead at h
  split at h
  · cases h
  · split at h
    · cases h
    · split at h
      · exact readEach_spec h
      · exact readAccess_spec h

/-! ## Writes -/

/-- What a write to the `n` bytes from `a` may change: those bytes, none of them the program's, and the device log. -/
def WroteAt (s t : State) (a : Long) (n : Nat) : Prop :=
  ∃ m l, t = { s with mem := m, deviceLog := l } ∧
    (∀ c, Outside s a n c → t.peek c = s.peek c) ∧
    (∀ c, s.inText c = true → t.peek c = s.peek c) ∧
    (Memory.wf s.mem = true → Memory.wf m = true)

theorem Outside.weaken {s : State} {a b : Long} {n : Nat} (h : Outside s a (n + 1) b) : Outside s (a + 1) n b := by
  intro k hk
  have := h (k + 1) (by omega)
  rwa [show a + BitVec.ofNat 32 (k + 1) = a + 1 + BitVec.ofNat 32 k by
    rw [BitVec.add_assoc, BitVec.ofNat_add, BitVec.add_comm (BitVec.ofNat 32 k)]; rfl] at this

theorem storeByte_wrote (s : State) (a : Long) (b : Byte) (ht : s.inText a = false) :
    WroteAt s (storeByte s a b) a 1 := by
  unfold storeByte
  split
  · exact ⟨s.mem, s.deviceLog, rfl, fun _ _ => rfl, fun _ _ => rfl, id⟩
  · refine ⟨store s.mem (s.physical a) b, s.deviceLog, rfl, fun c hc => ?_, fun c hc => ?_, fun h => ?_⟩
    · have := hc 0 (by omega)
      exact s.peek_poke_ne b (by simpa using this.symm)
    · refine s.peek_poke_ne b fun e => ?_
      have : s.inText a = s.inText c := by simp only [State.inText, e]
      rw [ht, hc] at this
      cases this
    · exact store_wf s.mem _ b (s.physical_lt a) h

theorem checkNotText_ok {s : State} {n : Nat} {a : Long} {u : Unit} (h : checkNotText s (n + 1) a = .ok u) :
    s.inText a = false ∧ checkNotText s n (a + 1) = .ok u := by
  unfold checkNotText at h
  split at h
  · cases h
  · rename_i h1
    exact ⟨by simpa using h1, h⟩

theorem checkNotText_congr {s t : State} (hc : t.config = s.config) (n : Nat) (a : Long) :
    checkNotText t n a = checkNotText s n a := by
  induction n generalizing a with
  | zero => rfl
  | succ n ih => simp only [checkNotText, State.inText_congr hc, ih]

/-- Two writes one after the other, the second to the bytes that follow. -/
theorem WroteAt.step {s t u : State} {a : Long} {n : Nat} (h : WroteAt s t a 1) (g : WroteAt t u (a + 1) n) :
    WroteAt s u a (n + 1) := by
  obtain ⟨m, l, rfl, ho, hx, hw⟩ := h
  obtain ⟨m', l', rfl, go, gx, gw⟩ := g
  refine ⟨m', l', rfl, fun c hc => ?_, fun c hc => ?_, fun h => gw (hw h)⟩
  · rw [go c (hc.weaken), ho c]
    intro k hk
    exact hc k (by omega)
  · rw [gx c hc, hx c hc]

theorem WroteAt.log {s t : State} {a : Long} {n : Nat} (h : WroteAt s t a n) (w : Bool) (k : Nat) (p v : Long) :
    WroteAt s (t.logAccess w k p v) a n := by
  obtain ⟨m, l, rfl, ho, hx, hw⟩ := h
  unfold State.logAccess
  split
  · exact ⟨m, _, rfl, ho, hx, hw⟩
  · exact ⟨m, l, rfl, ho, hx, hw⟩

theorem WroteAt.refl (s : State) (a : Long) : WroteAt s s a 0 :=
  ⟨s.mem, s.deviceLog, rfl, fun _ _ => rfl, fun _ _ => rfl, id⟩

theorem storeBytes_wrote (n : Nat) (s : State) (a v : Long) {u : Unit} (h : checkNotText s n a = .ok u) :
    WroteAt s (storeBytes n a v s) a n := by
  induction n generalizing a s with
  | zero => exact .refl s a
  | succ n ih =>
    obtain ⟨ht, hr⟩ := checkNotText_ok h
    have h1 := storeByte_wrote s a (byteAt v n) ht
    refine h1.step (ih _ _ ?_)
    have hc : (storeByte s a (byteAt v n)).config = s.config := by
      obtain ⟨m, l, e, -⟩ := h1
      rw [e]
    rw [checkNotText_congr hc]
    exact hr

theorem writeAccess_wrote {n : Nat} {s t : State} {a v : Long} (h : writeAccess n a v s = .ok t) :
    WroteAt s t a n := by
  simp only [writeAccess, bind, Except.bind] at h
  split at h
  · cases h
  · split at h
    · cases h
    · rename_i u hu
      cases h
      exact (storeBytes_wrote n s a v hu).log _ _ _ _

theorem writeEach_wrote {n : Nat} {s t : State} {a v : Long} (h : writeEach n a v s = .ok t) : WroteAt s t a n := by
  induction n generalizing a s with
  | zero => cases h; exact .refl _ a
  | succ n ih =>
    simp only [writeEach, bind, Except.bind] at h
    split at h
    · cases h
    · rename_i r hr
      exact (writeAccess_wrote hr).step (ih h)

/-- ALL a data write can do when it answers: change the bytes of its operand, none of them the program's, and record
device events. -/
theorem memWrite_spec {s t : State} {sz : Size} {a v : Long} (h : memWrite s sz a v = .ok t) :
    WroteAt s t a sz.bytes := by
  unfold memWrite at h
  split at h
  · cases h
  · split at h
    · cases h
    · split at h
      · exact writeEach_wrote h
      · exact writeAccess_wrote h

end Sys2Proof.Machine
end

