-- ==== Sys2Proof/Laws/Operands.lean ====
section
/-! SUPPORT. For each operand operation one lemma that says all it can do when it answers. -/

namespace Sys2Proof.Machine

theorem indexedAddr_spec {s t : State} {b a : Long} {x : IndexExt} (h : indexedAddr s b x = .ok (a, t)) :
    SameButDevice s t := by
  unfold indexedAddr at h
  split at h
  · cases h; exact .refl _
  · dsimp only at h
    split at h
    · cases h; exact .refl _
    · simp only [bind, Except.bind] at h
      split at h
      · cases h
      · rename_i r hr
        cases h
        exact memRead_spec hr
    · simp only [bind, Except.bind] at h
      split at h
      · cases h
      · rename_i r hr
        cases h
        exact memRead_spec hr

/-- ALL the address of a memory mode can do: its register side effect, then what a read can do. -/
theorem eaAddr_spec {s t : State} {sz : Size} {pcx a : Long} {ea : Ea} (h : eaAddr s sz pcx ea = .ok (a, t)) :
    SameButDevice (eaSideEffect s sz ea) t ∧ eaIsMem ea = true := by
  cases ea <;> simp only [eaAddr] at h
  case index => exact ⟨indexedAddr_spec h, rfl⟩
  case pcindex => exact ⟨indexedAddr_spec h, rfl⟩
  all_goals first | (cases h; exact ⟨.refl _, rfl⟩) | cases h

/-- Where a decoded operand is, and all that decoding it can do. -/
theorem eaDecode_spec {s t : State} {sz : Size} {pcx : Long} {ea : Ea} {loc : Loc}
    (h : eaDecode s sz pcx ea = .ok (loc, t)) :
    SameButDevice (eaSideEffect s sz ea) t ∧
    ((∃ n, ea = .dreg n ∧ loc = .dreg n) ∨ (∃ n, ea = .areg n ∧ loc = .areg n) ∨
      (∃ v, ea = .imm v ∧ loc = .imm (immVal v)) ∨
      (eaIsMem ea = true ∧ ∃ a, loc = .mem a ∧ eaAddr s sz pcx ea = .ok (a, t))) := by
  have mem : ∀ {ea : Ea}, eaIsMem ea = true →
      (eaAddr s sz pcx ea >>= fun r => (Except.ok (Loc.mem r.1, r.2) : Except Stop (Loc × State))) = .ok (loc, t) →
      SameButDevice (eaSideEffect s sz ea) t ∧ (∃ a, loc = .mem a ∧ eaAddr s sz pcx ea = .ok (a, t)) := by
    intro ea _ h
    simp only [bind, Except.bind] at h
    split at h
    · cases h
    · rename_i r hr
      cases h
      exact ⟨(eaAddr_spec hr).1, r.1, rfl, hr⟩
  cases ea
  case dreg n => cases h; exact ⟨.refl _, .inl ⟨n, rfl, rfl⟩⟩
  case areg n => cases h; exact ⟨.refl _, .inr (.inl ⟨n, rfl, rfl⟩)⟩
  case imm v => cases h; exact ⟨.refl _, .inr (.inr (.inl ⟨v, rfl, rfl⟩))⟩
  all_goals
    obtain ⟨h1, h2⟩ := mem rfl h
    exact ⟨h1, .inr (.inr (.inr ⟨rfl, h2⟩))⟩

/-- ALL reading a located operand can do. -/
theorem eaGet_spec {s t : State} {sz : Size} {loc : Loc} {v : Long} (h : eaGet s sz loc = .ok (v, t)) :
    SameButDevice s t := by
  cases loc <;> simp only [eaGet] at h
  case mem => exact memRead_spec h
  all_goals cases h; exact .refl _

/-- ALL writing a located operand can do: the low bits of a data register, a whole address register, or its bytes. -/
theorem eaPut_spec {s t : State} {sz : Size} {loc : Loc} {v : Long} (h : eaPut s sz loc v = .ok t) :
    (∃ n, loc = .dreg n ∧ t = s.setDLow sz n v) ∨ (∃ n, loc = .areg n ∧ t = s.setA n v) ∨
      (∃ a, loc = .mem a ∧ WroteAt s t a sz.bytes) := by
  cases loc <;> simp only [eaPut] at h
  case dreg n => cases h; exact .inl ⟨n, rfl, rfl⟩
  case areg n => cases h; exact .inr (.inl ⟨n, rfl, rfl⟩)
  case mem a => exact .inr (.inr ⟨a, rfl, memWrite_spec h⟩)
  case imm => cases h

/-- ALL reading an operand can do: the side effect of its mode, then what a read can do. -/
theorem eaRead_spec {s t : State} {sz : Size} {own : Nat} {ea : Ea} {v : Long}
    (h : eaRead s sz own ea = .ok (v, t)) : SameButDevice (eaSideEffect s sz ea) t := by
  simp only [eaRead, bind, Except.bind] at h
  split at h
  · cases h
  · rename_i r hr
    exact (eaDecode_spec (loc := r.1) (t := r.2) hr).1.trans (eaGet_spec h)

theorem withOperand_spec {s t : State} {sz : Size} {own : Nat} {ea : Ea} {use : Long → State → State}
    (h : withOperand s sz own ea use = .ok t) :
    ∃ v u, eaRead s sz own ea = .ok (v, u) ∧ t = advanceEa (use v u) own ea := by
  simp only [withOperand, bind, Except.bind] at h
  split at h
  · cases h
  · rename_i r hr
    cases h
    exact ⟨r.1, r.2, hr, rfl⟩

theorem withOperand_ok {s u : State} {sz : Size} {own : Nat} {ea : Ea} {v : Long} (use : Long → State → State)
    (h : eaRead s sz own ea = .ok (v, u)) : withOperand s sz own ea use = .ok (advanceEa (use v u) own ea) := by
  simp [withOperand, h, bind, Except.bind, pure, Except.pure]

theorem modifyOperand_spec {s t : State} {sz : Size} {own : Nat} {ea : Ea} {f : Long → Ccr → Long × Ccr}
    (h : modifyOperand s sz own ea f = .ok t) :
    ∃ loc s1 dst s2 s3, eaDecode s sz (s.pcPlus own) ea = .ok (loc, s1) ∧ eaGet s1 sz loc = .ok (dst, s2) ∧
      eaPut s2 sz loc (f dst s2.ccr).1 = .ok s3 ∧ t = advanceEa (s3.setCcr (f dst s2.ccr).2) own ea := by
  simp only [modifyOperand, bind, Except.bind] at h
  split at h
  · cases h
  · rename_i r1 h1
    split at h
    · cases h
    · rename_i r2 h2
      split at h
      · cases h
      · rename_i s3 h3
        cases h
        exact ⟨r1.1, r1.2, r2.1, r2.2, s3, h1, h2, h3, rfl⟩

theorem modifyOperand_ok {s s1 s2 s3 : State} {sz : Size} {own : Nat} {ea : Ea} {f : Long → Ccr → Long × Ccr} {loc : Loc}
    {dst : Long} (h1 : eaDecode s sz (s.pcPlus own) ea = .ok (loc, s1)) (h2 : eaGet s1 sz loc = .ok (dst, s2))
    (h3 : eaPut s2 sz loc (f dst s2.ccr).1 = .ok s3) :
    modifyOperand s sz own ea f = .ok (advanceEa (s3.setCcr (f dst s2.ccr).2) own ea) := by
  simp [modifyOperand, h1, h2, h3, bind, Except.bind, pure, Except.pure]

/-- ALL a push can do: the stack pointer moves down by the size, and the bytes there are written. -/
theorem push_spec {s t : State} {sz : Size} {v : Long} (h : push s sz v = .ok t) :
    WroteAt (s.setSp (s.sp - BitVec.ofNat 32 sz.bytes)) t (s.sp - BitVec.ofNat 32 sz.bytes) sz.bytes :=
  memWrite_spec h

theorem State.setA_congr_device {s t : State} (n : RegNum) (v : Long) (h : SameButDevice s t) :
    SameButDevice (s.setA n v) (t.setA n v) := by
  obtain ⟨k, l, rfl⟩ := h
  refine ⟨k, l, ?_⟩
  unfold State.setA
  split
  · rfl
  · unfold State.setSp
    split
    · split
      · rename_i h1 h2
        rw [if_pos (show s.supervisor = true from h1), if_pos (show s.master = true from h2)]
      · rename_i h1 h2
        rw [if_pos (show s.supervisor = true from h1), if_neg (show ¬ s.master = true from h2)]
    · rename_i h1
      rw [if_neg (show ¬ s.supervisor = true from h1)]

theorem SameButDevice.getA {s t : State} (h : SameButDevice s t) (n : RegNum) : t.getA n = s.getA n := by
  obtain ⟨k, l, rfl⟩ := h
  exact State.getA_congr rfl rfl rfl rfl rfl rfl n

/-- ALL reading the two predecrement operands can do: both registers move down, then what reads can do; A[x] is then the
destination's address. -/
theorem predecPair_spec {s t : State} {sz : Size} {x y : RegNum} {ops : Long × Long}
    (h : predecPair s sz x y = .ok (ops, t)) :
    SameButDevice ((s.setA y (s.getA y - stepOf sz y)).setA x (predecDest s sz x y)) t ∧
      t.getA x = predecDest s sz x y := by
  simp only [predecPair, bind, Except.bind] at h
  split at h
  · cases h
  · rename_i r1 h1
    split at h
    · cases h
    · rename_i r2 h2
      cases h
      have e1 := memRead_spec h1
      have e2 := memRead_spec h2
      have hx : r1.2.getA x = (s.setA y (s.getA y - stepOf sz y)).getA x := e1.getA x
      rw [hx] at e2
      have e3 := (State.setA_congr_device x (predecDest s sz x y) e1).trans e2
      refine ⟨e3, ?_⟩
      rw [e2.getA x]
      exact State.getA_setA_same _ _ _

theorem readBounds_spec {s t : State} {sz : Size} {own : Nat} {ea : Ea} {b : Long × Long}
    (h : readBounds s sz own ea = .ok (b, t)) : SameButDevice (eaSideEffect s sz ea) t := by
  simp only [readBounds, bind, Except.bind] at h
  split at h
  · cases h
  · rename_i r1 h1
    split at h
    · cases h
    · rename_i r2 h2
      split at h
      · cases h
      · rename_i r3 h3
        cases h
        exact ((eaAddr_spec h1).1.trans (memRead_spec h2)).trans (memRead_spec h3)

/-! ## Ending an instruction -/

/-- A read of an unwritten byte ends an instruction with the byte's address and the instruction's (R426). -/
@[simp] theorem finish_unwritten (s : State) (a : Long) :
    finish s (.error (.unwritten a)) = .fault (.unwrittenRead a s.pc) := rfl

/-- An instruction ends in a next state in two ways: it completed, or it raised an exception that was taken. -/
theorem finish_next {s t : State} {r : Except Stop State} (h : finish s r = .next t) :
    r = .ok t ∨ ∃ e, r = .error (.raise e) ∧ takeException e s = .next t := by
  unfold finish at h
  split at h
  · cases h; exact .inl rfl
  · exact .inr ⟨_, rfl, h⟩
  · cases h
  · cases h

/-- An exception leads on only under `TRAP_MODEL = frame`, and then by the entry. -/
theorem takeException_next {e : Exc} {s t : State} (h : takeException e s = .next t) :
    s.config.trapModel = .frame ∧ e.terminal = false ∧ enterHandler e s = .ok t := by
  unfold takeException at h
  split at h
  · cases h
  · rename_i h1
    simp only [Bool.or_eq_true, decide_eq_true_eq, not_or, Bool.not_eq_true] at h1
    refine ⟨?_, h1.2, ?_⟩
    · cases hm : s.config.trapModel
      · exact absurd hm h1.1
      · rfl
    · split at h
      · rename_i u hu
        cases h
        exact hu
      · rename_i stop _
        cases stop <;> cases h

/-- Under `TRAP_MODEL = fault` only completion leads on. -/
theorem finish_next_fault {s t : State} {r : Except Stop State} (hm : s.config.trapModel = .fault)
    (h : finish s r = .next t) : r = .ok t := by
  rcases finish_next h with h | ⟨e, -, h⟩
  · exact h
  · have := (takeException_next h).1
    rw [hm] at this
    cases this

end Sys2Proof.Machine
end

