-- ==== Sys2Proof/Laws/Families.lean ====
section
/-! SUPPORT. For each operation a family of instructions shares, one lemma that says all it can do when it answers; and
what every register, flag and byte is after a read, a side effect or a write. -/

namespace Sys2Proof.Machine

/-! ## What a read leaves -/

theorem SameButDevice.d {s t : State} (h : SameButDevice s t) : t.d = s.d := by obtain ⟨_, _, rfl⟩ := h; rfl
theorem SameButDevice.a {s t : State} (h : SameButDevice s t) : t.a = s.a := by obtain ⟨_, _, rfl⟩ := h; rfl
theorem SameButDevice.pc {s t : State} (h : SameButDevice s t) : t.pc = s.pc := by obtain ⟨_, _, rfl⟩ := h; rfl
theorem SameButDevice.sr {s t : State} (h : SameButDevice s t) : t.sr = s.sr := by obtain ⟨_, _, rfl⟩ := h; rfl
theorem SameButDevice.sys {s t : State} (h : SameButDevice s t) : t.sys = s.sys := by obtain ⟨_, _, rfl⟩ := h; rfl
theorem SameButDevice.ccr {s t : State} (h : SameButDevice s t) : t.ccr = s.ccr := by obtain ⟨_, _, rfl⟩ := h; rfl
theorem SameButDevice.mem {s t : State} (h : SameButDevice s t) : t.mem = s.mem := by obtain ⟨_, _, rfl⟩ := h; rfl
theorem SameButDevice.config {s t : State} (h : SameButDevice s t) : t.config = s.config := by
  obtain ⟨_, _, rfl⟩ := h; rfl
theorem SameButDevice.stacks {s t : State} (h : SameButDevice s t) : SameStacks s t := by
  obtain ⟨_, _, rfl⟩ := h; exact ⟨rfl, rfl, rfl⟩
theorem SameButDevice.control {s t : State} (h : SameButDevice s t) : SameControl s t := by
  obtain ⟨_, _, rfl⟩ := h; exact ⟨rfl, rfl, rfl, rfl, rfl, rfl⟩
theorem SameButDevice.getD {s t : State} (h : SameButDevice s t) (n : RegNum) : t.getD n = s.getD n :=
  State.getD_congr h.d n

/-! ## What a register side effect leaves -/

@[simp] theorem eaSideEffect_d (s : State) (sz : Size) (ea : Ea) : (eaSideEffect s sz ea).d = s.d := by
  cases ea <;> simp [eaSideEffect]
@[simp] theorem eaSideEffect_pc (s : State) (sz : Size) (ea : Ea) : (eaSideEffect s sz ea).pc = s.pc := by
  cases ea <;> simp [eaSideEffect]
@[simp] theorem eaSideEffect_sr (s : State) (sz : Size) (ea : Ea) : (eaSideEffect s sz ea).sr = s.sr := by
  cases ea <;> simp [eaSideEffect]
@[simp] theorem eaSideEffect_sys (s : State) (sz : Size) (ea : Ea) : (eaSideEffect s sz ea).sys = s.sys := by
  cases ea <;> simp [eaSideEffect]
@[simp] theorem eaSideEffect_ccr (s : State) (sz : Size) (ea : Ea) : (eaSideEffect s sz ea).ccr = s.ccr := by
  cases ea <;> simp [eaSideEffect]
@[simp] theorem eaSideEffect_mem (s : State) (sz : Size) (ea : Ea) : (eaSideEffect s sz ea).mem = s.mem := by
  cases ea <;> simp [eaSideEffect]
@[simp] theorem eaSideEffect_config (s : State) (sz : Size) (ea : Ea) :
    (eaSideEffect s sz ea).config = s.config := by cases ea <;> simp [eaSideEffect]

/-! ## What a write leaves -/

theorem WroteAt.d {s t : State} {a : Long} {n : Nat} (h : WroteAt s t a n) : t.d = s.d := by
  obtain ⟨_, _, rfl, _⟩ := h; rfl
theorem WroteAt.a {s t : State} {p : Long} {n : Nat} (h : WroteAt s t p n) : t.a = s.a := by
  obtain ⟨_, _, rfl, _⟩ := h; rfl
theorem WroteAt.pc {s t : State} {a : Long} {n : Nat} (h : WroteAt s t a n) : t.pc = s.pc := by
  obtain ⟨_, _, rfl, _⟩ := h; rfl
theorem WroteAt.sr {s t : State} {a : Long} {n : Nat} (h : WroteAt s t a n) : t.sr = s.sr := by
  obtain ⟨_, _, rfl, _⟩ := h; rfl
theorem WroteAt.sys {s t : State} {a : Long} {n : Nat} (h : WroteAt s t a n) : t.sys = s.sys := by
  obtain ⟨_, _, rfl, _⟩ := h; rfl
theorem WroteAt.ccr {s t : State} {a : Long} {n : Nat} (h : WroteAt s t a n) : t.ccr = s.ccr := by
  obtain ⟨_, _, rfl, _⟩ := h; rfl
theorem WroteAt.config {s t : State} {a : Long} {n : Nat} (h : WroteAt s t a n) : t.config = s.config := by
  obtain ⟨_, _, rfl, _⟩ := h; rfl
theorem WroteAt.stacks {s t : State} {a : Long} {n : Nat} (h : WroteAt s t a n) : SameStacks s t := by
  obtain ⟨_, _, rfl, _⟩ := h; exact ⟨rfl, rfl, rfl⟩
theorem WroteAt.control {s t : State} {a : Long} {n : Nat} (h : WroteAt s t a n) : SameControl s t := by
  obtain ⟨_, _, rfl, _⟩ := h; exact ⟨rfl, rfl, rfl, rfl, rfl, rfl⟩

/-! ## Bits -/

/-- A bit change of an operand that is no data register changes its byte in place. -/
theorem changeBit_byte (s : State) (own raw : Nat) {ea : Ea} (f : Bool → Bool) (h : ∀ n, ea ≠ .dreg n) :
    changeBit s own raw ea f = modifyOperand s .byte own ea fun old fl =>
      (withBit old (raw % 8) (f (old.getLsbD (raw % 8))), bitFlags fl (old.getLsbD (raw % 8))) := by
  cases ea <;> first | rfl | exact absurd rfl (h _)

/-- A bit test of an operand that is no data register reads its byte. -/
theorem testBit_byte (s : State) (own raw : Nat) {ea : Ea} (h : ∀ n, ea ≠ .dreg n) :
    testBit s own raw ea = withOperand s .byte own ea fun old t =>
      t.setCcr (bitFlags t.ccr (old.getLsbD (raw % 8))) := by
  cases ea <;> first | rfl | exact absurd rfl (h _)

/-! ## Bounds -/

/-- ALL the flags of CMP2 and CHK2 can be: X kept, Z equality with a bound, C the bounds test where it has an answer. -/
theorem boundsFlags_spec (s : State) (sz : Size) (rn : GReg) (lo hi : Long) :
    ∃ k f, boundsFlags s sz rn lo hi = { s with draws := k, ccr := f } ∧ f.x = s.ccr.x ∧
      f.z = (trunc (boundsSize sz rn) (s.getR rn) == trunc (boundsSize sz rn) (boundVal sz rn lo) ||
        trunc (boundsSize sz rn) (s.getR rn) == trunc (boundsSize sz rn) (boundVal sz rn hi)) ∧
      (∀ c, outOfBounds (boundsSize sz rn) (s.getR rn) (boundVal sz rn lo) (boundVal sz rn hi) = some c → f.c = c) := by
  have carry : ∃ k, (boundsCarry s (boundsSize sz rn) (s.getR rn) (boundVal sz rn lo) (boundVal sz rn hi)).2 =
        { s with draws := k } ∧
      ∀ c, outOfBounds (boundsSize sz rn) (s.getR rn) (boundVal sz rn lo) (boundVal sz rn hi) = some c →
        (boundsCarry s (boundsSize sz rn) (s.getR rn) (boundVal sz rn lo) (boundVal sz rn hi)).1 = c := by
    unfold boundsCarry
    split
    · rename_i c h
      exact ⟨s.draws, rfl, fun c' h' => by rw [h] at h'; exact Option.some.inj h'⟩
    · rename_i h
      exact ⟨s.draws + 1, rfl, fun c' h' => by rw [h] at h'; cases h'⟩
  obtain ⟨k, h1, h2⟩ := carry
  unfold boundsFlags
  simp only [h1]
  exact ⟨_, _, rfl, rfl, rfl, h2⟩

/-- ALL the test of CHK can do: whether it traps, X kept, N the sign where it traps. -/
theorem checkBound_spec (s : State) (sz : Size) (v b : Long) :
    ∃ k f, checkBound s sz v b =
        (decide (sval sz v < 0) || decide (sval sz v > sval sz b), { s with draws := k, ccr := f }) ∧
      f.x = s.ccr.x ∧ ((sval sz v < 0 ∨ sval sz v > sval sz b) → f.n = decide (sval sz v < 0)) := by
  unfold checkBound drawBit draw State.setCcr
  dsimp only
  by_cases h1 : sval sz v < 0
  · rw [if_pos h1, decide_eq_true h1]
    exact ⟨_, _, rfl, rfl, fun _ => rfl⟩
  · rw [if_neg h1, decide_eq_false h1]
    by_cases h2 : sval sz v > sval sz b
    · rw [if_pos h2, decide_eq_true h2]
      exact ⟨_, _, rfl, rfl, fun _ => rfl⟩
    · rw [if_neg h2, decide_eq_false h2]
      exact ⟨_, _, rfl, rfl, fun h => absurd h (by simp [h1, h2])⟩

/-! ## Bit fields -/

theorem bfLoad_spec {n : Nat} {s t : State} {a : Long} {acc v : BitVec 40} (h : bfLoad n a acc s = .ok (v, t)) :
    SameButDevice s t := by
  induction n generalizing a acc s with
  | zero => cases h; exact .refl _
  | succ n ih =>
    simp only [bfLoad, bind, Except.bind] at h
    split at h
    · cases h
    · rename_i r hr
      exact (memRead_spec hr).trans (ih h)

theorem bfStore_wrote {n : Nat} {s t : State} {a : Long} {v : BitVec 40} (h : bfStore n a v s = .ok t) :
    WroteAt s t a n := by
  induction n generalizing a s with
  | zero => cases h; exact .refl _ a
  | succ n ih =>
    simp only [bfStore, bind, Except.bind] at h
    split at h
    · cases h
    · rename_i r hr
      exact WroteAt.step (memWrite_spec hr) (ih h)

/-- Where a field is found: in the data register, or in the one to five bytes its address gives. -/
theorem bfLocate_spec {s t : State} {p : BfSpec} {ea : Ea} {place : BfPlace} (h : bfLocate s p ea = .ok (place, t)) :
    SameButDevice (eaSideEffect s .byte ea) t ∧
    ((∃ n, ea = .dreg n ∧ place = .reg n (bfOffset s p % 32).toNat) ∨
      (∃ base, eaAddr s .byte (s.pcPlus 2) ea = .ok (base, t) ∧
        place = bfMemPlace base (bfOffset s p) (bfWidth s p))) := by
  have mem : (eaAddr s .byte (s.pcPlus 2) ea >>= fun r =>
        (Except.ok (bfMemPlace r.1 (bfOffset s p) (bfWidth s p), r.2) : Except Stop (BfPlace × State))) =
        .ok (place, t) →
      SameButDevice (eaSideEffect s .byte ea) t ∧
        ∃ base, eaAddr s .byte (s.pcPlus 2) ea = .ok (base, t) ∧
          place = bfMemPlace base (bfOffset s p) (bfWidth s p) := by
    intro h
    simp only [bind, Except.bind] at h
    split at h
    · cases h
    · rename_i r hr
      cases h
      exact ⟨(eaAddr_spec hr).1, r.1, hr, rfl⟩
  cases ea
  case dreg n => cases h; exact ⟨.refl _, .inl ⟨n, rfl, rfl⟩⟩
  all_goals
    obtain ⟨h1, h2⟩ := mem h
    exact ⟨h1, .inr h2⟩

/-- ALL reading a field can do: the side effect of its mode, then what reads can do. -/
theorem bfRead_spec {s t : State} {p : BfSpec} {ea : Ea} {place : BfPlace} {buf : BitVec 40} {f : Long}
    (h : bfRead s p ea = .ok ((place, buf, f), t)) :
    SameButDevice (eaSideEffect s .byte ea) t ∧ (∃ u, bfLocate s p ea = .ok (place, u)) ∧
      f = bfField buf (bfBelow place (bfWidth s p)) (bfWidth s p) := by
  simp only [bfRead, bind, Except.bind] at h
  split at h
  · cases h
  · rename_i r1 h1
    split at h
    · cases h
    · rename_i r2 h2
      cases h
      refine ⟨(bfLocate_spec h1).1.trans ?_, ⟨r1.2, h1⟩, rfl⟩
      unfold bfBuffer at h2
      split at h2
      · cases h2; exact .refl _
      · exact bfLoad_spec h2

/-- ALL writing a field back can do: its data register, or its bytes. -/
theorem bfWriteBack_spec {s t : State} {place : BfPlace} {buf : BitVec 40} (h : bfWriteBack place buf s = .ok t) :
    (∃ n o, place = .reg n o ∧ t = s.setD n ((buf.extractLsb' 0 32).rotateRight o)) ∨
      (∃ ba bo nb, place = .mem ba bo nb ∧ WroteAt s t ba nb) := by
  cases place with
  | reg n o => cases h; exact .inl ⟨n, o, rfl, rfl⟩
  | mem ba bo nb => exact .inr ⟨ba, bo, nb, rfl, bfStore_wrote h⟩

theorem bfExtract_spec {s t : State} {p : BfSpec} {ea : Ea} {use : Long → State → State}
    (h : bfExtract s p ea use = .ok t) :
    ∃ place buf f u, bfRead s p ea = .ok ((place, buf, f), u) ∧
      t = advanceEa (use f (u.setCcr (bfFlags (bfWidth s p) f u.ccr))) 2 ea := by
  simp only [bfExtract, bind, Except.bind] at h
  split at h
  · cases h
  · rename_i r hr
    cases h
    exact ⟨r.1.1, r.1.2.1, r.1.2.2, r.2, hr, rfl⟩

theorem bfChange_spec {s t : State} {p : BfSpec} {ea : Ea} {new tested : Long → Long}
    (h : bfChange s p ea new tested = .ok t) :
    ∃ place buf f u v, bfRead s p ea = .ok ((place, buf, f), u) ∧
      bfWriteBack place (bfReplace buf (bfBelow place (bfWidth s p)) (bfWidth s p) (new f)) u = .ok v ∧
      t = advanceEa (v.setCcr (bfFlags (bfWidth s p) (tested f) v.ccr)) 2 ea := by
  simp only [bfChange, bind, Except.bind] at h
  split at h
  · cases h
  · rename_i r hr
    split at h
    · cases h
    · rename_i v hv
      cases h
      exact ⟨r.1.1, r.1.2.1, r.1.2.2, r.2, v, hr, hv, rfl⟩

/-! ## Exceptions -/

/-- ALL pushing SR, PC and a format word can do: three pushes, the lowest address last. -/
theorem pushFour_spec {s t : State} {sr : BitVec 16} {pc : Long} {format : BitVec 4} {vector : Nat}
    (h : pushFour s sr pc format vector = .ok t) :
    ∃ u v, push s .word (formatWord format vector) = .ok u ∧ push u .long pc = .ok v ∧
      push v .word (ofWord sr) = .ok t := by
  simp only [pushFour, bind, Except.bind] at h
  split at h
  · cases h
  · rename_i u hu
    split at h
    · cases h
    · rename_i v hv
      exact ⟨u, v, hu, hv, h⟩

/-- ALL an exception entry can do: the new SR, the frame, the throwaway frame where one is pushed, the vector. -/
theorem enterHandler_spec {e : Exc} {s t : State} (h : enterHandler e s = .ok t) :
    ∃ u v w, pushFrame (s.setSys (sysForEntry e s.sys)) (frameKind s.config.cpu e) s.sr (e.stackedPc s) (e.instrAddr s)
        e.vector = .ok u ∧
      (if throwsAway e u then pushFour (u.setSys (sysWithoutM u.sys)) s.sr (e.stackedPc s) 1 e.vector else .ok u) = .ok v ∧
      ∃ handler, memRead v .long (v.vectorBase + BitVec.ofNat 32 (4 * e.vector)) = .ok (handler, w) ∧
        t = w.setPc handler := by
  simp only [enterHandler, bind, Except.bind] at h
  split at h
  · cases h
  · rename_i u hu
    refine ⟨u, ?_⟩
    by_cases ht : throwsAway e u = true
    · simp only [ht, if_true] at h ⊢
      cases hv : pushFour (u.setSys (sysWithoutM u.sys)) s.sr (e.stackedPc s) 1 e.vector with
      | error _ => rw [hv] at h; cases h
      | ok v =>
        simp only [hv] at h
        cases hr : memRead v .long (v.vectorBase + BitVec.ofNat 32 (4 * e.vector)) with
        | error _ => rw [hr] at h; cases h
        | ok r =>
          rw [hr] at h
          cases h
          exact ⟨v, r.2, hu, rfl, r.1, hr, rfl⟩
    · simp only [ht] at h ⊢
      cases hr : memRead u .long (u.vectorBase + BitVec.ofNat 32 (4 * e.vector)) with
      | error _ => simp only [Bool.false_eq_true, if_false, hr] at h; cases h
      | ok r =>
        simp only [Bool.false_eq_true, if_false, hr] at h
        cases h
        exact ⟨u, r.2, hu, rfl, r.1, hr, rfl⟩

/-- ALL reading a frame can do: nothing but what reads change. -/
theorem readFrame_spec {s t : State} {f : Long × Long × BitVec 4} (h : readFrame s = .ok (f, t)) : SameButDevice s t := by
  simp only [readFrame, bind, Except.bind] at h
  split at h
  · cases h
  · rename_i p hp
    split at h
    · cases h
    · rename_i q hq
      split at h
      · cases h
      · rename_i r hr
        cases h
        exact ((memRead_spec hp).trans (memRead_spec hq)).trans (memRead_spec hr)

/-- ALL unstacking a frame that is no throwaway frame can do: drop the bytes its format has. -/
theorem unstackPlain_spec {f : Long × Long × BitVec 4} {s t : State} (h : unstackPlain f s = .ok t) :
    ∃ n, frameBytes s.config.cpu.is020 f.2.2 = some n ∧ t = restore s n f.1 f.2.1 := by
  unfold unstackPlain at h
  split at h
  · rename_i n hn
    cases h
    exact ⟨n, hn, rfl⟩
  · cases h

/-- The formats a member knows are those of R447. -/
theorem frameBytes_some {b : Bool} {v : BitVec 4} {n : Nat} (h : frameBytes b v = some n) :
    (v = 0 ∧ n = 8) ∨ (b = false ∧ v = 8 ∧ n = 58) ∨
    (b = true ∧ ((v = 2 ∧ n = 12) ∨ (v = 9 ∧ n = 20) ∨ (v = 10 ∧ n = 32) ∨ (v = 11 ∧ n = 92))) := by
  revert h n
  revert b v
  decide +revert

/-- ALL unstacking can do where frames have a format: one frame, or a throwaway frame and the one on the master stack. -/
theorem unstack_spec {s t : State} (hc : s.config.cpu ≠ .mc68000) (hh : s.config.cpu ≠ .mc68hc000)
    (h : unstack s = .ok t) :
    ∃ f u, readFrame s = .ok (f, u) ∧
      (unstackPlain f u = .ok t ∨
       (u.config.cpu.is020 = true ∧ f.2.2 = 1 ∧
        ∃ g v, readFrame (restore u 8 f.1 f.2.1).toMasterStack = .ok (g, v) ∧ unstackPlain g v = .ok t)) := by
  unfold unstack at h
  split at h
  · rename_i hm; exact absurd hm hc
  · rename_i hm; exact absurd hm hh
  all_goals
    simp only [bind, Except.bind] at h
    split at h
    · cases h
    · rename_i r hr
      refine ⟨r.1, r.2, hr, ?_⟩
      split at h
      · rename_i hb
        rw [Bool.and_eq_true, beq_iff_eq] at hb
        split at h
        · cases h
        · rename_i q hq
          exact .inr ⟨hb.1, hb.2, q.1, q.2, hq, h⟩
      · exact .inl h

/-! ## Coprocessors -/

/-- ALL asking a coprocessor can do: pass the gate and use up one answer. -/
theorem cpAsk_spec {s t : State} {i : Instr} {id : BitVec 3} {r : CpAnswer} (h : cpAsk s i id = .ok (r, t)) :
    cpGate s (opWord i) id false = .ok () ∧ ∃ rs, s.cpAnswers = r :: rs ∧ t = { s with cpAnswers := rs } := by
  simp only [cpAsk, bind, Except.bind] at h
  split at h
  · cases h
  · rename_i u hu
    unfold cpAnswer at h
    split at h
    · cases h
    · rename_i q rs hq
      cases h
      exact ⟨hu, rs, hq, rfl⟩

/-- An instruction whose part is not given never completes by itself. -/
theorem cpOpaque_error (s : State) (i : Instr) (id : BitVec 3) (p : Bool) : ∃ stop, cpOpaque s i id p = .error stop := by
  simp only [cpOpaque, bind, Except.bind]
  split <;> exact ⟨_, rfl⟩

/-- What a fetch reads depends on memory and the parameters alone. -/
theorem fetch16_congr {s t : State} (hc : t.config = s.config) (hm : t.mem = s.mem) (a : Long) :
    fetch16 t a = fetch16 s a := by
  simp only [fetch16, fetchByte, State.inText_congr hc, State.peek_congr hc hm]

theorem fetchParse_congr {α : Type} {s t : State} (hc : t.config = s.config) (hm : t.mem = s.mem)
    (parse : List Word → Except DecodeStop (α × List Word)) (fuel : Nat) (a : Long) (ws : List Word) :
    fetchParse t parse fuel a ws = fetchParse s parse fuel a ws := by
  have hs : ∀ stop, decodeStop t stop = decodeStop s stop := by
    intro stop
    cases stop <;> simp only [decodeStop, hc]
  induction fuel generalizing a ws with
  | zero => rfl
  | succ fuel ih =>
    unfold fetchParse
    split
    · rfl
    · simp only [fetch16_congr hc hm, bind, Except.bind, ih]
    · rw [hs]

end Sys2Proof.Machine
end

