-- ==== Sys2Proof/Laws/PerInstr.lean ====
section
/-! SUPPORT. One statement made for every instruction: its encoding has as many words as its length says (R100, R101,
R105). -/

namespace Sys2Proof.Laws.EncodedLength

open Sys2Proof.Machine

/-- An instruction is encoded in as many words as `instrLen` counts. -/
def Statement (i : Instr) : Prop := (encode i).length = instrLen i

theorem immWords_length (v : Imm) : (immWords v).length = immLen v.size := by cases v <;> rfl

theorem dispWords_length (d : Disp) : (dispWords d).length = dispLen d := by cases d <;> rfl

theorem indexExtWords_length (x : IndexExt) : (indexExtWords x).length = indexExtLen x := by
  cases x with
  | brief _ _ => rfl
  | full _ _ _ bd ind =>
    cases ind <;> simp only [indexExtWords, indirectionWords, indexExtLen, dispWords_length, List.length_cons,
      List.length_append, List.length_nil] <;> omega

/-- The extension words of an effective address are as many as its length says (R110 to R122). -/
theorem eaExtWords_length (ea : Ea) : (eaExtWords ea).length = eaLen ea := by
  cases ea <;> simp [eaExtWords, eaLen, indexExtWords_length, immWords_length, longWords]

theorem branchWords_length (off : BranchOff) : (branchWords off).length = branchLen off := by cases off <;> rfl

/-- Operation word, own words and extension words, whatever the instruction. -/
theorem encode_length (i : Instr) : Statement i := by
  unfold Statement encode instrLen ownLen
  cases instrEa i <;> simp [eaExtWords_length] <;> omega

theorem addToReg (sz : Size) (r : RegNum) (ea : Ea) : Statement (.addToReg sz r ea) := encode_length _
theorem addToMem (sz : Size) (r : RegNum) (ea : Ea) : Statement (.addToMem sz r ea) := encode_length _
theorem adda (isLong : Bool) (a : RegNum) (ea : Ea) : Statement (.adda isLong a ea) := encode_length _
theorem addi (v : Imm) (ea : Ea) : Statement (.addi v ea) := encode_length _
theorem addq (sz : Size) (q : BitVec 3) (ea : Ea) : Statement (.addq sz q ea) := encode_length _
theorem addx (sz : Size) (form : XForm) (x y : RegNum) : Statement (.addx sz form x y) := encode_length _
theorem clr (sz : Size) (ea : Ea) : Statement (.clr sz ea) := encode_length _
theorem cmp (sz : Size) (r : RegNum) (ea : Ea) : Statement (.cmp sz r ea) := encode_length _
theorem cmpa (isLong : Bool) (a : RegNum) (ea : Ea) : Statement (.cmpa isLong a ea) := encode_length _
theorem cmpi (v : Imm) (ea : Ea) : Statement (.cmpi v ea) := encode_length _
theorem cmpm (sz : Size) (x y : RegNum) : Statement (.cmpm sz x y) := encode_length _
theorem cmp2 (sz : Size) (rn : GReg) (ea : Ea) : Statement (.cmp2 sz rn ea) := encode_length _
theorem andToReg (sz : Size) (r : RegNum) (ea : Ea) : Statement (.andToReg sz r ea) := encode_length _
theorem andToMem (sz : Size) (r : RegNum) (ea : Ea) : Statement (.andToMem sz r ea) := encode_length _
theorem andi (v : Imm) (ea : Ea) : Statement (.andi v ea) := encode_length _
theorem aslReg (sz : Size) (count : ShiftCount) (r : RegNum) : Statement (.aslReg sz count r) := encode_length _
theorem aslMem (ea : Ea) : Statement (.aslMem ea) := encode_length _
theorem asrReg (sz : Size) (count : ShiftCount) (r : RegNum) : Statement (.asrReg sz count r) := encode_length _
theorem asrMem (ea : Ea) : Statement (.asrMem ea) := encode_length _
theorem btstReg (r : RegNum) (ea : Ea) : Statement (.btstReg r ea) := encode_length _
theorem btstImm (n : Byte) (ea : Ea) : Statement (.btstImm n ea) := encode_length _
theorem bchgReg (r : RegNum) (ea : Ea) : Statement (.bchgReg r ea) := encode_length _
theorem bchgImm (n : Byte) (ea : Ea) : Statement (.bchgImm n ea) := encode_length _
theorem bclrReg (r : RegNum) (ea : Ea) : Statement (.bclrReg r ea) := encode_length _
theorem bclrImm (n : Byte) (ea : Ea) : Statement (.bclrImm n ea) := encode_length _
theorem bsetReg (r : RegNum) (ea : Ea) : Statement (.bsetReg r ea) := encode_length _
theorem bsetImm (n : Byte) (ea : Ea) : Statement (.bsetImm n ea) := encode_length _
theorem bftst (p : BfSpec) (ea : Ea) : Statement (.bftst p ea) := encode_length _
theorem bfextu (p : BfSpec) (dn : RegNum) (ea : Ea) : Statement (.bfextu p dn ea) := encode_length _
theorem bfchg (p : BfSpec) (ea : Ea) : Statement (.bfchg p ea) := encode_length _
theorem bfexts (p : BfSpec) (dn : RegNum) (ea : Ea) : Statement (.bfexts p dn ea) := encode_length _
theorem bfclr (p : BfSpec) (ea : Ea) : Statement (.bfclr p ea) := encode_length _
theorem bfffo (p : BfSpec) (dn : RegNum) (ea : Ea) : Statement (.bfffo p dn ea) := encode_length _
theorem bfset (p : BfSpec) (ea : Ea) : Statement (.bfset p ea) := encode_length _
theorem bfins (p : BfSpec) (dn : RegNum) (ea : Ea) : Statement (.bfins p dn ea) := encode_length _
theorem abcd (form : XForm) (x y : RegNum) : Statement (.abcd form x y) := encode_length _
theorem bcc (c : Cond) (off : BranchOff) : Statement (.bcc c off) := encode_length _
theorem bra (off : BranchOff) : Statement (.bra off) := encode_length _
theorem bsr (off : BranchOff) : Statement (.bsr off) := encode_length _
theorem andiToSr (v : Word) : Statement (.andiToSr v) := encode_length _
theorem andiToCcr (v : Byte) : Statement (.andiToCcr v) := encode_length _
theorem bkpt (v : BitVec 3) : Statement (.bkpt v) := encode_length _
theorem chkW (r : RegNum) (ea : Ea) : Statement (.chkW r ea) := encode_length _
theorem chkL (r : RegNum) (ea : Ea) : Statement (.chkL r ea) := encode_length _
theorem chk2 (sz : Size) (rn : GReg) (ea : Ea) : Statement (.chk2 sz rn ea) := encode_length _
theorem cas (sz : Size) (du dc : RegNum) (ea : Ea) : Statement (.cas sz du dc ea) := encode_length _
theorem cas2W (p1 p2 : CasPair) : Statement (.cas2W p1 p2) := encode_length _
theorem cas2L (p1 p2 : CasPair) : Statement (.cas2L p1 p2) := encode_length _
theorem cpBcc (id : BitVec 3) (isLong : Bool) (cond : BitVec 6) : Statement (.cpBcc id isLong cond) := encode_length _
theorem cpDBcc (id : BitVec 3) (r : RegNum) : Statement (.cpDBcc id r) := encode_length _
theorem cpGen (id : BitVec 3) (field : BitVec 6) : Statement (.cpGen id field) := encode_length _
theorem cpRestore (id : BitVec 3) (field : BitVec 6) : Statement (.cpRestore id field) := encode_length _
theorem cpSave (id : BitVec 3) (field : BitVec 6) : Statement (.cpSave id field) := encode_length _
theorem cpScc (id : BitVec 3) (field : BitVec 6) : Statement (.cpScc id field) := encode_length _

end Sys2Proof.Laws.EncodedLength
end

