-- ==== Sys2Proof/Tests/Slice0.lean ====
section
/-! SUPPORT. The model's own tests: ill-formed terms refused, every constructor decoded from a word written out from the
spec's figure, single steps against the vectors of spec/95_test_vectors.md (each theorem is named after its vector), and
for every statement with hypotheses a witness that meets them. -/

namespace Sys2Proof.Tests

open Sys2Proof.Machine

/-! ## Helpers -/

/-- A program of words at 0x1000 on a member, in the reset state changed by `f`. -/
def boot (cpu : Cpu) (ws : List Word) (f : State → State) : State :=
  f { State.reset with
      pc     := 0x1000
      mem    := writeImage (ws.flatMap wordBytes) 0x1000 []
      config := { Config.default with cpu := cpu, text := [⟨0x1000, 2 * ws.length⟩] } }

/-- The state with bytes written from an address on. -/
def fill : List Byte → Long → State → State
  | [], _, s => s
  | b :: bs, a, s => fill bs (a + 1) (s.poke a b)

/-- The outcome is a next state of which `p` holds. -/
def completes (o : Host.Outcome State Fault Refusal) (p : State → Bool) : Bool :=
  match o with
  | .next t => p t
  | .fault _ | .refused _ => false

/-- The outcome is the recorded fault of an exception with this vector number and instruction address. -/
def stopsAt (vector : Nat) (instr : Long) (o : Host.Outcome State Fault Refusal) : Bool :=
  match o with
  | .fault (.exception _ v a) => v == vector && a == instr
  | .fault (.unwrittenRead _ _) | .fault (.doubleBusFault _) | .next _ | .refused _ => false

/-- The outcome is the recorded read of the unwritten byte at `addr` by the instruction at `instr`. -/
def stopsUnread (addr instr : Long) (o : Host.Outcome State Fault Refusal) : Bool :=
  match o with
  | .fault (.unwrittenRead b a) => b == addr && a == instr
  | .fault (.exception _ _ _) | .fault (.doubleBusFault _) | .next _ | .refused _ => false

/-- The outcome is this refusal. -/
def refuses (r : Refusal) (o : Host.Outcome State Fault Refusal) : Bool :=
  match o with
  | .refused q => q == r
  | .next _ | .fault _ => false

/-- The words decode to the instruction, all of them used, and the instruction is encoded as these words. -/
def codes (cpu : Cpu) (ws : List Word) (i : Instr) : Bool :=
  match decode cpu ws with
  | .ok (j, rest) => j == i && rest.isEmpty && encode i == ws
  | .error _ => false

/-! ## Well-formedness: a term each check refuses -/

theorem test_wf_addToReg_byte_areg : Instr.wf .mc68000 (.addToReg .byte 0 (.areg 1)) = false := by decide
theorem test_wf_addToReg_scale_below_020 :
    Instr.wf .mc68010 (.addToReg .word 0 (.index 0 (.brief ⟨.dn 1, true, 1⟩ 0))) =
      false := by decide
theorem test_wf_addToMem_dreg : Instr.wf .mc68000 (.addToMem .word 0 (.dreg 1)) = false := by decide
theorem test_wf_adda_imm_size : Instr.wf .mc68000 (.adda true 0 (.imm (.word 1))) = false := by decide
theorem test_wf_addi_areg : Instr.wf .mc68000 (.addi (.word 1) (.areg 0)) = false := by decide
theorem test_wf_addq_byte_areg : Instr.wf .mc68000 (.addq .byte 1 (.areg 0)) = false := by decide
theorem test_wf_addq_imm : Instr.wf .mc68000 (.addq .word 1 (.imm (.word 1))) = false := by decide
theorem test_wf_clr_areg : Instr.wf .mc68000 (.clr .word (.areg 0)) = false := by decide
theorem test_wf_cmp_full_ext_below_020 :
    Instr.wf .mc68010 (.cmp .word 0 (.index 0 (.full false false ⟨.dn 1, true, 0⟩ .null .none))) =
      false := by decide
theorem test_wf_cmpa_imm_size : Instr.wf .mc68000 (.cmpa false 0 (.imm (.long 1))) = false := by decide
theorem test_wf_cmpi_pcdisp_below_020 : Instr.wf .mc68010 (.cmpi (.word 1) (.pcdisp 0)) = false := by decide
theorem test_wf_cmpi_imm : Instr.wf .mc68020 (.cmpi (.word 1) (.imm (.word 1))) = false := by decide
theorem test_wf_cmp2_below_020 : Instr.wf .mc68010 (.cmp2 .word (.dn 0) (.ind 0)) = false := by decide
theorem test_wf_cmp2_postinc : Instr.wf .mc68020 (.cmp2 .word (.dn 0) (.postinc 0)) = false := by decide
theorem test_wf_andToReg_areg : Instr.wf .mc68000 (.andToReg .word 0 (.areg 1)) = false := by decide
theorem test_wf_andToMem_dreg : Instr.wf .mc68000 (.andToMem .word 0 (.dreg 1)) = false := by decide
theorem test_wf_andi_pcdisp : Instr.wf .mc68020 (.andi (.word 1) (.pcdisp 0)) = false := by decide
theorem test_wf_aslMem_dreg : Instr.wf .mc68000 (.aslMem (.dreg 0)) = false := by decide
theorem test_wf_asrMem_pcindex :
    Instr.wf .mc68020 (.asrMem (.pcindex (.brief ⟨.dn 1, true, 0⟩ 0))) =
      false := by decide
theorem test_wf_btstReg_areg : Instr.wf .mc68000 (.btstReg 0 (.areg 1)) = false := by decide
theorem test_wf_btstReg_word_imm : Instr.wf .mc68000 (.btstReg 0 (.imm (.word 1))) = false := by decide
theorem test_wf_btstImm_imm : Instr.wf .mc68000 (.btstImm 0 (.imm (.byte 1))) = false := by decide
theorem test_wf_bchgReg_areg : Instr.wf .mc68000 (.bchgReg 0 (.areg 1)) = false := by decide
theorem test_wf_bchgImm_pcdisp : Instr.wf .mc68000 (.bchgImm 0 (.pcdisp 1)) = false := by decide
theorem test_wf_bclrReg_areg : Instr.wf .mc68000 (.bclrReg 0 (.areg 1)) = false := by decide
theorem test_wf_bclrImm_imm : Instr.wf .mc68000 (.bclrImm 0 (.imm (.byte 1))) = false := by decide
theorem test_wf_bsetReg_pcdisp : Instr.wf .mc68000 (.bsetReg 0 (.pcdisp 1)) = false := by decide
theorem test_wf_bsetImm_areg : Instr.wf .mc68000 (.bsetImm 0 (.areg 1)) = false := by decide
theorem test_wf_bftst_below_020 : Instr.wf .mc68010 (.bftst ⟨.imm 0, .imm 1⟩ (.dreg 0)) = false := by decide
theorem test_wf_bftst_postinc : Instr.wf .mc68020 (.bftst ⟨.imm 0, .imm 1⟩ (.postinc 0)) = false := by decide
theorem test_wf_bfextu_predec : Instr.wf .mc68020 (.bfextu ⟨.imm 0, .imm 1⟩ 0 (.predec 0)) = false := by decide
theorem test_wf_bfchg_pcdisp : Instr.wf .mc68020 (.bfchg ⟨.imm 0, .imm 1⟩ (.pcdisp 0)) = false := by decide
theorem test_wf_bfexts_areg : Instr.wf .mc68020 (.bfexts ⟨.imm 0, .imm 1⟩ 0 (.areg 0)) = false := by decide
theorem test_wf_bfclr_pcdisp : Instr.wf .mc68020 (.bfclr ⟨.imm 0, .imm 1⟩ (.pcdisp 0)) = false := by decide
theorem test_wf_bfffo_imm : Instr.wf .mc68020 (.bfffo ⟨.imm 0, .imm 1⟩ 0 (.imm (.byte 0))) = false := by decide
theorem test_wf_bfset_postinc : Instr.wf .mc68020 (.bfset ⟨.imm 0, .imm 1⟩ (.postinc 0)) = false := by decide
theorem test_wf_bfins_below_020 : Instr.wf .mc68000 (.bfins ⟨.imm 0, .imm 1⟩ 0 (.dreg 0)) = false := by decide
theorem test_wf_bcc_byte_zero : Instr.wf .mc68000 (.bcc .eq (.byte 0)) = false := by decide
theorem test_wf_bra_byte_FF : Instr.wf .mc68020 (.bra (.byte 0xFF)) = false := by decide
theorem test_wf_bsr_long_below_020 : Instr.wf .mc68010 (.bsr (.long 0)) = false := by decide
theorem test_wf_chkW_areg : Instr.wf .mc68000 (.chkW 0 (.areg 0)) = false := by decide
theorem test_wf_chkL_below_020 : Instr.wf .mc68010 (.chkL 0 (.dreg 0)) = false := by decide
theorem test_wf_chk2_dreg : Instr.wf .mc68020 (.chk2 .word (.dn 0) (.dreg 0)) = false := by decide
theorem test_wf_cas_dreg : Instr.wf .mc68020 (.cas .word 0 1 (.dreg 0)) = false := by decide
theorem test_wf_cas_below_020 : Instr.wf .mc68010 (.cas .word 0 1 (.ind 0)) = false := by decide
theorem test_wf_cas2W_below_020 : Instr.wf .mc68010 (.cas2W ⟨.dn 0, 0, 0⟩ ⟨.dn 1, 0, 0⟩) = false := by decide
theorem test_wf_cas2L_below_020 : Instr.wf .mc68000 (.cas2L ⟨.dn 0, 0, 0⟩ ⟨.dn 1, 0, 0⟩) = false := by decide
theorem test_wf_cpBcc_id_0 : Instr.wf .mc68020 (.cpBcc 0 false 0) = false := by decide
theorem test_wf_cpDBcc_below_020 : Instr.wf .mc68010 (.cpDBcc 1 0) = false := by decide
theorem test_wf_cpGen_id_0 : Instr.wf .mc68020 (.cpGen 0 0) = false := by decide
theorem test_wf_cpRestore_predec : Instr.wf .mc68020 (.cpRestore 1 0b100000) = false := by decide
theorem test_wf_cpSave_pcdisp : Instr.wf .mc68020 (.cpSave 1 0b111010) = false := by decide
theorem test_wf_cpScc_areg : Instr.wf .mc68020 (.cpScc 1 0b001000) = false := by decide
theorem test_wf_post_with_index_suppressed :
    Instr.wf .mc68020 (.clr .word (.index 0 (.full false true ⟨.dn 1, true, 0⟩ .null (.post .null)))) =
      false := by decide

/-! ## Decoding: a word of each constructor written out from its Encoding line -/

theorem test_decode_addToReg :
    codes .mc68000 [0b1101_011_010_101_010, 0xFFFE]
      (.addToReg .long 3 (.disp 2 0xFFFE)) =
      true := by decide
theorem test_decode_addToMem :
    codes .mc68000 [0b1101_101_101_011_110]
      (.addToMem .word 5 (.postinc 6)) =
      true := by decide
theorem test_decode_adda : codes .mc68000 [0b1101_001_111_001_100] (.adda true 1 (.areg 4)) = true := by decide
theorem test_decode_addi :
    codes .mc68000 [0b0000_0110_10_100_011, 0x1234, 0x5678]
      (.addi (.long 0x12345678) (.predec 3)) =
      true := by decide
theorem test_decode_addq : codes .mc68000 [0b0101_000_0_01_001_101] (.addq .word 0 (.areg 5)) = true := by decide
theorem test_decode_addx : codes .mc68000 [0b1101_010_1_10_00_1_011] (.addx .long .predec 2 3) = true := by decide
theorem test_decode_clr :
    codes .mc68000 [0b0100_0010_00_111_001, 0x0001, 0x2000]
      (.clr .byte (.absl 0x00012000)) =
      true := by decide
theorem test_decode_cmp :
    codes .mc68000 [0b1011_110_001_111_100, 0x8000]
      (.cmp .word 6 (.imm (.word 0x8000))) =
      true := by decide
theorem test_decode_cmpa : codes .mc68000 [0b1011_111_011_010_001] (.cmpa false 7 (.ind 1)) = true := by decide
theorem test_decode_cmpi :
    codes .mc68020 [0b0000_1100_01_111_010, 0x1234, 0x0010]
      (.cmpi (.word 0x1234) (.pcdisp 0x0010)) =
      true := by decide
theorem test_decode_cmpm : codes .mc68000 [0b1011_001_1_00_001_110] (.cmpm .byte 1 6) = true := by decide
theorem test_decode_cmp2 :
    codes .mc68020 [0b0000_0_10_0_11_010_011, 0b1_101_0_00000000000]
      (.cmp2 .long (.an 5) (.ind 3)) =
      true := by decide
theorem test_decode_andToReg :
    codes .mc68000 [0b1100_111_000_111_011, 0b0_010_1_00_0_11111100]
      (.andToReg .byte 7 (.pcindex (.brief ⟨.dn 2, true, 0⟩ 0xFC))) =
      true := by decide
theorem test_decode_andToMem :
    codes .mc68000 [0b1100_000_110_111_000, 0x4000]
      (.andToMem .long 0 (.absw 0x4000)) =
      true := by decide
theorem test_decode_andi :
    codes .mc68000 [0b0000_0010_00_000_111, 0x00A5]
      (.andi (.byte 0xA5) (.dreg 7)) =
      true := by decide
theorem test_decode_aslReg : codes .mc68000 [0b1110_010_1_01_1_00_100] (.aslReg .word (.reg 2) 4) = true := by decide
theorem test_decode_aslMem : codes .mc68000 [0b1110_000_1_11_010_110] (.aslMem (.ind 6)) = true := by decide
theorem test_decode_asrReg : codes .mc68000 [0b1110_000_0_10_0_00_001] (.asrReg .long (.imm 0) 1) = true := by decide
theorem test_decode_asrMem : codes .mc68000 [0b1110_000_0_11_100_111] (.asrMem (.predec 7)) = true := by decide
theorem test_decode_btstReg :
    codes .mc68000 [0b0000_010_100_111_100, 0x0080]
      (.btstReg 2 (.imm (.byte 0x80))) =
      true := by decide
theorem test_decode_btstImm :
    codes .mc68000 [0b0000_1000_00_000_011, 0x001F]
      (.btstImm 0x1F (.dreg 3)) =
      true := by decide
theorem test_decode_bchgReg : codes .mc68000 [0b0000_110_101_000_001] (.bchgReg 6 (.dreg 1)) = true := by decide
theorem test_decode_bchgImm :
    codes .mc68000 [0b0000_1000_01_010_010, 0x0007]
      (.bchgImm 7 (.ind 2)) =
      true := by decide
theorem test_decode_bclrReg : codes .mc68000 [0b0000_001_110_011_101] (.bclrReg 1 (.postinc 5)) = true := by decide
theorem test_decode_bclrImm :
    codes .mc68000 [0b0000_1000_10_101_011, 0x0002, 0x0008]
      (.bclrImm 2 (.disp 3 8)) =
      true := by decide
theorem test_decode_bsetReg : codes .mc68000 [0b0000_111_111_000_000] (.bsetReg 7 (.dreg 0)) = true := by decide
theorem test_decode_bsetImm :
    codes .mc68000 [0b0000_1000_11_111_000, 0x0005, 0x2000]
      (.bsetImm 5 (.absw 0x2000)) =
      true := by decide
theorem test_decode_bftst :
    codes .mc68020 [0b1110_1000_11_000_010, 0b0000_0_01001_0_10001]
      (.bftst ⟨.imm 9, .imm 17⟩ (.dreg 2)) =
      true := by decide
theorem test_decode_bfextu :
    codes .mc68020 [0b1110_1001_11_010_001, 0b0_011_1_00100_0_00111]
      (.bfextu ⟨.reg 4, .imm 7⟩ 3 (.ind 1)) =
      true := by decide
theorem test_decode_bfchg :
    codes .mc68020 [0b1110_1010_11_000_101, 0b0000_0_00000_1_00110]
      (.bfchg ⟨.imm 0, .reg 6⟩ (.dreg 5)) =
      true := by decide
theorem test_decode_bfexts :
    codes .mc68020 [0b1110_1011_11_000_000, 0b0_101_0_11111_0_00001]
      (.bfexts ⟨.imm 31, .imm 1⟩ 5 (.dreg 0)) =
      true := by decide
theorem test_decode_bfclr :
    codes .mc68020 [0b1110_1100_11_111_001, 0b0000_0_00011_0_00100, 0x0000, 0x3000]
      (.bfclr ⟨.imm 3, .imm 4⟩ (.absl 0x3000)) =
      true := by decide
theorem test_decode_bfffo :
    codes .mc68020 [0b1110_1101_11_111_010, 0b0_001_1_00010_1_00011, 0x0004]
      (.bfffo ⟨.reg 2, .reg 3⟩ 1 (.pcdisp 4)) =
      true := by decide
theorem test_decode_bfset :
    codes .mc68020 [0b1110_1110_11_010_100, 0b0000_0_10000_0_00000]
      (.bfset ⟨.imm 16, .imm 0⟩ (.ind 4)) =
      true := by decide
theorem test_decode_bfins :
    codes .mc68020 [0b1110_1111_11_101_010, 0b0_110_0_00001_0_00010, 0x0010]
      (.bfins ⟨.imm 1, .imm 2⟩ 6 (.disp 2 0x0010)) =
      true := by decide
theorem test_decode_abcd : codes .mc68000 [0b1100_100_1_0000_1_010] (.abcd .predec 4 2) = true := by decide
theorem test_decode_bcc : codes .mc68000 [0b0110_1101_00000000, 0x1234] (.bcc .lt (.word 0x1234)) = true := by decide
theorem test_decode_bra :
    codes .mc68020 [0b0110_0000_11111111, 0x0001, 0x0002]
      (.bra (.long 0x00010002)) =
      true := by decide
theorem test_decode_bsr : codes .mc68000 [0b0110_0001_10000000] (.bsr (.byte 0x80)) = true := by decide
theorem test_decode_andiToSr : codes .mc68000 [0b0000_0010_0111_1100, 0xF8FF] (.andiToSr 0xF8FF) = true := by decide
theorem test_decode_andiToCcr :
    codes .mc68000 [0b0000_0010_0011_1100, 0b00000000_00010101]
      (.andiToCcr 0x15) =
      true := by decide
theorem test_decode_bkpt : codes .mc68000 [0b0100_1000_0100_1_101] (.bkpt 5) = true := by decide
theorem test_decode_chkW : codes .mc68000 [0b0100_011_11_0_000_100] (.chkW 3 (.dreg 4)) = true := by decide
theorem test_decode_chkL : codes .mc68020 [0b0100_101_10_0_011_010] (.chkL 5 (.postinc 2)) = true := by decide
theorem test_decode_chk2 :
    codes .mc68020 [0b0000_0_01_0_11_111_010, 0b0_010_1_00000000000, 0x0006]
      (.chk2 .word (.dn 2) (.pcdisp 6)) =
      true := by decide
theorem test_decode_cas :
    codes .mc68020 [0b0000_1_01_0_11_011_111, 0b0000000_110_000_011]
      (.cas .byte 6 3 (.postinc 7)) =
      true := by decide
theorem test_decode_cas2W :
    codes .mc68020 [0b0000_1_10_0_11_111_100, 0b0_001_000_010_000_011, 0b1_100_000_101_000_110]
      (.cas2W ⟨.dn 1, 2, 3⟩ ⟨.an 4, 5, 6⟩) =
      true := by decide
theorem test_decode_cas2L :
    codes .mc68020 [0b0000_1_11_0_11_111_100, 0b1_000_000_010_000_000, 0b1_001_000_011_000_001]
      (.cas2L ⟨.an 0, 2, 0⟩ ⟨.an 1, 3, 1⟩) =
      true := by decide
theorem test_decode_cpBcc : codes .mc68020 [0b1111_010_01_1_000101] (.cpBcc 2 true 5) = true := by decide
theorem test_decode_cpDBcc : codes .mc68020 [0b1111_001_001_001_110] (.cpDBcc 1 6) = true := by decide
theorem test_decode_cpGen : codes .mc68020 [0b1111_111_000_011_010] (.cpGen 7 0b011010) = true := by decide
theorem test_decode_cpRestore : codes .mc68020 [0b1111_011_101_011_001] (.cpRestore 3 0b011001) = true := by decide
theorem test_decode_cpSave : codes .mc68020 [0b1111_100_100_010_000] (.cpSave 4 0b010000) = true := by decide
theorem test_decode_cpScc : codes .mc68020 [0b1111_001_001_111_000] (.cpScc 1 0b111000) = true := by decide
theorem test_decode_fullExtension :
    codes .mc68020 [0b0100_0010_01_110_011, 0b1_010_0_11_1_0_0_10_0_1_10, 0x0100, 0xFFFE]
      (.clr .word (.index 3 (.full false false ⟨.an 2, false, 3⟩ (.word 0x0100) (.post (.word 0xFFFE))))) =
      true := by decide

/-! ## One step, against the vectors of spec/95_test_vectors.md -/

theorem test_addToReg_V1 : completes
    (step (boot .mc68000 [0xD001] fun s =>
      (s.setD 0 0x123456FF).setD 1 0x1))
    (fun t => t.pc == 0x1002 && t.getD 0 == 0x12345600 && t.getD 1 == 0x1 && t.sr == 0x2715) = true := by decide

theorem test_addToReg_V5 : completes
    (step (boot .mc68000 [0xD098] fun s =>
      fill [0x00, 0x00, 0x00, 0x02] 0x3000 ((s.setD 0 0xFFFFFFFF).setA 0 0x3000)))
    (fun t => t.pc == 0x1002 && t.getD 0 == 0x1 && t.getA 0 == 0x3004 && t.sr == 0x2711) = true := by decide

theorem test_addToMem_V6 : completes
    (step (boot .mc68000 [0xD150] fun s =>
      fill [0xFF, 0xFF] 0x3000 ((s.setD 0 0xABCD0001).setA 0 0x3000)))
    (fun t => t.pc == 0x1002 && t.getD 0 == 0xABCD0001 && t.getA 0 == 0x3000 && t.sr == 0x2715 &&
      t.peek 0x3000 == some 0x00 && t.peek 0x3001 == some 0x00) = true := by decide

theorem test_addToMem_V7 : completes
    (step (boot .mc68000 [0xD127] fun s =>
      fill [0x22, 0x33] 0x7FFE ((s.setD 0 0x10).setA 7 0x8000)))
    (fun t => t.pc == 0x1002 && t.getD 0 == 0x10 && t.getA 7 == 0x7FFE && t.sr == 0x2700 &&
      t.peek 0x7FFE == some 0x32) = true := by decide

theorem test_adda_V25 : completes
    (step (boot .mc68000 [0xD0C0] fun s =>
      ((s.setSr 0x2715).setD 0 0x18000).setA 0 0x10000))
    (fun t => t.pc == 0x1002 && t.getD 0 == 0x18000 && t.getA 0 == 0x8000 && t.sr == 0x2715) = true := by decide

theorem test_adda_V27 : completes
    (step (boot .mc68000 [0xD0D8] fun s =>
      fill [0x00, 0x10] 0x3000 (s.setA 0 0x3000)))
    (fun t => t.pc == 0x1002 && t.getA 0 == 0x3012) = true := by decide

theorem test_addi_V29 : completes
    (step (boot .mc68000 [0x0650, 0x8000] fun s =>
      fill [0x80, 0x00] 0x3000 (s.setA 0 0x3000)))
    (fun t => t.pc == 0x1004 && t.getA 0 == 0x3000 && t.sr == 0x2717 &&
      t.peek 0x3000 == some 0x00 && t.peek 0x3001 == some 0x00) = true := by decide

theorem test_addi_V30 : completes
    (step (boot .mc68000 [0x0600, 0xABFF] fun s =>
      s.setD 0 0x1))
    (fun t => t.pc == 0x1004 && t.getD 0 == 0x0 && t.sr == 0x2715) = true := by decide

theorem test_addq_V34 : completes
    (step (boot .mc68000 [0x5080] fun s =>
      s.setD 0 0xFFFFFFF8))
    (fun t => t.pc == 0x1002 && t.getD 0 == 0x0 && t.sr == 0x2715) = true := by decide

theorem test_addq_V35 : completes
    (step (boot .mc68000 [0x5248] fun s =>
      (s.setSr 0x270A).setA 0 0xFFFF))
    (fun t => t.pc == 0x1002 && t.getA 0 == 0x10000 && t.sr == 0x270A) = true := by decide

theorem test_addx_V41 : completes
    (step (boot .mc68000 [0xD181] fun s =>
      ((s.setSr 0x2714).setD 0 0xFFFFFFFF).setD 1 0x0))
    (fun t => t.pc == 0x1002 && t.getD 0 == 0x0 && t.getD 1 == 0x0 && t.sr == 0x2715) = true := by decide

theorem test_addx_V46 : completes
    (step (boot .mc68000 [0xDF4F] fun s =>
      fill [0x00, 0x01, 0x00, 0x02] 0x8000 ((s.setSr 0x2710).setA 7 0x8004)))
    (fun t => t.pc == 0x1002 && t.getA 7 == 0x8000 && t.sr == 0x2700 &&
      t.peek 0x8000 == some 0x00 && t.peek 0x8001 == some 0x04) = true := by decide

theorem test_clr_V49 : completes
    (step (boot .mc68000 [0x4240] fun s =>
      (s.setSr 0x271F).setD 0 0x12345678))
    (fun t => t.pc == 0x1002 && t.getD 0 == 0x12340000 && t.sr == 0x2714) = true := by decide

theorem test_clr_V51 : completes
    (step (boot .mc68000 [0x4210] fun s =>
      fill [0x55] 0x3000 (s.setA 0 0x3000)))
    (fun t => t.pc == 0x1002 && t.getA 0 == 0x3000 && !t.ccr.n && t.ccr.z && !t.ccr.v &&
      !t.ccr.c && t.peek 0x3000 == some 0x00) = true := by decide

theorem test_cmp_V56 : completes
    (step (boot .mc68000 [0xB001] fun s =>
      ((s.setSr 0x2710).setD 0 0x100).setD 1 0x1))
    (fun t => t.pc == 0x1002 && t.getD 0 == 0x100 && t.getD 1 == 0x1 && t.sr == 0x2719) = true := by decide

theorem test_cmp_V59 : completes
    (step (boot .mc68000 [0xB041] fun s =>
      (s.setD 0 0x7FFF).setD 1 0xFFFF))
    (fun t => t.pc == 0x1002 && t.getD 0 == 0x7FFF && t.getD 1 == 0xFFFF && t.ccr.n && !t.ccr.z &&
      t.ccr.v && t.ccr.c) = true := by decide

theorem test_cmpa_V63 : completes
    (step (boot .mc68000 [0xB0C0] fun s =>
      (s.setD 0 0xFFFF).setA 0 0xFFFFFFFF))
    (fun t => t.pc == 0x1002 && t.getD 0 == 0xFFFF && t.getA 0 == 0xFFFFFFFF && !t.ccr.n &&
      t.ccr.z && !t.ccr.v && !t.ccr.c) = true := by decide

theorem test_cmpa_V65 : completes
    (step (boot .mc68000 [0xB0FC, 0x8000] fun s =>
      s.setA 0 0x8000))
    (fun t => t.pc == 0x1004 && t.getA 0 == 0x8000 && !t.ccr.n && !t.ccr.z && !t.ccr.v &&
      t.ccr.c) = true := by decide

theorem test_cmpi_V66 : completes
    (step (boot .mc68000 [0x0C00, 0x0080] fun s =>
      s.setD 0 0x7F))
    (fun t => t.pc == 0x1004 && t.getD 0 == 0x7F && t.ccr.n && !t.ccr.z && t.ccr.v && t.ccr.c) = true := by decide

theorem test_cmpi_V67 : completes
    (step (boot .mc68020 [0x0C7A, 0x1234, 0x0002, 0x1234] id))
    (fun t => t.pc == 0x1006 && !t.ccr.n && t.ccr.z && !t.ccr.v && !t.ccr.c) = true := by decide

theorem test_cmpm_V70 : completes
    (step (boot .mc68000 [0xB308] fun s =>
      fill [0x00] 0x4000 (fill [0x01] 0x3000 ((s.setA 0 0x3000).setA 1 0x4000))))
    (fun t => t.pc == 0x1002 && t.getA 0 == 0x3001 && t.getA 1 == 0x4001 && t.ccr.n && !t.ccr.z &&
      !t.ccr.v && t.ccr.c) = true := by decide

theorem test_cmpm_V72 : completes
    (step (boot .mc68000 [0xBF0F] fun s =>
      fill [0x10, 0xFF, 0x20, 0xFF] 0x8000 (s.setA 7 0x8000)))
    (fun t => t.pc == 0x1002 && t.getA 7 == 0x8004 && !t.ccr.n && !t.ccr.z && !t.ccr.v &&
      !t.ccr.c) = true := by decide

theorem test_cmp2_V76 : completes
    (step (boot .mc68020 [0x02D0, 0x0000] fun s =>
      fill [0x00, 0x10, 0x00, 0x20] 0x3000 ((s.setD 0 0x21).setA 0 0x3000)))
    (fun t => t.pc == 0x1004 && t.getD 0 == 0x21 && t.getA 0 == 0x3000 && !t.ccr.z && t.ccr.c) = true := by decide

theorem test_cmp2_V80 : completes
    (step (boot .mc68020 [0x02D0, 0x9000] fun s =>
      fill [0xFF, 0xF0, 0x00, 0x10] 0x3000 ((s.setA 0 0x3000).setA 1 0xFFFFFFF8)))
    (fun t => t.pc == 0x1004 && t.getA 0 == 0x3000 && t.getA 1 == 0xFFFFFFF8 && !t.ccr.z &&
      !t.ccr.c) = true := by decide

theorem test_andToReg_V100 : completes
    (step (boot .mc68000 [0xC010] fun s =>
      fill [0x8F] 0x3000 (((s.setSr 0x2713).setD 0 0xFFFFFFF0).setA 0 0x3000)))
    (fun t => t.pc == 0x1002 && t.getD 0 == 0xFFFFFF80 && t.getA 0 == 0x3000 && t.sr == 0x2718) = true := by decide

theorem test_andToReg_V102 : completes
    (step (boot .mc68000 [0xC07C, 0x00FF] fun s =>
      s.setD 0 0x1234ABCD))
    (fun t => t.pc == 0x1004 && t.getD 0 == 0x123400CD && !t.ccr.n && !t.ccr.z && !t.ccr.v &&
      !t.ccr.c) = true := by decide

theorem test_andToMem_V101 : completes
    (step (boot .mc68000 [0xC190] fun s =>
      fill [0xF0, 0xF0, 0xF0, 0xF0] 0x3000 ((s.setD 0 0xF0F0F0F).setA 0 0x3000)))
    (fun t => t.pc == 0x1002 && t.getD 0 == 0xF0F0F0F && t.getA 0 == 0x3000 && !t.ccr.n &&
      t.ccr.z && !t.ccr.v && !t.ccr.c && t.peek 0x3000 == some 0x00 &&
      t.peek 0x3001 == some 0x00 && t.peek 0x3002 == some 0x00 &&
      t.peek 0x3003 == some 0x00) = true := by decide

theorem test_andi_V106 : completes
    (step (boot .mc68000 [0x0240, 0x0F0F] fun s =>
      (s.setSr 0x2710).setD 0 0xFFFF1234))
    (fun t => t.pc == 0x1004 && t.getD 0 == 0xFFFF0204 && t.sr == 0x2710) = true := by decide

theorem test_andi_V108 : completes
    (step (boot .mc68000 [0x02A0, 0xFFFF, 0x0000] fun s =>
      fill [0x87, 0x65, 0xAB, 0xCD] 0x3000 (s.setA 0 0x3004)))
    (fun t => t.pc == 0x1006 && t.getA 0 == 0x3000 && t.ccr.n && !t.ccr.z && !t.ccr.v &&
      !t.ccr.c && t.peek 0x3000 == some 0x87 && t.peek 0x3001 == some 0x65 &&
      t.peek 0x3002 == some 0x00 && t.peek 0x3003 == some 0x00) = true := by decide

theorem test_aslReg_V120 : completes
    (step (boot .mc68000 [0xE180] fun s =>
      s.setD 0 0xFF0001))
    (fun t => t.pc == 0x1002 && t.getD 0 == 0xFF000100 && t.sr == 0x270A) = true := by decide

theorem test_aslReg_V126 : completes
    (step (boot .mc68000 [0xE320] fun s =>
      (s.setD 0 0x1).setD 1 0x9))
    (fun t => t.pc == 0x1002 && t.getD 0 == 0x0 && t.getD 1 == 0x9 && t.sr == 0x2706) = true := by decide

theorem test_aslMem_V134 : completes
    (step (boot .mc68000 [0xE1D0] fun s =>
      fill [0x40, 0x00] 0x3000 (s.setA 0 0x3000)))
    (fun t => t.pc == 0x1002 && t.getA 0 == 0x3000 && t.sr == 0x270A &&
      t.peek 0x3000 == some 0x80 && t.peek 0x3001 == some 0x00) = true := by decide

theorem test_asrReg_V129 : completes
    (step (boot .mc68000 [0xE240] fun s =>
      s.setD 0 0xFFFF8001))
    (fun t => t.pc == 0x1002 && t.getD 0 == 0xFFFFC000 && t.sr == 0x2719) = true := by decide

theorem test_asrReg_V133 : completes
    (step (boot .mc68000 [0xE060] fun s =>
      s.setD 0 0x8004))
    (fun t => t.pc == 0x1002 && t.getD 0 == 0xF800 && t.sr == 0x2708) = true := by decide

theorem test_asrMem_V135 : completes
    (step (boot .mc68000 [0xE0D8] fun s =>
      fill [0x80, 0x01] 0x3000 (s.setA 0 0x3000)))
    (fun t => t.pc == 0x1002 && t.getA 0 == 0x3002 && t.sr == 0x2719 &&
      t.peek 0x3000 == some 0xC0 && t.peek 0x3001 == some 0x00) = true := by decide

theorem test_btstReg_V153 : completes
    (step (boot .mc68000 [0x0300] fun s =>
      (s.setD 0 0x80000000).setD 1 0xFFFFFFFF))
    (fun t => t.pc == 0x1002 && t.getD 0 == 0x80000000 && t.getD 1 == 0xFFFFFFFF && !t.ccr.z) = true := by decide

theorem test_btstReg_V155 : completes
    (step (boot .mc68000 [0x033C, 0x0080] fun s =>
      s.setD 1 0x7))
    (fun t => t.pc == 0x1004 && t.getD 1 == 0x7 && !t.ccr.z) = true := by decide

theorem test_btstImm_V152 : completes
    (step (boot .mc68000 [0x0800, 0x0105] fun s =>
      s.setD 0 0x20))
    (fun t => t.pc == 0x1004 && t.getD 0 == 0x20 && !t.ccr.z) = true := by decide

theorem test_btstImm_V154 : completes
    (step (boot .mc68000 [0x0810, 0x0009] fun s =>
      fill [0x02] 0x3000 (s.setA 0 0x3000)))
    (fun t => t.pc == 0x1004 && t.getA 0 == 0x3000 && !t.ccr.z) = true := by decide

theorem test_bchgReg_V159 : completes
    (step (boot .mc68000 [0x0350] fun s =>
      fill [0xFF] 0x3000 ((s.setD 1 0xF).setA 0 0x3000)))
    (fun t => t.pc == 0x1002 && t.getD 1 == 0xF && t.getA 0 == 0x3000 && !t.ccr.z &&
      t.peek 0x3000 == some 0x7F) = true := by decide

theorem test_bchgImm_V158 : completes
    (step (boot .mc68000 [0x0840, 0x001F] fun s =>
      s.setD 0 0x0))
    (fun t => t.pc == 0x1004 && t.getD 0 == 0x80000000 && t.ccr.z) = true := by decide

theorem test_bclrReg_V160 : completes
    (step (boot .mc68000 [0x0380] fun s =>
      (s.setD 0 0xFFFFFFFF).setD 1 0x20))
    (fun t => t.pc == 0x1002 && t.getD 0 == 0xFFFFFFFE && t.getD 1 == 0x20 && !t.ccr.z) = true := by decide

theorem test_bclrImm_V161 : completes
    (step (boot .mc68000 [0x08A7, 0x0007] fun s =>
      fill [0xFF, 0xFF] 0x7FFE (s.setA 7 0x8000)))
    (fun t => t.pc == 0x1004 && t.getA 7 == 0x7FFE && !t.ccr.z && t.peek 0x7FFE == some 0x7F) = true := by decide

theorem test_bsetReg_V163 : completes
    (step (boot .mc68000 [0x01C0] fun s =>
      s.setD 0 0x4))
    (fun t => t.pc == 0x1002 && t.getD 0 == 0x14 && t.ccr.z) = true := by decide

theorem test_bsetImm_V162 : completes
    (step (boot .mc68000 [0x08D8, 0x0000] fun s =>
      fill [0x00] 0x3000 (s.setA 0 0x3000)))
    (fun t => t.pc == 0x1004 && t.getA 0 == 0x3001 && t.ccr.z && t.peek 0x3000 == some 0x01) = true := by decide

theorem test_bftst_V187 : completes
    (step (boot .mc68020 [0xE8C0, 0x0862] fun s =>
      ((s.setD 0 0x40000000).setD 1 0x21).setD 2 0x20))
    (fun t => t.pc == 0x1004 && t.getD 0 == 0x40000000 && t.getD 1 == 0x21 && t.getD 2 == 0x20 &&
      t.ccr.n && !t.ccr.z && !t.ccr.v && !t.ccr.c) = true := by decide

theorem test_bfextu_V182 : completes
    (step (boot .mc68020 [0xE9C0, 0x1708] fun s =>
      s.setD 0 0xB000000A))
    (fun t => t.pc == 0x1004 && t.getD 0 == 0xB000000A && t.getD 1 == 0xAB && t.ccr.n &&
      !t.ccr.z && !t.ccr.v && !t.ccr.c) = true := by decide

theorem test_bfextu_V184 : completes
    (step (boot .mc68020 [0xE9D0, 0x11C0] fun s =>
      fill [0x01, 0x23, 0x45, 0x67, 0x89] 0x3000 (s.setA 0 0x3000)))
    (fun t => t.pc == 0x1004 && t.getD 1 == 0x91A2B3C4 && t.getA 0 == 0x3000 && t.ccr.n &&
      !t.ccr.z && !t.ccr.v && !t.ccr.c) = true := by decide

theorem test_bfchg_V190 : completes
    (step (boot .mc68020 [0xEAC0, 0x0784] fun s =>
      s.setD 0 0x0))
    (fun t => t.pc == 0x1004 && t.getD 0 == 0xC0000003 && !t.ccr.n && t.ccr.z && !t.ccr.v &&
      !t.ccr.c) = true := by decide

theorem test_bfexts_V181 : completes
    (step (boot .mc68020 [0xEBC0, 0x1108] fun s =>
      s.setD 0 0xAB00000))
    (fun t => t.pc == 0x1004 && t.getD 0 == 0xAB00000 && t.getD 1 == 0xFFFFFFAB && t.ccr.n &&
      !t.ccr.z && !t.ccr.v && !t.ccr.c) = true := by decide

theorem test_bfexts_V185 : completes
    (step (boot .mc68020 [0xEBD0, 0x18A3] fun s =>
      fill [0x80, 0xFF] 0x3000 (((s.setD 2 0xFFFFFFF8).setD 3 0x8).setA 0 0x3001)))
    (fun t => t.pc == 0x1004 && t.getD 1 == 0xFFFFFF80 && t.getD 2 == 0xFFFFFFF8 &&
      t.getD 3 == 0x8 && t.getA 0 == 0x3001 && t.ccr.n && !t.ccr.z && !t.ccr.v &&
      !t.ccr.c) = true := by decide

theorem test_bfclr_V191 : completes
    (step (boot .mc68020 [0xECD0, 0x0108] fun s =>
      fill [0xFF, 0xFF] 0x3000 (s.setA 0 0x3000)))
    (fun t => t.pc == 0x1004 && t.getA 0 == 0x3000 && t.ccr.n && !t.ccr.z && !t.ccr.v &&
      !t.ccr.c && t.peek 0x3000 == some 0xF0 && t.peek 0x3001 == some 0x0F) = true := by decide

theorem test_bfffo_V196 : completes
    (step (boot .mc68020 [0xEDC0, 0x1208] fun s =>
      s.setD 0 0xFF00FFFF))
    (fun t => t.pc == 0x1004 && t.getD 0 == 0xFF00FFFF && t.getD 1 == 0x10 && !t.ccr.n &&
      t.ccr.z && !t.ccr.v && !t.ccr.c) = true := by decide

theorem test_bfffo_V197 : completes
    (step (boot .mc68020 [0xEDD0, 0x1890] fun s =>
      fill [0x00, 0x01, 0x00] 0x3000 ((s.setD 2 0xFFFFFFFC).setA 0 0x3001)))
    (fun t => t.pc == 0x1004 && t.getD 1 == 0x7 && t.getD 2 == 0xFFFFFFFC && t.getA 0 == 0x3001 &&
      !t.ccr.n && !t.ccr.z && !t.ccr.v && !t.ccr.c) = true := by decide

theorem test_bfset_V192 : completes
    (step (boot .mc68020 [0xEED0, 0x0318] fun s =>
      fill [0x00, 0x00, 0x00, 0x00] 0x3001 (s.setA 0 0x3000)))
    (fun t => t.pc == 0x1004 && t.getA 0 == 0x3000 && !t.ccr.n && t.ccr.z && !t.ccr.v &&
      !t.ccr.c && t.peek 0x3001 == some 0x0F && t.peek 0x3002 == some 0xFF &&
      t.peek 0x3003 == some 0xFF && t.peek 0x3004 == some 0xF0) = true := by decide

theorem test_bfins_V193 : completes
    (step (boot .mc68020 [0xEFC0, 0x1708] fun s =>
      (s.setD 0 0x11111111).setD 1 0xFFFFFFA5))
    (fun t => t.pc == 0x1004 && t.getD 0 == 0x5111111A && t.getD 1 == 0xFFFFFFA5 && t.ccr.n &&
      !t.ccr.z && !t.ccr.v && !t.ccr.c) = true := by decide

theorem test_bfins_V194 : completes
    (step (boot .mc68020 [0xEFD0, 0x1108] fun s =>
      fill [0xFF, 0xFF] 0x3000 ((s.setD 1 0x0).setA 0 0x3000)))
    (fun t => t.pc == 0x1004 && t.getD 1 == 0x0 && t.getA 0 == 0x3000 && !t.ccr.n && t.ccr.z &&
      !t.ccr.v && !t.ccr.c && t.peek 0x3000 == some 0xF0 && t.peek 0x3001 == some 0x0F) = true := by decide

theorem test_abcd_V221 : completes
    (step (boot .mc68000 [0xC101] fun s =>
      ((s.setSr 0x2714).setD 0 0xFFFFFF99).setD 1 0x0))
    (fun t => t.pc == 0x1002 && t.getD 0 == 0xFFFFFF00 && t.getD 1 == 0x0 && t.ccr.x && t.ccr.z &&
      t.ccr.c) = true := by decide

theorem test_abcd_V224 : completes
    (step (boot .mc68000 [0xC308] fun s =>
      fill [0x55] 0x4000 
        (fill [0x45] 0x3000 (((s.setSr 0x2704).setA 0 0x3001).setA 1 0x4001))))
    (fun t => t.pc == 0x1002 && t.getA 0 == 0x3000 && t.getA 1 == 0x4000 && t.ccr.x && t.ccr.z &&
      t.ccr.c && t.peek 0x4000 == some 0x00) = true := by decide

theorem test_bcc_V249 : completes
    (step (boot .mc68000 [0x6700, 0x0100] id))
    (fun t => t.pc == 0x1004 && !t.ccr.z) = true := by decide

theorem test_bcc_V254 : completes
    (step (boot .mc68000 [0x6E10] id))
    (fun t => t.pc == 0x1012 && !t.ccr.n && !t.ccr.z && !t.ccr.v && !t.ccr.c) = true := by decide

theorem test_bra_V243 : completes
    (step (boot .mc68000 [0x6000, 0xFFF0] id))
    (fun t => t.pc == 0xFF2) = true := by decide

theorem test_bra_V244 : completes
    (step (boot .mc68020 [0x60FF, 0x0001, 0x0000] id))
    (fun t => t.pc == 0x11002) = true := by decide

theorem test_bsr_V266 : completes
    (step (boot .mc68000 [0x6100, 0x0100] fun s =>
      s.setA 7 0x8000))
    (fun t => t.pc == 0x1102 && t.getA 7 == 0x7FFC && t.peek 0x7FFC == some 0x00 &&
      t.peek 0x7FFD == some 0x00 && t.peek 0x7FFE == some 0x10 &&
      t.peek 0x7FFF == some 0x04) = true := by decide

theorem test_bsr_V270 : completes
    (step (boot .mc68020 [0x6110] fun s =>
      s.setA 7 0x8001))
    (fun t => t.pc == 0x1012 && t.getA 7 == 0x7FFD && t.peek 0x7FFD == some 0x00 &&
      t.peek 0x7FFE == some 0x00 && t.peek 0x7FFF == some 0x10 &&
      t.peek 0x8000 == some 0x02) = true := by decide

theorem test_andiToSr_V279 : completes
    (step (boot .mc68000 [0x027C, 0xDFFF] fun s =>
      { (s.setSr 0x271F) with usp := 0x6000 }.setA 7 0x8000))
    (fun t => t.pc == 0x1004 && t.getA 7 == 0x6000 && t.sr == 0x71F) = true := by decide

theorem test_andiToSr_V284 : completes
    (step (boot .mc68020 [0x027C, 0xEFFF] fun s =>
      { (s.setSr 0x3700) with isp := 0x7000 }.setA 7 0x8000))
    (fun t => t.pc == 0x1004 && t.getA 7 == 0x7000 && t.sr == 0x2700) = true := by decide

theorem test_andiToCcr_V285 : completes
    (step (boot .mc68000 [0x023C, 0x0015] fun s =>
      s.setSr 0x271F))
    (fun t => t.pc == 0x1004 && t.sr == 0x2715) = true := by decide

theorem test_chkW_V290 : completes
    (step (boot .mc68000 [0x4181] fun s =>
      ((s.setSr 0x2710).setD 0 0x5).setD 1 0xA))
    (fun t => t.pc == 0x1002 && t.getD 0 == 0x5 && t.getD 1 == 0xA && t.ccr.x) = true := by decide

theorem test_chkL_V298 : completes
    (step (boot .mc68020 [0x4101] fun s =>
      (s.setD 0 0x10000).setD 1 0x20000))
    (fun t => t.pc == 0x1002 && t.getD 0 == 0x10000 && t.getD 1 == 0x20000) = true := by decide

theorem test_chk2_V302 : completes
    (step (boot .mc68020 [0x02D0, 0x0800] fun s =>
      fill [0x00, 0x10, 0x00, 0x20] 0x3000 ((s.setD 0 0x15).setA 0 0x3000)))
    (fun t => t.pc == 0x1004 && t.getD 0 == 0x15 && t.getA 0 == 0x3000 && !t.ccr.z && !t.ccr.c) = true := by decide

theorem test_cas_V320 : completes
    (step (boot .mc68020 [0x0CD0, 0x0040] fun s =>
      fill [0x12, 0x34] 0x3000 (((s.setD 0 0x1234).setD 1 0xBEEF).setA 0 0x3000)))
    (fun t => t.pc == 0x1004 && t.getD 0 == 0x1234 && t.getD 1 == 0xBEEF && t.getA 0 == 0x3000 &&
      !t.ccr.n && t.ccr.z && !t.ccr.v && !t.ccr.c && t.peek 0x3000 == some 0xBE &&
      t.peek 0x3001 == some 0xEF) = true := by decide

theorem test_cas_V321 : completes
    (step (boot .mc68020 [0x0CD0, 0x0040] fun s =>
      fill [0x12, 0x35] 0x3000 (((s.setD 0 0xAAAA1234).setD 1 0xBEEF).setA 0 0x3000)))
    (fun t => t.pc == 0x1004 && t.getD 0 == 0xAAAA1235 && t.getD 1 == 0xBEEF &&
      t.getA 0 == 0x3000 && !t.ccr.n && !t.ccr.z && !t.ccr.v && !t.ccr.c) = true := by decide

theorem test_cas2W_V328 : completes
    (step (boot .mc68020 [0x0CFC, 0x8080, 0x90C1] fun s =>
      fill [0x00, 0x02] 0x4000 
        (fill [0x00, 0x01] 0x3000 
        ((((((s.setD 0 0x1).setD 1 0x2).setD 2 0x1111).setD 3 0x2222).setA 0 0x3000).setA 1 0x4000))))
    (fun t => t.pc == 0x1006 && t.getD 0 == 0x1 && t.getD 1 == 0x2 && t.getD 2 == 0x1111 &&
      t.getD 3 == 0x2222 && t.getA 0 == 0x3000 && t.getA 1 == 0x4000 && !t.ccr.n &&
      t.ccr.z && !t.ccr.v && !t.ccr.c && t.peek 0x3000 == some 0x11 &&
      t.peek 0x3001 == some 0x11 && t.peek 0x4000 == some 0x22 &&
      t.peek 0x4001 == some 0x22) = true := by decide

theorem test_cas2W_V329 : completes
    (step (boot .mc68020 [0x0CFC, 0x8080, 0x90C1] fun s =>
      fill [0x00, 0x03] 0x4000 
        (fill [0x00, 0x01] 0x3000 
        ((((((s.setD 0 0x1).setD 1 0x2).setD 2 0x1111).setD 3 0x2222).setA 0 0x3000).setA 1 0x4000))))
    (fun t => t.pc == 0x1006 && t.getD 0 == 0x1 && t.getD 1 == 0x3 && t.getD 2 == 0x1111 &&
      t.getD 3 == 0x2222 && t.getA 0 == 0x3000 && t.getA 1 == 0x4000 && !t.ccr.n &&
      !t.ccr.z && !t.ccr.v && !t.ccr.c) = true := by decide

theorem test_cas2L_V330 : completes
    (step (boot .mc68020 [0x0EFC, 0x4080, 0x90C1] fun s =>
      fill [0x00, 0x00, 0x00, 0x02] 0x4000 
        (fill [0x00, 0x00, 0x00, 0x05] 0x3000 
        ((((((s.setD 0 0x1).setD 1 0x2).setD 2 0x1111).setD 3 0x2222).setD 4 0x3000).setA 1 0x4000))))
    (fun t => t.pc == 0x1006 && t.getD 0 == 0x5 && t.getD 1 == 0x2 && t.getD 2 == 0x1111 &&
      t.getD 3 == 0x2222 && t.getD 4 == 0x3000 && t.getA 1 == 0x4000 && !t.ccr.n &&
      !t.ccr.z && !t.ccr.v && !t.ccr.c) = true := by decide

theorem test_bkpt_V289 : stopsAt 4 0x1000
    (step (boot .mc68030 [0x484F] id)) = true := by decide

theorem test_chkW_V295 : stopsAt 6 0x1000
    (step (boot .mc68000 [0x4181] fun s =>
      (s.setD 0 0x0).setD 1 0xFFFF)) = true := by decide

theorem test_chkL_V299 : stopsAt 6 0x1000
    (step (boot .mc68020 [0x4101] fun s =>
      (s.setD 0 0x80000000).setD 1 0x20000)) = true := by decide

theorem test_chk2_V305 : stopsAt 6 0x1000
    (step (boot .mc68020 [0x00D0, 0x0800] fun s =>
      fill [0x00, 0x10] 0x3000 ((s.setD 0 0xFF).setA 0 0x3000))) = true := by decide

theorem test_andiToSr_V283 : stopsAt 8 0x1000
    (step (boot .mc68000 [0x027C, 0xDFFF] fun s =>
      s.setSr 0x1F)) = true := by decide

theorem test_cpGen_V334 : stopsAt 11 0x1000
    (step (boot .mc68020 [0xF200, 0x0000] fun s =>
      s.setSr 0x0)) = true := by decide

theorem test_cpGen_V340 : refuses (.coprocessorOpaque 1 (.cpGen 1 0))
    (step (boot .mc68020 [0xF200, 0x0000] fun s =>
      { s with sys := 0, config := { s.config with coproc := [1] } })) = true := by decide

theorem test_cpSave_V337 : stopsAt 8 0x1000
    (step (boot .mc68020 [0xF310] fun s =>
      (s.setSr 0x0).setA 0 0x3000)) = true := by decide

theorem test_cpRestore_V338 : stopsAt 8 0x1000
    (step (boot .mc68020 [0xF350] fun s =>
      (s.setSr 0x0).setA 0 0x3000)) = true := by decide

theorem test_cpBcc_V341 : stopsAt 11 0x1000
    (step (boot .mc68020 [0xF480, 0x0010] fun s =>
      { s with sys := 0, config := { s.config with coproc := [1] } })) = true := by decide

/-! ## Bounds and decimal sums by the computation that gives them -/

/-- V76, V78, V79: above the bounds, within unsigned bounds, bounds in neither order. -/
theorem test_outOfBounds_V76_V78_V79 : outOfBounds .word 0x21 0x10 0x20 = some true ∧
    outOfBounds .word 0x8000 0x10 0xFFF0 = some false ∧ outOfBounds .word 0x18 0x20 0x10 = none := by decide

/-- V81: an address register below sign-extended bounds. -/
theorem test_outOfBounds_V81 :
    outOfBounds .long 0x0000FFF8 (boundVal .word (.an 1) 0xFFF0) (boundVal .word (.an 1) 0x0010) = some true := by
  decide

/-! ## Small states -/

/-- RAM with four words at 0x3000, D0 = 5, D1 = 7, A0 and A1 into it, A7 = 0x8000. -/
def ram : State :=
  boot .mc68020 [0x4E71] fun s =>
    fill [0x00, 0x05, 0x00, 0x07, 0x00, 0x10, 0x00, 0x20] 0x3000
      (((((s.setD 0 5).setD 1 7).setA 0 0x3000).setA 1 0x3004).setA 7 0x8000)

/-- The same on MC68000. -/
def ram000 : State := { ram with config := { ram.config with cpu := .mc68000 } }

/-- The same under `TRAP_MODEL = frame`, with handlers for vectors 4, 6, 11 and 29. -/
def framed : State :=
  fill [0x00, 0x00, 0x20, 0x00] 0x74 (fill [0x00, 0x00, 0x20, 0x00] 0x2C (fill [0x00, 0x00, 0x20, 0x00] 0x18
    (fill [0x00, 0x00, 0x20, 0x00] 0x10 { ram with config := { ram.config with trapModel := .frame } })))

/-- The same in user state with M set and a master stack. -/
def framedM : State := { framed with sys := 0x17, msp := 0x9000 }

/-- A coprocessor with id 1 that answers true after one extension word, or false. -/
def withCoproc (cond : Bool) (ws : List Word) : State :=
  boot .mc68020 ws fun s =>
    { (s.setA 0 0x3000).setD 2 0 with
      cpAnswers := [⟨cond, 1⟩]
      config := { s.config with coproc := [1] } }

/-! ## Exceptions and coprocessors, one step (the spec gives them no vector under `frame`) -/

/-- R446, R447, R448: BKPT #7 pushes SR, PC and format word 0010 and goes to the handler at vector 4. -/
theorem test_bkpt_frame : completes (exec (.bkpt 7) framed) (fun t =>
    t.pc == 0x2000 && t.sp == 0x7FF8 && t.sys == 0x27 && t.peek 0x7FF8 == some 0x27 && t.peek 0x7FFD == some 0x00 &&
    t.peek 0x7FFC == some 0x10 && t.peek 0x7FFE == some 0x00 && t.peek 0x7FFF == some 0x10) = true := by decide

/-- R446: an interrupt of level 5 with M set leaves the throwaway frame, format 1, on the interrupt stack. -/
theorem test_interrupt_throwaway : completes (takeException (.interrupt 5 29) framedM) (fun t =>
    t.pc == 0x2000 && t.sys == 0x25 && t.msp == 0x8FF8 && t.isp == 0x7FF8 && t.peek 0x7FFE == some 0x10 &&
    t.peek 0x8FFE == some 0x00) = true := by decide

/-- R426: an operand byte that nothing wrote ends the instruction with its own address and the instruction's. -/
theorem test_unwritten_operand :
    stopsUnread 0x3008 0x1000 (exec (.addToReg .word 0 (.ind 0)) (ram.setA 0 0x3008)) = true := by decide

/-- R470: a program's bytes past the last address are left out. -/
theorem test_launch_past_the_top : writeImage [1, 2] 0xFFFFFFFF [] = [(0xFFFFFFFF, 1)] := by decide

/-- R449: the return from that interrupt unstacks both frames, the second from the master stack. -/
theorem test_return_throwaway : completes (takeException (.interrupt 5 29) framedM) (fun t =>
    completes (returnFromException 0x4E73 t) fun u => u.pc == 0x1000 && u.sys == 0x17 && u.msp == 0x9000 &&
      u.isp == 0x8000) = true := by decide

/-- R447, R449: a frame of 46 words, format 11, is removed whole from MC68020 on and unknown below. -/
theorem test_return_long_frame :
    completes (finish framed (unstackPlain (0x2715, 0x4000, 11) framed)) (fun u =>
      u.pc == 0x4000 && u.sr == 0x2715 && u.isp == 0x8000 + 92) = true ∧
    unstackPlain (0x2715, 0x4000, 11) ram000 = .error (.raise .formatError) := by decide

/-- R390: a true condition branches from the first offset word; a false one goes past it. -/
theorem test_cpBcc :
    completes (step (withCoproc true [0xF280, 0x0000, 0x0010])) (fun t => t.pc == 0x1014) = true ∧
    completes (step (withCoproc false [0xF280, 0x0000, 0x0010])) (fun t => t.pc == 0x1006) = true := by decide

/-- R391: a false condition counts D2 down from 0 to -1 and goes on. -/
theorem test_cpDBcc : completes (step (withCoproc false [0xF24A, 0x0005, 0x0000, 0x0010]))
    (fun t => t.pc == 0x1008 && t.getD 2 == 0xFFFF) = true := by decide

/-- R395: a true condition stores FF. -/
theorem test_cpScc : completes (step (withCoproc true [0xF250, 0x0005, 0x0000]))
    (fun t => t.pc == 0x1006 && t.peek 0x3000 == some 0xFF) = true := by decide

/-- R480 and notes/assumptions/13.md: at `END_PC` a step changes nothing. -/
theorem test_end_of_run (s : State) (h : s.config.endPc = some s.pc) : step s = .next s := by
  simp [step, cycle, h]

/-- The host's load: a numbered instruction is fetched and run by the very next step from reset. -/
theorem test_withFetchWord : completes (step (State.reset.withFetchWord 16 0x5280))
    (fun t => t.pc == 2 && t.getD 0 == 1) = true := by decide

/-! ## Witnesses: for every statement with hypotheses, states and operands that meet them -/

theorem witness_DecodeEncodeRoundTrip : Instr.wf .mc68000 (.addi (.byte 1) (.dreg 0)) = true ∧
    Instr.wf .mc68030 (.bfins ⟨.imm 31, .imm 0⟩ 7 (.absl 0xFFFFFFFF)) = true := by decide

theorem witness_OpcodeRowsDisjoint : ∃ p, p ∈ rows ++ lineFRows ∧ p.fits .mc68020 0xD081 = true :=
  ⟨⟨.addToReg, 0xD000, 0xF100, some .all, false⟩, by decide, by decide⟩

theorem witness_OlderMemberAndLineWordsStop :
    (∃ r, Cpu.is020 .mc68010 = false ∧ r ∈ rows ∧ r.needs020 = true ∧ r.fits .mc68010 0xE9C0 = true) ∧
    ((0x4E71#16).extractLsb' 12 4 ≠ 15 ∧ ∀ r, r ∈ rows → r.fits .mc68010 0x4E71 = false) ∧
    (0xAFFF#16).extractLsb' 12 4 = 10 ∧ (0xF000#16).extractLsb' 12 4 = 15 ∧ (0xF000#16).extractLsb' 9 3 = 0 :=
  ⟨⟨⟨.bfextu, 0xE9C0, 0xFFC0, some .bfRd, true⟩, by decide⟩, by decide, by decide, by decide, by decide⟩

theorem witness_QuickDataField : (7 : BitVec 3) ≠ 0 := by decide

theorem witness_ReadsAreBigEndian :
    (∀ k, k < 4 → ram.kindAt (0x3000 + BitVec.ofNat 32 k) = .ram) ∧ ram.peek 0x3000 = some 0x00 ∧
    ram.peek (0x3000 + 1) = some 0x05 ∧ ram.peek (0x3000 + 2) = some 0x00 ∧ ram.peek (0x3000 + 3) = some 0x07 ∧
    Accessible ram .long 0x3000 := by unfold Accessible; decide

theorem witness_WriteThenReadBack : 2 ≤ ram.config.addrBits ∧ PlainRam ram 0xFFFFFFFC Size.long.bytes ∧
    Accessible ram .long 0xFFFFFFFC ∧ PlainRam ram 0x3001 Size.word.bytes ∧ Accessible ram .word 0x3001 := by
  unfold PlainRam Accessible; decide

/-- A state whose program has a word that nothing wrote. -/
def unwrittenText : State := { ram with config := { ram.config with text := [⟨0x4000, 2⟩] } }

theorem witness_AccessesThatStop : isOdd 0x1001 = true ∧
    (isOdd 0x1002 = false ∧ (ram.inText 0x1002 && ram.inText (0x1002 + 1)) = false) ∧
    (isOdd 0x3001 = true ∧ ram000.config.misalign = .byCpu ∧ ram000.config.cpu.is020 = false ∧
      Size.word ≠ .byte) ∧
    (isOdd 0x4000 = false ∧ (unwrittenText.inText 0x4000 && unwrittenText.inText (0x4000 + 1)) = true ∧
      unwrittenText.peek 0x4000 = none) ∧
    (ram.kindAt 0x3008 = .ram ∧ ram.peek 0x3008 = none) ∧
    ({ ram with config := { ram.config with regions := [⟨0x5000, 1, .absent⟩] } } : State).kindAt 0x5000 =
      .absent := by decide

theorem witness_StoreIntoTextRefused : Accessible ram .long 0x0FFE ∧
    (∀ k, k < Size.long.bytes → ram.kindAt (0x0FFE + BitVec.ofNat 32 k) ≠ .absent) ∧
    (∃ k, k < Size.long.bytes ∧ ram.inText (0x0FFE + BitVec.ofNat 32 k) = true) :=
  ⟨by unfold Accessible; decide, by decide, 2, by decide, by decide⟩

theorem witness_ExceptionRecord : State.reset.config.trapModel = .fault := by decide

theorem witness_HandlerEntryState : (∃ t, enterHandler (.illegal 0x4848 (some 0)) framed = .ok t) ∧
    (∃ t, enterHandler (.interrupt 5 29) framed = .ok t) ∧
    (∃ t, enterHandler (.interrupt 5 29) framedM = .ok t) ∧
    (∀ k, k < 4 → framed.kindAt (framed.vectorBase + BitVec.ofNat 32 (4 * Exc.vector (.illegal 0x4848 (some 0))) +
      BitVec.ofNat 32 k) = .ram) :=
  ⟨⟨_, rfl⟩, ⟨_, rfl⟩, ⟨_, rfl⟩, by decide⟩

theorem witness_EffectiveAddressByMode :
    (∃ u, memRead ram .long (ram.getA 0 + dispVal .null + 0) = .ok (0x00050007, u)) ∧
    (∃ u, memRead ram .long (ram.getA 0 + dispVal (.word 0)) = .ok (0x00050007, u)) ∧
    (∃ u, eaAddr ram .word (ram.pcPlus 1) (.postinc 0) = .ok (0x3000, u)) := ⟨⟨_, rfl⟩, ⟨_, rfl⟩, _, rfl⟩

/-- The same with D3 = -4, a bit field offset. -/
def ramNeg : State := ram.setD 3 0xFFFFFFFC

/-- A byte field of offset -4 and its two bytes, the first below the operand. -/
theorem witness_FieldBits :
    (∃ u, eaAddr ramNeg .byte (ramNeg.pcPlus 2) (.disp 0 1) = .ok (0x3001, u) ∧
      ∀ k : Nat, k < bfWidth ramNeg ⟨.reg 3, .imm 8⟩ →
        u.kindAt (0x3001 + BitVec.ofInt 32 ((bfOffset ramNeg ⟨.reg 3, .imm 8⟩ + k) / 8)) = .ram ∧
        (u.peek (0x3001 + BitVec.ofInt 32 ((bfOffset ramNeg ⟨.reg 3, .imm 8⟩ + k) / 8))).isSome = true) :=
  ⟨_, rfl, by decide⟩

theorem witness_InsertedFieldReadsBack : 3 ≤ ram.config.addrBits ∧
    (∃ u, eaAddr ram .byte (ram.pcPlus 2) (.ind 0) = .ok (0x3000, u) ∧
      ∀ k : Nat, k < bfWidth ram ⟨.imm 7, .imm 9⟩ →
        PlainRam u (0x3000 + BitVec.ofInt 32 ((bfOffset ram ⟨.imm 7, .imm 9⟩ + k) / 8)) 1 ∧
        (u.peek (0x3000 + BitVec.ofInt 32 ((bfOffset ram ⟨.imm 7, .imm 9⟩ + k) / 8))).isSome = true) :=
  ⟨by decide, _, rfl, by unfold PlainRam; decide⟩

theorem witness_EntryThenReturn : StateInv framed ∧ 4 ≤ framed.config.addrBits ∧
    throwsAway (.chk 0x1002 framed.ccr) framed = false ∧
    PlainRam framed ((framed.setSys (sysForEntry (.chk 0x1002 framed.ccr) framed.sys)).sp - 12) 12 ∧
    ∃ t, enterHandler (.chk 0x1002 framed.ccr) framed = .ok t :=
  ⟨by unfold StateInv; decide, by decide, by decide, by unfold PlainRam; decide, _, rfl⟩

theorem witness_InterruptTest : ram.config.endPc ≠ some ram.pc ∧ ram.irq = [] ∧
    (∃ r rs, ({ ram with irq := [⟨7, .auto⟩] } : State).irq = r :: rs ∧ r.level = 7 ∧ ram.irqLast ≠ 7) ∧
    (∃ r rs, ({ ram with irq := [⟨7, .auto⟩], sys := 0x26 } : State).irq = r :: rs ∧
      r.level.toNat > ({ ram with irq := [⟨7, .auto⟩], sys := 0x26 } : State).irqMask.toNat) ∧
    (∃ r rs, ({ ram with irq := [⟨6, .auto⟩] } : State).irq = r :: rs ∧
      ¬ (r.level.toNat > ram.irqMask.toNat ∨ (r.level = 7 ∧ ram.irqLast ≠ 7))) :=
  ⟨by decide, rfl, ⟨_, _, rfl, rfl, by decide⟩, ⟨_, _, rfl, by decide⟩, ⟨_, _, rfl, by decide⟩⟩

/-- BRA to itself at 0x1000. -/
def loop : State := boot .mc68020 [0x60FE] id

/-- cpGEN with no coprocessor at 0x1000, under `TRAP_MODEL = frame` with a handler for line F and T1 set. -/
def turnedAwayState : State :=
  { fill [0x00, 0x00, 0x20, 0x00] 0x2C ((boot .mc68020 [0xF200] id).setA 7 0x8000) with
    sys := 0xA7
    config := { (boot .mc68020 [0xF200] id).config with trapModel := .frame } }

theorem witness_StepRunsDecoded : loop.config.endPc ≠ some loop.pc ∧ loop.irq = [] ∧ loop.irqLast = 0 ∧
    fetchDecode loop = .ok (.bra (.byte 0xFE)) ∧ loop.sr.getLsbD 15 = false ∧ loop.sr.getLsbD 14 = false ∧
    (∃ t, exec (.bra (.byte 0xFE)) { loop with sys := 0x67 } = .next t) ∧
    turnedAway (.bra (.byte 0xFE)) { loop with sys := 0x67 } = false ∧
    changesFlow (.bra (.byte 0xFE)) { loop with sys := 0x67 } = true ∧ State.traceFlow { loop with sys := 0x67 } = true ∧
    State.traceAll { loop with sys := 0xA7 } = true ∧
    (turnedAwayState.config.endPc ≠ some turnedAwayState.pc ∧ turnedAwayState.irq = [] ∧ turnedAwayState.irqLast = 0 ∧
      fetchDecode turnedAwayState = .ok (.cpGen 1 0) ∧ turnedAway (.cpGen 1 0) turnedAwayState = true ∧
      ∃ t, exec (.cpGen 1 0) turnedAwayState = .next t) :=
  ⟨by decide, rfl, rfl, rfl, by decide, by decide, ⟨_, rfl⟩, by decide, by decide, by decide, by decide,
    by decide, rfl, rfl, rfl, by decide, _, rfl⟩

theorem witness_FetchReadsEncoding : Instr.wf loop.config.cpu (.bra (.byte 0xFE)) = true ∧
    (∀ k w, (encode (.bra (.byte 0xFE)))[k]? = some w → fetch16 loop (loop.pcPlus k) = .ok w) ∧
    loop.supervisor = true ∧ opWord (.bra (.byte 0xFE)) ≠ 0x027C := by
  refine ⟨by decide, fun k w h => ?_, by decide, by decide⟩
  cases k with
  | zero => cases h; rfl
  | succ k => simp [encode, ownWords, branchWords, instrEa] at h

theorem witness_StepKeepsInvariant : StateInv loop ∧ ∃ t, step loop = .next t := ⟨by unfold StateInv; decide, _, rfl⟩

theorem witness_StepKeepsControl : ∃ t, step loop = .next t := ⟨_, rfl⟩

theorem witness_TextIsImmutable :
    (∃ t, step loop = .next t) ∧ loop.inText 0x1000 = true ∧ loop.inText 0x1001 = true :=
  ⟨⟨_, rfl⟩, by decide, by decide⟩

/-- ANDI #$F8FF,SR: it completes and clears mask bits of the system byte. -/
theorem witness_SystemByteOnlyLosesBits :
    (boot .mc68020 [0x027C, 0xF8FF] id).config.trapModel = .fault ∧
    (∃ t, step (boot .mc68020 [0x027C, 0xF8FF] id) = .next t ∧ t.sr.getLsbD 13 = true) :=
  ⟨by decide, _, rfl, by decide⟩

theorem witness_UserStateIsConfined : ({ loop with sys := 0 } : State).config.trapModel = .fault ∧
    ({ loop with sys := 0 } : State).supervisor = false ∧ ∃ t, step { loop with sys := 0 } = .next t :=
  ⟨by decide, by decide, _, rfl⟩

theorem witness_PcAdvancesByLength : ram.config.trapModel = .fault ∧ branches (.addToReg .word 0 (.ind 0)) = false ∧
    ∃ t, exec (.addToReg .word 0 (.ind 0)) ram = .next t := ⟨by decide, by decide, _, rfl⟩

theorem witness_DataRegisterFrame : (∃ t, exec (.addToReg .word 0 (.ind 0)) ram = .next t) ∧
    (7 : RegNum) ∉ destData (.addToReg .word 0 (.ind 0)) := ⟨⟨_, rfl⟩, by decide⟩

theorem witness_AddressRegisterFrame : ram.config.trapModel = .fault ∧
    (∃ t, exec (.clr .word (.predec 1)) ram = .next t) ∧ (0 : RegNum) ∉ destAddress (.clr .word (.predec 1)) ∧
    (7 : RegNum) ∉ destAddress (.clr .word (.predec 1)) := ⟨by decide, ⟨_, rfl⟩, by decide, by decide⟩

theorem witness_FlagFrame : ram.config.trapModel = .fault ∧ ∃ t, exec (.btstReg 0 (.dreg 1)) ram = .next t :=
  ⟨by decide, _, rfl⟩

theorem witness_MemoryFrameNoStore : ram.config.trapModel = .fault ∧ storesNothing (.cmp .word 0 (.ind 0)) = true ∧
    ∃ t, exec (.cmp .word 0 (.ind 0)) ram = .next t := ⟨by decide, by decide, _, rfl⟩

theorem witness_MemoryFrameOperand : storesOperand (.addToMem .word 0 (.ind 0)) = true ∧
    instrEa (.addToMem .word 0 (.ind 0)) = some (.ind 0) ∧
    eaAddr ram (opSize (.addToMem .word 0 (.ind 0))) (ram.pcPlus (ownLen (.addToMem .word 0 (.ind 0)))) (.ind 0) =
      .ok (0x3000, ram) ∧
    (∃ t, exec (.addToMem .word 0 (.ind 0)) ram = .next t) ∧ Outside ram 0x3000 2 0x2FFF ∧
    Outside ram 0x3000 2 0x3002 :=
  ⟨by decide, rfl, rfl, ⟨_, rfl⟩, by unfold Outside; decide, by unfold Outside; decide⟩

theorem witness_MemoryFrameRegisterAddressed :
    ((∃ t, exec (.addx .word .predec 1 1) ram = .next t) ∧ Outside ram (predecDest ram .word 1 1) 2 0x3002) ∧
    ((∃ t, exec (.abcd .predec 1 1) ram = .next t) ∧ Outside ram (predecDest ram .byte 1 1) 1 0x3003) ∧
    ((∃ t, exec (.bsr (.byte 2)) ram = .next t) ∧ Outside ram (ram.sp - 4) 4 0x8000) ∧
    ((∃ t, exec (.cas2W ⟨.an 0, 0, 0⟩ ⟨.an 1, 1, 1⟩) ram = .next t) ∧ Outside ram (ram.getR (.an 0)) 2 0x3002 ∧
      Outside ram (ram.getR (.an 1)) 2 0x3002) ∧
    ((∃ t, exec (.cas2L ⟨.an 0, 0, 0⟩ ⟨.an 1, 1, 1⟩) ram = .next t) ∧ Outside ram (ram.getR (.an 0)) 4 0x3008 ∧
      Outside ram (ram.getR (.an 1)) 4 0x3008) ∧
    (∃ ea a u, (withCoproc true [0xF250, 0x0005, 0x0000]).config.trapModel = .fault ∧
      fetchParse (withCoproc true [0xF250, 0x0005, 0x0000]) (takeEa .mc68020 .byte 0b010000) maxWords 0x1006 [] =
        .ok ea ∧
      eaAddr { withCoproc true [0xF250, 0x0005, 0x0000] with cpAnswers := [] } .byte 0x1006 ea = .ok (a, u) ∧
      (∃ t, exec (.cpScc 1 0b010000) (withCoproc true [0xF250, 0x0005, 0x0000]) = .next t) ∧
      Outside (withCoproc true [0xF250, 0x0005, 0x0000]) a 1 0x3001) :=
  ⟨⟨⟨_, rfl⟩, by unfold Outside; decide⟩, ⟨⟨_, rfl⟩, by unfold Outside; decide⟩,
    ⟨⟨_, rfl⟩, by unfold Outside; decide⟩, ⟨⟨_, rfl⟩, by unfold Outside; decide, by unfold Outside; decide⟩,
    ⟨⟨_, rfl⟩, by unfold Outside; decide, by unfold Outside; decide⟩,
    _, _, _, by decide, rfl, rfl, ⟨_, rfl⟩, by unfold Outside; decide⟩

theorem witness_MemoryFrameBitField :
    storesField (.bfclr ⟨.imm 7, .imm 0⟩ (.ind 0)) = some (⟨.imm 7, .imm 0⟩, .ind 0) ∧
    bfLocate ram ⟨.imm 7, .imm 0⟩ (.ind 0) = .ok (.mem 0x3000 7 5, ram) ∧
    (∃ t, exec (.bfclr ⟨.imm 7, .imm 0⟩ (.ind 0)) ram = .next t) ∧ Outside ram 0x3000 5 0x3005 :=
  ⟨rfl, rfl, ⟨_, rfl⟩, by unfold Outside; decide⟩

theorem witness_OutOfBoundsIsModular : sval .byte 0x80 ≤ sval .byte 0x7F ∧
    (¬ sval .byte 0x7F ≤ sval .byte 0x80 ∧ uval .byte 0x7F ≤ uval .byte 0x80) ∧
    (¬ sval .byte 0x20 ≤ sval .byte 0x10 ∧ ¬ uval .byte 0x20 ≤ uval .byte 0x10) ∧
    (sval .byte 0x10 ≤ sval .byte 0x20 ∧ uval .byte 0x10 ≤ uval .byte 0x20) ∧
    outOfBounds .byte 0x21 0x10 0x20 = some true := by decide

theorem witness_AddCompletes : (∃ u, eaRead ram .word 1 (.ind 0) = .ok (5, u)) ∧
    (∃ loc u v t, eaDecode ram .word (ram.pcPlus 1) (.ind 0) = .ok (loc, u) ∧ eaGet u .word loc = .ok (5, v) ∧
      eaPut v .word loc (trunc .word (ram.getD 0 + 5)) = .ok t) ∧
    (∃ loc u v t, eaDecode ram .word (ram.pcPlus (1 + immLen .word)) (.dreg 1) = .ok (loc, u) ∧
      eaGet u .word loc = .ok (7, v) ∧ eaPut v .word loc (trunc .word (immVal (.word 0xFFFF) + 7)) = .ok t) :=
  ⟨⟨_, rfl⟩, ⟨_, _, _, _, rfl, rfl, rfl⟩, ⟨_, _, _, _, rfl, rfl, rfl⟩⟩

theorem witness_AddressAndQuickAddComplete : (∃ u, eaRead ram (wordOrLong false) 1 (.ind 0) = .ok (5, u)) ∧
    ((∀ m, Ea.ind 0 ≠ .areg m) ∧ ∃ loc u v t, eaDecode ram .word (ram.pcPlus 1) (.ind 0) = .ok (loc, u) ∧
      eaGet u .word loc = .ok (5, v) ∧ eaPut v .word loc (trunc .word (quickVal 0 + 5)) = .ok t) :=
  ⟨⟨_, rfl⟩, (fun _ h => Ea.noConfusion h), _, _, _, _, rfl, rfl, rfl⟩

theorem witness_AddxCompletes : ∃ u t, predecPair ram .word 1 1 = .ok ((7, 5), u) ∧
    memWrite u .word (predecDest ram .word 1 1) (addValue .word 7 5 ram.ccr.x) = .ok t := ⟨_, _, rfl, rfl⟩

theorem witness_ClrCompletes :
    (∃ a u t, eaAddr ram .word (ram.pcPlus 1) (.ind 0) = .ok (a, u) ∧ ram.config.cpu ≠ .mc68000 ∧
      ram.config.cpu ≠ .mc68hc000 ∧ memWrite u .word a 0 = .ok t) ∧
    (∃ a u x v t, eaAddr ram000 .word (ram000.pcPlus 1) (.ind 0) = .ok (a, u) ∧ ram000.config.cpu = .mc68000 ∧
      memRead u .word a = .ok (x, v) ∧ memWrite v .word a 0 = .ok t) :=
  ⟨⟨_, _, _, rfl, by decide, by decide, rfl⟩, ⟨_, _, _, _, _, rfl, rfl, rfl, rfl⟩⟩

theorem witness_CompareCompletes : (∃ u, eaRead ram .word 1 (.ind 0) = .ok (5, u)) ∧
    (∃ u, eaRead ram (wordOrLong true) 1 (.ind 0) = .ok (0x00050007, u)) ∧
    (∃ u, eaRead ram .byte (1 + immLen .byte) (.ind 0) = .ok (0, u)) ∧
    (∃ u v, memRead ram .word (ram.getA 0) = .ok (5, u) ∧
      memRead (u.setA 0 (ram.getA 0 + stepOf .word 0)) .word ((ram.setA 0 (ram.getA 0 + stepOf .word 0)).getA 0) =
        .ok (7, v)) := ⟨⟨_, rfl⟩, ⟨_, rfl⟩, ⟨_, rfl⟩, _, _, rfl, rfl⟩

theorem witness_Cmp2Completes : (∃ u, readBounds ram .word 2 (.ind 1) = .ok ((0x10, 0x20), u)) ∧
    outOfBounds (boundsSize .word (.dn 0)) (ram.getR (.dn 0)) (boundVal .word (.dn 0) 0x10)
      (boundVal .word (.dn 0) 0x20) = some true := ⟨⟨_, rfl⟩, by decide⟩

theorem witness_AndCompletes : (∃ u, eaRead ram .word 1 (.ind 0) = .ok (5, u)) ∧
    (∃ loc u v t, eaDecode ram .word (ram.pcPlus 1) (.ind 0) = .ok (loc, u) ∧ eaGet u .word loc = .ok (5, v) ∧
      eaPut v .word loc (5 &&& ram.getD 0) = .ok t) ∧
    (∃ loc u v t, eaDecode ram .long (ram.pcPlus (1 + immLen .long)) (.dreg 1) = .ok (loc, u) ∧
      eaGet u .long loc = .ok (7, v) ∧ eaPut v .long loc (7 &&& immVal (.long 0xFFFFFFFF)) = .ok t) :=
  ⟨⟨_, rfl⟩, ⟨_, _, _, _, rfl, rfl, rfl⟩, ⟨_, _, _, _, rfl, rfl, rfl⟩⟩

theorem witness_ShiftMemoryCompletes :
    ∃ loc u v t t', eaDecode ram .word (ram.pcPlus 1) (.ind 0) = .ok (loc, u) ∧ eaGet u .word loc = .ok (5, v) ∧
      eaPut v .word loc (trunc .word ((5 : Long) <<< 1)) = .ok t ∧
      eaPut v .word loc (trunc .word ((sext .word 5).sshiftRight 1)) = .ok t' := ⟨_, _, _, _, _, rfl, rfl, rfl, rfl⟩

theorem witness_BitTestCompletes :
    (∀ m, Ea.ind 0 ≠ .dreg m) ∧ (∃ u, eaRead ram .byte 1 (.ind 0) = .ok (0, u)) ∧
    (∃ u, eaRead ram .byte 2 (.ind 0) = .ok (0, u)) := ⟨(fun _ h => Ea.noConfusion h), ⟨_, rfl⟩, ⟨_, rfl⟩⟩

theorem witness_BitChangeOnRegister : ∃ b f, Instr.bsetImm 63 (.dreg 0) = .bsetImm 63 (.dreg 0) ∧
    b = (63 : Byte).toNat % 32 ∧ f = fun _ : Bool => true := ⟨31, fun _ => true, rfl, by decide, rfl⟩

theorem witness_BitChangeOnMemory : ∃ a u v t t' t'', eaAddr ram .byte (ram.pcPlus 1) (.ind 0) = .ok (a, u) ∧
    memRead u .byte a = .ok (0, v) ∧
    memWrite v .byte a (withBit 0 ((ram.getD 1).toNat % 8) (!(0 : Long).getLsbD ((ram.getD 1).toNat % 8))) = .ok t ∧
    memWrite v .byte a (withBit 0 ((ram.getD 1).toNat % 8) false) = .ok t' ∧
    memWrite v .byte a (withBit 0 ((ram.getD 1).toNat % 8) true) = .ok t'' :=
  ⟨_, _, _, _, _, _, rfl, rfl, rfl, rfl, rfl⟩

theorem witness_BitFieldReadsComplete :
    (∃ place buf f u, bfRead ram ⟨.imm 31, .imm 0⟩ (.ind 0) = .ok ((place, buf, f), u)) ∧
    bfffoOpen ram ⟨.imm 31, .imm 0⟩ (.dreg 0) = false ∧
    (∃ place buf f u, bfRead (ram.setD 3 32) ⟨.reg 3, .imm 1⟩ (.dreg 0) = .ok ((place, buf, f), u)) ∧
    bfffoOpen (ram.setD 3 32) ⟨.reg 3, .imm 1⟩ (.dreg 0) = true :=
  ⟨⟨_, _, _, _, rfl⟩, by decide, ⟨_, _, _, _, rfl⟩, by decide⟩

theorem witness_BitFieldWritesComplete : ∃ place buf f u t,
    bfRead ram ⟨.imm 7, .imm 0⟩ (.ind 0) = .ok ((place, buf, f), u) ∧
    bfWriteBack place (bfReplace buf (bfBelow place (bfWidth ram ⟨.imm 7, .imm 0⟩)) (bfWidth ram ⟨.imm 7, .imm 0⟩)
      (~~~f)) u = .ok t := ⟨_, _, _, _, _, rfl, rfl⟩

theorem witness_AbcdOnRegisters : bcdValid (0x99 : Long) = true ∧ bcdValid (0x9A : Long) = false := by decide

theorem witness_AbcdOnMemory : (∃ u t,
      predecPair ram .byte 1 1 = .ok ((7, 0), u) ∧ bcdValid 7 = true ∧ bcdValid 0 = true ∧
      memWrite u .byte (predecDest ram .byte 1 1) 0 = .ok t) ∧
    (∃ u t, predecPair (ram.poke 0x3003 0x0A) .byte 1 1 = .ok ((0x0A, 0), u) ∧ bcdValid 0x0A = false ∧
      memWrite u .byte (predecDest (ram.poke 0x3003 0x0A) .byte 1 1) 0 = .ok t) :=
  ⟨⟨_, _, rfl, by decide, by decide, rfl⟩, ⟨_, _, rfl, by decide, rfl⟩⟩

theorem witness_BsrCompletes :
    2 ≤ ram.config.addrBits ∧ PlainRam ram (ram.sp - 4) 4 ∧ Accessible ram .long (ram.sp - 4) := by
  unfold PlainRam Accessible; decide

theorem witness_AndiToStatusCompletes : ram.supervisor = true ∧ (0xDFFF : Word).getLsbD 13 = false ∧
    (0xEFFF : Word).getLsbD 13 = true ∧
    ({ ram with sys := 0 } : State).supervisor = false := by decide

theorem witness_BkptTakesException : ram.config.trapModel = .fault ∧ framed.config.trapModel = .frame ∧
    ∃ t, enterHandler (.illegal (0b0100100001001#13 ++ 7#3) (some 7)) framed = .ok t :=
  ⟨by decide, by decide, _, rfl⟩

theorem witness_ChkChecksBounds :
    (∃ u, eaRead ram .word 1 (.dreg 1) = .ok (7, u) ∧ 0 ≤ sval .word (ram.getD 0) ∧
      sval .word (ram.getD 0) ≤ sval .word 7) ∧
    (∃ u, eaRead ram .long 1 (.dreg 0) = .ok (5, u) ∧ sval .long (ram.getD 1) > sval .long 5) ∧
    sval .word ((ram.setD 1 0xFFFF).getD 1) < 0 :=
  ⟨⟨_, rfl, by decide, by decide⟩, ⟨_, rfl, by decide⟩, by decide⟩

theorem witness_Chk2ChecksBounds : (∃ u, readBounds ram .word 2 (.ind 0) = .ok ((5, 7), u) ∧
      outOfBounds (boundsSize .word (.dn 0)) (u.getR (.dn 0)) (boundVal .word (.dn 0) 5) (boundVal .word (.dn 0) 7) =
        some false) ∧
    (∃ u, readBounds ram .word 2 (.ind 1) = .ok ((0x10, 0x20), u) ∧
      outOfBounds (boundsSize .word (.dn 0)) (u.getR (.dn 0)) (boundVal .word (.dn 0) 0x10)
        (boundVal .word (.dn 0) 0x20) = some true) ∧
    (∃ u, readBounds (ram.poke 0x3003 0x04) .word 2 (.ind 0) = .ok ((5, 4), u) ∧
      outOfBounds (boundsSize .word (.dn 0)) (u.getR (.dn 0)) (boundVal .word (.dn 0) 5) (boundVal .word (.dn 0) 4) =
        none) := ⟨⟨_, rfl, by decide⟩, ⟨_, rfl, by decide⟩, ⟨_, rfl, by decide⟩⟩

theorem witness_CompareAndSwapCompletes :
    (∃ a u v t, eaAddr ram .word (ram.pcPlus 2) (.ind 0) = .ok (a, u) ∧ memRead u .word a = .ok (5, v) ∧
      uval .word 5 = uval .word (ram.getD 0) ∧ memWrite v .word a (ram.getD 1) = .ok t) ∧
    uval .word 5 ≠ uval .word (ram.getD 1) ∧
    (∃ u v w t, memRead ram .word (ram.getR (.an 0)) = .ok (5, u) ∧ memRead u .word (ram.getR (.an 0)) = .ok (5, v) ∧
      uval .word 5 = uval .word (ram.getD 0) ∧ memWrite v .word (ram.getR (.an 0)) (ram.getD 1) = .ok w ∧
      memWrite w .word (ram.getR (.an 0)) (ram.getD 2) = .ok t) ∧
    (∃ u v, memRead ram .word (ram.getR (.an 0)) = .ok (5, u) ∧ memRead u .word (ram.getR (.an 1)) = .ok (0x10, v) ∧
      uval .word 5 ≠ uval .word (ram.getD 1) ∧
      uval .word 5 = uval .word (ram.getD 0) ∧ uval .word 0x10 ≠ uval .word (ram.getD 1)) :=
  ⟨⟨_, _, _, _, rfl, rfl, by decide, rfl⟩, by decide, ⟨_, _, _, _, rfl, rfl, by decide, rfl, rfl⟩,
    ⟨_, _, rfl, rfl, by decide, by decide, by decide⟩⟩

/-- A coprocessor answer with the words each form has after its operation word. -/
theorem witness_CoprocessorConditionsComplete :
    ((withCoproc true [0xF280, 0, 0x10]).config.cpu.is020 = true ∧ (1 : BitVec 3) ≠ 0 ∧
      1 ∈ (withCoproc true [0xF280, 0, 0x10]).config.coproc ∧
      (withCoproc true [0xF280, 0, 0x10]).cpAnswers = [⟨true, 1⟩] ∧
      cpOffset (withCoproc true [0xF280, 0, 0x10]) ((withCoproc true [0xF280, 0, 0x10]).pcPlus 2) false = .ok 0x10) ∧
    (fetch16 (withCoproc false [0xF24A, 5, 0, 0x10]) ((withCoproc false [0xF24A, 5, 0, 0x10]).pcPlus 1) = .ok 5 ∧
      (5 : Word).extractLsb' 6 10 = 0 ∧
      cpOffset (withCoproc false [0xF24A, 5, 0, 0x10]) ((withCoproc false [0xF24A, 5, 0, 0x10]).pcPlus 3) false =
        .ok 0x10 ∧ uval .word ((withCoproc false [0xF24A, 5, 0, 0x10]).getD 2) = 0) ∧
    (∃ ea u a t, fetchParse (withCoproc true [0xF250, 5, 0]) (takeEa .mc68020 .byte 0b010000) maxWords
        ((withCoproc true [0xF250, 5, 0]).pcPlus 3) [] = .ok ea ∧
      eaAddr { withCoproc true [0xF250, 5, 0] with cpAnswers := [] } .byte ((withCoproc true [0xF250, 5, 0]).pcPlus 3)
        ea = .ok (a, u) ∧ memWrite u .byte a 0xFF = .ok t) :=
  ⟨⟨by decide, by decide, by decide, rfl, rfl⟩, ⟨rfl, by decide, rfl, by decide⟩, ⟨_, _, _, _, rfl, rfl, rfl⟩⟩

theorem witness_CoprocessorGate : ram000.config.cpu.is020 = false ∧
    ((1 : BitVec 3) ∉ framed.config.coproc ∧ framed.supervisor = true ∧ framed.config.trapModel = .frame ∧
      ∃ t, enterHandler (.lineF (opWord (.cpGen 1 0))) framed = .ok t) ∧
    (ram.config.cpu.is020 = true ∧ (1 : BitVec 3) ≠ 0 ∧ ({ ram with sys := 0 } : State).supervisor = false) ∧
    ((1 : BitVec 3) ∈ (withCoproc true []).config.coproc ∧ (withCoproc true []).supervisor = true) :=
  ⟨by decide, ⟨by decide, by decide, by decide, _, rfl⟩, by decide, by decide⟩

end Sys2Proof.Tests
end

section
/-! SUPPORT and PROOFS. The flags of an addition and of a comparison against exact integers: the signed value at a size
is the balanced remainder by two to the size, and the formulas of R12 say when a remainder loses the exact result. -/

namespace Sys2Proof.Machine

/-! ## The exact values of results -/

/-- The modulus of every size divides that of the 32-bit carrier. -/
theorem two_pow_bits_dvd (sz : Size) : 2 ^ sz.bits ∣ 2 ^ 32 := Nat.pow_dvd_pow 2 (by cases sz <;> decide)

@[simp] theorem uval_trunc (sz : Size) (v : Long) : uval sz (trunc sz v) = uval sz v := by simp [uval]

/-- The unsigned value of a sum is the exact sum modulo two to the size. -/
theorem uval_add (sz : Size) (a b : Long) : uval sz (a + b) = (uval sz a + uval sz b) % 2 ^ sz.bits := by
  rw [uval_eq_mod, uval_eq_mod, uval_eq_mod, BitVec.toNat_add,
    Nat.mod_mod_of_dvd _ (two_pow_bits_dvd sz), Nat.add_mod]

/-- The signed value at a size is the balanced remainder by two to the size. -/
theorem sval_eq_bmod (sz : Size) (v : Long) : sval sz v = v.toInt.bmod (2 ^ sz.bits) := by
  cases sz with
  | byte | word =>
    simp only [sval, sext, Size.bits]
    rw [BitVec.toInt_signExtend_of_le (by decide), ← BitVec.setWidth_eq_extractLsb' (by decide),
      BitVec.toInt_setWidth, BitVec.toInt_eq_toNat_bmod v, Int.bmod_bmod_of_dvd (by decide)]
  | long => simp [sval, sext, Size.bits, BitVec.toInt_eq_toNat_bmod v]

/-- The signed value of a sum is the balanced remainder of the exact sum. -/
theorem sval_add (sz : Size) (a b : Long) : sval sz (a + b) = (sval sz a + sval sz b).bmod (2 ^ sz.bits) := by
  rw [sval_eq_bmod, sval_eq_bmod, sval_eq_bmod, BitVec.toInt_add,
    Int.bmod_bmod_of_dvd (two_pow_bits_dvd sz), Int.add_bmod]

/-- The signed value of a difference is the balanced remainder of the exact difference. -/
theorem sval_sub (sz : Size) (a b : Long) : sval sz (a - b) = (sval sz a - sval sz b).bmod (2 ^ sz.bits) := by
  rw [sval_eq_bmod, sval_eq_bmod, sval_eq_bmod, BitVec.toInt_sub,
    Int.bmod_bmod_of_dvd (two_pow_bits_dvd sz), Int.sub_bmod]

/-! ## The tests of R12 -/

/-- The most significant bit at the size is the sign of the signed value. -/
theorem msb_iff_sval_neg (sz : Size) (v : Long) : msb sz v = true ↔ sval sz v < 0 := by
  have hmsb : (sext sz v).msb = msb sz v := by
    cases sz with
    | byte | word => simp [sext, msb, BitVec.msb_eq_getLsbD_last, BitVec.getElem_signExtend]
    | long => simp [sext, msb, BitVec.msb_eq_getLsbD_last]
  rw [← hmsb, BitVec.msb_eq_toInt, decide_eq_true_iff, sval]

@[simp] theorem msb_trunc (sz : Size) (v : Long) : msb sz (trunc sz v) = msb sz v := by
  rw [Bool.eq_iff_iff, msb_iff_sval_neg, msb_iff_sval_neg, sval, sext_trunc, sval]

/-- An exact result lies outside the signed numbers of the size exactly when its balanced remainder differs from it. -/
theorem outsideSigned_iff (sz : Size) (r : Int) : outsideSigned sz r = true ↔ r.bmod (2 ^ sz.bits) ≠ r := by
  rw [outsideSigned, Bool.or_eq_true, decide_eq_true_iff, decide_eq_true_iff, Ne,
    Int.bmod_eq_iff (Nat.two_pow_pos sz.bits)]
  cases sz <;> simp [Size.bits] <;> omega

/-- Without a carry-in, the carry says that the sum at the size is not the exact sum. -/
theorem addCarry_iff (sz : Size) (a b : Long) :
    addCarry sz a b false = true ↔ uval sz (a + b) ≠ uval sz a + uval sz b := by
  have hmod := Nat.mod_eq_iff_lt (m := uval sz a + uval sz b) (Nat.two_pow_pos sz.bits).ne'
  simp [addCarry, bit, uval_add, hmod]

/-- Without a carry-in, the overflow says that the signed sum at the size is not the exact sum. -/
theorem addOvf_iff (sz : Size) (a b : Long) :
    addOvf sz a b false = true ↔ sval sz (a + b) ≠ sval sz a + sval sz b := by
  rw [sval_add, ← outsideSigned_iff]
  simp [addOvf, bit]

/-- The overflow of a comparison says that the signed difference at the size is not the exact difference. -/
theorem subOvf_iff (sz : Size) (d s : Long) : subOvf sz d s = true ↔ sval sz (d - s) ≠ sval sz d - sval sz s := by
  rw [sval_sub, ← outsideSigned_iff, subOvf]

/-! ## The flags -/

theorem addFlags_n (sz : Size) (src dst : Long) : (addFlags sz src dst).n = true ↔ sval sz (src + dst) < 0 := by
  simp [addFlags, msb_iff_sval_neg]

theorem addFlags_z (sz : Size) (src dst : Long) : (addFlags sz src dst).z = true ↔ uval sz (src + dst) = 0 := by
  simp [addFlags, isZero_iff]

theorem cmpFlags_n (sz : Size) (src dst : Long) (old : Ccr) :
    (cmpFlags sz src dst old).n = true ↔ sval sz (dst - src) < 0 := by
  simp [cmpFlags, subValue, msb_iff_sval_neg]

theorem cmpFlags_c (sz : Size) (src dst : Long) (old : Ccr) :
    (cmpFlags sz src dst old).c = true ↔ uval sz dst < uval sz src := decide_eq_true_iff

/-- Settles O31: each flag by the lemma that says what its formula decides. -/
theorem arithmeticFlagsExact : Obligations.ArithmeticFlagsExact := fun sz src dst old =>
  ⟨addCarry_iff sz src dst, addOvf_iff sz src dst, rfl, addFlags_n sz src dst, addFlags_z sz src dst,
    cmpFlags_c sz src dst old, subOvf_iff sz dst src, cmpFlags_z sz src dst old, cmpFlags_n sz src dst old, rfl⟩

end Sys2Proof.Machine
end

section
/-! SUPPORT and PROOFS. What an instruction and a step may change: a preorder on states that every operation of the model
stays within, one account of all that `exec` can do in terms of it, and the statements about registers, status register,
memory and parameters that follow. -/

namespace Sys2Proof.Machine

/-! ## Flags, stack pointers and parameters that agree -/

theorem Keeps.holds_refl (k : Keeps) (f : Ccr) : k.holds f f :=
  ⟨fun _ => rfl, fun _ => rfl, fun _ => rfl, fun _ => rfl, fun _ => rfl⟩

theorem Keeps.holds_trans {k : Keeps} {f g h : Ccr} (hfg : k.holds f g) (hgh : k.holds g h) : k.holds f h := by
  obtain ⟨x, n, z, v, c⟩ := hfg
  obtain ⟨x', n', z', v', c'⟩ := hgh
  exact ⟨fun e => (x' e).trans (x e), fun e => (n' e).trans (n e), fun e => (z' e).trans (z e),
    fun e => (v' e).trans (v e), fun e => (c' e).trans (c e)⟩

theorem Keeps.holds_symm {k : Keeps} {f g : Ccr} (h : k.holds f g) : k.holds g f := by
  obtain ⟨x, n, z, v, c⟩ := h
  exact ⟨fun e => (x e).symm, fun e => (n e).symm, fun e => (z e).symm, fun e => (v e).symm, fun e => (c e).symm⟩

/-- Flags of which none is kept may become any flags. -/
theorem Keeps.none_holds (f g : Ccr) : Keeps.none.holds f g :=
  ⟨nofun, nofun, nofun, nofun, nofun⟩

/-- Where X alone is kept, agreeing on X is enough. -/
theorem Keeps.xOnly_holds {f g : Ccr} (h : g.x = f.x) : Keeps.xOnly.holds f g :=
  ⟨fun _ => h, nofun, nofun, nofun, nofun⟩

/-- A bit test changes Z alone (R246). -/
theorem Keeps.allButZ_bitFlags (f : Ccr) (b : Bool) : Keeps.allButZ.holds f (bitFlags f b) :=
  ⟨fun _ => rfl, fun _ => rfl, nofun, fun _ => rfl, fun _ => rfl⟩

/-- Writing A7's value to A7 changes nothing. -/
theorem State.setSp_self (s : State) : s.setSp s.sp = s := by
  unfold State.setSp State.sp
  split
  · split <;> rfl
  · rfl

theorem SameStacks.inactive {s t : State} (h : SameStacks s t) : SameInactiveStacks s t :=
  ⟨s.sp, by rwa [State.setSp_self]⟩

theorem SameStacks.trans {s t u : State} (h : SameStacks s t) (g : SameStacks t u) : SameStacks s u := by
  obtain ⟨husp, hisp, hmsp⟩ := h
  obtain ⟨gusp, gisp, gmsp⟩ := g
  exact ⟨gusp.trans husp, gisp.trans hisp, gmsp.trans hmsp⟩

theorem State.usp_setSp (s : State) (v : Long) : (s.setSp v).usp = if s.supervisor then s.usp else v := by
  unfold State.setSp; split <;> [split <;> rfl; rfl]

theorem State.isp_setSp (s : State) (v : Long) :
    (s.setSp v).isp = if s.supervisor && !s.master then v else s.isp := by
  unfold State.setSp; cases s.supervisor <;> cases s.master <;> rfl

theorem State.msp_setSp (s : State) (v : Long) :
    (s.setSp v).msp = if s.supervisor && s.master then v else s.msp := by
  unfold State.setSp; cases s.supervisor <;> cases s.master <;> rfl

/-- Two changes of the stack pointer A7 names, while S and M stay, change that stack pointer alone. -/
theorem SameInactiveStacks.trans {s t u : State} (hsup : t.supervisor = s.supervisor) (hmas : t.master = s.master)
    (h : SameInactiveStacks s t) (g : SameInactiveStacks t u) : SameInactiveStacks s u := by
  obtain ⟨v, husp, hisp, hmsp⟩ := h
  obtain ⟨w, gusp, gisp, gmsp⟩ := g
  refine ⟨w, ?_⟩
  rw [gusp, gisp, gmsp]
  simp only [State.usp_setSp, State.isp_setSp, State.msp_setSp, hsup, hmas, husp, hisp, hmsp]
  cases s.supervisor <;> cases s.master <;> simp

theorem SameControl.refl (s : State) : SameControl s s := ⟨rfl, rfl, rfl, rfl, rfl, rfl⟩

theorem SameControl.trans {s t u : State} (h : SameControl s t) (g : SameControl t u) : SameControl s u := by
  obtain ⟨h1, h2, h3, h4, h5, h6⟩ := h
  obtain ⟨g1, g2, g3, g4, g5, g6⟩ := g
  exact ⟨g1.trans h1, g2.trans h2, g3.trans h3, g4.trans h4, g5.trans h5, g6.trans h6⟩

/-! ## Scopes and frames -/

/-- What a computation may change: these data registers, these address registers, and the flags not kept. -/
structure Scope where
  data  : List RegNum
  addr  : List RegNum
  flags : Keeps

/-- The scope the model's own tables give an instruction. -/
def scopeOf (i : Instr) : Scope := ⟨destData i, destAddress i, keptFlags i⟩

/-- Nothing outside the scope differs, and the system byte, the program counter, the parameters and the canonical form of
memory stay. -/
structure Frame (c : Scope) (s t : State) : Prop where
  data     : ∀ n, n ∉ c.data → t.getD n = s.getD n
  addr     : ∀ n, n ∉ c.addr → ∀ h : n.toNat < 7, t.a[n.toNat] = s.a[n.toNat]
  inactive : SameInactiveStacks s t
  banks    : 7 ∉ c.addr → SameStacks s t
  flags    : c.flags.holds s.ccr t.ccr
  sys      : t.sys = s.sys
  pc       : t.pc = s.pc
  mem      : Memory.wf s.mem = true → Memory.wf t.mem = true
  control  : SameControl s t

section
variable {c : Scope} {s t u : State}

theorem Frame.config (h : Frame c s t) : t.config = s.config := h.control.1

theorem Frame.trans (h : Frame c s t) (g : Frame c t u) : Frame c s u where
  data n hn := (g.data n hn).trans (h.data n hn)
  addr n hn hlt := (g.addr n hn hlt).trans (h.addr n hn hlt)
  inactive := h.inactive.trans (by simp [State.supervisor, h.sys]) (by simp [State.master, h.sys, h.config]) g.inactive
  banks h7 := (h.banks h7).trans (g.banks h7)
  flags := Keeps.holds_trans h.flags g.flags
  sys := g.sys.trans h.sys
  pc := g.pc.trans h.pc
  mem hwf := g.mem (h.mem hwf)
  control := h.control.trans g.control

/-- A change outside the registers is within every scope. -/
theorem frame_of_registers (hd : t.d = s.d) (ha : t.a = s.a) (hst : SameStacks s t) (hccr : t.ccr = s.ccr)
    (hsys : t.sys = s.sys) (hpc : t.pc = s.pc) (hmem : Memory.wf s.mem = true → Memory.wf t.mem = true)
    (hctl : SameControl s t) : Frame c s t where
  data n _ := State.getD_congr hd n
  addr n _ hlt := by simp only [ha]
  inactive := hst.inactive
  banks _ := hst
  flags := hccr ▸ c.flags.holds_refl s.ccr
  sys := hsys
  pc := hpc
  mem := hmem
  control := hctl

theorem SameButDevice.frame (h : SameButDevice s t) : Frame c s t :=
  frame_of_registers h.d h.a h.stacks h.ccr h.sys h.pc (by rw [h.mem]; exact id) h.control

theorem Frame.refl (s : State) : Frame c s s := (SameButDevice.refl s).frame

theorem WroteAt.frame {a : Long} {n : Nat} (h : WroteAt s t a n) : Frame c s t := by
  refine frame_of_registers h.d h.a h.stacks h.ccr h.sys h.pc ?_ h.control
  obtain ⟨m, l, rfl, -, -, hwf⟩ := h
  exact hwf

/-- Using up coprocessor answers is within every scope. -/
theorem frame_cpAnswers (s : State) (rs : List CpAnswer) : Frame c s { s with cpAnswers := rs } :=
  frame_of_registers rfl rfl ⟨rfl, rfl, rfl⟩ rfl rfl rfl id (.refl s)

theorem Frame.setD (h : Frame c s t) {n : RegNum} (hn : n ∈ c.data) (v : Long) : Frame c s (t.setD n v) :=
  h.trans {
    data := fun _ hm => t.getD_setD_ne v fun e => hm (e ▸ hn)
    addr := fun _ _ _ => rfl
    inactive := SameStacks.inactive ⟨rfl, rfl, rfl⟩
    banks := fun _ => ⟨rfl, rfl, rfl⟩
    flags := c.flags.holds_refl t.ccr
    sys := rfl
    pc := rfl
    mem := id
    control := .refl t }

theorem Frame.setDLow (h : Frame c s t) {n : RegNum} (hn : n ∈ c.data) (sz : Size) (v : Long) :
    Frame c s (t.setDLow sz n v) := h.setD hn _

theorem Frame.setCcr (h : Frame c s t) {f : Ccr} (hf : c.flags.holds t.ccr f) : Frame c s (t.setCcr f) :=
  h.trans {
    data := fun _ _ => rfl
    addr := fun _ _ _ => rfl
    inactive := SameStacks.inactive ⟨rfl, rfl, rfl⟩
    banks := fun _ => ⟨rfl, rfl, rfl⟩
    flags := hf
    sys := rfl
    pc := rfl
    mem := id
    control := .refl t }

theorem Frame.setSp (h : Frame c s t) (h7 : 7 ∈ c.addr) (v : Long) : Frame c s (t.setSp v) :=
  h.trans {
    data := fun n _ => t.getD_setSp n v
    addr := fun _ _ _ => by simp only [State.setSp_a]
    inactive := ⟨v, rfl, rfl, rfl⟩
    banks := fun hn => absurd h7 hn
    flags := by rw [State.setSp_ccr]; exact c.flags.holds_refl t.ccr
    sys := t.setSp_sys v
    pc := t.setSp_pc v
    mem := by rw [State.setSp_mem]; exact id
    control := by simp [SameControl] }

/-- A write to an address register is one to A7's stack pointer or to one of A0 to A6. -/
theorem Frame.setA (h : Frame c s t) {n : RegNum} (hn : n ∈ c.addr) (v : Long) : Frame c s (t.setA n v) := by
  unfold State.setA
  split
  case isFalse hlt =>
    have h7 : n = 7 := BitVec.eq_of_toNat_eq (by have := n.isLt; simp; omega)
    exact h.setSp (h7 ▸ hn) v
  case isTrue hlt =>
    exact h.trans {
      data := fun _ _ => rfl
      addr := fun m hm hlt' => by
        have hne : n.toNat ≠ m.toNat := fun e => hm (BitVec.eq_of_toNat_eq e ▸ hn)
        simp [Vector.getElem_set_ne, hne]
      inactive := SameStacks.inactive ⟨rfl, rfl, rfl⟩
      banks := fun _ => ⟨rfl, rfl, rfl⟩
      flags := c.flags.holds_refl t.ccr
      sys := rfl
      pc := rfl
      mem := id
      control := .refl t }

theorem Frame.draw (h : Frame c s t) : Frame c s (draw t).2 := h.trans (SameButDevice.draw t).frame

theorem Frame.drawBit (h : Frame c s t) : Frame c s (drawBit t).2 := h.draw

end

end Sys2Proof.Machine
end

section
/-! SUPPORT. Every operation instructions share stays within a scope that has the registers of its operand; then all that
`exec` can do when it answers a next state, for every instruction. -/

namespace Sys2Proof.Machine

/-- A computation in two parts answers when both do. -/
theorem except_bind_ok {ε α β : Type} {x : Except ε α} {f : α → Except ε β} {b : β} (h : (x >>= f) = .ok b) :
    ∃ a, x = .ok a ∧ f a = .ok b := by
  cases x with
  | error e => cases h
  | ok a => exact ⟨a, rfl, h⟩

/-- The same where two ways to the first part have one continuation. -/
theorem except_ite_bind_ok {ε α β : Type} {p : Prop} [Decidable p] {x y : Except ε α} {f : α → Except ε β} {b : β}
    (h : (if p then x >>= f else y >>= f) = .ok b) : ∃ a, (if p then x else y) = .ok a ∧ f a = .ok b := by
  split at h
  · rw [if_pos ‹p›]; exact except_bind_ok h
  · rw [if_neg ‹¬p›]; exact except_bind_ok h

section
variable {c : Scope} {s t u : State}

/-! ## Operands -/

/-- The scope has the registers an operand that is written may change: the one its mode moves, and the one it names. -/
structure Scope.Writes (c : Scope) (ea : Ea) : Prop where
  moved : eaAddress ea ⊆ c.addr
  named : eaAddressDest ea ⊆ c.addr
  data  : eaData ea ⊆ c.data

/-- The scopes of the instructions whose destination is their `<ea>`. -/
theorem writes_of_eq {ea : Ea} (ha : c.addr = eaAddress ea ++ eaAddressDest ea) (hd : eaData ea ⊆ c.data) :
    c.Writes ea where
  moved := ha ▸ List.subset_append_left _ _
  named := ha ▸ List.subset_append_right _ _
  data := hd

theorem frame_eaSideEffect (s : State) (sz : Size) {ea : Ea} (ha : eaAddress ea ⊆ c.addr) :
    Frame c s (eaSideEffect s sz ea) := by
  cases ea
  case postinc n => exact (Frame.refl s).setA (ha (List.mem_singleton_self n)) _
  case predec n => exact (Frame.refl s).setA (ha (List.mem_singleton_self n)) _
  all_goals exact .refl s

theorem eaAddr_frame {sz : Size} {pcx a : Long} {ea : Ea} (ha : eaAddress ea ⊆ c.addr)
    (h : eaAddr s sz pcx ea = .ok (a, t)) : Frame c s t :=
  (frame_eaSideEffect s sz ha).trans (eaAddr_spec h).1.frame

theorem eaDecode_frame {sz : Size} {pcx : Long} {ea : Ea} {loc : Loc} (ha : eaAddress ea ⊆ c.addr)
    (h : eaDecode s sz pcx ea = .ok (loc, t)) : Frame c s t :=
  (frame_eaSideEffect s sz ha).trans (eaDecode_spec h).1.frame

theorem eaRead_frame {sz : Size} {own : Nat} {ea : Ea} {v : Long} (ha : eaAddress ea ⊆ c.addr)
    (h : eaRead s sz own ea = .ok (v, t)) : Frame c s t :=
  (frame_eaSideEffect s sz ha).trans (eaRead_spec h).frame

theorem readBounds_frame {sz : Size} {own : Nat} {ea : Ea} {b : Long × Long} (ha : eaAddress ea ⊆ c.addr)
    (h : readBounds s sz own ea = .ok (b, t)) : Frame c s t :=
  (frame_eaSideEffect s sz ha).trans (readBounds_spec h).frame

theorem mem_eaData_of_eaDecode {sz : Size} {pcx : Long} {ea : Ea} {n : RegNum}
    (h : eaDecode s sz pcx ea = .ok (.dreg n, t)) : n ∈ eaData ea := by
  rcases (eaDecode_spec h).2 with ⟨m, rfl, e⟩ | ⟨m, -, e⟩ | ⟨v, -, e⟩ | ⟨-, a, e, -⟩ <;> cases e
  exact List.mem_singleton_self n

theorem mem_eaAddressDest_of_eaDecode {sz : Size} {pcx : Long} {ea : Ea} {n : RegNum}
    (h : eaDecode s sz pcx ea = .ok (.areg n, t)) : n ∈ eaAddressDest ea := by
  rcases (eaDecode_spec h).2 with ⟨m, -, e⟩ | ⟨m, rfl, e⟩ | ⟨v, -, e⟩ | ⟨-, a, e, -⟩ <;> cases e
  exact List.mem_singleton_self n

/-- Writing where an operand was decoded to changes a register the operand names, or memory. -/
theorem eaPut_frame {r : State} {sz sz' : Size} {pcx v : Long} {ea : Ea} {loc : Loc} (hw : c.Writes ea)
    (hloc : eaDecode r sz pcx ea = .ok (loc, u)) (h : eaPut s sz' loc v = .ok t) : Frame c s t := by
  rcases eaPut_spec h with ⟨n, rfl, rfl⟩ | ⟨n, rfl, rfl⟩ | ⟨a, rfl, hwrote⟩
  · exact (Frame.refl s).setDLow (hw.data (mem_eaData_of_eaDecode hloc)) sz' v
  · exact (Frame.refl s).setA (hw.named (mem_eaAddressDest_of_eaDecode hloc)) v
  · exact hwrote.frame

end

/-! ## How an instruction ends -/

/-- ALL an instruction that completes can do: a change within its scope, then its end, which for a form that is no branch
is at its length; or, for ANDI to SR in supervisor state, bits of the status register cleared. -/
inductive Completes (i : Instr) (s t : State) : Prop
  | ends (u : State) (p : Long) (frame : Frame (scopeOf i) s u)
      (next : branches i = false → p = s.pcPlus (instrLen i)) (end_eq : t = u.setPc p)
  | andiToSr (v : Word) (instr_eq : i = .andiToSr v) (supervisor : s.supervisor = true)
      (end_eq : t = ((s.setSys (s.sys &&& v.extractLsb' 8 8)).setCcr (s.ccr.and (v.extractLsb' 0 8))).advance 2)

/-- ALL `exec` can do when it answers a next state: the instruction completes, or an exception is taken, after at most a
change within its scope (CHK and CHK2 keep the side effects of their operand and the flags they wrote). -/
inductive Leads (i : Instr) (s t : State) : Prop
  | completes (h : Completes i s t)
  | raises (e : Exc) (u : State) (frame : Frame (scopeOf i) s u) (h : takeException e u = .next t)

section
variable {i : Instr} {s t u : State}

theorem Completes.advance {n : Nat} (h : Frame (scopeOf i) s u) (hn : n = instrLen i) :
    Completes i s (u.advance n) :=
  .ends u (u.pcPlus n) h (fun _ => by rw [State.pcPlus, State.pcPlus, h.pc, hn]) rfl

theorem Completes.branch {p : Long} (h : Frame (scopeOf i) s u) (hb : branches i = true) :
    Completes i s (u.setPc p) :=
  .ends u p h (fun hf => by rw [hb] at hf; cases hf) rfl

/-- The length of an instruction whose own words after the operation word are an immediate. -/
theorem one_add_immLen (v : Imm) (n : Nat) : 1 + immLen v.size + n = 1 + (immWords v).length + n := by
  rw [Laws.EncodedLength.immWords_length]

theorem finish_leads {r : Except Stop State} (h : finish s r = .next t) (hr : r = .ok t → Completes i s t) :
    Leads i s t := by
  rcases finish_next h with h | ⟨e, -, h⟩
  · exact .completes (hr h)
  · exact .raises e s (.refl s) h

/-! ## The families of instructions -/

section
variable {sz : Size} {own : Nat} {ea : Ea}

theorem withOperand_leads {use : Long → State → State} (h : finish s (withOperand s sz own ea use) = .next t)
    (ha : eaAddress ea ⊆ destAddress i) (huse : ∀ v u, Frame (scopeOf i) u (use v u))
    (hn : own + eaLen ea = instrLen i) : Leads i s t :=
  finish_leads h fun h => by
    obtain ⟨v, u, hread, rfl⟩ := withOperand_spec h
    exact .advance ((eaRead_frame (c := scopeOf i) ha hread).trans (huse v u)) hn

theorem modifyOperand_leads {f : Long → Ccr → Long × Ccr} (h : finish s (modifyOperand s sz own ea f) = .next t)
    (hw : (scopeOf i).Writes ea) (hf : ∀ v old, (keptFlags i).holds old (f v old).2)
    (hn : own + eaLen ea = instrLen i) : Leads i s t :=
  finish_leads h fun h => by
    obtain ⟨loc, s1, dst, s2, s3, hdec, hget, hput, rfl⟩ := modifyOperand_spec h
    have h2 : Frame (scopeOf i) s s2 := (eaDecode_frame hw.moved hdec).trans (eaGet_spec hget).frame
    have h3 : Frame (scopeOf i) s2 s3 := eaPut_frame hw hdec hput
    exact .advance (h2.trans (h3.setCcr (Keeps.holds_trans (Keeps.holds_symm h3.flags) (hf dst s2.ccr)))) hn

/-- BCHG, BCLR and BSET: a bit of a data register, or of a byte in place. -/
theorem changeBit_leads {raw : Nat} {f : Bool → Bool} (h : finish s (changeBit s own raw ea f) = .next t)
    (hw : (scopeOf i).Writes ea) (hf : keptFlags i = .allButZ) (hn : own + eaLen ea = instrLen i) : Leads i s t := by
  have hflags (old : Ccr) (b : Bool) : (keptFlags i).holds old (bitFlags old b) := hf ▸ Keeps.allButZ_bitFlags old b
  by_cases hd : ∃ n, ea = .dreg n
  · obtain ⟨n, rfl⟩ := hd
    refine finish_leads h fun h => ?_
    cases h
    exact .advance (((Frame.refl s).setD (hw.data (List.mem_singleton_self n)) _).setCcr (hflags _ _)) hn
  · rw [changeBit_byte s own raw f fun n e => hd ⟨n, e⟩] at h
    exact modifyOperand_leads h hw (fun v old => hflags old _) hn

/-- BTST: Z alone. -/
theorem testBit_leads {raw : Nat} (h : finish s (testBit s own raw ea) = .next t)
    (ha : eaAddress ea ⊆ destAddress i) (hf : keptFlags i = .allButZ) (hn : own + eaLen ea = instrLen i) :
    Leads i s t := by
  have hflags (old : Ccr) (b : Bool) : (keptFlags i).holds old (bitFlags old b) := hf ▸ Keeps.allButZ_bitFlags old b
  by_cases hd : ∃ n, ea = .dreg n
  · obtain ⟨n, rfl⟩ := hd
    refine finish_leads h fun h => ?_
    cases h
    exact .advance ((Frame.refl s).setCcr (hflags _ _)) hn
  · rw [testBit_byte s own raw fun n e => hd ⟨n, e⟩] at h
    exact withOperand_leads h ha (fun v u => (Frame.refl u).setCcr (hflags _ _)) hn

end

/-! ### Bit fields -/

section
variable {p : BfSpec} {ea : Ea}

theorem bfFlags_holds (hf : keptFlags i = .xOnly) (w : Nat) (f : Long) (old : Ccr) :
    (keptFlags i).holds old (bfFlags w f old) := hf ▸ Keeps.xOnly_holds rfl

theorem bfExtract_leads {use : Long → State → State} (h : finish s (bfExtract s p ea use) = .next t)
    (ha : eaAddress ea ⊆ destAddress i) (hf : keptFlags i = .xOnly) (huse : ∀ f u, Frame (scopeOf i) u (use f u))
    (hn : 2 + eaLen ea = instrLen i) : Leads i s t :=
  finish_leads h fun h => by
    obtain ⟨place, buf, f, u, hread, rfl⟩ := bfExtract_spec h
    have hu : Frame (scopeOf i) s u := (frame_eaSideEffect s .byte ha).trans (bfRead_spec hread).1.frame
    exact .advance ((hu.setCcr (bfFlags_holds hf _ _ _)).trans (huse f _)) hn

/-- Writing a field back changes the data register the operand names, or memory. -/
theorem bfWriteBack_frame {c : Scope} {r v : State} {place : BfPlace} {buf : BitVec 40} (hd : eaData ea ⊆ c.data)
    (hloc : bfLocate r p ea = .ok (place, v)) (h : bfWriteBack place buf s = .ok t) : Frame c s t := by
  rcases bfWriteBack_spec h with ⟨n, o, rfl, rfl⟩ | ⟨ba, bo, nb, rfl, hwrote⟩
  · rcases (bfLocate_spec hloc).2 with ⟨m, rfl, e⟩ | ⟨base, -, e⟩
    · cases e
      exact (Frame.refl s).setD (hd (List.mem_singleton_self n)) _
    · cases e
  · exact hwrote.frame

theorem bfChange_leads {new tested : Long → Long} (h : finish s (bfChange s p ea new tested) = .next t)
    (ha : eaAddress ea ⊆ destAddress i) (hd : eaData ea ⊆ destData i) (hf : keptFlags i = .xOnly)
    (hn : 2 + eaLen ea = instrLen i) : Leads i s t :=
  finish_leads h fun h => by
    obtain ⟨place, buf, f, u, v, hread, hwrite, rfl⟩ := bfChange_spec h
    obtain ⟨hdev, ⟨w, hloc⟩, -⟩ := bfRead_spec hread
    have hu : Frame (scopeOf i) s u := (frame_eaSideEffect s .byte ha).trans hdev.frame
    have hv : Frame (scopeOf i) u v := bfWriteBack_frame hd hloc hwrite
    exact .advance ((hu.trans hv).setCcr (bfFlags_holds hf _ _ _)) hn

end

/-! ### Two predecremented operands, bounds and checks -/

theorem predecPair_frame {c : Scope} {sz : Size} {x y : RegNum} {ops : Long × Long} (hx : x ∈ c.addr)
    (hy : y ∈ c.addr) (h : predecPair s sz x y = .ok (ops, t)) : Frame c s t :=
  (((Frame.refl s).setA hy _).setA hx _).trans (predecPair_spec h).1.frame

theorem boundsFlags_frame {c : Scope} (hc : c.flags = .xOnly) (s : State) (sz : Size) (rn : GReg) (lo hi : Long) :
    Frame c s (boundsFlags s sz rn lo hi) := by
  obtain ⟨k, f, h, hx, -⟩ := boundsFlags_spec s sz rn lo hi
  have hk : SameButDevice s { s with draws := k } := ⟨k, s.deviceLog, rfl⟩
  rw [h]
  exact hk.frame.setCcr (hc ▸ Keeps.xOnly_holds hx)

theorem checkBound_frame {c : Scope} (hc : c.flags = .xOnly) (s : State) (sz : Size) (v b : Long) :
    Frame c s (checkBound s sz v b).2 := by
  obtain ⟨k, f, h, hx, -⟩ := checkBound_spec s sz v b
  have hk : SameButDevice s { s with draws := k } := ⟨k, s.deviceLog, rfl⟩
  rw [h]
  exact hk.frame.setCcr (hc ▸ Keeps.xOnly_holds hx)

/-- The end of CHK and CHK2: the exception after the operand and the flags, or the next instruction. -/
theorem settleCheck_leads {own : Nat} {ea : Ea} {r : Except Stop (Bool × State)}
    (h : settleCheck s own ea r = .next t) (hr : ∀ trap u, r = .ok (trap, u) → Frame (scopeOf i) s u)
    (hn : own + eaLen ea = instrLen i) : Leads i s t := by
  unfold settleCheck at h
  split at h
  case h_1 stop =>
    exact finish_leads h nofun
  case h_2 trap u =>
    have hu := hr trap u rfl
    split at h
    · exact .raises _ u hu h
    · cases h
      exact .completes (.advance hu hn)

end
end Sys2Proof.Machine
end

section
/-! SUPPORT. All that `exec` can do when it answers a next state: first the instructions with an operation of their own,
then every instruction, each by its family. -/

namespace Sys2Proof.Machine

section
variable {s t : State}

/-! ## Arithmetic -/

/-- ADDQ to an operand that is no address register changes it in place, flags and all. -/
theorem execAddq_operand (sz : Size) (q : BitVec 3) {ea : Ea} (s : State) (h : ∀ n, ea ≠ .areg n) :
    execAddq sz q ea s = finish s (modifyOperand s sz 1 ea fun dst _ =>
      (addValue sz (quickVal q) dst false, addFlags sz (quickVal q) dst)) := by
  cases ea
  case areg n => exact absurd rfl (h n)
  all_goals rfl

theorem execAddq_leads {sz : Size} {q : BitVec 3} {ea : Ea} (h : execAddq sz q ea s = .next t) :
    Leads (.addq sz q ea) s t := by
  by_cases ha : ∃ n, ea = .areg n
  · obtain ⟨n, rfl⟩ := ha
    cases h
    exact .completes (.advance ((Frame.refl s).setA (List.mem_singleton_self n) _) rfl)
  · have hmode : ea.mode ≠ .areg := by
      cases ea
      case areg n => exact absurd ⟨n, rfl⟩ ha
      all_goals exact nofun
    have hk : keptFlags (.addq sz q ea) = .none := if_neg hmode
    rw [execAddq_operand sz q s fun n e => ha ⟨n, e⟩] at h
    exact modifyOperand_leads h (writes_of_eq rfl (List.Subset.refl _)) (fun _ _ => hk ▸ Keeps.none_holds _ _) rfl

theorem execAddx_leads {sz : Size} {form : XForm} {x y : RegNum} (h : execAddx sz form x y s = .next t) :
    Leads (.addx sz form x y) s t := by
  cases form with
  | data =>
    cases h
    exact .completes (.advance
      (((Frame.refl s).setDLow (List.mem_singleton_self x) _ _).setCcr (Keeps.none_holds _ _)) rfl)
  | predec =>
    refine finish_leads h fun h => ?_
    obtain ⟨⟨ops, u⟩, hpair, h⟩ := except_bind_ok h
    obtain ⟨v, hwrite, h⟩ := except_bind_ok h
    cases h
    have hu : Frame (scopeOf (.addx sz .predec x y)) s u :=
      predecPair_frame (by simp [scopeOf, destAddress]) (by simp [scopeOf, destAddress]) hpair
    exact .advance ((hu.trans (memWrite_spec hwrite).frame).setCcr (Keeps.none_holds _ _)) rfl

theorem execClr_leads {sz : Size} {ea : Ea} (h : execClr sz ea s = .next t) : Leads (.clr sz ea) s t := by
  refine finish_leads h fun h => ?_
  have hw : (scopeOf (.clr sz ea)).Writes ea := writes_of_eq rfl (List.Subset.refl _)
  obtain ⟨⟨loc, s1⟩, hdec, h⟩ := except_bind_ok h
  obtain ⟨⟨v, s2⟩, hget, h⟩ := except_ite_bind_ok h
  obtain ⟨s3, hput, h⟩ := except_bind_ok h
  cases h
  have h2 : Frame (scopeOf (.clr sz ea)) s1 s2 := by
    split at hget
    · exact (eaGet_spec hget).frame
    · cases hget
      exact .refl s1
  have h3 : Frame (scopeOf (.clr sz ea)) s s3 :=
    ((eaDecode_frame hw.moved hdec).trans h2).trans (eaPut_frame hw hdec hput)
  exact .advance (h3.setCcr (Keeps.xOnly_holds rfl)) rfl

theorem execCmpm_leads {sz : Size} {x y : RegNum} (h : execCmpm sz x y s = .next t) : Leads (.cmpm sz x y) s t := by
  refine finish_leads h fun h => ?_
  obtain ⟨⟨src, s1⟩, hsrc, h⟩ := except_bind_ok h
  obtain ⟨⟨dst, s2⟩, hdst, h⟩ := except_bind_ok h
  cases h
  have h1 : Frame (scopeOf (.cmpm sz x y)) s s1 := (memRead_spec hsrc).frame
  have h2 := (h1.setA (n := y) (by simp [scopeOf, destAddress]) _).trans (memRead_spec hdst).frame
  exact .advance ((h2.setA (n := x) (by simp [scopeOf, destAddress]) _).setCcr (Keeps.xOnly_holds rfl)) rfl

theorem execCmp2_leads {sz : Size} {rn : GReg} {ea : Ea} (h : execCmp2 sz rn ea s = .next t) :
    Leads (.cmp2 sz rn ea) s t := by
  refine finish_leads h fun h => ?_
  obtain ⟨⟨b, u⟩, hread, h⟩ := except_bind_ok h
  cases h
  exact .advance ((readBounds_frame (c := scopeOf (.cmp2 sz rn ea)) (List.Subset.refl _) hread).trans
    (boundsFlags_frame rfl u sz rn b.1 b.2)) rfl

/-! ## Shifts -/

theorem shiftReg_completes {i : Instr} {once : ShiftAcc → ShiftAcc} {sz : Size} {count : ShiftCount} {r : RegNum}
    (hr : r ∈ destData i) (hf : keptFlags i = .none) (hn : 1 = instrLen i) :
    Completes i s (shiftReg once sz count r s) := by
  have hk (f g : Ccr) : (keptFlags i).holds f g := hf ▸ Keeps.none_holds f g
  exact .advance (((Frame.refl s).setDLow (c := scopeOf i) hr _ _).setCcr (hk _ _)) hn

/-! ## Decimal -/

theorem bcdAdd_frame {c : Scope} (src dst : Long) (x : Bool) (s : State) : Frame c s (bcdAdd src dst x s).2 := by
  unfold bcdAdd
  split
  · exact .refl s
  · exact (Frame.refl s).draw.drawBit

theorem abcdFlags_frame {c : Scope} (hc : c.flags = .none) (s : State) (old : Ccr) (res : Long) (cy : Bool) :
    Frame c s (abcdFlags s old res cy) :=
  (Frame.refl s).drawBit.drawBit.setCcr (hc ▸ Keeps.none_holds _ _)

theorem execAbcd_leads {form : XForm} {x y : RegNum} (h : execAbcd form x y s = .next t) :
    Leads (.abcd form x y) s t := by
  cases form with
  | data =>
    cases h
    exact .completes (.advance (((bcdAdd_frame _ _ _ s).setDLow (List.mem_singleton_self x) _ _).trans
      (abcdFlags_frame rfl _ _ _ _)) rfl)
  | predec =>
    refine finish_leads h fun h => ?_
    obtain ⟨⟨ops, u⟩, hpair, h⟩ := except_bind_ok h
    obtain ⟨v, hwrite, h⟩ := except_bind_ok h
    cases h
    have hu : Frame (scopeOf (.abcd .predec x y)) s u :=
      predecPair_frame (by simp [scopeOf, destAddress]) (by simp [scopeOf, destAddress]) hpair
    exact .advance (((hu.trans (bcdAdd_frame _ _ _ u)).trans (memWrite_spec hwrite).frame).trans
      (abcdFlags_frame rfl _ _ _ _)) rfl

/-! ## Bit fields -/

theorem bfffoWrite_frame {c : Scope} {dn : RegNum} (hd : dn ∈ c.data) (s : State) (p : BfSpec) (ea : Ea) (f : Long)
    (t : State) : Frame c t (bfffoWrite s p dn ea f t) := by
  unfold bfffoWrite
  split
  · exact (Frame.refl t).draw.setD hd _
  · exact (Frame.refl t).setD hd _

/-! ## Branches, status register and breakpoint -/

theorem push_frame {c : Scope} {sz : Size} {v : Long} (h7 : 7 ∈ c.addr) (h : push s sz v = .ok t) : Frame c s t :=
  ((Frame.refl s).setSp h7 _).trans (push_spec h).frame

theorem execBsr_leads {off : BranchOff} (h : execBsr off s = .next t) : Leads (.bsr off) s t := by
  refine finish_leads h fun h => ?_
  obtain ⟨u, hpush, h⟩ := except_bind_ok h
  cases h
  exact .branch (push_frame (List.mem_singleton_self 7) hpush) rfl

theorem privilegedCheck_ok {w : Word} {x : Unit} (h : privilegedCheck s w = .ok x) : s.supervisor = true := by
  unfold privilegedCheck at h
  split at h
  · assumption
  · cases h

theorem execAndiToSr_leads {v : Word} (h : execAndiToSr v s = .next t) : Leads (.andiToSr v) s t := by
  refine finish_leads h fun h => ?_
  obtain ⟨_, hpriv, h⟩ := except_bind_ok h
  cases h
  exact .andiToSr v rfl (privilegedCheck_ok hpriv) rfl

/-! ## CHK and CHK2 -/

theorem chkOperand_leads {i : Instr} {sz : Size} {r : RegNum} {ea : Ea} (h : chkOperand sz r ea s = .next t)
    (ha : eaAddress ea ⊆ destAddress i) (hf : keptFlags i = .xOnly) (hn : 1 + eaLen ea = instrLen i) :
    Leads i s t := by
  refine settleCheck_leads h (fun trap u hr => ?_) hn
  obtain ⟨⟨bound, v⟩, hread, h⟩ := except_bind_ok hr
  have hu : u = (checkBound v sz (v.getD r) bound).2 := (congrArg Prod.snd (Except.ok.inj h)).symm
  exact hu ▸ (eaRead_frame (c := scopeOf i) ha hread).trans (checkBound_frame hf v sz _ bound)

theorem execChk2_leads {sz : Size} {rn : GReg} {ea : Ea} (h : execChk2 sz rn ea s = .next t) :
    Leads (.chk2 sz rn ea) s t := by
  refine settleCheck_leads h (fun trap u hr => ?_) rfl
  obtain ⟨⟨b, v⟩, hread, h⟩ := except_bind_ok hr
  cases h
  exact (readBounds_frame (c := scopeOf (.chk2 sz rn ea)) (List.Subset.refl _) hread).trans
    (boundsFlags_frame rfl v sz rn b.1 b.2)

/-! ## CAS and CAS2 -/

theorem execCas_leads {sz : Size} {du dc : RegNum} {ea : Ea} (h : execCas sz du dc ea s = .next t) :
    Leads (.cas sz du dc ea) s t := by
  refine finish_leads h fun h => ?_
  have hw : (scopeOf (.cas sz du dc ea)).Writes ea := writes_of_eq rfl (List.subset_cons_self _ _)
  obtain ⟨⟨loc, s1⟩, hdec, h⟩ := except_bind_ok h
  obtain ⟨⟨dst, s2⟩, hget, h⟩ := except_bind_ok h
  obtain ⟨s3, hput, h⟩ := except_ite_bind_ok h
  cases h
  have h2 : Frame (scopeOf (.cas sz du dc ea)) s s2 := (eaDecode_frame hw.moved hdec).trans (eaGet_spec hget).frame
  have h3 : Frame (scopeOf (.cas sz du dc ea)) s2 s3 := by
    split at hput
    · exact eaPut_frame hw hdec hput
    · cases hput
      exact (Frame.refl s2).setDLow List.mem_cons_self _ _
  exact .advance (h2.trans (h3.setCcr (Keeps.holds_trans (Keeps.holds_symm h3.flags) (Keeps.xOnly_holds rfl)))) rfl

theorem cas2Flags_x (sz : Size) (c1 d1 c2 d2 : Long) (old : Ccr) : (cas2Flags sz c1 d1 c2 d2 old).x = old.x := by
  unfold cas2Flags
  split <;> rfl

theorem cas2_leads {i : Instr} {sz : Size} {p1 p2 : CasPair} (h : finish s (cas2Operands sz p1 p2 s) = .next t)
    (hd : destData i = [p1.dc, p2.dc]) (hf : keptFlags i = .xOnly) (hn : 3 = instrLen i) : Leads i s t := by
  refine finish_leads h fun h => ?_
  obtain ⟨⟨d1, s1⟩, hread1, h⟩ := except_bind_ok h
  obtain ⟨⟨d2, s2⟩, hread2, h⟩ := except_bind_ok h
  have h2 : Frame (scopeOf i) s s2 := (memRead_spec hread1).frame.trans (memRead_spec hread2).frame
  have hend {s3 : State} (h3 : Frame (scopeOf i) s2 s3) : Completes i s
      ((s3.setCcr (cas2Flags sz (s2.getD p1.dc) d1 (s2.getD p2.dc) d2 s2.ccr)).advance 3) := by
    have hk : (keptFlags i).holds s2.ccr (cas2Flags sz (s2.getD p1.dc) d1 (s2.getD p2.dc) d2 s2.ccr) :=
      hf ▸ Keeps.xOnly_holds (cas2Flags_x ..)
    exact .advance (h2.trans (h3.setCcr (Keeps.holds_trans (Keeps.holds_symm h3.flags) hk))) hn
  dsimp only at h
  split at h
  · obtain ⟨u, hwrite1, h⟩ := except_bind_ok h
    obtain ⟨s3, hwrite2, h⟩ := except_bind_ok h
    cases h
    exact hend ((memWrite_spec hwrite1).frame.trans (memWrite_spec hwrite2).frame)
  · cases h
    exact hend (((Frame.refl s2).setDLow (by simp [scopeOf, hd]) _ _).setDLow (by simp [scopeOf, hd]) _ _)

/-! ## Coprocessors -/

theorem cpAsk_frame {c : Scope} {i : Instr} {id : BitVec 3} {r : CpAnswer} (h : cpAsk s i id = .ok (r, t)) :
    Frame c s t := by
  obtain ⟨-, rs, -, rfl⟩ := cpAsk_spec h
  exact frame_cpAnswers s rs

theorem cpOpaque_leads {i j : Instr} {id : BitVec 3} {p : Bool} (h : finish s (cpOpaque s j id p) = .next t) :
    Leads i s t :=
  finish_leads h fun h => by
    obtain ⟨stop, he⟩ := cpOpaque_error s j id p
    rw [he] at h
    cases h

theorem execCpBcc_leads {id : BitVec 3} {isLong : Bool} {cond : BitVec 6} (h : execCpBcc id isLong cond s = .next t) :
    Leads (.cpBcc id isLong cond) s t := by
  refine finish_leads h fun h => ?_
  obtain ⟨⟨r, u⟩, hask, h⟩ := except_bind_ok h
  obtain ⟨off, -, h⟩ := except_bind_ok h
  cases h
  exact .branch (cpAsk_frame hask) rfl

theorem execCpDBcc_leads {id : BitVec 3} {n : RegNum} (h : execCpDBcc id n s = .next t) :
    Leads (.cpDBcc id n) s t := by
  refine finish_leads h fun h => ?_
  obtain ⟨⟨r, u⟩, hask, h⟩ := except_bind_ok h
  obtain ⟨_, -, h⟩ := except_bind_ok h
  obtain ⟨off, -, h⟩ := except_bind_ok h
  dsimp only at h
  split at h
  · cases h
    exact .branch (cpAsk_frame hask) rfl
  · cases h
    exact .branch ((cpAsk_frame hask).setDLow (List.mem_singleton_self n) _ _) rfl

/-- A parser of fetched words answers what it read from some of them. -/
theorem fetchParse_ok {α : Type} {parse : List Word → Except DecodeStop (α × List Word)} {fuel : Nat} {a : Long}
    {ws : List Word} {x : α} (h : fetchParse s parse fuel a ws = .ok x) : ∃ us vs, parse us = .ok (x, vs) := by
  induction fuel generalizing a ws with
  | zero => cases h
  | succ fuel ih =>
    unfold fetchParse at h
    split at h
    case h_1 vs hp =>
      cases h
      exact ⟨ws, vs, hp⟩
    case h_2 =>
      obtain ⟨w, -, h⟩ := except_bind_ok h
      exact ih h
    case h_3 => cases h

theorem mem_fieldReg {m : EaMode} {field : BitVec 6} (h : eaModeOf field = some m) :
    field.extractLsb' 0 3 ∈ fieldReg m field := by
  simp [fieldReg, h]

/-- The operand a MODE and REGISTER field is read as changes at most the register of that field, in that mode. -/
theorem takeEa_writes {cpu : Cpu} {sz : Size} {field : BitVec 6} {ws vs : List Word} {ea : Ea}
    (h : takeEa cpu sz field ws = .ok (ea, vs)) (id : BitVec 3) : (scopeOf (.cpScc id field)).Writes ea := by
  have other {ea : Ea} (h1 : eaAddress ea = []) (h2 : eaAddressDest ea = []) (h3 : eaData ea = []) :
      (scopeOf (.cpScc id field)).Writes ea := by constructor <;> simp [h1, h2, h3]
  unfold takeEa at h
  dsimp only at h
  split at h
  case h_1 hm =>
    cases h
    exact ⟨List.nil_subset _, List.nil_subset _, by simpa [scopeOf, destData, eaData] using mem_fieldReg hm⟩
  case h_2 hm =>
    cases h
    exact ⟨List.nil_subset _, by simp [scopeOf, destAddress, eaAddressDest, mem_fieldReg hm], List.nil_subset _⟩
  case h_4 hm | h_5 hm =>
    cases h
    exact ⟨by simp [scopeOf, destAddress, eaAddress, mem_fieldReg hm], List.nil_subset _, List.nil_subset _⟩
  case h_3 =>
    cases h
    exact other rfl rfl rfl
  case h_13 => cases h
  all_goals
    obtain ⟨_, -, h⟩ := except_bind_ok h
    cases h
    exact other rfl rfl rfl

theorem execCpScc_leads {id : BitVec 3} {field : BitVec 6} (h : execCpScc id field s = .next t) :
    Leads (.cpScc id field) s t := by
  refine finish_leads h fun h => ?_
  obtain ⟨⟨r, s1⟩, hask, h⟩ := except_bind_ok h
  obtain ⟨_, -, h⟩ := except_bind_ok h
  obtain ⟨ea, hparse, h⟩ := except_bind_ok h
  obtain ⟨⟨loc, s2⟩, hdec, h⟩ := except_bind_ok h
  obtain ⟨s3, hput, h⟩ := except_bind_ok h
  cases h
  obtain ⟨us, vs, htake⟩ := fetchParse_ok hparse
  have hw := takeEa_writes htake id
  exact .branch (((cpAsk_frame hask).trans (eaDecode_frame hw.moved hdec)).trans (eaPut_frame hw hdec hput)) rfl

/-! ## Every instruction -/

/-- ALL an instruction can do when it leads on, by the family of each. -/
theorem exec_leads {i : Instr} (h : exec i s = .next t) : Leads i s t := by
  have anyFlags (f g : Ccr) : Keeps.none.holds f g := Keeps.none_holds f g
  cases i with
  | addToReg sz r ea =>
    exact withOperand_leads h (List.Subset.refl _)
      (fun v u => ((Frame.refl u).setDLow (List.mem_singleton_self r) _ _).setCcr (anyFlags _ _)) rfl
  | addToMem sz r ea => exact modifyOperand_leads h (writes_of_eq rfl (List.Subset.refl _)) (fun _ _ => anyFlags _ _) rfl
  | adda isLong a ea =>
    exact withOperand_leads h (List.subset_cons_self _ _)
      (fun v u => (Frame.refl u).setA List.mem_cons_self _) rfl
  | addi v ea =>
    exact modifyOperand_leads h (writes_of_eq rfl (List.Subset.refl _)) (fun _ _ => anyFlags _ _) (one_add_immLen v _)
  | addq sz q ea => exact execAddq_leads h
  | addx sz form x y => exact execAddx_leads h
  | clr sz ea => exact execClr_leads h
  | cmp sz r ea =>
    exact withOperand_leads h (List.Subset.refl _) (fun v u => (Frame.refl u).setCcr (Keeps.xOnly_holds rfl)) rfl
  | cmpa isLong a ea =>
    exact withOperand_leads h (List.Subset.refl _) (fun v u => (Frame.refl u).setCcr (Keeps.xOnly_holds rfl)) rfl
  | cmpi v ea =>
    exact withOperand_leads h (List.Subset.refl _) (fun _ u => (Frame.refl u).setCcr (Keeps.xOnly_holds rfl))
      (one_add_immLen v _)
  | cmpm sz x y => exact execCmpm_leads h
  | cmp2 sz rn ea => exact execCmp2_leads h
  | andToReg sz r ea =>
    exact withOperand_leads h (List.Subset.refl _)
      (fun v u => ((Frame.refl u).setDLow (List.mem_singleton_self r) _ _).setCcr (Keeps.xOnly_holds rfl)) rfl
  | andToMem sz r ea =>
    exact modifyOperand_leads h (writes_of_eq rfl (List.Subset.refl _)) (fun _ _ => Keeps.xOnly_holds rfl) rfl
  | andi v ea =>
    exact modifyOperand_leads h (writes_of_eq rfl (List.Subset.refl _)) (fun _ _ => Keeps.xOnly_holds rfl)
      (one_add_immLen v _)
  | aslReg sz count r | asrReg sz count r =>
    cases h
    exact .completes (shiftReg_completes (List.mem_singleton_self r) rfl rfl)
  | aslMem ea | asrMem ea =>
    exact modifyOperand_leads h (writes_of_eq rfl (List.Subset.refl _)) (fun _ _ => anyFlags _ _) rfl
  | btstReg r ea => exact testBit_leads h (List.Subset.refl _) rfl rfl
  | btstImm n ea => exact testBit_leads h (List.Subset.refl _) rfl rfl
  | bchgReg r ea | bchgImm n ea | bclrReg r ea | bclrImm n ea | bsetReg r ea | bsetImm n ea =>
    exact changeBit_leads h (writes_of_eq rfl (List.Subset.refl _)) rfl rfl
  | bftst p ea => exact bfExtract_leads h (List.Subset.refl _) rfl (fun _ u => .refl u) rfl
  | bfextu p dn ea | bfexts p dn ea =>
    exact bfExtract_leads h (List.Subset.refl _) rfl (fun _ u => (Frame.refl u).setD (List.mem_singleton_self dn) _) rfl
  | bfffo p dn ea =>
    exact bfExtract_leads h (List.Subset.refl _) rfl (fun f u => bfffoWrite_frame (List.mem_singleton_self dn) s p ea f u)
      rfl
  | bfchg p ea | bfclr p ea | bfset p ea | bfins p dn ea =>
    exact bfChange_leads h (List.Subset.refl _) (List.Subset.refl _) rfl rfl
  | abcd form x y => exact execAbcd_leads h
  | bcc c off | bra off =>
    cases h
    exact .completes (.branch (.refl s) rfl)
  | bsr off => exact execBsr_leads h
  | andiToSr v => exact execAndiToSr_leads h
  | andiToCcr v =>
    cases h
    exact .completes (.advance ((Frame.refl s).setCcr (anyFlags _ _)) rfl)
  | bkpt v => exact .raises _ s (.refl s) h
  | chkW r ea | chkL r ea => exact chkOperand_leads h (List.Subset.refl _) rfl rfl
  | chk2 sz rn ea => exact execChk2_leads h
  | cas sz du dc ea => exact execCas_leads h
  | cas2W p1 p2 | cas2L p1 p2 => exact cas2_leads h rfl rfl rfl
  | cpBcc id isLong cond => exact execCpBcc_leads h
  | cpDBcc id r => exact execCpDBcc_leads h
  | cpGen id field | cpRestore id field | cpSave id field => exact cpOpaque_leads h
  | cpScc id field => exact execCpScc_leads h

end

end Sys2Proof.Machine
end

section
/-! PROOFS. What a step keeps, by one principle over the parts of a step; then the statements about the state. -/

namespace Sys2Proof.Machine

/-! ## Taking an exception -/

section
variable {c : Scope} {s t : State}

theorem pushFour_frame {sr : BitVec 16} {pc : Long} {format : BitVec 4} {vector : Nat} (h7 : 7 ∈ c.addr)
    (h : pushFour s sr pc format vector = .ok t) : Frame c s t := by
  obtain ⟨u, v, h1, h2, h3⟩ := pushFour_spec h
  exact ((push_frame h7 h1).trans (push_frame h7 h2)).trans (push_frame h7 h3)

theorem pushFrame_frame {kind : FrameKind} {sr : BitVec 16} {pc instr : Long} {vector : Nat} (h7 : 7 ∈ c.addr)
    (h : pushFrame s kind sr pc instr vector = .ok t) : Frame c s t := by
  cases kind with
  | threeWord =>
    obtain ⟨u, h1, h2⟩ := except_bind_ok h
    exact (push_frame h7 h1).trans (push_frame h7 h2)
  | fourWord => exact pushFour_frame h7 h
  | sixWord =>
    obtain ⟨u, h1, h2⟩ := except_bind_ok h
    exact (push_frame h7 h1).trans (pushFour_frame h7 h2)

end

/-- What taking an exception changes besides the system byte and the pc: A7 and memory. -/
def entryScope : Scope := ⟨[], [7], .all⟩

/-- A relation between states that holds over every part of taking an exception. -/
structure EntryClosed (R : State → State → Prop) : Prop where
  trans   : ∀ s t u, R s t → R t u → R s u
  frame   : ∀ s t, Frame entryScope s t → R s t
  setPc   : ∀ (s : State) (p : Long), R s (s.setPc p)
  entry   : ∀ e (s : State), R s (s.setSys (sysForEntry e s.sys))
  clearM  : ∀ s : State, R s (s.setSys (sysWithoutM s.sys))

theorem EntryClosed.takeException {R : State → State → Prop} (hR : EntryClosed R) {e : Exc} {s t : State}
    (h : takeException e s = .next t) : R s t := by
  obtain ⟨u, v, w, hpush, hthrow, handler, hread, rfl⟩ := enterHandler_spec (takeException_next h).2.2
  have h7 : 7 ∈ entryScope.addr := List.mem_singleton_self 7
  have hu : R s u := hR.trans _ _ _ (hR.entry e s) (hR.frame _ _ (pushFrame_frame h7 hpush))
  have hv : R u v := by
    split at hthrow
    · exact hR.trans _ _ _ (hR.clearM u) (hR.frame _ _ (pushFour_frame h7 hthrow))
    · cases hthrow
      exact hR.frame u u (.refl u)
  have hw : R v (w.setPc handler) := hR.trans _ _ _ (hR.frame v w (memRead_spec hread).frame) (hR.setPc w handler)
  exact hR.trans _ _ _ (hR.trans _ _ _ hu hv) hw

/-! ## A step -/

/-- A relation between states that holds over every part of a step. -/
structure StepClosed (R : State → State → Prop) : Prop where
  trans     : ∀ s t u, R s t → R t u → R s u
  sample    : ∀ (s : State) q l, R s { s with irq := q, irqLast := l }
  frame     : ∀ c s t, Frame c s t → R s t
  setPc     : ∀ (s : State) (p : Long), R s (s.setPc p)
  andiToSr  : ∀ (s : State) m f, s.supervisor = true → R s ((s.setSys (s.sys &&& m)).setCcr f)
  exception : ∀ e s t, takeException e s = .next t → R s t

section
variable {R : State → State → Prop} {s t : State}

theorem StepClosed.exec (hR : StepClosed R) {i : Instr} (h : exec i s = .next t) : R s t := by
  rcases exec_leads h with (⟨u, p, hf, -, rfl⟩ | ⟨v, -, hsup, rfl⟩) | ⟨e, u, hf, he⟩
  · exact hR.trans _ _ _ (hR.frame _ _ _ hf) (hR.setPc u p)
  · exact hR.trans _ _ _ (hR.andiToSr s _ _ hsup) (hR.setPc _ _)
  · exact hR.trans _ _ _ (hR.frame _ _ _ hf) (hR.exception e u t he)

theorem StepClosed.finish_error (hR : StepClosed R) {stop : Stop} (h : finish s (.error stop) = .next t) : R s t := by
  rcases finish_next h with h | ⟨e, -, h⟩
  · cases h
  · exact hR.exception e s t h

theorem StepClosed.runInstruction (hR : StepClosed R) (h : runInstruction s = .next t) : R s t := by
  unfold Machine.runInstruction at h
  split at h
  case h_1 => exact hR.finish_error h
  case h_2 i _ =>
    unfold traceAfter at h
    split at h
    case h_1 u hu =>
      split at h
      · exact hR.trans _ _ _ (hR.exec hu) (hR.exception _ u t h)
      · cases h
        exact hR.exec hu
    case h_2 => cases h
    case h_3 => cases h

/-- Sampling the interrupt level changes the samples to come and the last level alone. -/
theorem sampleIrq_state (s : State) : ∃ q l, (sampleIrq s).2 = { s with irq := q, irqLast := l } := by
  unfold sampleIrq
  split
  · exact ⟨s.irq, 0, rfl⟩
  · split <;> exact ⟨_, _, rfl⟩

/-- What holds over every part of a step holds over the step. -/
theorem StepClosed.step (hR : StepClosed R) (h : step s = .next t) : R s t := by
  unfold Machine.step cycle at h
  split at h
  · cases h
    exact hR.frame ⟨[], [], .all⟩ s s (.refl s)
  · obtain ⟨q, l, hq⟩ := sampleIrq_state s
    have hs : R s (sampleIrq s).2 := hq ▸ hR.sample s q l
    split at h
    case h_1 e u hu =>
      rw [hu] at hs
      exact hR.trans _ _ _ hs (hR.exception e u t h)
    case h_2 u hu =>
      rw [hu] at hs
      exact hR.trans _ _ _ hs (hR.runInstruction h)

end

/-! ## Parameters and control registers -/

theorem sameControl_entryClosed : EntryClosed SameControl where
  trans _ _ _ := .trans
  frame _ _ h := h.control
  setPc s _ := .refl s
  entry _ s := .refl s
  clearM s := .refl s

theorem sameControl_stepClosed : StepClosed SameControl where
  trans _ _ _ := .trans
  sample s _ _ := .refl s
  frame _ _ _ h := h.control
  setPc s _ := .refl s
  andiToSr s _ _ _ := .refl s
  exception _ _ _ := sameControl_entryClosed.takeException

/-- Settles O19: no part of a step changes a parameter or a control register. -/
theorem stepKeepsControl : Obligations.StepKeepsControl := fun _ _ => sameControl_stepClosed.step

/-! ## The invariant -/

/-- No unimplemented bit of the byte is set (R32). -/
def SysClean (cpu : Cpu) (b : Byte) : Prop := b &&& sysImplemented cpu = b

section
variable {cpu : Cpu} {a b : Byte}

theorem SysClean.and (h : SysClean cpu b) (m : Byte) : SysClean cpu (b &&& m) := by
  unfold SysClean at *
  rw [BitVec.and_assoc, BitVec.and_comm m, ← BitVec.and_assoc, h]

theorem SysClean.or (ha : SysClean cpu a) (hb : SysClean cpu b) : SysClean cpu (a ||| b) := by
  unfold SysClean at *
  rw [BitVec.and_or_distrib_right, ha, hb]

/-- Replacing the mask keeps bits 7 to 3 and sets the three bits of the level. -/
theorem sysWithMask_eq (b : Byte) (level : BitVec 3) :
    sysWithMask b level = (b &&& 0xF8) ||| level.setWidth 8 := by
  apply BitVec.eq_of_getLsbD_eq
  intro j hj
  simp only [sysWithMask, BitVec.getLsbD_append, BitVec.getLsbD_extractLsb']
  interval_cases j <;> simp

/-- Every member has S and the mask. -/
theorem sysClean_supervisor (cpu : Cpu) : SysClean cpu 0x20 := by
  unfold SysClean; cases cpu <;> rfl

theorem sysClean_level (cpu : Cpu) (level : BitVec 3) : SysClean cpu (level.setWidth 8) := by
  unfold SysClean; revert level; cases cpu <;> decide

theorem SysClean.onEntry (h : SysClean cpu b) : SysClean cpu (sysOnEntry b) :=
  (h.and 0x3F).or (sysClean_supervisor cpu)

theorem SysClean.forEntry (h : SysClean cpu b) (e : Exc) : SysClean cpu (sysForEntry e b) := by
  cases e
  case interrupt level v =>
    show SysClean cpu (sysWithMask (sysOnEntry b) level)
    rw [sysWithMask_eq]
    exact (h.onEntry.and 0xF8).or (sysClean_level cpu level)
  all_goals exact h.onEntry

end

/-- If the invariant holds in the one state, it holds in the other. -/
def KeepsInv (s t : State) : Prop := StateInv s → StateInv t

theorem Frame.keepsInv {c : Scope} {s t : State} (h : Frame c s t) : KeepsInv s t := fun ⟨hmem, hsys⟩ =>
  ⟨h.mem hmem, by rw [h.sys, h.config]; exact hsys⟩

theorem keepsInv_setSys {s : State} {b : Byte} (h : SysClean s.config.cpu s.sys → SysClean s.config.cpu b) :
    KeepsInv s (s.setSys b) := fun ⟨hmem, hsys⟩ => ⟨hmem, h hsys⟩

theorem keepsInv_entryClosed : EntryClosed KeepsInv where
  trans _ _ _ h g := g ∘ h
  frame _ _ h := h.keepsInv
  setPc _ _ := id
  entry e _ := keepsInv_setSys fun h => h.forEntry e
  clearM _ := keepsInv_setSys fun h => h.and 0xEF

theorem keepsInv_stepClosed : StepClosed KeepsInv where
  trans _ _ _ h g := g ∘ h
  sample _ _ _ := id
  frame _ _ _ h := h.keepsInv
  setPc _ _ := id
  andiToSr _ m _ _ := keepsInv_setSys fun h => h.and m
  exception _ _ _ := keepsInv_entryClosed.takeException

/-- Settles O17: every part of a step keeps the invariant. -/
theorem stepKeepsInvariant : Obligations.StepKeepsInvariant := fun _ _ hs h => keepsInv_stepClosed.step h hs

/-- Settles O18, by evaluation: the reset state is a literal. -/
theorem resetState : Obligations.ResetState :=
  ⟨⟨rfl, rfl⟩, rfl, rfl, rfl, rfl, rfl, rfl, fun _ => rfl⟩

/-! ## User state -/

/-- The system byte, the supervisor stack pointers and the parameters agree. -/
def SameSupervisor (s t : State) : Prop := t.config = s.config ∧ t.sys = s.sys ∧ t.isp = s.isp ∧ t.msp = s.msp

/-- Under `TRAP_MODEL = fault` nothing of the supervisor's changes from user state. -/
def Confined (s t : State) : Prop := s.config.trapModel = .fault → s.supervisor = false → SameSupervisor s t

theorem Confined.trans {s t u : State} (h : Confined s t) (g : Confined t u) : Confined s u := by
  intro hf hu
  obtain ⟨hcfg, hsys, hisp, hmsp⟩ := h hf hu
  obtain ⟨gcfg, gsys, gisp, gmsp⟩ := g (hcfg ▸ hf) (by rw [State.supervisor, hsys]; exact hu)
  exact ⟨gcfg.trans hcfg, gsys.trans hsys, gisp.trans hisp, gmsp.trans hmsp⟩

/-- In user state A7 names the user stack pointer, and a frame changes no other. -/
theorem Frame.confined {c : Scope} {s t : State} (h : Frame c s t) : Confined s t := by
  intro _ hu
  obtain ⟨v, -, hisp, hmsp⟩ := h.inactive
  rw [State.isp_setSp, hu] at hisp
  rw [State.msp_setSp, hu] at hmsp
  exact ⟨h.config, h.sys, hisp, hmsp⟩

theorem confined_stepClosed : StepClosed Confined where
  trans _ _ _ := .trans
  sample _ _ _ _ _ := ⟨rfl, rfl, rfl, rfl⟩
  frame _ _ _ h := h.confined
  setPc _ _ _ _ := ⟨rfl, rfl, rfl, rfl⟩
  andiToSr s _ _ hs _ hu := by rw [hs] at hu; cases hu
  exception e s t h hf _ := by rw [(takeException_next h).1] at hf; cases hf

/-- Settles O22: every part of a step is confined; ANDI to SR needs supervisor state, and an exception needs
`TRAP_MODEL = frame`. -/
theorem userStateIsConfined : Obligations.UserStateIsConfined := by
  intro s t hf hu h
  obtain ⟨-, hsys, hisp, hmsp⟩ := confined_stepClosed.step h hf hu
  refine ⟨hisp, hmsp, by rw [State.supervisor, hsys]; exact hu, fun j hj _ => ?_⟩
  rw [t.sr_high j hj, s.sr_high j hj, hsys]

/-! ## Instructions -/

/-- Under `TRAP_MODEL = fault` an instruction that leads on completed. -/
theorem exec_completes {i : Instr} {s t : State} (hf : s.config.trapModel = .fault) (h : exec i s = .next t) :
    Completes i s t := by
  rcases exec_leads h with h | ⟨e, u, hu, he⟩
  · exact h
  · have hm := (takeException_next he).1
    rw [hu.config, hf] at hm
    cases hm

/-- Settles O23: a form that is no branch ends at its length, which is that of its encoding. -/
theorem pcAdvancesByLength : Obligations.PcAdvancesByLength := by
  intro i s t hf hb h
  have hlen : (encode i).length = instrLen i := Laws.EncodedLength.encode_length i
  rw [hlen]
  rcases exec_completes hf h with ⟨u, p, -, hp, rfl⟩ | ⟨v, rfl, -, rfl⟩
  · exact hp hb
  · rfl

/-- The data registers agree. -/
def SameData (s t : State) : Prop := ∀ n, t.getD n = s.getD n

/-- Taking an exception changes no data register. -/
theorem sameData_entryClosed : EntryClosed SameData where
  trans _ _ _ h g n := (g n).trans (h n)
  frame _ _ h n := h.data n List.not_mem_nil
  setPc _ _ _ := rfl
  entry _ _ _ := rfl
  clearM _ _ := rfl

/-- Settles O24: completing stays within the scope, and so does what comes before an exception, which itself changes no
data register. -/
theorem dataRegisterFrame : Obligations.DataRegisterFrame := by
  intro i s t n h hn
  rcases exec_leads h with (⟨u, p, hf, -, rfl⟩ | ⟨v, -, -, rfl⟩) | ⟨e, u, hf, he⟩
  · exact hf.data n hn
  · rfl
  · exact (sameData_entryClosed.takeException he n).trans (hf.data n hn)

/-- Settles O25: completing stays within the scope of the instruction. -/
theorem addressRegisterFrame : Obligations.AddressRegisterFrame := by
  intro i s t hf h
  rcases exec_completes hf h with ⟨u, p, hu, -, rfl⟩ | ⟨v, -, -, rfl⟩
  · exact ⟨fun n _ hn => hu.addr n hn, hu.inactive, hu.banks⟩
  · have hst : SameStacks s s := ⟨rfl, rfl, rfl⟩
    exact ⟨fun _ _ _ _ => rfl, hst.inactive, fun _ => hst⟩

/-- Settles O26: completing stays within the scope of the instruction, and ANDI to SR, which keeps no flag, is the one
that writes the system byte. -/
theorem flagFrame : Obligations.FlagFrame := by
  intro i s t hf h
  rcases exec_completes hf h with ⟨u, p, hu, -, rfl⟩ | ⟨v, rfl, -, -⟩
  · refine ⟨hu.flags, fun _ j hj _ => ?_⟩
    rw [State.sr_high _ j hj, s.sr_high j hj, State.setPc_sys, hu.sys]
  · exact ⟨Keeps.none_holds _ _, fun hne => absurd rfl (hne v)⟩

end Sys2Proof.Machine
end

section
/-! SUPPORT. The exceptions a memory access or an operand can raise are address and bus errors, which end the run
(R447): an instruction made of such parts alone leads on only by completing, whatever `TRAP_MODEL` is. -/

namespace Sys2Proof.Machine

/-- Every exception this stops with is terminal (R447). -/
structure StopsTerminally {α : Type} (r : Except Stop α) : Prop where
  terminal : ∀ e, r = .error (.raise e) → e.terminal = true

section
variable {α β : Type}

theorem StopsTerminally.ok (x : α) : StopsTerminally (.ok x) := ⟨nofun⟩

theorem StopsTerminally.refuse (r : Refusal) : StopsTerminally (.error (.refuse r) : Except Stop α) := ⟨nofun⟩

theorem StopsTerminally.raise {e : Exc} (h : e.terminal = true) :
    StopsTerminally (.error (.raise e) : Except Stop α) where
  terminal e' he := by
    cases he
    exact h

theorem StopsTerminally.bind {x : Except Stop α} {f : α → Except Stop β} (hx : StopsTerminally x)
    (hf : ∀ a, StopsTerminally (f a)) : StopsTerminally (x >>= f) := by
  cases x with
  | error stop =>
    refine ⟨fun e he => ?_⟩
    cases he
    exact hx.terminal e rfl
  | ok a => exact hf a

theorem StopsTerminally.ite {p : Prop} [Decidable p] {x y : Except Stop α} (hx : StopsTerminally x)
    (hy : StopsTerminally y) : StopsTerminally (if p then x else y) := by
  split <;> assumption

end

/-- An instruction whose every exception is terminal leads on by completing. -/
theorem StopsTerminally.finish_next {s t : State} {r : Except Stop State} (hr : StopsTerminally r)
    (h : finish s r = .next t) : r = .ok t := by
  rcases Machine.finish_next h with h | ⟨e, he, h⟩
  · exact h
  · have hlive := (takeException_next h).2.1
    rw [hr.terminal e he] at hlive
    cases hlive

/-! ## Memory -/

theorem checkPresent_terminal (s : State) (write : Bool) (n : Nat) (a : Long) :
    StopsTerminally (checkPresent s write n a) := by
  induction n generalizing a with
  | zero => exact .ok ()
  | succ n ih =>
    unfold checkPresent
    split
    case h_1 => exact .raise rfl
    all_goals exact ih (a + 1)

theorem checkNotText_terminal (s : State) (n : Nat) (a : Long) : StopsTerminally (checkNotText s n a) := by
  induction n generalizing a with
  | zero => exact .ok ()
  | succ n ih => exact .ite (.refuse _) (ih (a + 1))

theorem loadByte_terminal (s : State) (a : Long) : StopsTerminally (loadByte s a) := by
  unfold loadByte
  split
  · exact .ok _
  · split
    · exact .ok _
    · exact ⟨nofun⟩

theorem loadBytes_terminal (n : Nat) (a acc : Long) (s : State) : StopsTerminally (loadBytes n a acc s) := by
  induction n generalizing a acc s with
  | zero => exact .ok _
  | succ n ih => exact .bind (loadByte_terminal s a) fun _ => ih _ _ _

theorem readAccess_terminal (n : Nat) (a : Long) (s : State) : StopsTerminally (readAccess n a s) :=
  .bind (checkPresent_terminal s false n a) fun _ => .bind (loadBytes_terminal n a 0 s) fun _ => .ok _

theorem readEach_terminal (n : Nat) (a acc : Long) (s : State) : StopsTerminally (readEach n a acc s) := by
  induction n generalizing a acc s with
  | zero => exact .ok _
  | succ n ih => exact .bind (readAccess_terminal 1 a s) fun _ => ih _ _ _

theorem memRead_terminal (s : State) (sz : Size) (a : Long) : StopsTerminally (memRead s sz a) :=
  .ite (.raise rfl) (.ite (.refuse _) (.ite (readEach_terminal _ a 0 s) (readAccess_terminal _ a s)))

theorem writeAccess_terminal (n : Nat) (a v : Long) (s : State) : StopsTerminally (writeAccess n a v s) :=
  .bind (checkPresent_terminal s true n a) fun _ => .bind (checkNotText_terminal s n a) fun _ => .ok _

theorem writeEach_terminal (n : Nat) (a v : Long) (s : State) : StopsTerminally (writeEach n a v s) := by
  induction n generalizing a s with
  | zero => exact .ok _
  | succ n ih => exact .bind (writeAccess_terminal 1 a _ s) fun _ => ih _ _

theorem memWrite_terminal (s : State) (sz : Size) (a v : Long) : StopsTerminally (memWrite s sz a v) :=
  .ite (.raise rfl) (.ite (.refuse _) (.ite (writeEach_terminal _ a v s) (writeAccess_terminal _ a _ s)))

theorem push_terminal (s : State) (sz : Size) (v : Long) : StopsTerminally (push s sz v) :=
  memWrite_terminal _ sz _ v

/-! ## Operands -/

theorem indexedAddr_terminal (s : State) (base : Long) (x : IndexExt) : StopsTerminally (indexedAddr s base x) := by
  cases x with
  | brief idx d8 => exact .ok _
  | full baseSup indexSup idx bd ind =>
    cases ind with
    | none => exact .ok _
    | pre od | post od => exact .bind (memRead_terminal _ _ _) fun _ => .ok _

theorem eaAddr_terminal (s : State) (sz : Size) (pcx : Long) (ea : Ea) : StopsTerminally (eaAddr s sz pcx ea) := by
  cases ea
  case index | pcindex => exact indexedAddr_terminal s _ _
  case dreg | areg | imm => exact .refuse _
  all_goals exact .ok _

theorem eaDecode_terminal (s : State) (sz : Size) (pcx : Long) (ea : Ea) :
    StopsTerminally (eaDecode s sz pcx ea) := by
  cases ea
  case dreg | areg | imm => exact .ok _
  all_goals exact .bind (eaAddr_terminal s sz pcx _) fun _ => .ok _

theorem eaGet_terminal (s : State) (sz : Size) (loc : Loc) : StopsTerminally (eaGet s sz loc) := by
  cases loc
  case mem => exact memRead_terminal s sz _
  all_goals exact .ok _

theorem eaPut_terminal (s : State) (sz : Size) (loc : Loc) (v : Long) : StopsTerminally (eaPut s sz loc v) := by
  cases loc
  case mem => exact memWrite_terminal s sz _ v
  case imm => exact .refuse _
  all_goals exact .ok _

theorem modifyOperand_terminal (s : State) (sz : Size) (own : Nat) (ea : Ea) (f : Long → Ccr → Long × Ccr) :
    StopsTerminally (modifyOperand s sz own ea f) :=
  .bind (eaDecode_terminal s sz _ ea) fun _ => .bind (eaGet_terminal _ sz _) fun _ =>
    .bind (eaPut_terminal _ sz _ _) fun _ => .ok _

theorem predecPair_terminal (s : State) (sz : Size) (x y : RegNum) : StopsTerminally (predecPair s sz x y) :=
  .bind (memRead_terminal _ sz _) fun _ => .bind (memRead_terminal _ sz _) fun _ => .ok _

/-! ## Bit fields -/

theorem bfLoad_terminal (n : Nat) (a : Long) (acc : BitVec 40) (s : State) : StopsTerminally (bfLoad n a acc s) := by
  induction n generalizing a acc s with
  | zero => exact .ok _
  | succ n ih => exact .bind (memRead_terminal s .byte a) fun _ => ih _ _ _

theorem bfStore_terminal (n : Nat) (a : Long) (buf : BitVec 40) (s : State) : StopsTerminally (bfStore n a buf s) := by
  induction n generalizing a s with
  | zero => exact .ok _
  | succ n ih => exact .bind (memWrite_terminal s .byte a _) fun _ => ih _ _

theorem bfLocate_terminal (s : State) (p : BfSpec) (ea : Ea) : StopsTerminally (bfLocate s p ea) := by
  cases ea
  case dreg => exact .ok _
  all_goals exact .bind (eaAddr_terminal s .byte _ _) fun _ => .ok _

theorem bfBuffer_terminal (place : BfPlace) (s : State) : StopsTerminally (bfBuffer place s) := by
  cases place with
  | reg n o => exact .ok _
  | mem ba bo nb => exact bfLoad_terminal nb ba 0 s

theorem bfWriteBack_terminal (place : BfPlace) (buf : BitVec 40) (s : State) :
    StopsTerminally (bfWriteBack place buf s) := by
  cases place with
  | reg n o => exact .ok _
  | mem ba bo nb => exact bfStore_terminal nb ba buf s

theorem bfChange_terminal (s : State) (p : BfSpec) (ea : Ea) (new tested : Long → Long) :
    StopsTerminally (bfChange s p ea new tested) :=
  .bind (.bind (bfLocate_terminal s p ea) fun _ => .bind (bfBuffer_terminal _ _) fun _ => .ok _) fun _ =>
    .bind (bfWriteBack_terminal _ _ _) fun _ => .ok _

end Sys2Proof.Machine
end

section
/-! SUPPORT. What an instruction may store: a relation on states that says which places of memory were written, the
places the model's own tables give an instruction, and all that `exec` can do to memory when it answers a next state. -/

namespace Sys2Proof.Machine

/-! ## Stores to given places -/

/-- Stores to the places `w` gives keep this byte: it is the program's, or it lies in none of them. -/
def KeptBy (w : Long → Nat → Prop) (s : State) (b : Long) : Prop :=
  s.inText b = true ∨ ∀ a n, w a n → Outside s a n b

/-- The parameters stay, and of memory nothing changes but bytes outside the program at the places `w` gives. -/
structure StoresAt (w : Long → Nat → Prop) (s t : State) : Prop where
  config : t.config = s.config
  kept   : ∀ b, KeptBy w s b → t.peek b = s.peek b

/-- No place at all. -/
def noPlace (_ : Long) (_ : Nat) : Prop := False

/-- Every place: what such stores keep is the program. -/
def anyPlace (_ : Long) (_ : Nat) : Prop := True

section
variable {w w' : Long → Nat → Prop} {s t u : State}

theorem keptBy_congr (h : t.config = s.config) (b : Long) : KeptBy w t b ↔ KeptBy w s b := by
  simp only [KeptBy, Outside, State.inText_congr h, State.physical_congr h]

theorem StoresAt.trans (h : StoresAt w s t) (g : StoresAt w t u) : StoresAt w s u where
  config := g.config.trans h.config
  kept b hb := (g.kept b ((keptBy_congr h.config b).mpr hb)).trans (h.kept b hb)

theorem StoresAt.mono (hw : ∀ a n, w a n → w' a n) (h : StoresAt w s t) : StoresAt w' s t where
  config := h.config
  kept b hb := h.kept b (hb.imp_right fun ho a n ha => ho a n (hw a n ha))

theorem StoresAt.any (h : StoresAt w s t) : StoresAt anyPlace s t := h.mono fun _ _ _ => trivial

/-- A change of anything but memory and the parameters stores nowhere. -/
theorem StoresAt.of_eq (hc : t.config = s.config) (hm : t.mem = s.mem) : StoresAt w s t where
  config := hc
  kept b _ := State.peek_congr hc hm b

theorem StoresAt.refl (s : State) : StoresAt w s s := .of_eq rfl rfl

theorem StoresAt.andThen (h : StoresAt w s t) (hc : u.config = t.config) (hm : u.mem = t.mem) : StoresAt w s u :=
  h.trans (.of_eq hc hm)

theorem SameButDevice.storesAt (h : SameButDevice s t) : StoresAt w s t := .of_eq h.config h.mem

theorem WroteAt.storesAt {a : Long} {n : Nat} (h : WroteAt s t a n) (ha : w a n) : StoresAt w s t where
  config := h.config
  kept b hb := by
    obtain ⟨m, l, -, houtside, htext, -⟩ := h
    rcases hb with hb | hb
    · exact htext b hb
    · exact houtside b (hb a n ha)

/-- Stores nowhere leave every byte. -/
theorem StoresAt.peek_eq (h : StoresAt w s t) (hw : ∀ a n, ¬ w a n) (b : Long) : t.peek b = s.peek b :=
  h.kept b (.inr fun a n ha => absurd ha (hw a n))

/-! ## Operands -/

theorem storesAt_eaSideEffect (s : State) (sz : Size) (ea : Ea) : StoresAt w s (eaSideEffect s sz ea) :=
  .of_eq (eaSideEffect_config s sz ea) (eaSideEffect_mem s sz ea)

theorem eaDecode_stores {sz : Size} {pcx : Long} {ea : Ea} {loc : Loc} (h : eaDecode s sz pcx ea = .ok (loc, t)) :
    StoresAt w s t :=
  (storesAt_eaSideEffect s sz ea).trans (eaDecode_spec h).1.storesAt

theorem eaRead_stores {sz : Size} {own : Nat} {ea : Ea} {v : Long} (h : eaRead s sz own ea = .ok (v, t)) :
    StoresAt w s t :=
  (storesAt_eaSideEffect s sz ea).trans (eaRead_spec h).storesAt

theorem readBounds_stores {sz : Size} {own : Nat} {ea : Ea} {b : Long × Long}
    (h : readBounds s sz own ea = .ok (b, t)) : StoresAt w s t :=
  (storesAt_eaSideEffect s sz ea).trans (readBounds_spec h).storesAt

theorem bfRead_stores {p : BfSpec} {ea : Ea} {place : BfPlace} {buf : BitVec 40} {f : Long}
    (h : bfRead s p ea = .ok ((place, buf, f), t)) : StoresAt w s t :=
  (storesAt_eaSideEffect s .byte ea).trans (bfRead_spec h).1.storesAt

theorem predecPair_stores {sz : Size} {x y : RegNum} {ops : Long × Long} (h : predecPair s sz x y = .ok (ops, t)) :
    StoresAt w s t :=
  ((StoresAt.refl s).andThen (by simp) (by simp)).trans (predecPair_spec h).1.storesAt

theorem push_stores {sz : Size} {v : Long} (h : push s sz v = .ok t)
    (ha : w (s.sp - BitVec.ofNat 32 sz.bytes) sz.bytes) : StoresAt w s t :=
  ((StoresAt.refl s).andThen (s.setSp_config _) (s.setSp_mem _)).trans ((push_spec h).storesAt ha)

/-- Writing where an operand was decoded to stores at its address and nowhere else. -/
theorem eaPut_stores {r : State} {sz sz' : Size} {pcx v : Long} {ea : Ea} {loc : Loc}
    (hloc : eaDecode r sz' pcx ea = .ok (loc, u)) (hw : ∀ a, eaAddr r sz' pcx ea = .ok (a, u) → w a sz.bytes)
    (h : eaPut s sz loc v = .ok t) : StoresAt w s t := by
  rcases eaPut_spec h with ⟨n, rfl, rfl⟩ | ⟨n, rfl, rfl⟩ | ⟨a, rfl, hwrote⟩
  · exact .of_eq rfl rfl
  · exact .of_eq (s.setA_config n v) (s.setA_mem n v)
  · rcases (eaDecode_spec hloc).2 with ⟨m, -, e⟩ | ⟨m, -, e⟩ | ⟨m, -, e⟩ | ⟨-, p, e, hp⟩ <;> cases e
    exact hwrote.storesAt (hw a hp)

/-- Writing a field back stores in its bytes and nowhere else. -/
theorem bfWriteBack_stores {place : BfPlace} {buf : BitVec 40} (hw : ∀ ba bo nb, place = .mem ba bo nb → w ba nb)
    (h : bfWriteBack place buf s = .ok t) : StoresAt w s t := by
  rcases bfWriteBack_spec h with ⟨n, o, -, rfl⟩ | ⟨ba, bo, nb, rfl, hwrote⟩
  · exact .of_eq rfl rfl
  · exact hwrote.storesAt (hw ba bo nb rfl)

theorem boundsFlags_stores (s : State) (sz : Size) (rn : GReg) (lo hi : Long) :
    StoresAt w s (boundsFlags s sz rn lo hi) := by
  obtain ⟨k, f, h, -⟩ := boundsFlags_spec s sz rn lo hi
  rw [h]
  exact .of_eq rfl rfl

theorem checkBound_stores (s : State) (sz : Size) (v b : Long) : StoresAt w s (checkBound s sz v b).2 := by
  obtain ⟨k, f, h, -⟩ := checkBound_spec s sz v b
  rw [h]
  exact .of_eq rfl rfl

theorem bcdAdd_stores (src dst : Long) (x : Bool) (s : State) : StoresAt w s (bcdAdd src dst x s).2 := by
  unfold bcdAdd
  split
  · exact .refl s
  · exact .of_eq rfl rfl

end

/-! ## Where an instruction may store -/

/-- The places an instruction that begins in `s` may store to, each an address and a number of bytes: its operand, its
bit field, the destination below A[x], the stack below A7, the two operands of CAS2, the operand of cpScc. -/
inductive MayStore (s : State) : Instr → Long → Nat → Prop
  | operand {i : Instr} {ea : Ea} {a : Long} {u : State} (hi : storesOperand i = true) (hea : instrEa i = some ea)
      (ha : eaAddr s (opSize i) (s.pcPlus (ownLen i)) ea = .ok (a, u)) : MayStore s i a (opSize i).bytes
  | field {i : Instr} {p : BfSpec} {ea : Ea} {ba : Long} {bo nb : Nat} {u : State} (hi : storesField i = some (p, ea))
      (hloc : bfLocate s p ea = .ok (.mem ba bo nb, u)) : MayStore s i ba nb
  | addx (sz : Size) (x y : RegNum) : MayStore s (.addx sz .predec x y) (predecDest s sz x y) sz.bytes
  | abcd (x y : RegNum) : MayStore s (.abcd .predec x y) (predecDest s .byte x y) 1
  | bsr (off : BranchOff) : MayStore s (.bsr off) (s.sp - 4) 4
  | cas2W (p1 p2 p : CasPair) (hp : p = p1 ∨ p = p2) : MayStore s (.cas2W p1 p2) (s.getR p.rn) 2
  | cas2L (p1 p2 p : CasPair) (hp : p = p1 ∨ p = p2) : MayStore s (.cas2L p1 p2) (s.getR p.rn) 4
  | cpScc (id : BitVec 3) {field : BitVec 6} {r : CpAnswer} {rs : List CpAnswer} {ea : Ea} {a : Long} {u : State}
      (hr : s.cpAnswers = r :: rs)
      (hparse : fetchParse s (takeEa s.config.cpu .byte field) maxWords (s.pcPlus (2 + r.k)) [] = .ok ea)
      (ha : eaAddr { s with cpAnswers := rs } .byte (s.pcPlus (2 + r.k)) ea = .ok (a, u)) :
      MayStore s (.cpScc id field) a 1

/-- ALL `exec` can do to memory when it answers a next state: the instruction completes, having stored at most at its
places, or an exception is taken and it has stored nothing; the latter not for the forms that store, but for cpScc,
which asks a coprocessor first. -/
inductive ExecStores (i : Instr) (s t : State) : Prop
  | completes (h : StoresAt (MayStore s i) s t)
  | raises (e : Exc) (u : State) (idle : storesNothing i = true ∨ ∃ id field, i = .cpScc id field)
      (h : StoresAt noPlace s u) (taken : takeException e u = .next t)

section
variable {i : Instr} {s t u : State}

theorem finish_stores {r : Except Stop State} (h : finish s r = .next t)
    (idle : storesNothing i = true ∨ ∃ id field, i = .cpScc id field)
    (hr : r = .ok t → StoresAt (MayStore s i) s t) : ExecStores i s t := by
  rcases finish_next h with h | ⟨e, -, h⟩
  · exact .completes (hr h)
  · exact .raises e s idle (.refl s) h

theorem finish_terminal_stores {r : Except Stop State} (h : finish s r = .next t) (hstop : StopsTerminally r)
    (hr : r = .ok t → StoresAt (MayStore s i) s t) : ExecStores i s t :=
  .completes (hr (hstop.finish_next h))

/-! ## Forms that read an operand -/

theorem withOperand_stores {sz : Size} {own : Nat} {ea : Ea} {use : Long → State → State}
    (h : finish s (withOperand s sz own ea use) = .next t) (hi : storesNothing i = true)
    (huse : ∀ v u, StoresAt (MayStore s i) u (use v u)) : ExecStores i s t :=
  finish_stores h (.inl hi) fun h => by
    obtain ⟨v, u, hread, rfl⟩ := withOperand_spec h
    exact ((eaRead_stores hread).trans (huse v u)).andThen rfl rfl

theorem testBit_stores {own raw : Nat} {ea : Ea} (h : finish s (testBit s own raw ea) = .next t)
    (hi : storesNothing i = true) : ExecStores i s t := by
  by_cases hd : ∃ n, ea = .dreg n
  · obtain ⟨n, rfl⟩ := hd
    cases h
    exact .completes (.of_eq rfl rfl)
  · rw [testBit_byte s own raw fun n e => hd ⟨n, e⟩] at h
    exact withOperand_stores h hi fun _ _ => .of_eq rfl rfl

theorem bfExtract_stores {p : BfSpec} {ea : Ea} {use : Long → State → State}
    (h : finish s (bfExtract s p ea use) = .next t) (hi : storesNothing i = true)
    (huse : ∀ f u, StoresAt (MayStore s i) u (use f u)) : ExecStores i s t :=
  finish_stores h (.inl hi) fun h => by
    obtain ⟨place, buf, f, u, hread, rfl⟩ := bfExtract_spec h
    have hflags : StoresAt (MayStore s i) s (u.setCcr (bfFlags (bfWidth s p) f u.ccr)) :=
      (bfRead_stores hread).andThen rfl rfl
    exact (hflags.trans (huse f _)).andThen rfl rfl

theorem settleCheck_stores {own : Nat} {ea : Ea} {r : Except Stop (Bool × State)}
    (h : settleCheck s own ea r = .next t) (hi : storesNothing i = true)
    (hr : ∀ trap u, r = .ok (trap, u) → ∀ w, StoresAt w s u) : ExecStores i s t := by
  unfold settleCheck at h
  split at h
  case h_1 stop => exact finish_stores h (.inl hi) nofun
  case h_2 trap u =>
    split at h
    · exact .raises _ u (.inl hi) (hr trap u rfl noPlace) h
    · cases h
      exact .completes ((hr trap u rfl _).andThen rfl rfl)

theorem execCmpm_stores {sz : Size} {x y : RegNum} (h : execCmpm sz x y s = .next t) :
    ExecStores (.cmpm sz x y) s t := by
  refine finish_stores h (.inl rfl) fun h => ?_
  obtain ⟨⟨src, s1⟩, hsrc, h⟩ := except_bind_ok h
  obtain ⟨⟨dst, s2⟩, hdst, h⟩ := except_bind_ok h
  cases h
  have h1 : StoresAt (MayStore s (.cmpm sz x y)) s s1 := (memRead_spec hsrc).storesAt
  have h2 := (h1.andThen (s1.setA_config y _) (s1.setA_mem y _)).trans (memRead_spec hdst).storesAt
  exact h2.andThen (s2.setA_config x _) (s2.setA_mem x _)

theorem execCmp2_stores {sz : Size} {rn : GReg} {ea : Ea} (h : execCmp2 sz rn ea s = .next t) :
    ExecStores (.cmp2 sz rn ea) s t := by
  refine finish_stores h (.inl rfl) fun h => ?_
  obtain ⟨⟨b, u⟩, hread, h⟩ := except_bind_ok h
  cases h
  exact ((readBounds_stores hread).trans (boundsFlags_stores u sz rn b.1 b.2)).andThen rfl rfl

theorem chkOperand_stores {sz : Size} {r : RegNum} {ea : Ea} (h : chkOperand sz r ea s = .next t)
    (hi : storesNothing i = true) : ExecStores i s t := by
  refine settleCheck_stores h hi fun trap u hr w => ?_
  obtain ⟨⟨bound, v⟩, hread, h⟩ := except_bind_ok hr
  have hu : u = (checkBound v sz (v.getD r) bound).2 := (congrArg Prod.snd (Except.ok.inj h)).symm
  exact hu ▸ (eaRead_stores hread).trans (checkBound_stores v sz _ bound)

theorem execChk2_stores {sz : Size} {rn : GReg} {ea : Ea} (h : execChk2 sz rn ea s = .next t) :
    ExecStores (.chk2 sz rn ea) s t := by
  refine settleCheck_stores h rfl fun trap u hr w => ?_
  obtain ⟨⟨b, v⟩, hread, h⟩ := except_bind_ok hr
  cases h
  exact (readBounds_stores hread).trans (boundsFlags_stores v sz rn b.1 b.2)

/-! ## Forms that change their operand -/

theorem modifyOperand_stores {sz : Size} {own : Nat} {ea : Ea} {f : Long → Ccr → Long × Ccr}
    (h : finish s (modifyOperand s sz own ea f) = .next t) (hi : storesOperand i = true) (hea : instrEa i = some ea)
    (hsz : sz = opSize i) (hown : own = ownLen i) : ExecStores i s t := by
  subst hsz hown
  refine finish_terminal_stores h (modifyOperand_terminal ..) fun h => ?_
  obtain ⟨loc, s1, dst, s2, s3, hdec, hget, hput, rfl⟩ := modifyOperand_spec h
  have h3 : StoresAt (MayStore s i) s2 s3 := eaPut_stores hdec (fun a ha => .operand hi hea ha) hput
  exact (((eaDecode_stores hdec).trans (eaGet_spec hget).storesAt).trans h3).andThen rfl rfl

theorem changeBit_stores {own raw : Nat} {ea : Ea} {f : Bool → Bool}
    (h : finish s (changeBit s own raw ea f) = .next t) (hi : storesOperand i = true) (hea : instrEa i = some ea)
    (hsz : .byte = opSize i) (hown : own = ownLen i) : ExecStores i s t := by
  by_cases hd : ∃ n, ea = .dreg n
  · obtain ⟨n, rfl⟩ := hd
    cases h
    exact .completes (.of_eq rfl rfl)
  · rw [changeBit_byte s own raw f fun n e => hd ⟨n, e⟩] at h
    exact modifyOperand_stores h hi hea hsz hown

theorem execAddq_stores {sz : Size} {q : BitVec 3} {ea : Ea} (h : execAddq sz q ea s = .next t) :
    ExecStores (.addq sz q ea) s t := by
  by_cases ha : ∃ n, ea = .areg n
  · obtain ⟨n, rfl⟩ := ha
    cases h
    exact .completes (.of_eq (s.setA_config n _) (s.setA_mem n _))
  · rw [execAddq_operand sz q s fun n e => ha ⟨n, e⟩] at h
    exact modifyOperand_stores h rfl rfl rfl rfl

theorem execClr_stores {sz : Size} {ea : Ea} (h : execClr sz ea s = .next t) : ExecStores (.clr sz ea) s t := by
  refine finish_terminal_stores h ?_ fun h => ?_
  · exact .bind (eaDecode_terminal ..) fun r => .ite
      (.bind (eaGet_terminal ..) fun _ => .bind (eaPut_terminal ..) fun _ => .ok _)
      (.bind (.ok (0, r.2)) fun _ => .bind (eaPut_terminal ..) fun _ => .ok _)
  · obtain ⟨⟨loc, s1⟩, hdec, h⟩ := except_bind_ok h
    obtain ⟨⟨v, s2⟩, hget, h⟩ := except_ite_bind_ok h
    obtain ⟨s3, hput, h⟩ := except_bind_ok h
    cases h
    have h2 : StoresAt (MayStore s (.clr sz ea)) s1 s2 := by
      split at hget
      · exact (eaGet_spec hget).storesAt
      · cases hget
        exact .refl s1
    have h3 : StoresAt (MayStore s (.clr sz ea)) s2 s3 :=
      eaPut_stores hdec (fun a ha => .operand (i := .clr sz ea) rfl rfl ha) hput
    exact (((eaDecode_stores hdec).trans h2).trans h3).andThen rfl rfl

theorem execCas_stores {sz : Size} {du dc : RegNum} {ea : Ea} (h : execCas sz du dc ea s = .next t) :
    ExecStores (.cas sz du dc ea) s t := by
  refine finish_terminal_stores h ?_ fun h => ?_
  · exact .bind (eaDecode_terminal ..) fun _ => .bind (eaGet_terminal ..) fun r => .ite
      (.bind (eaPut_terminal ..) fun _ => .ok _) (.bind (.ok (r.2.setDLow sz dc r.1)) fun _ => .ok _)
  · obtain ⟨⟨loc, s1⟩, hdec, h⟩ := except_bind_ok h
    obtain ⟨⟨dst, s2⟩, hget, h⟩ := except_bind_ok h
    obtain ⟨s3, hput, h⟩ := except_ite_bind_ok h
    cases h
    have h3 : StoresAt (MayStore s (.cas sz du dc ea)) s2 s3 := by
      split at hput
      · exact eaPut_stores hdec (fun a ha => .operand (i := .cas sz du dc ea) rfl rfl ha) hput
      · cases hput
        exact .of_eq rfl rfl
    exact (((eaDecode_stores hdec).trans (eaGet_spec hget).storesAt).trans h3).andThen rfl rfl

/-! ## Bit fields -/

theorem bfChange_stores {p : BfSpec} {ea : Ea} {new tested : Long → Long}
    (h : finish s (bfChange s p ea new tested) = .next t) (hi : storesField i = some (p, ea)) : ExecStores i s t := by
  refine finish_terminal_stores h (bfChange_terminal ..) fun h => ?_
  obtain ⟨place, buf, f, u, v, hread, hwrite, rfl⟩ := bfChange_spec h
  obtain ⟨-, ⟨w, hloc⟩, -⟩ := bfRead_spec hread
  have hv : StoresAt (MayStore s i) u v :=
    bfWriteBack_stores (fun ba bo nb e => .field hi (e ▸ hloc)) hwrite
  exact ((bfRead_stores hread).trans hv).andThen rfl rfl

/-! ## Forms that address their operands by registers -/

theorem execAddx_stores {sz : Size} {form : XForm} {x y : RegNum} (h : execAddx sz form x y s = .next t) :
    ExecStores (.addx sz form x y) s t := by
  cases form with
  | data =>
    cases h
    exact .completes (.of_eq rfl rfl)
  | predec =>
    refine finish_terminal_stores h ?_ fun h => ?_
    · exact .bind (predecPair_terminal s sz x y) fun _ => .bind (memWrite_terminal ..) fun _ => .ok _
    · obtain ⟨⟨ops, u⟩, hpair, h⟩ := except_bind_ok h
      obtain ⟨v, hwrite, h⟩ := except_bind_ok h
      cases h
      have hplace : MayStore s (.addx sz .predec x y) (u.getA x) sz.bytes := (predecPair_spec hpair).2 ▸ .addx sz x y
      exact ((predecPair_stores hpair).trans ((memWrite_spec hwrite).storesAt hplace)).andThen rfl rfl

theorem execAbcd_stores {form : XForm} {x y : RegNum} (h : execAbcd form x y s = .next t) :
    ExecStores (.abcd form x y) s t := by
  cases form with
  | data =>
    cases h
    exact .completes ((bcdAdd_stores _ _ _ s).andThen rfl rfl)
  | predec =>
    refine finish_terminal_stores h ?_ fun h => ?_
    · exact .bind (predecPair_terminal s .byte x y) fun _ => .bind (memWrite_terminal ..) fun _ => .ok _
    · obtain ⟨⟨ops, u⟩, hpair, h⟩ := except_bind_ok h
      obtain ⟨v, hwrite, h⟩ := except_bind_ok h
      cases h
      have hx : (bcdAdd ops.1 ops.2 s.ccr.x u).2.getA x = u.getA x := by
        unfold bcdAdd
        split <;> rfl
      have hplace : MayStore s (.abcd .predec x y) ((bcdAdd ops.1 ops.2 s.ccr.x u).2.getA x) 1 :=
        (hx.trans (predecPair_spec hpair).2) ▸ .abcd x y
      exact (((predecPair_stores hpair).trans (bcdAdd_stores _ _ _ u)).trans
        ((memWrite_spec hwrite).storesAt hplace)).andThen rfl rfl

theorem execBsr_stores {off : BranchOff} (h : execBsr off s = .next t) : ExecStores (.bsr off) s t := by
  refine finish_terminal_stores h (.bind (push_terminal ..) fun _ => .ok _) fun h => ?_
  obtain ⟨u, hpush, h⟩ := except_bind_ok h
  cases h
  exact (push_stores hpush (.bsr off)).andThen rfl rfl

theorem cas2_stores {sz : Size} {p1 p2 : CasPair} (h : finish s (cas2Operands sz p1 p2 s) = .next t)
    (hplace : ∀ p, p = p1 ∨ p = p2 → MayStore s i (s.getR p.rn) sz.bytes) : ExecStores i s t := by
  refine finish_terminal_stores h ?_ fun h => ?_
  · exact .bind (memRead_terminal ..) fun _ => .bind (memRead_terminal ..) fun r => .ite
      (.bind (memWrite_terminal ..) fun _ => .bind (memWrite_terminal ..) fun _ => .ok _)
      (.bind (.ok _) fun _ => .ok _)
  · obtain ⟨⟨d1, s1⟩, hread1, h⟩ := except_bind_ok h
    obtain ⟨⟨d2, s2⟩, hread2, h⟩ := except_bind_ok h
    have h2 : StoresAt (MayStore s i) s s2 := (memRead_spec hread1).storesAt.trans (memRead_spec hread2).storesAt
    dsimp only at h
    split at h
    · obtain ⟨u, hwrite1, h⟩ := except_bind_ok h
      obtain ⟨s3, hwrite2, h⟩ := except_bind_ok h
      cases h
      exact ((h2.trans ((memWrite_spec hwrite1).storesAt (hplace p1 (.inl rfl)))).trans
        ((memWrite_spec hwrite2).storesAt (hplace p2 (.inr rfl)))).andThen rfl rfl
    · cases h
      exact h2.andThen rfl rfl

/-! ## Coprocessors -/

theorem execCpBcc_stores {id : BitVec 3} {isLong : Bool} {cond : BitVec 6}
    (h : execCpBcc id isLong cond s = .next t) : ExecStores (.cpBcc id isLong cond) s t := by
  refine finish_stores h (.inl rfl) fun h => ?_
  obtain ⟨⟨r, u⟩, hask, h⟩ := except_bind_ok h
  obtain ⟨off, -, h⟩ := except_bind_ok h
  obtain ⟨-, rs, -, rfl⟩ := cpAsk_spec hask
  cases h
  exact .of_eq rfl rfl

theorem execCpDBcc_stores {id : BitVec 3} {n : RegNum} (h : execCpDBcc id n s = .next t) :
    ExecStores (.cpDBcc id n) s t := by
  refine finish_stores h (.inl rfl) fun h => ?_
  obtain ⟨⟨r, u⟩, hask, h⟩ := except_bind_ok h
  obtain ⟨_, -, h⟩ := except_bind_ok h
  obtain ⟨off, -, h⟩ := except_bind_ok h
  obtain ⟨-, rs, -, rfl⟩ := cpAsk_spec hask
  dsimp only at h
  split at h <;> cases h <;> exact .of_eq rfl rfl

theorem cpOpaque_stores {j : Instr} {id : BitVec 3} {p : Bool} (h : finish s (cpOpaque s j id p) = .next t)
    (hi : storesNothing i = true) : ExecStores i s t :=
  finish_stores h (.inl hi) fun h => by
    obtain ⟨stop, he⟩ := cpOpaque_error s j id p
    rw [he] at h
    cases h

theorem execCpScc_stores {id : BitVec 3} {field : BitVec 6} (h : execCpScc id field s = .next t) :
    ExecStores (.cpScc id field) s t := by
  refine finish_stores h (.inr ⟨id, field, rfl⟩) fun h => ?_
  obtain ⟨⟨r, s1⟩, hask, h⟩ := except_bind_ok h
  obtain ⟨_, -, h⟩ := except_bind_ok h
  obtain ⟨ea, hparse, h⟩ := except_bind_ok h
  obtain ⟨⟨loc, s2⟩, hdec, h⟩ := except_bind_ok h
  obtain ⟨s3, hput, h⟩ := except_bind_ok h
  cases h
  obtain ⟨-, rs, hr, rfl⟩ := cpAsk_spec hask
  have hparse := (fetchParse_congr (s := s) (t := { s with cpAnswers := rs }) rfl rfl _ _ _ _).symm.trans hparse
  have hask : StoresAt (MayStore s (.cpScc id field)) s { s with cpAnswers := rs } := .of_eq rfl rfl
  have h3 : StoresAt (MayStore s (.cpScc id field)) s2 s3 :=
    eaPut_stores (sz := .byte) hdec (fun a ha => .cpScc id hr hparse ha) hput
  exact ((hask.trans (eaDecode_stores hdec)).trans h3).andThen rfl rfl

/-! ## Every instruction -/

/-- ALL an instruction can do to memory when it leads on, by the family of each. -/
theorem exec_stores (h : exec i s = .next t) : ExecStores i s t := by
  cases i with
  | addToReg sz r ea | andToReg sz r ea | cmp sz r ea | cmpa isLong a ea | cmpi v ea =>
    exact withOperand_stores h rfl fun _ _ => .of_eq rfl rfl
  | adda isLong a ea => exact withOperand_stores h rfl fun _ u => .of_eq (u.setA_config a _) (u.setA_mem a _)
  | addToMem sz r ea | andToMem sz r ea | aslMem ea | asrMem ea => exact modifyOperand_stores h rfl rfl rfl rfl
  | addi v ea | andi v ea => exact modifyOperand_stores h rfl rfl rfl (one_add_immLen v 0)
  | addq sz q ea => exact execAddq_stores h
  | addx sz form x y => exact execAddx_stores h
  | clr sz ea => exact execClr_stores h
  | cmpm sz x y => exact execCmpm_stores h
  | cmp2 sz rn ea => exact execCmp2_stores h
  | aslReg sz count r | asrReg sz count r | bcc c off | bra off | andiToCcr v =>
    cases h
    exact .completes (.of_eq rfl rfl)
  | btstReg r ea | btstImm n ea => exact testBit_stores h rfl
  | bchgReg r ea | bchgImm n ea | bclrReg r ea | bclrImm n ea | bsetReg r ea | bsetImm n ea =>
    exact changeBit_stores h rfl rfl rfl rfl
  | bftst p ea | bfextu p dn ea | bfexts p dn ea => exact bfExtract_stores h rfl fun _ _ => .of_eq rfl rfl
  | bfffo p dn ea =>
    refine bfExtract_stores h rfl fun f u => ?_
    unfold bfffoWrite
    split <;> exact .of_eq rfl rfl
  | bfchg p ea | bfclr p ea | bfset p ea | bfins p dn ea => exact bfChange_stores h rfl
  | abcd form x y => exact execAbcd_stores h
  | bsr off => exact execBsr_stores h
  | andiToSr v =>
    refine finish_stores h (.inl rfl) fun h => ?_
    obtain ⟨_, -, h⟩ := except_bind_ok h
    cases h
    exact .of_eq rfl rfl
  | bkpt v => exact .raises _ s (.inl rfl) (.refl s) h
  | chkW r ea | chkL r ea => exact chkOperand_stores h rfl
  | chk2 sz rn ea => exact execChk2_stores h
  | cas sz du dc ea => exact execCas_stores h
  | cas2W p1 p2 => exact cas2_stores h (.cas2W p1 p2)
  | cas2L p1 p2 => exact cas2_stores h (.cas2L p1 p2)
  | cpBcc id isLong cond => exact execCpBcc_stores h
  | cpDBcc id r => exact execCpDBcc_stores h
  | cpGen id field | cpRestore id field | cpSave id field => exact cpOpaque_stores h rfl
  | cpScc id field => exact execCpScc_stores h

end

end Sys2Proof.Machine
end

section
/-! PROOFS. What a step and an instruction leave of memory: the program always, and every byte outside the places the
instruction may store to. -/

namespace Sys2Proof.Machine

/-! ## The program -/

section
variable {s t : State}

theorem pushFour_stores {sr : BitVec 16} {pc : Long} {format : BitVec 4} {vector : Nat}
    (h : pushFour s sr pc format vector = .ok t) : StoresAt anyPlace s t := by
  obtain ⟨u, v, h1, h2, h3⟩ := pushFour_spec h
  exact ((push_stores h1 trivial).trans (push_stores h2 trivial)).trans (push_stores h3 trivial)

theorem pushFrame_stores {kind : FrameKind} {sr : BitVec 16} {pc instr : Long} {vector : Nat}
    (h : pushFrame s kind sr pc instr vector = .ok t) : StoresAt anyPlace s t := by
  cases kind with
  | threeWord =>
    obtain ⟨u, h1, h2⟩ := except_bind_ok h
    exact (push_stores h1 trivial).trans (push_stores h2 trivial)
  | fourWord => exact pushFour_stores h
  | sixWord =>
    obtain ⟨u, h1, h2⟩ := except_bind_ok h
    exact (push_stores h1 trivial).trans (pushFour_stores h2)

/-- Taking an exception stores by pushes alone, so nothing into the program. -/
theorem takeException_stores {e : Exc} (h : takeException e s = .next t) : StoresAt anyPlace s t := by
  obtain ⟨u, v, w, hpush, hthrow, handler, hread, rfl⟩ := enterHandler_spec (takeException_next h).2.2
  have hentry : StoresAt anyPlace s (s.setSys (sysForEntry e s.sys)) := .of_eq rfl rfl
  have hv : StoresAt anyPlace u v := by
    split at hthrow
    · have hclear : StoresAt anyPlace u (u.setSys (sysWithoutM u.sys)) := .of_eq rfl rfl
      exact hclear.trans (pushFour_stores hthrow)
    · cases hthrow
      exact .refl u
  exact (((hentry.trans (pushFrame_stores hpush)).trans hv).trans (memRead_spec hread).storesAt).andThen rfl rfl

theorem exec_stores_any {i : Instr} (h : exec i s = .next t) : StoresAt anyPlace s t := by
  rcases exec_stores h with hs | ⟨e, u, -, hs, he⟩
  · exact hs.any
  · exact hs.any.trans (takeException_stores he)

theorem runInstruction_stores (h : runInstruction s = .next t) : StoresAt anyPlace s t := by
  unfold runInstruction at h
  split at h
  case h_1 =>
    rcases finish_next h with h | ⟨e, -, he⟩
    · cases h
    · exact takeException_stores he
  case h_2 i _ =>
    unfold traceAfter at h
    split at h
    case h_1 u hu =>
      split at h
      · exact (exec_stores_any hu).trans (takeException_stores h)
      · cases h
        exact exec_stores_any hu
    case h_2 => cases h
    case h_3 => cases h

theorem step_stores (h : step s = .next t) : StoresAt anyPlace s t := by
  unfold step cycle at h
  split at h
  · cases h
    exact .refl s
  · obtain ⟨q, l, hq⟩ := sampleIrq_state s
    have hs : StoresAt anyPlace s (sampleIrq s).2 := hq ▸ .of_eq rfl rfl
    split at h
    case h_1 e u hu =>
      rw [hu] at hs
      exact hs.trans (takeException_stores h)
    case h_2 u hu =>
      rw [hu] at hs
      exact hs.trans (runInstruction_stores h)

end

/-- Settles O20: whatever places a step stores to, none of their bytes is the program's. -/
theorem textIsImmutable : Obligations.TextIsImmutable := fun _ _ a h ha => (step_stores h).kept a (.inl ha)

/-! ## The places -/

section
variable {i : Instr} {s t : State} {ea : Ea}

theorem storesNothing_of_storesOperand (hi : storesOperand i = true) (hea : instrEa i = some ea) :
    storesNothing i = !eaIsMem ea := by
  cases i <;> simp_all [storesOperand, instrEa, storesNothing]

theorem storesNothing_of_storesField {p : BfSpec} (hi : storesField i = some (p, ea)) :
    storesNothing i = !eaIsMem ea := by
  cases i <;> cases hi <;> rfl

/-- No form stores both a field and an operand of its size. -/
theorem storesField_eq_none (hi : storesOperand i = true) : storesField i = none := by
  cases i <;> simp_all [storesOperand, storesField]

/-- An operand in mode 000 is a data register. -/
theorem takeEa_dreg {cpu : Cpu} {sz : Size} {field : BitVec 6} {ws vs : List Word} (hm : eaModeOf field = some .dreg)
    (h : takeEa cpu sz field ws = .ok (ea, vs)) : ea = .dreg (field.extractLsb' 0 3) := by
  unfold takeEa at h
  simp only [hm, Except.ok.injEq, Prod.mk.injEq] at h
  exact h.1.symm

/-- The forms the model's table says store nothing have no place to store to. -/
theorem not_mayStore (hi : storesNothing i = true) (a : Long) (n : Nat) : ¬ MayStore s i a n := by
  intro h
  cases h with
  | operand hop hea ha =>
    rw [storesNothing_of_storesOperand hop hea, (eaAddr_spec ha).2] at hi
    cases hi
  | field hf hloc =>
    rcases (bfLocate_spec hloc).2 with ⟨_, -, hplace⟩ | ⟨base, ha, -⟩
    · cases hplace
    · rw [storesNothing_of_storesField hf, (eaAddr_spec ha).2] at hi
      cases hi
  | cpScc id hr hparse ha =>
    obtain ⟨us, vs, htake⟩ := fetchParse_ok hparse
    rw [takeEa_dreg (beq_iff_eq.mp hi) htake] at ha
    cases ha
  | addx | abcd | bsr | cas2W | cas2L => cases hi

/-- Under `TRAP_MODEL = fault` an instruction that leads on stored at most at its places. -/
theorem exec_stores_fault (hf : s.config.trapModel = .fault) (h : exec i s = .next t) :
    StoresAt (MayStore s i) s t := by
  rcases exec_stores h with hs | ⟨e, u, -, hs, he⟩
  · exact hs
  · have hm := (takeException_next he).1
    rw [hs.config, hf] at hm
    cases hm

/-- Whatever `TRAP_MODEL` is, a form that has a place to store to and asks no coprocessor leads on only by completing,
and keeps every byte outside its places. -/
theorem exec_keeps {a b : Long} {n : Nat} (hplace : MayStore s i a n) (hcp : ∀ id field, i ≠ .cpScc id field)
    (h : exec i s = .next t) (hb : ∀ a n, MayStore s i a n → Outside s a n b) : t.peek b = s.peek b := by
  rcases exec_stores h with hs | ⟨e, u, hi | ⟨id, field, hi⟩, -, -⟩
  · exact hs.kept b (.inr hb)
  · exact absurd hplace (not_mayStore hi a n)
  · exact absurd hi (hcp id field)

end

/-! ## The statements -/

/-- Settles O27: under `TRAP_MODEL = fault` an instruction stores at most at its places, and these forms have none. -/
theorem memoryFrameNoStore : Obligations.MemoryFrameNoStore := fun _ _ _ b hf hi h =>
  (exec_stores_fault hf h).peek_eq (not_mayStore hi) b

/-- Settles O28: such a form has one place, its operand. -/
theorem memoryFrameOperand : Obligations.MemoryFrameOperand := by
  intro i ea s t u a b hi hea ha h hb
  have hcp (id : BitVec 3) (field : BitVec 6) : i ≠ .cpScc id field := by rintro rfl; cases hi
  refine exec_keeps (.operand hi hea ha) hcp h fun p n hp => ?_
  cases hp with
  | operand _ hea' ha' =>
    cases hea.symm.trans hea'
    cases ha.symm.trans ha'
    exact hb
  | field hf => cases (storesField_eq_none hi).symm.trans hf
  | addx | abcd | bsr | cas2W | cas2L | cpScc => cases hi

/-- Settles O29: each of these forms has the places the statement names. -/
theorem memoryFrameRegisterAddressed : Obligations.MemoryFrameRegisterAddressed := by
  intro s t b
  refine ⟨fun sz x y h hb => ?_, fun x y h hb => ?_, fun off h hb => ?_, fun p q h hp hq => ?_, fun p q h hp hq => ?_,
    fun id field r rs ea a u hf hr hparse ha h hb => ?_⟩
  · refine exec_keeps (.addx sz x y) nofun h fun a n ha => ?_
    cases ha with
    | operand hi | field hi => cases hi
    | addx => exact hb
  · refine exec_keeps (.abcd x y) nofun h fun a n ha => ?_
    cases ha with
    | operand hi | field hi => cases hi
    | abcd => exact hb
  · refine exec_keeps (.bsr off) nofun h fun a n ha => ?_
    cases ha with
    | operand hi | field hi => cases hi
    | bsr => exact hb
  · refine exec_keeps (.cas2W p q p (.inl rfl)) nofun h fun a n ha => ?_
    cases ha with
    | operand hi | field hi => cases hi
    | cas2W _ _ _ hor => rcases hor with rfl | rfl <;> assumption
  · refine exec_keeps (.cas2L p q p (.inl rfl)) nofun h fun a n ha => ?_
    cases ha with
    | operand hi | field hi => cases hi
    | cas2L _ _ _ hor => rcases hor with rfl | rfl <;> assumption
  · refine (exec_stores_fault hf h).kept b (.inr fun p n hp => ?_)
    cases hp with
    | operand hi | field hi => cases hi
    | cpScc _ hr' hparse' ha' =>
      cases hr.symm.trans hr'
      cases hparse.symm.trans hparse'
      cases ha.symm.trans ha'
      exact hb

/-- A field has one to 32 bits (R260). -/
theorem bfWidth_bounds (s : State) (p : BfSpec) : 1 ≤ bfWidth s p ∧ bfWidth s p ≤ 32 := by
  have hraw : bfWidthRaw s p < 32 := by
    unfold bfWidthRaw
    split
    · exact BitVec.isLt _
    · exact Nat.mod_lt _ (by decide)
  unfold bfWidth
  split <;> omega

/-- Settles O30: such a form has one place, the bytes its field is located in, and a field of 1 to 32 bits that begins
in its first byte lies in one to five. -/
theorem memoryFrameBitField : Obligations.MemoryFrameBitField := by
  intro i p ea s t u ba b bo nb hi hloc h
  have hbytes : 1 ≤ nb ∧ nb ≤ 5 := by
    obtain ⟨hlo, hhi⟩ := bfWidth_bounds s p
    rcases (bfLocate_spec hloc).2 with ⟨_, -, hplace⟩ | ⟨base, -, hplace⟩ <;> cases hplace
    omega
  refine ⟨hbytes.1, hbytes.2, fun hb => ?_⟩
  have hcp (id : BitVec 3) (field : BitVec 6) : i ≠ .cpScc id field := by rintro rfl; cases hi
  refine exec_keeps (.field hi hloc) hcp h fun a n ha => ?_
  cases ha with
  | operand hop => cases (storesField_eq_none hop).symm.trans hi
  | field hi' hloc' =>
    cases hi.symm.trans hi'
    cases hloc.symm.trans hloc'
    exact hb
  | addx | abcd | bsr | cas2W | cas2L | cpScc => cases hi

end Sys2Proof.Machine
end

section
/-! SUPPORT and PROOFS. Data accesses to plain memory: what a read answers and what a write leaves to be read, aligned
or not; and where an access stops. -/

namespace Sys2Proof.Machine

/-! ## Addresses -/

theorem add_succ_ofNat (a : Long) (k : Nat) : a + 1 + BitVec.ofNat 32 k = a + BitVec.ofNat 32 (k + 1) := by
  rw [BitVec.add_assoc, BitVec.ofNat_add, BitVec.add_comm (BitVec.ofNat 32 k)]
  rfl

/-- What holds of the `n + 1` bytes from `a` holds of the byte at `a` and of the `n` bytes after it. -/
theorem forall_bytes_succ {P : Long → Nat → Prop} {a : Long} {n : Nat} :
    (∀ k, k < n + 1 → P (a + BitVec.ofNat 32 k) k) ↔
      P a 0 ∧ ∀ k, k < n → P (a + 1 + BitVec.ofNat 32 k) (k + 1) := by
  constructor
  · intro h
    refine ⟨by simpa using h 0 (by omega), fun k hk => ?_⟩
    rw [add_succ_ofNat]
    exact h (k + 1) (by omega)
  · rintro ⟨h0, hs⟩ k hk
    cases k with
    | zero => simpa using h0
    | succ k =>
      rw [← add_succ_ofNat]
      exact hs k (by omega)

/-- Bytes less than four apart are different bytes of memory: it has at least two address bits. -/
theorem State.physical_add_ne {s : State} (hbits : 2 ≤ s.config.addrBits) {a : Long} {k : Nat} (hk : 0 < k)
    (hk4 : k < 4) (hwrap : a.toNat + k < 2 ^ 32) : s.physical (a + BitVec.ofNat 32 k) ≠ s.physical a := by
  intro h
  have hsum : (a + BitVec.ofNat 32 k).toNat = a.toNat + k := by
    rw [BitVec.toNat_add, BitVec.toNat_ofNat, Nat.add_mod_mod, Nat.mod_eq_of_lt hwrap]
  have hmod : a.toNat + k ≡ a.toNat + 0 [MOD 2 ^ s.config.addrBits] := by
    unfold State.physical at h
    rwa [hsum] at h
  have hdvd : 2 ^ s.config.addrBits ∣ k := (Nat.modEq_zero_iff_dvd).mp (Nat.ModEq.add_left_cancel' _ hmod)
  have hpow : 2 ^ 2 ≤ 2 ^ s.config.addrBits := Nat.pow_le_pow_right (by decide) hbits
  exact absurd (Nat.le_of_dvd hk hdvd) (by omega)

/-! ## The tests before an access -/

section
variable {s : State} {n : Nat} {a : Long}

theorem checkPresent_eq_ok (write : Bool) (h : ∀ k, k < n → s.kindAt (a + BitVec.ofNat 32 k) ≠ .absent) :
    checkPresent s write n a = .ok () := by
  induction n generalizing a with
  | zero => rfl
  | succ n ih =>
    rw [forall_bytes_succ (P := fun b _ => s.kindAt b ≠ .absent)] at h
    unfold checkPresent
    split
    case h_1 habs => exact absurd habs h.1
    all_goals exact ih h.2

theorem checkNotText_eq_ok (h : ∀ k, k < n → s.inText (a + BitVec.ofNat 32 k) = false) :
    checkNotText s n a = .ok () := by
  induction n generalizing a with
  | zero => rfl
  | succ n ih =>
    rw [forall_bytes_succ (P := fun b _ => s.inText b = false)] at h
    simp only [checkNotText, h.1, Bool.false_eq_true, if_false, ih h.2]

/-- The first byte of the program is the one refused. -/
theorem checkNotText_eq_error (h : ∃ k, k < n ∧ s.inText (a + BitVec.ofNat 32 k) = true) :
    ∃ b, checkNotText s n a = .error (.refuse (.storeToText b)) := by
  by_contra hne
  push Not at hne
  obtain ⟨k, hk, htext⟩ := h
  induction n generalizing a k with
  | zero => omega
  | succ n ih =>
    by_cases ha : s.inText a = true
    · exact hne a (by simp only [checkNotText, ha, if_true])
    · simp only [checkNotText, ha] at hne
      cases k with
      | zero => exact ha (by simpa using htext)
      | succ k => exact ih hne k (by omega) (by rwa [add_succ_ofNat])

theorem touchesDevice_eq_false (h : ∀ k, k < n → s.kindAt (a + BitVec.ofNat 32 k) = .ram) :
    touchesDevice s n a = false := by
  induction n generalizing a with
  | zero => rfl
  | succ n ih =>
    rw [forall_bytes_succ (P := fun b _ => s.kindAt b = .ram)] at h
    rw [touchesDevice, h.1, ih h.2]
    rfl

/-- An access to plain memory is not recorded. -/
theorem State.logAccess_ram (h : ∀ k, k < n → s.kindAt (a + BitVec.ofNat 32 k) = .ram) (write : Bool) (v : Long) :
    s.logAccess write n a v = s := by
  simp [State.logAccess, touchesDevice_eq_false h]

theorem not_wraps {sz : Size} (h : Accessible s sz a) : wraps sz a = false :=
  decide_eq_false (by have := h.2; omega)

end

/-! ## Reads -/

/-- The big-endian value of `n` bytes, after the value `acc` (R64). -/
def bigEndian : (n : Nat) → (Nat → Byte) → Long → Long
  | 0, _, acc => acc
  | n + 1, f, acc => bigEndian n (fun k => f (k + 1)) (snocByte acc (f 0))

/-- Bit by bit, the last byte is the least significant, and what came before stands above. -/
theorem getLsbD_bigEndian (n : Nat) (f : Nat → Byte) (acc : Long) (i : Nat) (hi : i < 32) :
    (bigEndian n f acc).getLsbD i =
      if i < 8 * n then (f (n - 1 - i / 8)).getLsbD (i % 8) else acc.getLsbD (i - 8 * n) := by
  induction n generalizing f acc with
  | zero => rfl
  | succ n ih =>
    rw [bigEndian, ih]
    by_cases hlow : i < 8 * n
    · rw [if_pos hlow, if_pos (by omega), show n - 1 - i / 8 + 1 = n + 1 - 1 - i / 8 by omega]
    · rw [if_neg hlow, snocByte, BitVec.getLsbD_append]
      by_cases hmid : i < 8 * (n + 1)
      · rw [if_pos (by omega), if_pos hmid, show n + 1 - 1 - i / 8 = 0 by omega, show i % 8 = i - 8 * n by omega]
      · rw [if_neg (by omega), if_neg hmid, BitVec.getLsbD_extractLsb', decide_eq_true (by omega), Bool.true_and,
          show 0 + (i - 8 * n - 8) = i - 8 * (n + 1) by omega]

/-- The `n` bytes from `a` are plain memory that holds these values. -/
def Holds (s : State) (n : Nat) (a : Long) (f : Nat → Byte) : Prop :=
  ∀ k, k < n → s.kindAt (a + BitVec.ofNat 32 k) = .ram ∧ s.peek (a + BitVec.ofNat 32 k) = some (f k)

section
variable {s : State} {n : Nat} {a : Long} {f : Nat → Byte}

theorem holds_succ : Holds s (n + 1) a f ↔
    (s.kindAt a = .ram ∧ s.peek a = some (f 0)) ∧ Holds s n (a + 1) fun k => f (k + 1) :=
  forall_bytes_succ (P := fun b k => s.kindAt b = .ram ∧ s.peek b = some (f k))

theorem Holds.mono {m : Nat} (h : Holds s n a f) (hm : m ≤ n) : Holds s m a f := fun k hk => h k (by omega)

theorem loadBytes_of_holds (h : Holds s n a f) (acc : Long) :
    loadBytes n a acc s = .ok (bigEndian n f acc, s) := by
  induction n generalizing a f acc with
  | zero => rfl
  | succ n ih =>
    obtain ⟨⟨hram, hpeek⟩, hrest⟩ := holds_succ.mp h
    have hbyte : loadByte s a = .ok (f 0, s) := by simp [loadByte, hram, hpeek]
    simp only [loadBytes, hbyte, bind, Except.bind, bigEndian]
    exact ih hrest _

theorem readAccess_of_holds (h : Holds s n a f) : readAccess n a s = .ok (bigEndian n f 0, s) := by
  have hram (k : Nat) (hk : k < n) : s.kindAt (a + BitVec.ofNat 32 k) = .ram := (h k hk).1
  have hpresent : checkPresent s false n a = .ok () :=
    checkPresent_eq_ok false fun k hk => by rw [hram k hk]; exact nofun
  simp only [readAccess, hpresent, loadBytes_of_holds h, bind, Except.bind, pure, Except.pure,
    State.logAccess_ram hram]

theorem readEach_of_holds (h : Holds s n a f) (acc : Long) : readEach n a acc s = .ok (bigEndian n f acc, s) := by
  induction n generalizing a f acc with
  | zero => rfl
  | succ n ih =>
    have hlow : (snocByte 0 (f 0)).extractLsb' 0 8 = f 0 := by
      rw [snocByte, BitVec.extractLsb'_append_eq_of_add_le (by decide), BitVec.extractLsb'_eq_self]
    simp only [readEach, readAccess_of_holds (h.mono (m := 1) (by omega)), bind, Except.bind, bigEndian, hlow]
    exact ih (holds_succ.mp h).2 _

/-- A read of plain memory answers the big-endian value of its bytes and changes nothing (R64, R65, R67). -/
theorem memRead_of_holds {sz : Size} (hacc : Accessible s sz a) (h : Holds s sz.bytes a f) :
    memRead s sz a = .ok (bigEndian sz.bytes f 0, s) := by
  simp only [memRead, hacc.1, not_wraps hacc, Bool.false_eq_true, if_false, readEach_of_holds h,
    readAccess_of_holds h, ite_self]

end

/-- An address that can be accessed at the size Long can be accessed at every size. -/
theorem Accessible.of_long {s : State} {a : Long} (h : Accessible s .long a) (sz : Size) : Accessible s sz a := by
  obtain ⟨hmis, hwrap⟩ := h
  refine ⟨?_, le_trans (Nat.add_le_add_left (by cases sz <;> decide) _) hwrap⟩
  cases sz with
  | byte => rfl
  | word | long => exact hmis

/-- Settles O6: the value of a read of plain memory at each size, written out. -/
theorem readsAreBigEndian : Obligations.ReadsAreBigEndian := by
  intro s a b0 b1 b2 b3 hram h0 h1 h2 h3 hacc
  have hlong : Holds s 4 a fun k => [b0, b1, b2, b3].getD k 0 := by
    intro k hk
    refine ⟨hram k hk, ?_⟩
    interval_cases k
    · simpa using h0
    · exact h1
    · exact h2
    · exact h3
  have hread (sz : Size) (v : Long) (hsz : sz.bytes ≤ 4)
      (hv : ∀ i, i < 32 → v.getLsbD i = (bigEndian sz.bytes (fun k => [b0, b1, b2, b3].getD k 0) 0).getLsbD i) :
      memRead s sz a = .ok (v, s) := by
    rw [memRead_of_holds (hacc.of_long sz) (hlong.mono hsz), BitVec.eq_of_getLsbD_eq hv]
  refine ⟨hread .long _ (by decide) ?_, hread .word _ (by decide) ?_, hread .byte _ (by decide) ?_⟩ <;>
  · intro i hi
    rw [getLsbD_bigEndian _ _ _ i hi]
    simp only [Size.bytes, BitVec.getLsbD_append]
    interval_cases i <;> rfl

/-! ## Writes -/

section
variable {s : State} {n : Nat} {a : Long}

/-- The bytes written count, not the value's other bytes. -/
theorem storeBytes_congr {v w : Long} (h : ∀ k, k < n → byteAt v k = byteAt w k) (a : Long) (s : State) :
    storeBytes n a v s = storeBytes n a w s := by
  induction n generalizing a s with
  | zero => rfl
  | succ n ih =>
    simp only [storeBytes, h n (by omega)]
    exact ih (fun k hk => h k (by omega)) _ _

theorem PlainRam.succ (h : PlainRam s a (n + 1)) :
    (s.inText a = false ∧ s.kindAt a = .ram) ∧ PlainRam s (a + 1) n :=
  (forall_bytes_succ (P := fun b _ => s.inText b = false ∧ s.kindAt b = .ram)).mp h

theorem plainRam_congr {t : State} (hc : t.config = s.config) : PlainRam t a n ↔ PlainRam s a n := by
  simp only [PlainRam, State.inText_congr hc, State.kindAt_congr hc]

theorem storeByte_config (s : State) (a : Long) (b : Byte) : (storeByte s a b).config = s.config := by
  unfold storeByte
  split <;> rfl

theorem storeBytes_config (n : Nat) (a v : Long) (s : State) : (storeBytes n a v s).config = s.config := by
  induction n generalizing a s with
  | zero => rfl
  | succ n ih => exact (ih _ _).trans (storeByte_config s a _)

theorem writeAccess_ok (hpresent : ∀ k, k < n → s.kindAt (a + BitVec.ofNat 32 k) ≠ .absent)
    (htext : ∀ k, k < n → s.inText (a + BitVec.ofNat 32 k) = false) (v : Long) :
    writeAccess n a v s = .ok ((storeBytes n a v s).logAccess true n a v) := by
  simp only [writeAccess, checkPresent_eq_ok true hpresent, checkNotText_eq_ok htext, bind, Except.bind, pure,
    Except.pure]

theorem writeAccess_plain (h : PlainRam s a n) (v : Long) : writeAccess n a v s = .ok (storeBytes n a v s) := by
  have hram (k : Nat) (hk : k < n) : (storeBytes n a v s).kindAt (a + BitVec.ofNat 32 k) = .ram :=
    (State.kindAt_congr (storeBytes_config n a v s) _).trans (h k hk).2
  rw [writeAccess_ok (fun k hk => by rw [(h k hk).2]; exact nofun) (fun k hk => (h k hk).1) v, State.logAccess_ram hram]

theorem byteAt_ofByte (b : Byte) : byteAt (ofByte b) 0 = b := by
  rw [byteAt, ofByte, ← BitVec.setWidth_eq_extractLsb' (by decide), BitVec.setWidth_setWidth_of_le _ (by decide),
    BitVec.setWidth_eq]

theorem writeEach_plain (h : PlainRam s a n) (v : Long) : writeEach n a v s = .ok (storeBytes n a v s) := by
  induction n generalizing a s with
  | zero => rfl
  | succ n ih =>
    have h1 : PlainRam s a 1 := fun k hk => h k (by omega)
    simp only [writeEach, writeAccess_plain h1, bind, Except.bind, storeBytes, byteAt_ofByte]
    exact ih ((plainRam_congr (storeByte_config s a _)).mpr h.succ.2)

theorem byteAt_trunc {sz : Size} {k : Nat} (hk : k < sz.bytes) (v : Long) : byteAt (trunc sz v) k = byteAt v k := by
  apply BitVec.eq_of_getLsbD_eq
  intro j hj
  have hbits : 8 * k + j < sz.bits := by
    cases sz <;> simp only [Size.bytes, Size.bits] at * <;> omega
  simp [byteAt, getLsbD_trunc, hbits]

/-- A write to plain memory completes and stores the value's bytes, the most significant first (R64, R67). -/
theorem memWrite_plain {sz : Size} (hacc : Accessible s sz a) (h : PlainRam s a sz.bytes) (v : Long) :
    memWrite s sz a v = .ok (storeBytes sz.bytes a v s) := by
  simp only [memWrite, hacc.1, not_wraps hacc, Bool.false_eq_true, if_false, writeEach_plain h,
    writeAccess_plain h, storeBytes_congr (fun k hk => byteAt_trunc hk v), ite_self]

/-- The bytes stored to plain memory are there afterwards. -/
theorem storeBytes_holds (hbits : 2 ≤ s.config.addrBits) (h : PlainRam s a n) (hn : n ≤ 4)
    (hwrap : a.toNat + n ≤ 2 ^ 32) (v : Long) : Holds (storeBytes n a v s) n a fun k => byteAt v (n - 1 - k) := by
  induction n generalizing a s with
  | zero => intro k hk; omega
  | succ n ih =>
    obtain ⟨⟨-, hram⟩, hrest⟩ := h.succ
    have hstep : storeByte s a (byteAt v n) = s.poke a (byteAt v n) := by simp [storeByte, hram]
    have hplain : PlainRam (s.poke a (byteAt v n)) (a + 1) n := (plainRam_congr rfl).mpr hrest
    have hnext : (a + 1).toNat + n ≤ 2 ^ 32 := by
      have hle : (a + 1).toNat ≤ a.toNat + 1 := Nat.mod_le _ _
      omega
    rw [storeBytes, hstep]
    have hwrote : WroteAt (s.poke a (byteAt v n)) (storeBytes n (a + 1) v (s.poke a (byteAt v n))) (a + 1) n :=
      storeBytes_wrote n _ _ v (checkNotText_eq_ok fun k hk => (hplain k hk).1)
    obtain ⟨_, _, -, houtside, -⟩ := hwrote
    refine holds_succ.mpr ⟨⟨?_, ?_⟩, fun k hk => ?_⟩
    · exact (State.kindAt_congr ((storeBytes_config n _ v _).trans rfl) a).trans hram
    · have hapart : Outside (s.poke a (byteAt v n)) (a + 1) n a := fun k hk => by
        rw [add_succ_ofNat]
        exact State.physical_add_ne hbits (by omega) (by omega) (by omega)
      rw [houtside a hapart]
      exact s.peek_poke_same a _
    · have hindex : n + 1 - 1 - (k + 1) = n - 1 - k := by omega
      simpa only [hindex] using ih (s := s.poke a (byteAt v n)) hbits hplain (by omega) hnext k hk

end

/-- The bytes of a value, the most significant first, read as the value at the size. -/
theorem bigEndian_byteAt (sz : Size) (v : Long) :
    bigEndian sz.bytes (fun k => byteAt v (sz.bytes - 1 - k)) 0 = trunc sz v := by
  apply BitVec.eq_of_getLsbD_eq
  intro i hi
  have hbits : 8 * sz.bytes = sz.bits := by cases sz <;> rfl
  rw [getLsbD_bigEndian _ _ _ i hi, getLsbD_trunc, hbits]
  by_cases hlow : i < sz.bits
  · have hindex : 8 * (sz.bytes - 1 - (sz.bytes - 1 - i / 8)) + i % 8 = i := by omega
    simp only [if_pos hlow, decide_eq_true hlow, Bool.true_and, byteAt, BitVec.getLsbD_extractLsb', hindex,
      decide_eq_true (Nat.mod_lt i (by decide : 8 > 0))]
  · simp [hlow]

/-- Settles O7: the write stores the value's bytes and changes no other, and the read puts them together again. -/
theorem writeThenReadBack : Obligations.WriteThenReadBack := by
  intro s sz a v hbits hplain hacc
  have hwrite := memWrite_plain hacc hplain v
  have hconfig : (storeBytes sz.bytes a v s).config = s.config := storeBytes_config _ a v s
  have hacc' : Accessible (storeBytes sz.bytes a v s) sz a := by
    simpa only [Accessible, State.faultsMisaligned, hconfig] using hacc
  obtain ⟨_, _, -, houtside, -⟩ := memWrite_spec hwrite
  refine ⟨_, hwrite, ?_, houtside⟩
  have hholds := storeBytes_holds hbits hplain (by cases sz <;> decide) hacc.2 v
  rw [memRead_of_holds hacc' hholds, bigEndian_byteAt]

/-! ## Stores into the program -/

section
variable {s : State} {n : Nat} {a : Long}

theorem writeAccess_refused (hpresent : ∀ k, k < n → s.kindAt (a + BitVec.ofNat 32 k) ≠ .absent)
    (htext : ∃ k, k < n ∧ s.inText (a + BitVec.ofNat 32 k) = true) (v : Long) :
    ∃ b, writeAccess n a v s = .error (.refuse (.storeToText b)) := by
  obtain ⟨b, hb⟩ := checkNotText_eq_error htext
  exact ⟨b, by simp only [writeAccess, checkPresent_eq_ok true hpresent, hb, bind, Except.bind]⟩

/-- The bytes before the first one of the program are written, and that one is refused. -/
theorem writeEach_refused (hpresent : ∀ k, k < n → s.kindAt (a + BitVec.ofNat 32 k) ≠ .absent)
    (htext : ∃ k, k < n ∧ s.inText (a + BitVec.ofNat 32 k) = true) (v : Long) :
    ∃ b, writeEach n a v s = .error (.refuse (.storeToText b)) := by
  induction n generalizing a s with
  | zero => obtain ⟨k, hk, -⟩ := htext; omega
  | succ n ih =>
    have hfirst : ∀ k, k < 1 → s.kindAt (a + BitVec.ofNat 32 k) ≠ .absent := fun k hk => hpresent k (by omega)
    by_cases ha : s.inText a = true
    · obtain ⟨b, hb⟩ := writeAccess_refused hfirst ⟨0, by omega, by simpa using ha⟩ (ofByte (byteAt v n))
      exact ⟨b, by simp only [writeEach, hb, bind, Except.bind]⟩
    · have hwrite := writeAccess_ok hfirst (fun k hk => by
        rw [show k = 0 by omega]
        simpa using ha) (ofByte (byteAt v n))
      have hconfig := (writeAccess_wrote hwrite).config
      simp only [writeEach, hwrite, bind, Except.bind]
      refine ih (fun k hk => ?_) ?_
      · rw [State.kindAt_congr hconfig, add_succ_ofNat]
        exact hpresent (k + 1) (by omega)
      · obtain ⟨k, hk, hkt⟩ := htext
        cases k with
        | zero => exact absurd (by simpa using hkt) ha
        | succ k => exact ⟨k, by omega, by rwa [State.inText_congr hconfig, add_succ_ofNat]⟩

end

/-- Settles O9: an aligned write tests all its bytes first; a misaligned one reaches the program's byte one access at a
time. -/
theorem storeIntoTextRefused : Obligations.StoreIntoTextRefused := by
  intro s sz a v hacc hpresent htext
  simp only [memWrite, hacc.1, not_wraps hacc, Bool.false_eq_true, if_false]
  split
  · exact writeEach_refused hpresent htext v
  · exact writeAccess_refused hpresent htext _

/-! ## Where an access stops -/

theorem fetch16_odd {s : State} {a : Long} (h : isOdd a = true) :
    fetch16 s a = .error (.raise (.addressError a false)) := by
  simp [fetch16, h]

theorem fetch16_outside {s : State} {a : Long} (hodd : isOdd a = false)
    (h : (s.inText a && s.inText (a + 1)) = false) : fetch16 s a = .error (.refuse (.fetchOutsideText a)) := by
  rw [fetch16, h, hodd]
  rfl

theorem fetch16_unwritten {s : State} {a : Long} (hodd : isOdd a = false)
    (htext : (s.inText a && s.inText (a + 1)) = true) (h : s.peek a = none) :
    fetch16 s a = .error (.unwritten a) := by
  rw [fetch16, htext, hodd, fetchByte, h]
  rfl

/-- A Byte access is a single access of one byte, wherever it is. -/
theorem memRead_byte (s : State) (a : Long) : memRead s .byte a = readAccess 1 a s := by
  have hwrap : wraps .byte a = false := decide_eq_false (by simp only [Size.bytes]; have := a.isLt; omega)
  simp [memRead, misaligned, hwrap, Size.bytes]

theorem memRead_byte_unwritten {s : State} {a : Long} (hram : s.kindAt a = .ram) (h : s.peek a = none) :
    memRead s .byte a = .error (.unwritten a) := by
  simp [memRead_byte, readAccess, checkPresent, hram, loadBytes, loadByte, h, bind, Except.bind]

theorem memRead_byte_absent {s : State} {a : Long} (h : s.kindAt a = .absent) :
    memRead s .byte a = .error (.raise (.busError a false)) := by
  simp [memRead_byte, readAccess, checkPresent, h, bind, Except.bind]

/-- A Word or Long at an odd address below MC68020 (R67). -/
theorem access_misaligned {s : State} {sz : Size} {a : Long} (hodd : isOdd a = true)
    (hmis : s.config.misalign = .byCpu) (hcpu : s.config.cpu.is020 = false) (hsz : sz ≠ .byte) (v : Long) :
    memRead s sz a = .error (.raise (.addressError a false)) ∧
      memWrite s sz a v = .error (.raise (.addressError a true)) := by
  have hfault : (misaligned sz a && s.faultsMisaligned) = true := by
    simp [misaligned, State.faultsMisaligned, hodd, hmis, hcpu, hsz]
  simp [memRead, memWrite, hfault]

/-- Settles O8: each stop by the lemma about its access. -/
theorem accessesThatStop : Obligations.AccessesThatStop := by
  intro s sz a v rest
  refine ⟨fetch16_odd, fetch16_outside, fun hodd hmis hcpu hsz => access_misaligned hodd hmis hcpu hsz v,
    fetch16_unwritten, fun hram hnone => ⟨memRead_byte_unwritten hram hnone, ?_⟩, memRead_byte_absent⟩
  rw [memRead_byte_unwritten hram hnone]
  rfl

end Sys2Proof.Machine
end

section
/-! SUPPORT. The decoder's parsers read back the words the encoder gives: each part of an instruction from its own
words, whatever follows them, and from no fewer. Round trip and fetch both rest on this one relation. -/

namespace Sys2Proof

/-- A parser READS words as a value: whatever follows them it answers the value and leaves the rest, and as long as one
of them is missing it asks for more. -/
structure Reads {α : Type} (parse : List Word → Except DecodeStop (α × List Word)) (ws : List Word) (x : α) : Prop where
  whole : ∀ rest, parse (ws ++ rest) = .ok (x, rest)
  part : ∀ us vs, us ++ vs = ws → vs ≠ [] → parse us = .error .needsMore

section
variable {α β : Type} {x : α} {y : β} {us vs : List Word} {parse : List Word → Except DecodeStop (α × List Word)}

theorem Reads.pure (x : α) : Reads (fun ws => (.ok (x, ws) : Except DecodeStop _)) [] x where
  whole _ := rfl
  part _ _ h hne := absurd (List.append_eq_nil_iff.mp h).2 hne

/-- One parser after the other reads the words of the first, then those of the second. -/
theorem Reads.bind {f : α × List Word → Except DecodeStop (β × List Word)} (h : Reads parse us x)
    (g : Reads (fun ws => f (x, ws)) vs y) : Reads (fun ws => parse ws >>= f) (us ++ vs) y where
  whole rest := by
    rw [List.append_assoc, h.whole]
    exact g.whole rest
  part as bs he hne := by
    rcases List.append_eq_append_iff.mp he with ⟨cs, rfl, rfl⟩ | ⟨cs, rfl, rfl⟩
    · cases cs with
      | nil =>
        have hx : parse as = .ok (x, []) := by simpa using h.whole []
        rw [hx]
        exact g.part [] vs rfl hne
      | cons c cs =>
        rw [h.part as _ rfl (List.cons_ne_nil c cs)]
        rfl
    · rw [h.whole]
      exact g.part cs bs rfl hne

/-- The last step of a parser puts its value together. -/
theorem Reads.map {f : α × List Word → Except DecodeStop (β × List Word)} (h : Reads parse us x)
    (g : ∀ ws, f (x, ws) = .ok (y, ws)) : Reads (fun ws => parse ws >>= f) us y := by
  have hy : Reads (fun ws => f (x, ws)) [] y := by simpa only [g] using Reads.pure y
  simpa using h.bind hy

end

/-! ## The parts of an instruction -/

theorem reads_takeWord (w : Word) : Reads takeWord [w] w where
  whole _ := rfl
  part us vs h hne := by
    cases us with
    | nil => rfl
    | cons u us =>
      obtain ⟨-, h⟩ := List.cons_eq_cons.mp h
      exact absurd (List.append_eq_nil_iff.mp h).2 hne

theorem append_extractLsb'_long (v : Long) : v.extractLsb' 16 16 ++ v.extractLsb' 0 16 = v := by
  rw [BitVec.extractLsb'_append_extractLsb'_eq_extractLsb' (by rfl)]
  exact BitVec.extractLsb'_eq_self

theorem reads_takeLong (v : Long) : Reads takeLong (longWords v) v :=
  (reads_takeWord _).bind ((reads_takeWord _).map fun _ => by simp only [append_extractLsb'_long]; rfl)

theorem reads_takeImm (v : Imm) : Reads (takeImm v.size) (immWords v) v := by
  cases v with
  | byte v => exact (reads_takeWord _).map fun _ => by simp only [BitVec.extractLsb'_append_eq_right]; rfl
  | word v => exact (reads_takeWord v).map fun _ => rfl
  | long v => exact (reads_takeLong v).map fun _ => rfl

theorem reads_takeDisp (d : Disp) : Reads (takeDisp (dispField d)) (dispWords d) d := by
  cases d with
  | null => exact .pure _
  | word w => exact (reads_takeWord w).map fun _ => rfl
  | long v => exact (reads_takeLong v).map fun _ => rfl

/-- No displacement has the reserved size 00. -/
theorem dispField_cases (d : Disp) : dispField d = 1 ∨ dispField d = 2 ∨ dispField d = 3 := by
  cases d <;> simp [dispField]

theorem takeIndirection_pre (is : Bool) (od : Disp) : takeIndirection is (indirectionField (.pre od)) =
    fun ws => takeDisp (dispField od) ws >>= fun r => .ok (.pre r.1, r.2) := by
  have hsize : (0#1 ++ dispField od).extractLsb' 0 2 = dispField od := BitVec.extractLsb'_append_eq_right
  have hbits : 0#1 ++ dispField od ≠ 0 ∧ (0#1 ++ dispField od).getLsbD 2 = false := by
    rcases dispField_cases od with h | h | h <;> rw [h] <;> decide
  funext ws
  simp only [takeIndirection, indirectionField, hsize, hbits, if_false]
  rfl

theorem takeIndirection_post (od : Disp) : takeIndirection false (indirectionField (.post od)) =
    fun ws => takeDisp (dispField od) ws >>= fun r => .ok (.post r.1, r.2) := by
  have hsize : (1#1 ++ dispField od).extractLsb' 0 2 = dispField od := BitVec.extractLsb'_append_eq_right
  have hbits : 1#1 ++ dispField od ≠ 0 ∧ (1#1 ++ dispField od).getLsbD 2 = true := by
    rcases dispField_cases od with h | h | h <;> rw [h] <;> decide
  funext ws
  simp only [takeIndirection, indirectionField, hsize, hbits, if_false, if_true]
  rfl

/-- Before or after the index, the outer displacement is read at the size in the low two bits of I/IS. -/
theorem reads_takeIndirection {is : Bool} {ind : Indirection} (h : ∀ od, ind = .post od → is = false) :
    Reads (takeIndirection is (indirectionField ind)) (indirectionWords ind) ind := by
  cases ind with
  | none => exact .pure _
  | pre od =>
    rw [takeIndirection_pre]
    exact (reads_takeDisp od).map fun _ => rfl
  | post od =>
    rw [h od rfl, takeIndirection_post]
    exact (reads_takeDisp od).map fun _ => rfl

/-- Bits of a part of a word are bits of the word. -/
theorem extractLsb'_extractLsb'_within {n : Nat} (x : BitVec n) (a m : Nat) {k l : Nat} (h : k + l ≤ m) :
    (x.extractLsb' a m).extractLsb' k l = x.extractLsb' (a + k) l := by
  ext i hi
  simp [show k + i < m by omega, Nat.add_assoc]

/-- A register comes back from a word that holds its D/A bit and its number in bits 15 to 12. -/
theorem gregOf_eq {w : Word} {r : GReg} (h : w.extractLsb' 12 4 = gregField r) :
    gregOf (w.getLsbD 15) (w.extractLsb' 12 3) = r := by
  have hda : w.getLsbD 15 = (gregField r).getLsbD 3 := by simp [← h]
  have hnum : w.extractLsb' 12 3 = (gregField r).extractLsb' 0 3 := by
    rw [← h, extractLsb'_extractLsb'_within _ _ _ (by decide)]
  rw [hda, hnum]
  cases r <;> simp only [gregField, gregOf, BitVec.getLsbD_append, BitVec.extractLsb'_append_eq_right] <;> simp

theorem indexField_fields (idx : IndexReg) :
    (indexField idx).extractLsb' 3 4 = gregField idx.reg ∧ (indexField idx).getLsbD 2 = idx.long ∧
      (indexField idx).extractLsb' 0 2 = idx.scale := by
  simp only [indexField, BitVec.getLsbD_append, BitVec.extractLsb'_append_eq_ite]
  simp

/-- An index register comes back from a word that holds its field in bits 15 to 9. -/
theorem indexRegOf_eq {w : Word} {idx : IndexReg} (h : w.extractLsb' 9 7 = indexField idx) : indexRegOf w = idx := by
  obtain ⟨hreg, hlong, hscale⟩ := indexField_fields idx
  rw [← h, extractLsb'_extractLsb'_within _ _ _ (by decide)] at hreg hscale
  have hbit : w.getLsbD 11 = (indexField idx).getLsbD 2 := by simp [← h]
  rw [indexRegOf, gregOf_eq hreg, hbit, hlong, hscale]

/-- The fields of a brief extension word. -/
theorem briefWord_fields (idx : IndexReg) (d8 : Byte) :
    let w : Word := indexField idx ++ 0#1 ++ d8
    w.extractLsb' 9 7 = indexField idx ∧ w.getLsbD 8 = false ∧ w.extractLsb' 9 2 = idx.scale ∧
      w.extractLsb' 0 8 = d8 := by
  simp only [indexField, BitVec.getLsbD_append, BitVec.extractLsb'_append_eq_ite]
  simp

/-- The full extension word. -/
def fullExtWord (bs is : Bool) (idx : IndexReg) (bd : Disp) (ind : Indirection) : Word :=
  indexField idx ++ 1#1 ++ BitVec.ofBool bs ++ BitVec.ofBool is ++ dispField bd ++ 0#1 ++ indirectionField ind

theorem indexExtWords_full (bs is : Bool) (idx : IndexReg) (bd : Disp) (ind : Indirection) :
    indexExtWords (.full bs is idx bd ind) = [fullExtWord bs is idx bd ind] ++ (dispWords bd ++ indirectionWords ind) :=
  rfl

theorem fullExtWord_fields (bs is : Bool) (idx : IndexReg) (bd : Disp) (ind : Indirection) :
    let w := fullExtWord bs is idx bd ind
    w.extractLsb' 9 7 = indexField idx ∧ w.getLsbD 8 = true ∧ w.getLsbD 7 = bs ∧ w.getLsbD 6 = is ∧
      w.extractLsb' 4 2 = dispField bd ∧ w.getLsbD 3 = false ∧ w.extractLsb' 0 3 = indirectionField ind ∧
      w.getLsbD 2 = (indirectionField ind).getLsbD 2 := by
  simp only [fullExtWord, BitVec.getLsbD_append, BitVec.extractLsb'_append_eq_ite]
  simp

/-- I/IS is never the reserved 100, and its bit 2 says postindexed. -/
theorem indirectionField_reserved (ind : Indirection) :
    indirectionField ind ≠ 4 ∧ ((indirectionField ind).getLsbD 2 = true → ∃ od, ind = .post od) := by
  cases ind with
  | none => simp [indirectionField]
  | pre od | post od => rcases dispField_cases od with h | h | h <;> simp [indirectionField, h]

theorem fullExtWord_not_reserved {bs is : Bool} {idx : IndexReg} {bd : Disp} {ind : Indirection}
    (h : ∀ od, ind = .post od → is = false) : fullExtReserved (fullExtWord bs is idx bd ind) = false := by
  obtain ⟨-, -, -, h6, hsize, h3, hiis, h2⟩ := fullExtWord_fields bs is idx bd ind
  obtain ⟨hne, hpost⟩ := indirectionField_reserved ind
  have hsup : (is && (indirectionField ind).getLsbD 2) = false := by
    cases is with
    | false => rfl
    | true =>
      rw [Bool.true_and, ← Bool.not_eq_true]
      intro hp
      obtain ⟨od, rfl⟩ := hpost hp
      exact absurd (h od rfl) (by decide)
  have hbd : (dispField bd == 0) = false := by rcases dispField_cases bd with h | h | h <;> rw [h] <;> rfl
  simp only [fullExtReserved, hsize, h3, hiis, h6, h2, hsup, hbd, beq_false_of_ne hne, Bool.or_self]

theorem reads_takeIndexExt {cpu : Cpu} {x : IndexExt} (h : x.wf cpu = true) :
    Reads (takeIndexExt cpu) (indexExtWords x) x := by
  cases x with
  | brief idx d8 =>
    obtain ⟨hidx, h8, hscale, hd8⟩ := briefWord_fields idx d8
    have hwf : (!cpu.is020 && idx.scale != 0) = false := by
      rcases Bool.or_eq_true_iff.mp h with h | h <;> simp_all
    refine (reads_takeWord _).map fun ws => ?_
    simp only [h8, hscale, hd8, hwf, indexRegOf_eq hidx]
    rfl
  | full bs is idx bd ind =>
    obtain ⟨hidx, h8, h7, h6, hsize, -, hiis, -⟩ := fullExtWord_fields bs is idx bd ind
    obtain ⟨hcpu, hind⟩ : cpu.is020 = true ∧ ∀ od, ind = .post od → is = false := by
      cases ind <;> simp_all [IndexExt.wf]
    rw [indexExtWords_full]
    refine (reads_takeWord _).bind ?_
    simp only [h8, fullExtWord_not_reserved hind, hcpu, h7, h6, hsize, hiis, indexRegOf_eq hidx]
    refine (reads_takeDisp bd).bind ?_
    dsimp only
    exact (reads_takeIndirection hind).map fun _ => rfl

/-! ## The effective address -/

theorem eaModeOf_eaField (ea : Ea) : eaModeOf (eaField ea) = some ea.mode := by
  cases ea <;> simp only [eaModeOf, eaField, BitVec.extractLsb'_append_eq_left] <;> rfl

theorem hasField_eaField (set : EaSet) (ea : Ea) : set.hasField (eaField ea) = set.has ea.mode := by
  simp only [EaSet.hasField, eaModeOf_eaField]

/-- An effective address is read back from its field and its extension words where an immediate has the operation size
and an indexed extension is one the member has. -/
theorem reads_takeEa {cpu : Cpu} {set : EaSet} {sz : Size} {ea : Ea} (h : ea.wf cpu set sz = true) :
    Reads (takeEa cpu sz (eaField ea)) (eaExtWords ea) ea := by
  obtain ⟨-, h⟩ := Bool.and_eq_true_iff.mp h
  unfold takeEa
  simp only [eaModeOf_eaField]
  cases ea with
  | dreg n | areg n | ind n | postinc n | predec n =>
    simp only [Ea.mode, eaField, BitVec.extractLsb'_append_eq_right]
    exact .pure _
  | disp n w =>
    simp only [Ea.mode, eaField, BitVec.extractLsb'_append_eq_right]
    exact (reads_takeWord w).map fun _ => rfl
  | index n x =>
    simp only [Ea.mode, eaField, BitVec.extractLsb'_append_eq_right]
    exact (reads_takeIndexExt h).map fun _ => rfl
  | absw w | pcdisp w => exact (reads_takeWord w).map fun _ => rfl
  | absl v => exact (reads_takeLong v).map fun _ => rfl
  | pcindex x => exact (reads_takeIndexExt h).map fun _ => rfl
  | imm v =>
    obtain rfl : v.size = sz := by simpa using h
    exact (reads_takeImm v).map fun _ => rfl

/-! ## The words between -/

theorem reads_takeBranchOff {cpu : Cpu} {off : BranchOff} (h : off.wf cpu = true) :
    Reads (takeBranchOff cpu (branchByte off)) (branchWords off) off := by
  cases off with
  | byte d =>
    obtain ⟨h0, hFF⟩ : d ≠ 0 ∧ (cpu.is020 && d == 0xFF) = false := by
      simpa [BranchOff.wf, imp_iff_not_or] using h
    have hparse : takeBranchOff cpu (branchByte (.byte d)) = fun ws => .ok (.byte d, ws) := by
      funext ws
      simp only [takeBranchOff, branchByte, h0, hFF, if_false]
      rfl
    rw [hparse]
    exact .pure _
  | word w => exact (reads_takeWord w).map fun _ => rfl
  | long v =>
    have hparse : takeBranchOff cpu (branchByte (.long v)) =
        fun ws => takeLong ws >>= fun r => .ok (.long r.1, r.2) := by
      funext ws
      have hcpu : cpu.is020 = true := h
      simp only [takeBranchOff, branchByte, hcpu]
      rfl
    rw [hparse]
    exact (reads_takeLong v).map fun _ => rfl

theorem bfSpecOf_bfWord (p : BfSpec) (dn : RegNum) : bfSpecOf (bfWord p dn) = .ok p := by
  obtain ⟨offset, width⟩ := p
  cases offset <;> cases width <;>
    simp only [bfSpecOf, bfWord, bfField, BitVec.getLsbD_append, BitVec.extractLsb'_append_eq_ite] <;> simp

theorem bfWord_fields (p : BfSpec) (dn : RegNum) :
    (bfWord p dn).getLsbD 15 = false ∧ (bfWord p dn).extractLsb' 12 3 = dn := by
  simp only [bfWord, BitVec.getLsbD_append, BitVec.extractLsb'_append_eq_ite]
  simp

theorem reads_takeBf (p : BfSpec) (dn : RegNum) {hasReg : Bool} (h : hasReg = false → dn = 0) :
    Reads (takeBf hasReg) [bfWord p dn] (p, dn) := by
  obtain ⟨h15, hdn⟩ := bfWord_fields p dn
  have hres : (!hasReg && dn != 0) = false := by cases hasReg <;> simp [h]
  refine (reads_takeWord _).map fun ws => ?_
  simp only [h15, hdn, hres, bfSpecOf_bfWord]
  rfl

theorem reads_takeCas (du dc : RegNum) : Reads takeCas [0#7 ++ du ++ 0#3 ++ dc] (du, dc) := by
  refine (reads_takeWord _).map fun ws => ?_
  simp only [BitVec.extractLsb'_append_eq_ite]
  simp [pure, Except.pure]

theorem casPairWord_fields (p : CasPair) :
    let w := casPairWord p
    w.extractLsb' 12 4 = gregField p.rn ∧ w.extractLsb' 9 3 = 0 ∧ w.extractLsb' 6 3 = p.du ∧
      w.extractLsb' 3 3 = 0 ∧ w.extractLsb' 0 3 = p.dc := by
  simp only [casPairWord, BitVec.extractLsb'_append_eq_ite]
  simp

theorem reads_takeCasPair (p : CasPair) : Reads takeCasPair [casPairWord p] p := by
  obtain ⟨hrn, h9, hdu, h3, hdc⟩ := casPairWord_fields p
  refine (reads_takeWord _).map fun ws => ?_
  simp only [gregOf_eq hrn, h9, hdu, h3, hdc]
  rfl

theorem boundsWord_fields (rn : GReg) (b : Bool) :
    let w : Word := gregField rn ++ BitVec.ofBool b ++ 0#11
    w.extractLsb' 12 4 = gregField rn ∧ w.getLsbD 11 = b ∧ w.extractLsb' 0 11 = 0 := by
  simp only [BitVec.getLsbD_append, BitVec.extractLsb'_append_eq_ite]
  simp

/-- The word of CMP2 and CHK2: bit 11 tells them apart. -/
theorem reads_takeBounds2 (rn : GReg) (b : Bool) :
    Reads takeBounds2 [gregField rn ++ BitVec.ofBool b ++ 0#11] (rn, b) := by
  obtain ⟨hrn, h11, h0⟩ := boundsWord_fields rn b
  refine (reads_takeWord _).map fun ws => ?_
  simp only [gregOf_eq hrn, h11, h0]
  rfl

end Sys2Proof
end

section
/-! SUPPORT and PROOFS. The rows of the opcode table exclude each other, each two for one of three reasons; so the
decoder answers a word by the one row it fits. -/

namespace Sys2Proof

/-! ## When two rows exclude each other -/

/-- The MODE and REGISTER bits a row allows: the ones its mask fixes, and those that name a mode of its set. -/
def Row.allowsField (r : Row) (f : BitVec 6) : Bool :=
  f &&& r.mask.extractLsb' 0 6 == r.pattern.extractLsb' 0 6
    && (match r.set with
        | some set => set.hasField f
        | none     => true)

/-- What the conditions of a row ask of bits 11 to 6 alone. -/
def middleCondition (id : RowId) (m : BitVec 6) : Bool :=
  match id with
  | .addToReg | .addq | .cmp | .cmpi | .addToMem | .addi | .addx | .clr | .cmpm | .andToReg | .andToMem | .andi
  | .aslReg | .asrReg => m.extractLsb' 0 2 != 3
  | .bounds2 => m.extractLsb' 3 2 != 3
  | .cas => m.extractLsb' 3 2 != 0
  | .bcc => m.extractLsb' 3 3 != 0
  | _ => true

/-- Bits 11 to 6 that a row allows. -/
def Row.allowsMiddle (r : Row) (m : BitVec 6) : Bool :=
  m &&& r.mask.extractLsb' 6 6 == r.pattern.extractLsb' 6 6 && middleCondition r.id m

/-- Three reasons for which no word fits two rows: their patterns differ in a bit both fix, no MODE and REGISTER bits
suit both, or no bits 11 to 6 do. -/
def Row.clash (p q : Row) : Bool :=
  (p.pattern ^^^ q.pattern) &&& (p.mask &&& q.mask) != 0
    || decide (∀ f, (p.allowsField f && q.allowsField f) = false)
    || decide (∀ m, (p.allowsMiddle m && q.allowsMiddle m) = false)

/-- Every two rows have one of these reasons. -/
theorem rows_clash : (rows ++ lineFRows).Pairwise fun p q => p.clash q = true := by decide

section
variable {cpu : Cpu} {w : Word} {p q r : Row}

/-- What it says that a word fits a row. -/
theorem Row.fits_iff : r.fits cpu w = true ↔
    w &&& r.mask = r.pattern ∧ (∀ set, r.set = some set → set.hasField (eaFieldOf w) = true) ∧
      sideCondition cpu r.id w = true := by
  unfold Row.fits
  cases r.set <;> simp [and_assoc]

theorem middleCondition_of_sideCondition (id : RowId) (h : sideCondition cpu id w = true) :
    middleCondition id (w.extractLsb' 6 6) = true := by
  have h6 : (w.extractLsb' 6 6).extractLsb' 0 2 = w.extractLsb' 6 2 :=
    extractLsb'_extractLsb'_within _ _ _ (by decide)
  have h92 : (w.extractLsb' 6 6).extractLsb' 3 2 = w.extractLsb' 9 2 :=
    extractLsb'_extractLsb'_within _ _ _ (by decide)
  have h93 : (w.extractLsb' 6 6).extractLsb' 3 3 = w.extractLsb' 9 3 :=
    extractLsb'_extractLsb'_within _ _ _ (by decide)
  unfold middleCondition
  rw [h6, h92, h93]
  split <;> simp_all [sideCondition]

theorem Row.allowsField_of_fits (h : r.fits cpu w = true) : r.allowsField (eaFieldOf w) = true := by
  obtain ⟨hpat, hset, -⟩ := Row.fits_iff.mp h
  have : eaFieldOf w &&& r.mask.extractLsb' 0 6 = r.pattern.extractLsb' 0 6 := by
    rw [← hpat, BitVec.extractLsb'_and]; rfl
  unfold Row.allowsField
  rw [this]
  cases hs : r.set with
  | none => simp
  | some set => simp [hset set hs]

theorem Row.allowsMiddle_of_fits (h : r.fits cpu w = true) : r.allowsMiddle (w.extractLsb' 6 6) = true := by
  obtain ⟨hpat, -, hside⟩ := Row.fits_iff.mp h
  rw [Row.allowsMiddle, ← hpat, BitVec.extractLsb'_and, middleCondition_of_sideCondition r.id hside]
  simp

/-- Two patterns that one word has agree in the bits both fix. -/
theorem pattern_xor_and_mask (hp : w &&& p.mask = p.pattern) (hq : w &&& q.mask = q.pattern) :
    (p.pattern ^^^ q.pattern) &&& (p.mask &&& q.mask) = 0 := by
  rw [← hp, ← hq]
  ext i hi
  simp only [BitVec.getElem_and, BitVec.getElem_xor]
  cases w[i] <;> cases p.mask[i] <;> cases q.mask[i] <;> simp

theorem clash_eq_false (hp : p.fits cpu w = true) (hq : q.fits cpu w = true) : p.clash q = false := by
  have hpat := pattern_xor_and_mask (Row.fits_iff.mp hp).1 (Row.fits_iff.mp hq).1
  have hfield : ¬ ∀ f, (p.allowsField f && q.allowsField f) = false := fun h => by
    simpa [Row.allowsField_of_fits hp, Row.allowsField_of_fits hq] using h (eaFieldOf w)
  have hmid : ¬ ∀ m, (p.allowsMiddle m && q.allowsMiddle m) = false := fun h => by
    simpa [Row.allowsMiddle_of_fits hp, Row.allowsMiddle_of_fits hq] using h (w.extractLsb' 6 6)
  simp only [Row.clash, hpat, hfield, hmid, decide_false, bne_self_eq_false, Bool.or_self]

end

/-- Settles O2: each pair of rows has a reason for which no word fits both. -/
theorem opcodeRowsDisjoint : Obligations.OpcodeRowsDisjoint := by
  intro cpu w p q hp hq fp fq
  by_contra hne
  have excl : (rows ++ lineFRows).Pairwise fun p q => ¬ (p.fits cpu w = true ∧ q.fits cpu w = true) :=
    rows_clash.imp fun h fits => by simp [clash_eq_false fits.1 fits.2] at h
  have symm : Std.Symm fun p q : Row => ¬ (p.fits cpu w = true ∧ q.fits cpu w = true) := ⟨fun _ _ h f => h f.symm⟩
  exact excl.forall hp hq hne ⟨fp, fq⟩

/-! ## The decoder by the row a word fits -/

section
variable {cpu : Cpu} {w : Word} {ws : List Word} {r : Row}

theorem findRow_eq_some {rs : List Row} (hr : r ∈ rs) (hfits : r.fits cpu w = true)
    (huniq : ∀ q ∈ rs, q.fits cpu w = true → q = r) : findRow cpu w rs = some r := by
  induction rs with
  | nil => cases hr
  | cons q rs ih =>
    unfold findRow
    split
    case isTrue hq => rw [huniq q List.mem_cons_self hq]
    case isFalse hq =>
      rcases List.mem_cons.mp hr with rfl | hr
      · exact absurd hfits hq
      · exact ih hr fun p hp => huniq p (List.mem_cons_of_mem q hp)

theorem findRow_eq_none {rs : List Row} (h : ∀ q ∈ rs, q.fits cpu w = false) : findRow cpu w rs = none := by
  induction rs with
  | nil => rfl
  | cons q rs ih =>
    obtain ⟨hq, hrs⟩ := List.forall_mem_cons.mp h
    simp only [findRow, hq, ih hrs, Bool.false_eq_true, if_false]

/-- Bits 15 to 12 of a word that fits a row are those of the row's pattern, all of which its mask fixes. -/
theorem Row.line_of_fits (hmask : r.mask.extractLsb' 12 4 = 15) (h : r.fits cpu w = true) :
    w.extractLsb' 12 4 = r.pattern.extractLsb' 12 4 := by
  obtain ⟨hpat, -, -⟩ := Row.fits_iff.mp h
  rw [← hpat, BitVec.extractLsb'_and, hmask]
  exact BitVec.and_allOnes.symm

/-- The rows outside line F fix bits 15 to 12, and neither as 1111 nor as 1010. -/
theorem rows_line : ∀ r ∈ rows,
    r.mask.extractLsb' 12 4 = 15 ∧ r.pattern.extractLsb' 12 4 ≠ 15 ∧ r.pattern.extractLsb' 12 4 ≠ 10 := by decide

theorem lineFRows_line : ∀ r ∈ lineFRows, r.mask.extractLsb' 12 4 = 15 ∧ r.pattern.extractLsb' 12 4 = 15 := by decide

/-- A word that fits a row outside line F is read as that row says, on the members the row is for. -/
theorem decode_of_fits (hr : r ∈ rows) (hfits : r.fits cpu w = true) :
    decode cpu (w :: ws) = if r.needs020 && !cpu.is020 then .error (.illegal w) else parseRow cpu r.id w ws := by
  obtain ⟨hmask, hline, -⟩ := rows_line r hr
  have hw : (w.extractLsb' 12 4 == 15) = false := by
    rw [Row.line_of_fits hmask hfits]
    exact beq_false_of_ne hline
  have hrow : findRow cpu w rows = some r := findRow_eq_some hr hfits fun q hq hfq =>
    opcodeRowsDisjoint cpu w q r (List.mem_append_left _ hq) (List.mem_append_left _ hr) hfq hfits
  simp only [decode, hw, hrow, Bool.false_eq_true, if_false]

/-- A word that fits a line F row is read as that row says, from MC68020 on and with a CP-ID other than 0. -/
theorem decode_of_fits_lineF (hr : r ∈ lineFRows) (hfits : r.fits cpu w = true) (hcpu : cpu.is020 = true)
    (hid : w.extractLsb' 9 3 ≠ 0) : decode cpu (w :: ws) = parseRow cpu r.id w ws := by
  obtain ⟨hmask, hline⟩ := lineFRows_line r hr
  have hw : (w.extractLsb' 12 4 == 15) = true := by
    rw [Row.line_of_fits hmask hfits, hline]
    rfl
  have hrow : findRow cpu w lineFRows = some r := findRow_eq_some hr hfits fun q hq hfq =>
    opcodeRowsDisjoint cpu w q r (List.mem_append_right _ hq) (List.mem_append_right _ hr) hfq hfits
  simp only [decode, decodeLineF, hw, hrow, hcpu, beq_false_of_ne hid, Bool.not_true, Bool.or_self, if_true]
  rfl

theorem decode_of_no_row (hline : w.extractLsb' 12 4 ≠ 15) (h : ∀ r ∈ rows, r.fits cpu w = false) :
    decode cpu (w :: ws) = .error (.notDescribed w) := by
  simp only [decode, beq_false_of_ne hline, findRow_eq_none h, Bool.false_eq_true, if_false]

/-- No row has line 1010. -/
theorem not_fits_lineA (hline : w.extractLsb' 12 4 = 10) : ∀ r ∈ rows, r.fits cpu w = false := by
  intro r hr
  obtain ⟨hmask, -, hline'⟩ := rows_line r hr
  rw [Bool.eq_false_iff]
  intro hfits
  exact hline' ((Row.line_of_fits hmask hfits).symm.trans hline)

/-- No row has the word of NOP. -/
theorem not_fits_nop : ∀ r ∈ rows, r.fits cpu 0x4E71 = false := by
  intro r hr
  have hpat : ∀ r ∈ rows, (0x4E71 : Word) &&& r.mask ≠ r.pattern := by decide
  rw [Bool.eq_false_iff]
  exact fun hfits => hpat r hr (Row.fits_iff.mp hfits).1

end

/-- Settles O4, from what the decoder answers for a word that fits a row, for one that fits none, and for line F. -/
theorem olderMemberAndLineWordsStop : Obligations.OlderMemberAndLineWordsStop := by
  intro cpu w ws
  refine ⟨fun r hcpu hr h020 hfits => ?_, decode_of_no_row, fun hline => ?_, ?_, fun hline h => ?_⟩
  · simp only [decode_of_fits hr hfits, h020, hcpu, Bool.not_false, Bool.and_self, if_true]
  · exact decode_of_no_row (by rw [hline]; decide) (not_fits_lineA hline)
  · exact decode_of_no_row (by decide) not_fits_nop
  · have hstop : (!cpu.is020 || w.extractLsb' 9 3 == 0) = true := by simpa using h
    simp only [decode, hline, decodeLineF, hstop, BEq.rfl, if_true]

end Sys2Proof
end

section
/-! SUPPORT. The operation word of a well-formed instruction fits the row it is encoded by, in its pattern, its mode and
its conditions. -/

namespace Sys2Proof

/-- The row of the opcode table an instruction is encoded by; CMP2 and CHK2 share theirs (R140). -/
def rowId : Instr → RowId
  | .addToReg _ _ _ => .addToReg
  | .addToMem _ _ _ => .addToMem
  | .adda _ _ _     => .adda
  | .addi _ _       => .addi
  | .addq _ _ _     => .addq
  | .addx _ _ _ _   => .addx
  | .clr _ _        => .clr
  | .cmp _ _ _      => .cmp
  | .cmpa _ _ _     => .cmpa
  | .cmpi _ _       => .cmpi
  | .cmpm _ _ _     => .cmpm
  | .cmp2 _ _ _ | .chk2 _ _ _ => .bounds2
  | .andToReg _ _ _ => .andToReg
  | .andToMem _ _ _ => .andToMem
  | .andi _ _       => .andi
  | .aslReg _ _ _   => .aslReg
  | .aslMem _       => .aslMem
  | .asrReg _ _ _   => .asrReg
  | .asrMem _       => .asrMem
  | .btstReg _ _    => .btstReg
  | .btstImm _ _    => .btstImm
  | .bchgReg _ _    => .bchgReg
  | .bchgImm _ _    => .bchgImm
  | .bclrReg _ _    => .bclrReg
  | .bclrImm _ _    => .bclrImm
  | .bsetReg _ _    => .bsetReg
  | .bsetImm _ _    => .bsetImm
  | .bftst _ _      => .bftst
  | .bfextu _ _ _   => .bfextu
  | .bfchg _ _      => .bfchg
  | .bfexts _ _ _   => .bfexts
  | .bfclr _ _      => .bfclr
  | .bfffo _ _ _    => .bfffo
  | .bfset _ _      => .bfset
  | .bfins _ _ _    => .bfins
  | .abcd _ _ _     => .abcd
  | .bcc _ _        => .bcc
  | .bra _          => .bra
  | .bsr _          => .bsr
  | .andiToSr _     => .andiToSr
  | .andiToCcr _    => .andiToCcr
  | .bkpt _         => .bkpt
  | .chkW _ _       => .chkW
  | .chkL _ _       => .chkL
  | .cas _ _ _ _    => .cas
  | .cas2W _ _      => .cas2W
  | .cas2L _ _      => .cas2L
  | .cpBcc _ _ _    => .cpBcc
  | .cpDBcc _ _     => .cpDBcc
  | .cpGen _ _      => .cpGen
  | .cpRestore _ _  => .cpRestore
  | .cpSave _ _     => .cpSave
  | .cpScc _ _      => .cpScc

/-- The row of a name. -/
def RowId.row (id : RowId) : Row := ((rows ++ lineFRows).find? fun r => r.id == id).getD ⟨id, 0, 0, none, false⟩

theorem RowId.row_mem (id : RowId) : id.row ∈ rows ++ lineFRows ∧ id.row.id = id := by
  cases id <;> decide

/-! ## Operation words have the patterns of their rows -/

/-- The bits of a word under a mask, both numbers read at the word's width. -/
def HasPattern {n : Nat} (w : BitVec n) (mask pat : Nat) : Prop := w &&& BitVec.ofNat n mask = BitVec.ofNat n pat

theorem ofNat_eq_append (m n x : Nat) : BitVec.ofNat (m + n) x = BitVec.ofNat m (x >>> n) ++ BitVec.ofNat n x := by
  refine BitVec.eq_of_getLsbD_eq fun i hi => ?_
  simp only [BitVec.getLsbD_append, BitVec.getLsbD_ofNat, hi, decide_true, Bool.true_and, Nat.testBit_shiftRight]
  split
  case isTrue h => simp [h]
  case isFalse h => simp [Nat.add_sub_of_le (Nat.le_of_not_lt h), show i - n < m by omega]

/-- Two words joined have a pattern exactly when each has its part of it. -/
theorem hasPattern_append {m n : Nat} (a : BitVec m) (b : BitVec n) (mask pat : Nat) :
    HasPattern (a ++ b) mask pat ↔ HasPattern a (mask >>> n) (pat >>> n) ∧ HasPattern b mask pat := by
  simp only [HasPattern, ofNat_eq_append, BitVec.and_append]
  constructor
  · intro h
    exact ⟨by simpa only [BitVec.extractLsb'_append_eq_left] using congrArg (BitVec.extractLsb' n m) h,
      by simpa only [BitVec.extractLsb'_append_eq_right] using congrArg (BitVec.extractLsb' 0 n) h⟩
  · rintro ⟨ha, hb⟩
    rw [ha, hb]

theorem RowId.pattern_of_hasPattern {id : RowId} {w : Word} {p m : Nat} {set : Option EaSet} {n : Bool}
    (hrow : id.row = ⟨id, BitVec.ofNat 16 p, BitVec.ofNat 16 m, set, n⟩) (h : HasPattern w m p) :
    w &&& id.row.mask = id.row.pattern := by
  rw [hrow]
  exact h

/-- The bits a row's mask fixes are written out in the operation words encoded by it. -/
theorem opWord_pattern (i : Instr) : opWord i &&& (rowId i).row.mask = (rowId i).row.pattern := by
  cases i <;> refine RowId.pattern_of_hasPattern rfl ?_ <;> simp only [opWord, hasPattern_append] <;> simp [HasPattern]

/-! ## They have an allowed mode and meet the conditions -/

section
variable {cpu : Cpu} {i : Instr} {ea : Ea} {set : EaSet} {sz : Size}

theorem Ea.has_of_wf (h : ea.wf cpu set sz = true) : set.has ea.mode = true := (Bool.and_eq_true_iff.mp h).1

/-- No Byte operand is in an address register. -/
theorem Ea.not_byte_areg_of_wf (h : ea.wf cpu set .byte = true) : ea.mode ≠ .areg := by
  cases ea <;> simp_all [Ea.wf, Ea.mode]

/-- An operation word that ends in a MODE and REGISTER field holds it in bits 5 to 0. -/
theorem eaFieldOf_append (high : BitVec 10) (f : BitVec 6) : eaFieldOf (high ++ f) = f :=
  BitVec.extractLsb'_append_eq_right

theorem eaFieldOf_opWord (h : instrEa i = some ea) : eaFieldOf (opWord i) = eaField ea := by
  cases i <;> cases h <;> exact eaFieldOf_append _ _

theorem cmpiSet_subset (h : (cmpiSet cpu).has ea.mode = true) : EaSet.dataNoImm.has ea.mode = true := by
  revert h
  unfold cmpiSet
  cases cpu.is020 <;> cases ea.mode <;> decide

theorem hasField_opWord (hea : instrEa i = some ea) (h : ea.wf cpu set sz = true) :
    set.hasField (eaFieldOf (opWord i)) = true := by
  rw [eaFieldOf_opWord hea, hasField_eaField, Ea.has_of_wf h]

/-- The mode of a well-formed instruction's operand is one its row allows. -/
theorem opWord_mode (h : i.wf cpu = true) (hset : (rowId i).row.set = some set) :
    set.hasField (eaFieldOf (opWord i)) = true := by
  cases i <;> cases hset
  case cmpi v ea =>
    rw [eaFieldOf_opWord rfl, hasField_eaField]
    exact cmpiSet_subset (Ea.has_of_wf h)
  case cmp2 | bftst | bfextu | bfchg | bfexts | bfclr | bfffo | bfset | bfins | chkL | chk2 | cas =>
    exact hasField_opWord rfl (Bool.and_eq_true_iff.mp h).2
  case cpRestore | cpSave | cpScc =>
    rw [opWord, eaFieldOf_append]
    exact (Bool.and_eq_true_iff.mp h).2
  all_goals exact hasField_opWord rfl h

/-! ### Sizes and register fields -/

/-- The size that stands in bits 7 and 6 of the operation word (R103). -/
def sizeBits : Instr → Option Size
  | .addToReg sz _ _ | .addToMem sz _ _ | .addq sz _ _ | .addx sz _ _ _ | .clr sz _ | .cmp sz _ _ | .cmpm sz _ _
  | .andToReg sz _ _ | .andToMem sz _ _ | .aslReg sz _ _ | .asrReg sz _ _ => some sz
  | .addi v _ | .cmpi v _ | .andi v _ => some v.size
  | _ => none

/-- The register, quick data, count or CP-ID that stands in bits 11 to 9 of the operation word (R102). -/
def regBits : Instr → Option (BitVec 3)
  | .addToReg _ r _ | .addToMem _ r _ | .adda _ r _ | .addq _ r _ | .addx _ _ r _ | .cmp _ r _ | .cmpa _ r _
  | .cmpm _ r _ | .andToReg _ r _ | .andToMem _ r _ | .btstReg r _ | .bchgReg r _ | .bclrReg r _ | .bsetReg r _
  | .abcd _ r _ | .chkW r _ | .chkL r _ | .cpBcc r _ _ | .cpDBcc r _ | .cpGen r _ | .cpRestore r _ | .cpSave r _
  | .cpScc r _ => some r
  | .aslReg _ c _ | .asrReg _ c _ => some (shiftNum c)
  | _ => none

/-- The register or breakpoint number that stands in bits 2 to 0 of the operation word (R102). -/
def lowBits : Instr → Option (BitVec 3)
  | .addx _ _ _ r | .cmpm _ _ r | .abcd _ _ r | .aslReg _ _ r | .asrReg _ _ r | .bkpt r | .cpDBcc _ r => some r
  | _ => none

theorem opWord_sizeBits (h : sizeBits i = some sz) : (opWord i).extractLsb' 6 2 = sizeField sz := by
  cases i <;> cases h <;> simp only [opWord, BitVec.extractLsb'_append_eq_ite] <;> simp

theorem opWord_regBits {r : BitVec 3} (h : regBits i = some r) : (opWord i).extractLsb' 9 3 = r := by
  cases i <;> cases h <;> simp only [opWord, BitVec.extractLsb'_append_eq_ite] <;> simp

theorem opWord_lowBits {r : BitVec 3} (h : lowBits i = some r) : (opWord i).extractLsb' 0 3 = r := by
  cases i <;> cases h <;> exact BitVec.extractLsb'_append_eq_right

theorem sizeOf_sizeField (sz : Size) : sizeOf (sizeField sz) = sz := by cases sz <;> rfl

theorem casSizeOf_casSizeField (sz : Size) : casSizeOf (casSizeField sz) = sz := by cases sz <;> rfl

theorem condOf_condField (c : Cond) : condOf (condField c) = c := by cases c <;> rfl

theorem sizeField_ne_three (sz : Size) : (sizeField sz != 3) = true := by cases sz <;> rfl

theorem sizeField_eq_zero (sz : Size) : sizeField sz = 0 ↔ sz = .byte := by cases sz <;> decide

theorem casSizeField_ne_zero (sz : Size) : (casSizeField sz != 0) = true := by cases sz <;> rfl

/-- No condition has the CONDITION field of BRA or BSR. -/
theorem condField_high_ne_zero (c : Cond) : ((condField c).extractLsb' 1 3 != 0) = true := by cases c <;> rfl

theorem eaField_mode_areg (ea : Ea) : (eaField ea).extractLsb' 3 3 = 1 ↔ ea.mode = .areg := by
  cases ea <;> simp only [eaField, BitVec.extractLsb'_append_eq_left, Ea.mode] <;> decide

theorem byte_in_areg_eq_false (hea : instrEa i = some ea) (h : ea.wf cpu set sz = true) :
    (sizeField sz == 0 && (opWord i).extractLsb' 3 3 == 1) = false := by
  have hmode : (opWord i).extractLsb' 3 3 = (eaField ea).extractLsb' 3 3 := by
    rw [← eaFieldOf_opWord hea, eaFieldOf, extractLsb'_extractLsb'_within _ _ _ (by decide)]
  rw [hmode, Bool.and_eq_false_imp]
  simp only [beq_iff_eq, sizeField_eq_zero, beq_eq_false_iff_ne, ne_eq, eaField_mode_areg]
  rintro rfl
  exact Ea.not_byte_areg_of_wf h

/-- CMP2 and CHK2 have their size in bits 10 and 9. -/
theorem opWord_boundsSize (sz : Size) (rn : GReg) (ea : Ea) :
    (opWord (.cmp2 sz rn ea)).extractLsb' 9 2 = sizeField sz ∧
      (opWord (.chk2 sz rn ea)).extractLsb' 9 2 = sizeField sz := by
  simp only [opWord, BitVec.extractLsb'_append_eq_ite]
  simp

/-- CAS has its size in bits 10 and 9. -/
theorem opWord_casSize (sz : Size) (du dc : RegNum) (ea : Ea) :
    (opWord (.cas sz du dc ea)).extractLsb' 9 2 = casSizeField sz := by
  simp only [opWord, BitVec.extractLsb'_append_eq_ite]
  simp

/-- A well-formed instruction's operation word meets the conditions of its row. -/
theorem opWord_side (h : i.wf cpu = true) : sideCondition cpu (rowId i) (opWord i) = true := by
  have hsize {sz : Size} := @opWord_sizeBits i sz
  have hbyte {ea : Ea} := @byte_in_areg_eq_false cpu i ea
  have hmode {ea : Ea} := @hasField_opWord cpu i ea
  cases i
  case addToReg sz r ea | addq sz r ea | cmp sz r ea =>
    simp only [sideCondition, rowId, hsize rfl, sizeField_ne_three, hbyte rfl h]
    rfl
  case addToMem | andToReg | andToMem | addx | clr | cmpm | aslReg | asrReg | addi | andi =>
    simp only [sideCondition, rowId, hsize rfl, sizeField_ne_three]
  case cmpi v ea =>
    simp only [sideCondition, rowId, hsize rfl, sizeField_ne_three, hmode rfl h, Bool.and_self]
  case cmp2 sz rn ea => exact (congrArg (· != 3) (opWord_boundsSize sz rn ea).1).trans (sizeField_ne_three sz)
  case chk2 sz rn ea => exact (congrArg (· != 3) (opWord_boundsSize sz rn ea).2).trans (sizeField_ne_three sz)
  case cas sz du dc ea => exact (congrArg (· != 0) (opWord_casSize sz du dc ea)).trans (casSizeField_ne_zero sz)
  case bcc c off =>
    have hbits : (opWord (.bcc c off)).extractLsb' 9 3 = (condField c).extractLsb' 1 3 := by
      simp only [opWord, BitVec.extractLsb'_append_eq_ite]
      simp
    exact (congrArg (· != 0) hbits).trans (condField_high_ne_zero c)
  all_goals rfl

theorem opWord_fits (h : i.wf cpu = true) : (rowId i).row.fits cpu (opWord i) = true :=
  Row.fits_iff.mpr ⟨opWord_pattern i, fun _ => opWord_mode h, by
    rw [(RowId.row_mem _).2]
    exact opWord_side h⟩

/-- The 68020 rows have well-formed instructions from MC68020 on. -/
theorem is020_of_wf (h : i.wf cpu = true) (h020 : (rowId i).row.needs020 = true) : cpu.is020 = true := by
  cases i <;> cases h020
  case cas2W | cas2L => exact h
  case cpRestore | cpSave | cpScc => exact (Bool.and_eq_true_iff.mp (Bool.and_eq_true_iff.mp h).1).1
  all_goals exact (Bool.and_eq_true_iff.mp h).1

end
end Sys2Proof
end

section
/-! SUPPORT and PROOFS. The words after the operation word are read by the parser of its row, so that decoding and
fetching give back what was encoded. -/

namespace Sys2Proof

section
variable {cpu : Cpu} {i : Instr} {ea : Ea} {set : EaSet} {sz sz' : Size} {w : Word} {ws : List Word}

/-! ## The families of forms -/

theorem reads_ok {j : Instr} (h : j = i) :
    Reads (fun ws => (.ok (j, ws) : Except DecodeStop (Instr × List Word))) [] i := by
  rw [h]
  exact .pure i

theorem reads_withEa {mk : Ea → Instr} (hea : eaFieldOf w = eaField ea) (hsz : sz' = sz) (h : ea.wf cpu set sz = true)
    (hmk : mk ea = i) : Reads (fun ws => withEa cpu sz' w ws mk) (eaExtWords ea) i := by
  subst hsz hmk
  unfold withEa
  rw [hea]
  exact (reads_takeEa h).map fun _ => rfl

theorem reads_withImmEa {mk : Imm → Ea → Instr} {v : Imm} (hea : eaFieldOf w = eaField ea)
    (hsz : w.extractLsb' 6 2 = sizeField v.size) (h : ea.wf cpu set v.size = true) :
    Reads (fun ws => withImmEa cpu w ws mk) (immWords v ++ eaExtWords ea) (mk v ea) := by
  unfold withImmEa
  rw [hea, hsz, sizeOf_sizeField]
  refine (reads_takeImm v).bind ?_
  dsimp only
  exact (reads_takeEa h).map fun _ => rfl

theorem reads_withBitEa {mk : Byte → Ea → Instr} {n : Byte} (hea : eaFieldOf w = eaField ea)
    (h : ea.wf cpu set .byte = true) :
    Reads (fun ws => withBitEa cpu w ws mk) ([0#8 ++ n] ++ eaExtWords ea) (mk n ea) := by
  unfold withBitEa
  rw [hea]
  refine (reads_takeWord _).bind ?_
  simp only [BitVec.extractLsb'_append_eq_right]
  exact (reads_takeEa h).map fun _ => rfl

theorem reads_withBfEa {mk : BfSpec → Ea → Instr} {p : BfSpec} (hea : eaFieldOf w = eaField ea)
    (h : ea.wf cpu set .byte = true) :
    Reads (fun ws => withBfEa cpu w ws mk) ([bfWord p 0] ++ eaExtWords ea) (mk p ea) := by
  unfold withBfEa
  rw [hea]
  refine (reads_takeBf p 0 fun _ => rfl).bind ?_
  dsimp only
  exact (reads_takeEa h).map fun _ => rfl

theorem reads_withBfRegEa {mk : BfSpec → RegNum → Ea → Instr} {p : BfSpec} {dn : RegNum}
    (hea : eaFieldOf w = eaField ea) (h : ea.wf cpu set .byte = true) :
    Reads (fun ws => withBfRegEa cpu w ws mk) ([bfWord p dn] ++ eaExtWords ea) (mk p dn ea) := by
  unfold withBfRegEa
  rw [hea]
  refine (reads_takeBf p dn (hasReg := true) (fun h => by cases h)).bind ?_
  dsimp only
  exact (reads_takeEa h).map fun _ => rfl

/-- The form of a branch: its offset is read from the low byte of the operation word. -/
theorem reads_branch {mk : BranchOff → Instr} {off : BranchOff} (hb : w.extractLsb' 0 8 = branchByte off)
    (h : off.wf cpu = true) (hmk : mk off = i) :
    Reads (fun ws => do
      let (off, ws) ← takeBranchOff cpu (w.extractLsb' 0 8) ws
      return (mk off, ws)) (branchWords off ++ []) i := by
  rw [hb, List.append_nil]
  exact (reads_takeBranchOff h).map fun _ => by rw [← hmk]; rfl

/-- The words after the operation word. -/
def followingWords (i : Instr) : List Word :=
  ownWords i ++ (match instrEa i with
    | some ea => eaExtWords ea
    | none    => [])

theorem encode_eq (i : Instr) : encode i = opWord i :: followingWords i := rfl

/-! ### Single bits and low fields -/

theorem xformOf_xformBit (f : XForm) : xformOf ((xformBit f).getLsbD 0) = f := by cases f <;> rfl

theorem shiftCountOf_shiftNum (c : ShiftCount) : shiftCountOf ((shiftIr c).getLsbD 0) (shiftNum c) = c := by
  cases c <;> simp [shiftCountOf, shiftIr, shiftNum]

/-- The words of CMP2 and CHK2 differ in bit 11. -/
theorem boundsWord_cmp2 (rn : GReg) : gregField rn ++ 0#12 = gregField rn ++ BitVec.ofBool false ++ 0#11 := by
  cases rn with
  | dn n | an n => revert n; decide

theorem reads_bounds2 {rn : GReg} {b : Bool} (hea : eaFieldOf w = eaField ea) (hsz : w.extractLsb' 9 2 = sizeField sz)
    (h : ea.wf cpu set sz = true) : Reads (parseRow cpu .bounds2 w)
      ([gregField rn ++ BitVec.ofBool b ++ 0#11] ++ eaExtWords ea) (if b then .chk2 sz rn ea else .cmp2 sz rn ea) := by
  unfold parseRow
  dsimp only
  rw [hea, hsz, sizeOf_sizeField]
  refine (reads_takeBounds2 rn b).bind ?_
  cases b with
  | false | true =>
    simp only [Bool.false_eq_true, reduceIte]
    exact (reads_takeEa h).map fun _ => rfl

theorem reads_cas {du dc : RegNum} (hea : eaFieldOf w = eaField ea) (hsz : w.extractLsb' 9 2 = casSizeField sz)
    (h : ea.wf cpu set sz = true) :
    Reads (parseRow cpu .cas w) ([0#7 ++ du ++ 0#3 ++ dc] ++ eaExtWords ea) (.cas sz du dc ea) := by
  unfold parseRow
  dsimp only
  rw [hea, hsz, casSizeOf_casSizeField]
  refine (reads_takeCas du dc).bind ?_
  dsimp only
  exact (reads_takeEa h).map fun _ => rfl

/-- The words after the operation word are read as the instruction by the parser of its row. -/
theorem reads_parseRow (h : i.wf cpu = true) : Reads (parseRow cpu (rowId i) (opWord i)) (followingWords i) i := by
  have hsize {sz : Size} (h : sizeBits i = some sz) : sizeOf ((opWord i).extractLsb' 6 2) = sz := by
    rw [opWord_sizeBits h, sizeOf_sizeField]
  have hreg {r : BitVec 3} := @opWord_regBits i r
  have hlow {r : BitVec 3} := @opWord_lowBits i r
  have hea {ea : Ea} := @eaFieldOf_opWord i ea
  cases i
  case addToReg | addToMem | addq | cmp | andToReg | andToMem =>
    exact reads_withEa (hea rfl) (hsize rfl) h (by rw [hsize rfl, hreg rfl])
  case clr => exact reads_withEa (hea rfl) (hsize rfl) h (by rw [hsize rfl])
  case adda l a ea | cmpa l a ea =>
    have hl : (opWord (.adda l a ea)).getLsbD 8 = l ∧ (opWord (.cmpa l a ea)).getLsbD 8 = l := by
      simp only [opWord, BitVec.getLsbD_append]
      simp
    exact reads_withEa (hea rfl) (by simp only [hl, wordOrLong]) h (by simp only [hl, hreg rfl])
  case addi | cmpi | andi => exact reads_withImmEa (hea rfl) (opWord_sizeBits rfl) h
  case btstReg | bchgReg | bclrReg | bsetReg | chkW => exact reads_withEa (hea rfl) rfl h (by rw [hreg rfl])
  case chkL => exact reads_withEa (hea rfl) rfl (Bool.and_eq_true_iff.mp h).2 (by rw [hreg rfl])
  case aslMem | asrMem => exact reads_withEa (hea rfl) rfl h rfl
  case btstImm | bchgImm | bclrImm | bsetImm => exact reads_withBitEa (hea rfl) h
  case bftst | bfchg | bfclr | bfset => exact reads_withBfEa (hea rfl) (Bool.and_eq_true_iff.mp h).2
  case bfextu | bfexts | bfffo | bfins => exact reads_withBfRegEa (hea rfl) (Bool.and_eq_true_iff.mp h).2
  case addx sz f x y =>
    have hf : (opWord (.addx sz f x y)).getLsbD 3 = (xformBit f).getLsbD 0 := by
      simp only [opWord, BitVec.getLsbD_append]
      simp
    exact reads_ok (by rw [hsize rfl, hreg rfl, hlow rfl, hf, xformOf_xformBit])
  case abcd f x y =>
    have hf : (opWord (.abcd f x y)).getLsbD 3 = (xformBit f).getLsbD 0 := by
      simp only [opWord, BitVec.getLsbD_append]
      simp
    exact reads_ok (by rw [hreg rfl, hlow rfl, hf, xformOf_xformBit])
  case cmpm => exact reads_ok (by rw [hsize rfl, hreg rfl, hlow rfl])
  case aslReg sz c r | asrReg sz c r =>
    have hir : (opWord (.aslReg sz c r)).getLsbD 5 = (shiftIr c).getLsbD 0 ∧
        (opWord (.asrReg sz c r)).getLsbD 5 = (shiftIr c).getLsbD 0 := by
      simp only [opWord, BitVec.getLsbD_append]
      simp
    exact reads_ok (by simp only [hsize rfl, hreg rfl, hlow rfl, hir, shiftCountOf_shiftNum])
  case bcc c off =>
    have hc : (opWord (.bcc c off)).extractLsb' 8 4 = condField c := by
      simp only [opWord, BitVec.extractLsb'_append_eq_ite]
      simp
    exact reads_branch BitVec.extractLsb'_append_eq_right h (by rw [hc, condOf_condField])
  case bra | bsr => exact reads_branch BitVec.extractLsb'_append_eq_right h rfl
  case andiToSr v => exact (reads_takeWord v).map fun _ => rfl
  case andiToCcr v => exact (reads_takeWord _).map fun _ => by simp only [BitVec.extractLsb'_append_eq_right]; rfl
  case bkpt => exact reads_ok (by rw [hlow rfl])
  case cmp2 sz rn ea =>
    have hread := reads_bounds2 (rn := rn) (b := false) (hea rfl) (opWord_boundsSize sz rn ea).1
      (Bool.and_eq_true_iff.mp h).2
    rwa [← boundsWord_cmp2] at hread
  case chk2 sz rn ea =>
    exact reads_bounds2 (b := true) (hea rfl) (opWord_boundsSize sz rn ea).2 (Bool.and_eq_true_iff.mp h).2
  case cas sz du dc ea =>
    exact reads_cas (hea rfl) (opWord_casSize sz du dc ea) (Bool.and_eq_true_iff.mp h).2
  case cas2W p1 p2 | cas2L p1 p2 =>
    refine (reads_takeCasPair p1).bind (vs := [casPairWord p2]) ?_
    dsimp only
    exact (reads_takeCasPair p2).map fun _ => rfl
  case cpBcc id l c =>
    have hl : (opWord (.cpBcc id l c)).getLsbD 6 = l := by
      simp only [opWord, BitVec.getLsbD_append]
      simp
    have hc : (opWord (.cpBcc id l c)).extractLsb' 0 6 = c := BitVec.extractLsb'_append_eq_right
    exact reads_ok (by rw [hreg rfl, hl, hc])
  case cpDBcc => exact reads_ok (by rw [hreg rfl, hlow rfl])
  case cpGen | cpRestore | cpSave | cpScc => exact reads_ok (by rw [hreg rfl, opWord, eaFieldOf_append])

/-! ## Decoding -/

theorem reads_decode (hdecode : ∀ ws, decode cpu (w :: ws) = parseRow cpu (rowId i) w ws)
    (h : Reads (parseRow cpu (rowId i) w) ws i) : Reads (decode cpu) (w :: ws) i where
  whole rest := (hdecode _).trans (h.whole rest)
  part us vs he hne := by
    cases us with
    | nil => rfl
    | cons u us =>
      obtain ⟨rfl, rfl⟩ := List.cons_eq_cons.mp he
      exact (hdecode us).trans (h.part us vs rfl hne)

/-- A line F instruction is encoded in a line F row and has a CP-ID other than 0. -/
theorem lineF_of_wf (h : i.wf cpu = true) (hrow : (rowId i).row ∈ lineFRows) :
    cpu.is020 = true ∧ (opWord i).extractLsb' 9 3 ≠ 0 := by
  have h020 : ∀ r ∈ lineFRows, r.needs020 = true := by decide
  refine ⟨is020_of_wf h (h020 _ hrow), ?_⟩
  have hreg {r : BitVec 3} := @opWord_regBits i r
  cases i
  case cpBcc | cpDBcc | cpGen =>
    rw [hreg rfl]
    exact bne_iff_ne.mp (Bool.and_eq_true_iff.mp h).2
  case cpRestore | cpSave | cpScc =>
    rw [hreg rfl]
    exact bne_iff_ne.mp (Bool.and_eq_true_iff.mp (Bool.and_eq_true_iff.mp h).1).2
  all_goals
    simp only [rowId] at hrow
    exact absurd hrow (by decide)

/-- The operation word of a well-formed instruction is read by the parser of its row. -/
theorem decode_opWord (h : i.wf cpu = true) (ws : List Word) :
    decode cpu (opWord i :: ws) = parseRow cpu (rowId i) (opWord i) ws := by
  obtain ⟨hmem, hid⟩ := RowId.row_mem (rowId i)
  rcases List.mem_append.mp hmem with hrow | hrow
  · have h020 : ((rowId i).row.needs020 && !cpu.is020) = false := by
      rw [Bool.and_eq_false_imp]
      intro hn
      rw [is020_of_wf h hn]
      rfl
    rw [decode_of_fits hrow (opWord_fits h), hid, h020]
    rfl
  · obtain ⟨hcpu, hne⟩ := lineF_of_wf h hrow
    rw [decode_of_fits_lineF hrow (opWord_fits h) hcpu hne, hid]

/-- The words of a well-formed instruction are read as it: all of them, and no word more. -/
theorem reads_encode (h : i.wf cpu = true) : Reads (decode cpu) (encode i) i :=
  reads_decode (decode_opWord h) (reads_parseRow h)

end

/-- Settles O1: the decoder reads an instruction from its own words. -/
theorem decodeEncodeRoundTrip : Obligations.DecodeEncodeRoundTrip := fun _ _ rest h => (reads_encode h).whole rest

theorem quickWord_eq_opWord (q n : BitVec 3) :
    0b0101#4 ++ q ++ 0b000000#6 ++ n = opWord (.addq .byte q (.dreg n)) ∧
    0b0101#4 ++ q ++ 0b001000#6 ++ n = opWord (.addq .word q (.dreg n)) ∧
    0b0101#4 ++ q ++ 0b010000#6 ++ n = opWord (.addq .long q (.dreg n)) := by
  revert q n
  decide

/-- Settles O5 by the round trip of ADDQ to a data register. -/
theorem quickDataField : Obligations.QuickDataField := by
  intro cpu q n ws
  have key (sz : Size) : decode cpu (opWord (.addq sz q (.dreg n)) :: ws) = .ok (.addq sz q (.dreg n), ws) :=
    decodeEncodeRoundTrip cpu (.addq sz q (.dreg n)) ws rfl
  obtain ⟨hbyte, hword, hlong⟩ := quickWord_eq_opWord q n
  refine ⟨hbyte ▸ key .byte, hword ▸ key .word, hlong ▸ key .long, rfl, fun hq => ?_⟩
  rw [Machine.quickVal, if_neg hq, BitVec.toNat_setWidth]
  omega

end Sys2Proof

namespace Sys2Proof.Machine

/-! ## Fetching -/

theorem State.pcPlus_succ (s : State) (k : Nat) : s.pcPlus k + 2 = s.pcPlus (k + 1) := by
  rw [State.pcPlus, State.pcPlus, BitVec.add_assoc, Nat.mul_add, BitVec.ofNat_add]
  rfl

/-- Words that stand in the program one after the other are fetched as what a parser reads them as: it asks for each in
turn, and for none after the last. -/
theorem fetchParse_of_reads {α : Type} {s : State} {parse : List Word → Except DecodeStop (α × List Word)}
    {ws : List Word} {x : α} (h : Reads parse ws x)
    (hfetch : ∀ k w, ws[k]? = some w → fetch16 s (s.pcPlus k) = .ok w) {fuel : Nat} {us vs : List Word}
    (hsplit : us ++ vs = ws) (hfuel : vs.length < fuel) :
    fetchParse s parse fuel (s.pcPlus us.length) us = .ok x := by
  induction vs generalizing us fuel with
  | nil =>
    obtain ⟨fuel, rfl⟩ := Nat.exists_eq_add_of_lt hfuel
    have hall : parse us = .ok (x, []) := by simpa [← hsplit] using h.whole []
    simp only [fetchParse, hall]
  | cons v vs ih =>
    cases fuel with
    | zero => cases hfuel
    | succ fuel =>
      have hmore : parse us = .error .needsMore := h.part us (v :: vs) hsplit (List.cons_ne_nil v vs)
      have hv : fetch16 s (s.pcPlus us.length) = .ok v := hfetch us.length v (by simp [← hsplit])
      have hrest := ih (us := us ++ [v]) (by simpa using hsplit) (Nat.lt_of_succ_lt_succ hfuel)
      rw [List.length_append] at hrest
      simp only [fetchParse, hmore, hv, State.pcPlus_succ]
      exact hrest

theorem immLen_le (sz : Size) : immLen sz ≤ 2 := by cases sz <;> decide

theorem dispLen_le (d : Disp) : dispLen d ≤ 2 := by cases d <;> simp [dispLen]

theorem indexExtLen_le (x : IndexExt) : indexExtLen x ≤ 5 := by
  cases x with
  | brief idx d8 => simp [indexExtLen]
  | full bs is idx bd ind =>
    have hbd := dispLen_le bd
    cases ind with
    | none => simp only [indexExtLen]; omega
    | pre od | post od =>
      have hod := dispLen_le od
      simp only [indexExtLen]
      omega

theorem eaLen_le (ea : Ea) : eaLen ea ≤ 5 := by
  cases ea with
  | index n x | pcindex x => exact indexExtLen_le x
  | imm v => exact (immLen_le v.size).trans (by decide)
  | dreg | areg | ind | postinc | predec | disp | absw | absl | pcdisp => simp [eaLen]

theorem ownWords_length_le (i : Instr) : (ownWords i).length ≤ 2 := by
  cases i
  case addi v _ | cmpi v _ | andi v _ => exact (Laws.EncodedLength.immWords_length v).trans_le (immLen_le v.size)
  case bcc _ off | bra off | bsr off =>
    cases off <;> simp [ownWords, branchWords, longWords]
  all_goals simp [ownWords]

/-- No instruction is longer than the fuel of a fetch. -/
theorem encode_length_le (i : Instr) : (encode i).length ≤ maxWords := by
  have hown := ownWords_length_le i
  rw [Laws.EncodedLength.encode_length i, instrLen, ownLen, maxWords]
  split
  case h_1 ea _ =>
    have hea := eaLen_le ea
    omega
  case h_2 => omega

/-- Settles O16: a fetch goes on for exactly as many words as the decoder reads. -/
theorem fetchReadsEncoding : Obligations.FetchReadsEncoding := by
  intro s i hwf hfetch hpriv
  have hpc : s.pcPlus 0 = s.pc := by simp [State.pcPlus]
  have hop : fetch16 s s.pc = .ok (opWord i) := hpc ▸ hfetch 0 (opWord i) rfl
  have hparse : fetchParse s (decode s.config.cpu) maxWords (s.pc + 2) [opWord i] = .ok i :=
    fetchParse_of_reads (us := [opWord i]) (reads_encode hwf) hfetch (encode_eq i).symm (encode_length_le i)
  simp only [fetchDecode, hop, bind, Except.bind]
  split
  case isTrue h =>
    have hsuper : s.supervisor = true := hpriv.resolve_right (not_not_intro h)
    simp only [privilegedCheck, hsuper, if_true, hparse]
  case isFalse => exact hparse

end Sys2Proof.Machine
end
section
/-! SUPPORT and PROOFS. The address of each addressing mode and how an operand is read. -/

namespace Sys2Proof.Machine

/-- Scaling an index by a shift is multiplying it (R116). -/
theorem shiftLeft_eq_mul (v : Long) (k : Nat) : v <<< k = v * BitVec.ofNat 32 (2 ^ k) := by
  apply BitVec.eq_of_toNat_eq
  simp only [BitVec.toNat_shiftLeft, BitVec.toNat_mul, BitVec.toNat_ofNat, Nat.shiftLeft_eq, Nat.mul_mod_mod]

theorem eaDecode_of_eaAddr {s u : State} {sz : Size} {pcx a : Long} {ea : Ea} (h : eaAddr s sz pcx ea = .ok (a, u)) :
    eaDecode s sz pcx ea = .ok (.mem a, u) := by
  cases ea with
  | dreg n | areg n | imm v => cases h
  | ind | postinc | predec | disp | index | absw | absl | pcdisp | pcindex =>
    simp only [eaDecode, h]
    rfl

section
variable {s u : State} {base p : Long} {bs is : Bool} {x : IndexReg} {bd od : Disp}

/-- The address of an indexed mode with memory indirection before the index is added (R117). -/
theorem indexedAddr_pre
    (h : memRead s .long ((if bs then 0 else base) + dispVal bd + (if is then 0 else indexVal s x)) = .ok (p, u)) :
    indexedAddr s base (.full bs is x bd (.pre od)) = .ok (p + dispVal od, u) := by
  simp only [indexedAddr, h]
  rfl

/-- The address of an indexed mode with memory indirection after which the index is added (R117). -/
theorem indexedAddr_post (h : memRead s .long ((if bs then 0 else base) + dispVal bd) = .ok (p, u)) :
    indexedAddr s base (.full bs is x bd (.post od)) = .ok (p + (if is then 0 else indexVal s x) + dispVal od, u) := by
  simp only [indexedAddr, h]
  rfl

end

/-- Settles O10, mode by mode; the two indexed modes share their address computation. -/
theorem effectiveAddressByMode : Obligations.EffectiveAddressByMode := by
  intro s sz own pcx base a n w d8 im x bs is bd od ext ea
  refine ⟨?_, ⟨rfl, rfl, rfl⟩, rfl, fun u h => ?_, rfl, rfl, rfl⟩
  · intro step idx b i
    have hstep : stepOf sz n = step := by
      unfold stepOf
      cases sz <;> rfl
    have hidx : indexVal s x = idx := shiftLeft_eq_mul _ _
    clear_value step idx
    subst hstep hidx
    refine ⟨⟨rfl, rfl, rfl, rfl, rfl, rfl, rfl⟩, fun hea => ?_⟩
    have haddr : eaAddr s sz pcx ea = indexedAddr s base ext := by
      rcases hea with ⟨rfl, rfl⟩ | ⟨rfl, rfl⟩ <;> rfl
    rw [haddr]
    refine ⟨?_, ?_, ?_, ?_⟩
    · rintro rfl
      rfl
    · rintro rfl
      rfl
    · rintro rfl p u h
      exact indexedAddr_pre h
    · rintro rfl p u h
      exact indexedAddr_post h
  · have hdec := eaDecode_of_eaAddr h
    refine ⟨hdec, ?_⟩
    simp only [eaRead, hdec]
    rfl

end Sys2Proof.Machine
end

section
/-! SUPPORT. How an instruction completes: from an operand that was read, and where it is changed one that was written,
to the next state it leads to. -/

namespace Sys2Proof.Machine

section
variable {s t u v : State} {sz : Size} {own : Nat} {ea : Ea} {loc : Loc} {x pcx : Long}

/-- An instruction that kept the pc goes on after its own words (R27). -/
theorem advanceEa_eq_setPc (own : Nat) (ea : Ea) (h : t.pc = s.pc) :
    advanceEa t own ea = t.setPc (s.pc + BitVec.ofNat 32 (2 * (own + eaLen ea))) := by
  simp only [advanceEa, State.advance, State.pcPlus, h]

theorem advanceEa_setCcr (own : Nat) (ea : Ea) (f : Ccr) (h : t.pc = s.pc) :
    advanceEa (t.setCcr f) own ea = (t.setCcr f).setPc (s.pc + BitVec.ofNat 32 (2 * (own + eaLen ea))) :=
  advanceEa_eq_setPc own ea h

/-- An instruction of one word that kept the pc goes on two bytes further (R27). -/
theorem advance_one_eq_setPc (h : t.pc = s.pc) : t.advance 1 = t.setPc (s.pc + 2) := by
  simp only [State.advance, State.pcPlus, h]
  rfl

theorem advance_one_setCcr (f : Ccr) (h : t.pc = s.pc) : (t.setCcr f).advance 1 = (t.setCcr f).setPc (s.pc + 2) :=
  advance_one_eq_setPc h

/-- An instruction goes on past a part of it that answered. -/
theorem finish_bind_ok {α : Type} {y : Except Stop α} {a : α} (f : α → Except Stop State) (h : y = .ok a) :
    finish s (y >>= f) = finish s (f a) := by
  rw [h]
  rfl

/-- An instruction goes on past whichever of two parts it takes. -/
theorem finish_ite_bind_ok {α : Type} {p : Prop} [Decidable p] {y z : Except Stop α} {a : α}
    (f : α → Except Stop State) (h : (if p then y else z) = .ok a) :
    finish s (if p then y >>= f else z >>= f) = finish s (f a) := by
  rw [← finish_bind_ok f h]
  split <;> rfl

@[simp] theorem State.setDLow_trunc (s : State) (sz : Size) (n : RegNum) (v : Long) :
    s.setDLow sz n (trunc sz v) = s.setDLow sz n v := by
  simp only [State.setDLow, mergeLow_trunc]

theorem eaDecode_pc (h : eaDecode s sz pcx ea = .ok (loc, u)) : u.pc = s.pc :=
  (eaDecode_spec h).1.pc.trans (eaSideEffect_pc s sz ea)

theorem eaDecode_ccr (h : eaDecode s sz pcx ea = .ok (loc, u)) : u.ccr = s.ccr :=
  (eaDecode_spec h).1.ccr.trans (eaSideEffect_ccr s sz ea)

theorem eaRead_pc (h : eaRead s sz own ea = .ok (x, u)) : u.pc = s.pc :=
  (eaRead_spec h).pc.trans (eaSideEffect_pc s sz ea)

theorem eaRead_ccr (h : eaRead s sz own ea = .ok (x, u)) : u.ccr = s.ccr :=
  (eaRead_spec h).ccr.trans (eaSideEffect_ccr s sz ea)

theorem eaRead_getD (h : eaRead s sz own ea = .ok (x, u)) (n : RegNum) : u.getD n = s.getD n :=
  State.getD_congr ((eaRead_spec h).d.trans (eaSideEffect_d s sz ea)) n

theorem eaPut_pc (h : eaPut s sz loc x = .ok t) : t.pc = s.pc := by
  obtain ⟨n, -, rfl⟩ | ⟨n, -, rfl⟩ | ⟨a, -, hw⟩ := eaPut_spec h
  · simp
  · simp
  · exact hw.pc

theorem eaPut_ccr (h : eaPut s sz loc x = .ok t) : t.ccr = s.ccr := by
  obtain ⟨n, -, rfl⟩ | ⟨n, -, rfl⟩ | ⟨a, -, hw⟩ := eaPut_spec h
  · simp
  · simp
  · exact hw.ccr

/-- An instruction that reads its operand completes once it is read. -/
theorem withOperand_completes (use : Long → State → State) (hread : eaRead s sz own ea = .ok (x, u))
    (hpc : (use x u).pc = u.pc) :
    finish s (withOperand s sz own ea use) =
      .next ((use x u).setPc (s.pc + BitVec.ofNat 32 (2 * (own + eaLen ea)))) := by
  rw [withOperand_ok use hread, advanceEa_eq_setPc own ea (hpc.trans (eaRead_pc hread))]
  rfl

/-- An instruction that changes its operand completes once it is read and the result written. -/
theorem modifyOperand_completes (f : Long → Ccr → Long × Ccr) (hdec : eaDecode s sz (s.pcPlus own) ea = .ok (loc, u))
    (hget : eaGet u sz loc = .ok (x, v)) (hput : eaPut v sz loc (f x s.ccr).1 = .ok t) :
    finish s (modifyOperand s sz own ea f) =
      .next ((t.setCcr (f x s.ccr).2).setPc (s.pc + BitVec.ofNat 32 (2 * (own + eaLen ea)))) := by
  have hccr : v.ccr = s.ccr := (eaGet_spec hget).ccr.trans (eaDecode_ccr hdec)
  have hpc : t.pc = s.pc := (eaPut_pc hput).trans ((eaGet_spec hget).pc.trans (eaDecode_pc hdec))
  have hrun : modifyOperand s sz own ea f = .ok (advanceEa (t.setCcr (f x v.ccr).2) own ea) :=
    modifyOperand_ok hdec hget (by rwa [hccr])
  rw [hrun, hccr, advanceEa_setCcr own ea _ hpc]
  rfl

end

end Sys2Proof.Machine
end

section
/-! SUPPORT and PROOFS. The bounds test against modular arithmetic, the flags of ADDX against exact integers, and every
arithmetic instruction from its operands to its next state. -/

namespace Sys2Proof.Machine

/-! ## The bounds test -/

/-- The unsigned value of a difference is the exact difference, or the modulus more where that is negative. -/
theorem uval_sub_cases (sz : Size) (a b : Long) :
    (uval sz b ≤ uval sz a ∧ uval sz (a - b) + uval sz b = uval sz a) ∨
      (uval sz a < uval sz b ∧ uval sz (a - b) + uval sz b = uval sz a + 2 ^ sz.bits) := by
  have ha := a.isLt
  have hb := b.isLt
  simp only [uval_eq_mod, BitVec.toNat_sub]
  cases sz with
  | byte | word | long => simp only [Size.bits]; omega

/-- The signed value is the unsigned one, or the modulus less from half of it on. -/
theorem sval_cases (sz : Size) (v : Long) :
    (2 * uval sz v < 2 ^ sz.bits ∧ sval sz v = uval sz v) ∨
      (2 ^ sz.bits ≤ 2 * uval sz v ∧ sval sz v = uval sz v - (2 ^ sz.bits : Nat)) := by
  have hmod : sval sz v = (uval sz v : Int).bmod (2 ^ sz.bits) := by
    rw [sval_eq_bmod, BitVec.toInt_eq_toNat_bmod, Int.bmod_bmod_of_dvd (two_pow_bits_dvd sz), uval_eq_mod,
      Int.natCast_emod, Int.emod_bmod]
  have hlt := uval_lt sz v
  by_cases hhalf : 2 * uval sz v < 2 ^ sz.bits
  · exact .inl ⟨hhalf, by rw [hmod, Int.bmod_eq_of_le_mul_two] <;> omega⟩
  · refine .inr ⟨by omega, ?_⟩
    rw [hmod, ← Int.sub_bmod_right, Int.bmod_eq_of_le_mul_two] <;> omega

section
variable {sz : Size} {lo hi : Long} (r : Long)

/-- Outside bounds ordered as signed numbers is further above the lower bound than the upper bound is, modulo the size
(R172). -/
theorem outside_signed_iff (h : sval sz lo ≤ sval sz hi) :
    (sval sz r < sval sz lo ∨ sval sz r > sval sz hi) ↔ uval sz (r - lo) > uval sz (hi - lo) := by
  have hr := uval_lt sz r
  have hhi := uval_lt sz hi
  have hsr := sval_cases sz r
  have hslo := sval_cases sz lo
  have hshi := sval_cases sz hi
  have hdr := uval_sub_cases sz r lo
  have hdhi := uval_sub_cases sz hi lo
  omega

/-- The same for bounds ordered as unsigned numbers (R172). -/
theorem outside_unsigned_iff (h : uval sz lo ≤ uval sz hi) :
    (uval sz r < uval sz lo ∨ uval sz r > uval sz hi) ↔ uval sz (r - lo) > uval sz (hi - lo) := by
  have hr := uval_lt sz r
  have hhi := uval_lt sz hi
  have hdr := uval_sub_cases sz r lo
  have hdhi := uval_sub_cases sz hi lo
  omega

theorem outOfBounds_signed (h : sval sz lo ≤ sval sz hi) :
    outOfBounds sz r lo hi = some (decide (sval sz r < sval sz lo ∨ sval sz r > sval sz hi)) := by
  rw [outOfBounds, if_pos h, Bool.decide_or]

theorem outOfBounds_unsigned (hs : ¬ sval sz lo ≤ sval sz hi) (hu : uval sz lo ≤ uval sz hi) :
    outOfBounds sz r lo hi = some (decide (uval sz r < uval sz lo ∨ uval sz r > uval sz hi)) := by
  rw [outOfBounds, if_neg hs, if_pos hu, Bool.decide_or]

theorem outOfBounds_none (hs : ¬ sval sz lo ≤ sval sz hi) (hu : ¬ uval sz lo ≤ uval sz hi) :
    outOfBounds sz r lo hi = none := by
  rw [outOfBounds, if_neg hs, if_neg hu]

/-- Every answer of the bounds test is that of the modular test. -/
theorem outOfBounds_modular {c : Bool} (h : outOfBounds sz r lo hi = some c) :
    c = decide (uval sz (r - lo) > uval sz (hi - lo)) := by
  by_cases hs : sval sz lo ≤ sval sz hi
  · rw [outOfBounds_signed r hs, Option.some.injEq] at h
    rw [← h, decide_eq_decide]
    exact outside_signed_iff r hs
  · by_cases hu : uval sz lo ≤ uval sz hi
    · rw [outOfBounds_unsigned r hs hu, Option.some.injEq] at h
      rw [← h, decide_eq_decide]
      exact outside_unsigned_iff r hu
    · rw [outOfBounds_none r hs hu] at h
      cases h

end

/-- Settles O32: both orders of the bounds give the modular test, so they agree where both apply. -/
theorem outOfBoundsIsModular : Obligations.OutOfBoundsIsModular := fun _ r _ _ =>
  ⟨outOfBounds_signed r, outOfBounds_unsigned r, outOfBounds_none r,
    fun hs hu => (outside_signed_iff r hs).trans (outside_unsigned_iff r hu).symm, fun _ => outOfBounds_modular r⟩

/-! ## ADDX -/

/-- A carry-in is its own signed value at every size. -/
theorem sval_bit (sz : Size) (c : Bool) : sval sz (BitVec.ofNat 32 (bit c)) = bit c := by
  cases sz <;> cases c <;> decide

/-- The signed value of a sum with a carry-in is the balanced remainder of the exact sum. -/
theorem sval_addValue (sz : Size) (a b : Long) (c : Bool) :
    sval sz (addValue sz a b c) = (sval sz a + sval sz b + bit c).bmod (2 ^ sz.bits) := by
  rw [addValue, sval, sext_trunc, ← sval, sval_add, sval_add, sval_bit, Int.bmod_add_bmod]

/-- The overflow says that the signed sum at the size, carry-in included, is not the exact sum. -/
theorem addOvf_iff_sval (sz : Size) (a b : Long) (c : Bool) :
    addOvf sz a b c = true ↔ sval sz (addValue sz a b c) ≠ sval sz a + sval sz b + bit c := by
  rw [sval_addValue, ← outsideSigned_iff, addOvf]

theorem addxFlags_c (sz : Size) (src dst : Long) (old : Ccr) :
    (addxFlags sz src dst old).c = true ↔ uval sz src + uval sz dst + (if old.x then 1 else 0) ≥ 2 ^ sz.bits :=
  decide_eq_true_iff

theorem addxFlags_v (sz : Size) (src dst : Long) (old : Ccr) :
    (addxFlags sz src dst old).v = true ↔
      sval sz (addValue sz src dst old.x) ≠ sval sz src + sval sz dst + (if old.x then 1 else 0) := by
  have hbit : ((bit old.x : Nat) : Int) = if old.x then 1 else 0 := by cases old.x <;> rfl
  rw [← hbit]
  exact addOvf_iff_sval sz src dst old.x

theorem addxFlags_z (sz : Size) (src dst : Long) (old : Ccr) :
    (addxFlags sz src dst old).z = true ↔ old.z = true ∧ uval sz (addValue sz src dst old.x) = 0 := by
  rw [addxFlags, Bool.and_eq_true, isZero_iff, and_comm]

theorem addValue_eq_ite (sz : Size) (src dst : Long) (c : Bool) :
    addValue sz src dst c = trunc sz (src + dst + (if c then 1 else 0)) := by
  cases c <;> rfl

theorem execAddx_predec_completes {s u t : State} {sz : Size} {x y : RegNum} {src dst : Long}
    (hpair : predecPair s sz x y = .ok ((src, dst), u))
    (hwrite : memWrite u sz (predecDest s sz x y) (addValue sz src dst s.ccr.x) = .ok t) :
    execAddx sz .predec x y s = .next ((t.setCcr (addxFlags sz src dst s.ccr)).setPc (s.pc + 2)) := by
  obtain ⟨hread, hdest⟩ := predecPair_spec hpair
  have hpc : t.pc = s.pc := by simpa using (memWrite_spec hwrite).pc.trans hread.pc
  rw [← hdest] at hwrite
  rw [← advance_one_setCcr _ hpc]
  exact (finish_bind_ok _ hpair).trans (finish_bind_ok _ hwrite)

/-- Settles O36: the register form by its definition, the memory form from its reads and its write, the flags one by
one. -/
theorem addxCompletes : Obligations.AddxCompletes := fun _ _ _ sz _ _ src dst old =>
  ⟨rfl, execAddx_predec_completes, addValue_eq_ite sz src dst old.x, addxFlags_c sz src dst old, rfl,
    addxFlags_v sz src dst old, msb_iff_sval_neg sz _, addxFlags_z sz src dst old⟩

/-! ## CMP2 -/

/-- Settles O39: the reads change address registers and the device log alone, the flags are those of the bounds. -/
theorem cmp2Completes : Obligations.Cmp2Completes := by
  intro s u sz rn ea lo hi hread
  have hu := readBounds_spec hread
  obtain ⟨k, f, hflags, hx, hz, hc⟩ := boundsFlags_spec u sz rn lo hi
  have hpc : (boundsFlags u sz rn lo hi).pc = s.pc := by
    rw [hflags]
    exact hu.pc.trans (eaSideEffect_pc s sz ea)
  have hrun : execCmp2 sz rn ea s = .next (advanceEa (boundsFlags u sz rn lo hi) 2 ea) := by
    rw [execCmp2, finish_bind_ok _ hread]
    rfl
  rw [advanceEa_eq_setPc 2 ea hpc, hflags] at hrun
  refine ⟨_, hrun, rfl, hu.d.trans (eaSideEffect_d s sz ea), rfl, ⟨rfl, rfl, rfl⟩,
    hu.mem.trans (eaSideEffect_mem s sz ea), hx.trans ?_, ?_, hc⟩
  · rw [hu.ccr, eaSideEffect_ccr]
  · simp only [State.setPc_ccr, hz, uval_inj, Bool.or_eq_true, beq_iff_eq]

/-! ## ADD, ADDA, ADDI and ADDQ -/

section
variable {s u v t : State} {sz : Size} {own : Nat} {ea : Ea} {loc : Loc} {x : Long}

/-- An addition to an operand in place completes with the sum and its flags. -/
theorem addInPlace_completes (n : Long) (hdec : eaDecode s sz (s.pcPlus own) ea = .ok (loc, u))
    (hget : eaGet u sz loc = .ok (x, v)) (hput : eaPut v sz loc (trunc sz (n + x)) = .ok t) :
    finish s (modifyOperand s sz own ea fun dst _ => (addValue sz n dst false, addFlags sz n dst)) =
      .next ((t.setCcr (addFlags sz n x)).setPc (s.pc + BitVec.ofNat 32 (2 * (own + eaLen ea)))) :=
  modifyOperand_completes _ hdec hget (by rwa [addValue_false])

theorem execAddToReg_completes (r : RegNum) (hread : eaRead s sz 1 ea = .ok (x, u)) :
    execAddToReg sz r ea s = .next (((u.setDLow sz r (x + u.getD r)).setCcr (addFlags sz x (u.getD r))).setPc
      (s.pc + BitVec.ofNat 32 (2 * (1 + eaLen ea)))) := by
  rw [execAddToReg, withOperand_completes _ hread rfl, addValue_false, State.setDLow_trunc]

theorem execAdda_completes {isLong : Bool} (n : RegNum) (hread : eaRead s (wordOrLong isLong) 1 ea = .ok (x, u)) :
    execAdda isLong n ea s = .next ((u.setA n (u.getA n + sext (wordOrLong isLong) x)).setPc
      (s.pc + BitVec.ofNat 32 (2 * (1 + eaLen ea)))) :=
  withOperand_completes _ hread (State.setA_pc u n _)

/-- Settles O34: the register form by its read, the memory forms as additions in place. -/
theorem addCompletes : Obligations.AddCompletes := fun s _ _ _ _ r im _ _ _ =>
  ⟨execAddToReg_completes r, addInPlace_completes (s.getD r), addInPlace_completes (immVal im)⟩

/-- Settles O35: ADDA by its read, ADDQ to an address register by its definition, else as an addition in place. -/
theorem addressAndQuickAddComplete : Obligations.AddressAndQuickAddComplete := by
  intro s u v t sz isLong n q ea loc x
  refine ⟨execAdda_completes n, ?_, fun hea hdec hget hput => ?_⟩
  · exact congrArg Host.Outcome.next (advance_one_eq_setPc (State.setA_pc s n _))
  · exact (execAddq_operand sz q s hea).trans (addInPlace_completes (quickVal q) hdec hget hput)

/-! ## CLR -/

theorem clrReads_iff (cpu : Cpu) : clrReads cpu = true ↔ cpu = .mc68000 ∨ cpu = .mc68hc000 := by
  cases cpu <;> decide

/-- CLR completes once its destination is decoded, read where the member reads it, and written. -/
theorem execClr_completes (hdec : eaDecode s sz (s.pcPlus 1) ea = .ok (loc, u))
    (hget : (if loc.isMem && clrReads s.config.cpu then eaGet u sz loc else .ok (0, u)) = .ok (x, v))
    (hput : eaPut v sz loc 0 = .ok t) :
    execClr sz ea s = .next ((t.setCcr ⟨s.ccr.x, false, true, false, false⟩).setPc
      (s.pc + BitVec.ofNat 32 (2 * (1 + eaLen ea)))) := by
  have hv : SameButDevice u v := by
    split at hget
    · exact eaGet_spec hget
    · cases hget
      exact .refl u
  have hpc : t.pc = s.pc := (eaPut_pc hput).trans (hv.pc.trans (eaDecode_pc hdec))
  have hccr : t.ccr = s.ccr := (eaPut_ccr hput).trans (hv.ccr.trans (eaDecode_ccr hdec))
  have hrun : execClr sz ea s = .next (advanceEa (t.setCcr (clrFlags t.ccr)) 1 ea) :=
    (finish_bind_ok _ hdec).trans ((finish_ite_bind_ok _ hget).trans (finish_bind_ok _ hput))
  rw [hrun, hccr, advanceEa_setCcr 1 ea _ hpc, clrFlags]

/-- Settles O37: each form is CLR of a decoded destination, the member saying whether it is read first. -/
theorem clrCompletes : Obligations.ClrCompletes := by
  intro s u v t sz n ea a x
  refine ⟨execClr_completes rfl rfl rfl, fun haddr h0 h1 hwrite => ?_, fun haddr hcpu hread hwrite => ?_⟩
  · have hcpu : clrReads s.config.cpu = false := by
      rw [← Bool.not_eq_true, clrReads_iff]
      exact not_or.mpr ⟨h0, h1⟩
    exact execClr_completes (eaDecode_of_eaAddr haddr) (if_neg (by simp [hcpu])) hwrite
  · have hcpu : clrReads s.config.cpu = true := (clrReads_iff _).mpr hcpu
    exact execClr_completes (eaDecode_of_eaAddr haddr) ((if_pos (by simp [Loc.isMem, hcpu])).trans hread) hwrite

/-! ## CMP, CMPA, CMPI and CMPM -/

theorem execCmp_completes (n : RegNum) (hread : eaRead s sz 1 ea = .ok (x, u)) :
    execCmp sz n ea s = .next ((u.setCcr (cmpFlags sz x (s.getD n) s.ccr)).setPc
      (s.pc + BitVec.ofNat 32 (2 * (1 + eaLen ea)))) := by
  rw [execCmp, withOperand_completes _ hread rfl, eaRead_getD hread, eaRead_ccr hread]

theorem execCmpa_completes {isLong : Bool} (n : RegNum) (hread : eaRead s (wordOrLong isLong) 1 ea = .ok (x, u)) :
    execCmpa isLong n ea s = .next ((u.setCcr (cmpFlags .long (sext (wordOrLong isLong) x) (u.getA n) s.ccr)).setPc
      (s.pc + BitVec.ofNat 32 (2 * (1 + eaLen ea)))) := by
  rw [execCmpa, withOperand_completes _ hread rfl, eaRead_ccr hread]

theorem execCmpi_completes {im : Imm} (hread : eaRead s im.size (1 + immLen im.size) ea = .ok (x, u)) :
    execCmpi im ea s = .next ((u.setCcr (cmpFlags im.size (immVal im) x s.ccr)).setPc
      (s.pc + BitVec.ofNat 32 (2 * (1 + immLen im.size + eaLen ea)))) := by
  rw [execCmpi, withOperand_completes _ hread rfl, eaRead_ccr hread]

/-- A[x] is read after A[y] has moved, so CMPM of a register with itself reads two operands in a row (R74). -/
theorem execCmpm_completes {n y : RegNum} {z : Long} (hsrc : memRead s sz (s.getA y) = .ok (x, u))
    (hdst : memRead (u.setA y (s.getA y + stepOf sz y)) sz ((s.setA y (s.getA y + stepOf sz y)).getA n) = .ok (z, v)) :
    execCmpm sz n y s = .next (((v.setA n ((s.setA y (s.getA y + stepOf sz y)).getA n + stepOf sz n)).setCcr
      (cmpFlags sz x z s.ccr)).setPc (s.pc + 2)) := by
  have hu := memRead_spec hsrc
  have hv := memRead_spec hdst
  have hmoved : (u.setA y (s.getA y + stepOf sz y)).getA n = (s.setA y (s.getA y + stepOf sz y)).getA n :=
    (State.setA_congr_device y _ hu).getA n
  have hpc : v.pc = s.pc := hv.pc.trans ((State.setA_pc _ _ _).trans hu.pc)
  have hccr : v.ccr = s.ccr := hv.ccr.trans ((State.setA_ccr _ _ _).trans hu.ccr)
  rw [← hmoved, ← hu.getA y] at hdst
  have hrun : execCmpm sz n y s = .next (((v.setA n (v.getA n + stepOf sz n)).setCcr
      (cmpFlags sz x z (v.setA n (v.getA n + stepOf sz n)).ccr)).advance 1) := by
    rw [execCmpm, finish_bind_ok _ hsrc]
    dsimp only
    rw [finish_bind_ok _ hdst]
    rfl
  rw [hrun, advance_one_setCcr (s := s) _ ((State.setA_pc _ _ _).trans hpc), State.setA_ccr, hccr, hv.getA n, hmoved]

/-- Settles O38, form by form. -/
theorem compareCompletes : Obligations.CompareCompletes := fun _ _ _ _ _ n _ _ _ _ _ =>
  ⟨execCmp_completes n, execCmpa_completes n, execCmpi_completes, execCmpm_completes⟩

end

/-! ## The Example lines -/

/-- Settles O3, line by line. -/
theorem exampleWordsDecode : Obligations.ExampleWordsDecode :=
  ⟨rfl, rfl, rfl, rfl, rfl, rfl, rfl, rfl, rfl, rfl, rfl, rfl⟩

end Sys2Proof.Machine
end

section
/-! SUPPORT and PROOFS. The logic instructions: the flags bit by bit, and AND and ANDI from their operands to their next
state. -/

namespace Sys2Proof.Machine

/-- A value is zero at a size when each bit below the size is clear. -/
theorem isZero_iff_getLsbD (sz : Size) (v : Long) :
    isZero sz v = true ↔ ∀ j, j < sz.bits → v.getLsbD j = false := by
  rw [isZero, beq_iff_eq]
  constructor
  · intro hzero j hj
    have hbit : (trunc sz v).getLsbD j = false := by
      rw [hzero]
      exact BitVec.getLsbD_zero
    simpa [getLsbD_trunc, hj] using hbit
  · intro hbits
    apply BitVec.eq_of_getLsbD_eq
    intro j _
    simpa [getLsbD_trunc] using hbits j

/-- Settles O33, flag by flag. -/
theorem logicFlagRule : Obligations.LogicFlagRule := fun sz res _ =>
  ⟨rfl, msb_eq sz res, isZero_iff_getLsbD sz res, rfl, rfl⟩

section
variable {s u v t : State} {sz : Size} {own : Nat} {ea : Ea} {loc : Loc} {x : Long}

/-- AND into a data register completes with the register and the flags it had before the read, which changes neither. -/
theorem execAndToReg_completes (r : RegNum) (hread : eaRead s sz 1 ea = .ok (x, u)) :
    execAndToReg sz r ea s = .next (((u.setDLow sz r (x &&& s.getD r)).setCcr
      (logicFlags sz (x &&& s.getD r) s.ccr)).setPc (s.pc + BitVec.ofNat 32 (2 * (1 + eaLen ea)))) := by
  rw [execAndToReg, withOperand_completes _ hread rfl, eaRead_getD hread, eaRead_ccr hread]

/-- An AND with an operand in place completes with the logic flags of what it writes. -/
theorem andInPlace_completes (n : Long) (hdec : eaDecode s sz (s.pcPlus own) ea = .ok (loc, u))
    (hget : eaGet u sz loc = .ok (x, v)) (hput : eaPut v sz loc (x &&& n) = .ok t) :
    finish s (modifyOperand s sz own ea fun dst f => (dst &&& n, logicFlags sz (dst &&& n) f)) =
      .next ((t.setCcr (logicFlags sz (x &&& n) s.ccr)).setPc
        (s.pc + BitVec.ofNat 32 (2 * (own + eaLen ea)))) :=
  modifyOperand_completes _ hdec hget hput

end

/-- Settles O40: the register form by its read, the memory form and ANDI as an AND in place. -/
theorem andCompletes : Obligations.AndCompletes := fun s _ _ _ _ r im _ _ _ =>
  ⟨execAndToReg_completes r, andInPlace_completes (s.getD r), andInPlace_completes (immVal im)⟩

end Sys2Proof.Machine
end

section
/-! SUPPORT and PROOFS. ASL and ASR: the loops of R220 and R221 against their closed forms, for every count, and from
these the register forms and the memory forms. -/

namespace Sys2Proof.Machine

/-! ## Values at a size, bit by bit -/

theorem bits_pos (sz : Size) : 0 < sz.bits := by cases sz <;> decide

theorem bits_le (sz : Size) : sz.bits ≤ 32 := by cases sz <;> decide

/-- Sign extension repeats the top bit of the size in every bit above it. -/
theorem getLsbD_sext (sz : Size) (v : Long) (i : Nat) (hi : i < 32) :
    (sext sz v).getLsbD i = v.getLsbD (min i (sz.bits - 1)) := by
  cases sz with
  | byte | word =>
    simp only [sext, Size.bits, BitVec.getLsbD_signExtend, BitVec.msb_eq_getLsbD_last, BitVec.getLsbD_extractLsb', hi]
    split
    · rw [Nat.min_eq_left (by omega)]
      simp [*]
    · rw [Nat.min_eq_right (by omega)]
      simp
  | long => rw [sext, Nat.min_eq_left (by simp only [Size.bits]; omega)]

/-- A signed shift to the right reads the bit so much higher, and the sign where there is none. -/
theorem getLsbD_sshiftRight_sext (sz : Size) (v : Long) (k i : Nat) (hi : i < 32) :
    ((sext sz v).sshiftRight k).getLsbD i = v.getLsbD (min (k + i) (sz.bits - 1)) := by
  have := bits_le sz
  rw [BitVec.getLsbD_sshiftRight, BitVec.msb_eq_getLsbD_last, getLsbD_sext sz v (32 - 1) (by decide),
    decide_eq_false (by omega), Bool.not_false, Bool.true_and]
  split
  next h => exact getLsbD_sext sz v (k + i) h
  next => rw [show min (32 - 1) (sz.bits - 1) = min (k + i) (sz.bits - 1) by omega]

/-- A signed shift to the right stays within the signed numbers of the size. -/
theorem sext_sshiftRight_sext (sz : Size) (v : Long) (k : Nat) :
    sext sz ((sext sz v).sshiftRight k) = (sext sz v).sshiftRight k := by
  apply BitVec.eq_of_getLsbD_eq
  intro i hi
  have := bits_le sz
  rw [getLsbD_sext sz _ i hi, getLsbD_sshiftRight_sext sz v k _ (by omega), getLsbD_sshiftRight_sext sz v k i hi,
    show min (k + min i (sz.bits - 1)) (sz.bits - 1) = min (k + i) (sz.bits - 1) by omega]

@[simp] theorem trunc_sext (sz : Size) (v : Long) : trunc sz (sext sz v) = trunc sz v := by
  apply BitVec.eq_of_getLsbD_eq
  intro i hi
  rw [getLsbD_trunc, getLsbD_trunc, getLsbD_sext sz v i hi]
  by_cases h : i < sz.bits
  · rw [show min i (sz.bits - 1) = i by omega]
  · simp [h]

/-- The low bits of a value shifted to the left come from its low bits. -/
@[simp] theorem trunc_trunc_shiftLeft (sz : Size) (v : Long) (k : Nat) :
    trunc sz (trunc sz v <<< k) = trunc sz (v <<< k) := by
  apply BitVec.eq_of_getLsbD_eq
  intro i _
  simp only [getLsbD_trunc, BitVec.getLsbD_shiftLeft]
  by_cases h : i < sz.bits
  · simp [h, show i - k < sz.bits by omega]
  · simp [h]

/-- The low bits of a merged register are the new ones. -/
@[simp] theorem trunc_mergeLow (sz : Size) (old new : Long) : trunc sz (mergeLow sz old new) = trunc sz new := by
  apply BitVec.eq_of_getLsbD_eq
  intro i hi
  rw [getLsbD_trunc, getLsbD_trunc, getLsbD_mergeLow sz old new i hi]
  by_cases h : i < sz.bits <;> simp [h]

@[simp] theorem isZero_trunc (sz : Size) (v : Long) : isZero sz (trunc sz v) = isZero sz v := by
  simp only [isZero, trunc_trunc]

/-- The top bit after a shift to the left, while a bit of the operand is left to be it. -/
theorem msb_shiftLeft (sz : Size) (v : Long) (k : Nat) :
    msb sz (v <<< k) = (decide (k < sz.bits) && v.getLsbD (sz.bits - 1 - k)) := by
  have := bits_pos sz
  have := bits_le sz
  rw [msb_eq, BitVec.getLsbD_shiftLeft]
  by_cases h : k < sz.bits
  · simp [h, show sz.bits - 1 < 32 by omega, show ¬ sz.bits - 1 < k by omega]
  · simp [h, show sz.bits - 1 < k by omega]

/-! ## The loop -/

section
variable {once : ShiftAcc → ShiftAcc} (sz : Size) (v : Long) (x : Bool) (k : Nat)

/-- The loop's last step is one more shift of what the steps before it gave. -/
theorem shiftLoop_succ (p : ShiftAcc) : shiftLoop once (k + 1) p = once (shiftLoop once k p) := by
  induction k generalizing p with
  | zero => rfl
  | succ k ih => exact ih (once p)

theorem shiftResult_succ : shiftResult once (k + 1) sz v x = once (shiftResult once k sz v x) := shiftLoop_succ k _

/-- X is the last bit out, and the old X when no bit went out. -/
theorem shiftResult_x (honce : ∀ p, (once p).x = (once p).c) :
    (shiftResult once k sz v x).x = if k = 0 then x else (shiftResult once k sz v x).c := by
  cases k with
  | zero => rfl
  | succ k => rw [shiftResult_succ, honce, if_neg (Nat.succ_ne_zero k)]

/-! ## Arithmetic shift to the left -/

theorem asl_v : (shiftResult (aslOnce sz) k sz v x).v = trunc sz (v <<< k) := by
  induction k with
  | zero => simp [shiftResult, shiftLoop]
  | succ k ih => rw [shiftResult_succ, aslOnce, ih, trunc_trunc_shiftLeft, BitVec.shiftLeft_add]

/-- C is the last bit out at the top: none for a count of 0 or above the size. -/
theorem asl_c : (shiftResult (aslOnce sz) k sz v x).c =
    (decide (0 < k) && decide (k ≤ sz.bits) && v.getLsbD (sz.bits - k)) := by
  cases k with
  | zero => rfl
  | succ k =>
    rw [shiftResult_succ, aslOnce, asl_v, msb_trunc, msb_shiftLeft, Nat.sub_sub, Nat.add_comm 1 k]
    simp

/-- V after one more step: the top bit it leaves is compared with the one it met. -/
theorem asl_ov_succ : (shiftResult (aslOnce sz) (k + 1) sz v x).ov =
    ((shiftResult (aslOnce sz) k sz v x).ov || (msb sz (v <<< (k + 1)) != msb sz (v <<< k))) := by
  rw [shiftResult_succ, aslOnce, asl_v, ← msb_trunc sz (trunc sz _ <<< 1), trunc_trunc_shiftLeft,
    ← BitVec.shiftLeft_add, msb_trunc, msb_trunc]

/-- V compares each top bit with the one before it, which comes to comparing each with the first. -/
theorem asl_ov : (shiftResult (aslOnce sz) k sz v x).ov = true ↔
    ∃ j, 1 ≤ j ∧ j ≤ k ∧ msb sz (v <<< j) ≠ msb sz v := by
  induction k with
  | zero =>
    refine iff_of_false Bool.false_ne_true ?_
    rintro ⟨j, hpos, hle, -⟩
    omega
  | succ k ih =>
    rw [asl_ov_succ, Bool.or_eq_true, bne_iff_ne, ih]
    by_cases hsame : ∃ j, 1 ≤ j ∧ j ≤ k ∧ msb sz (v <<< j) ≠ msb sz v
    · obtain ⟨j, hpos, hle, hne⟩ := hsame
      exact iff_of_true (.inl ⟨j, hpos, hle, hne⟩) ⟨j, hpos, by omega, hne⟩
    · have hlast : msb sz (v <<< k) = msb sz v := by
        obtain rfl | hk := Nat.eq_zero_or_pos k
        · simp
        · by_contra hne
          exact hsame ⟨k, hk, le_refl k, hne⟩
      rw [hlast]
      constructor
      · rintro (hex | hne)
        · exact absurd hex hsame
        · exact ⟨k + 1, by omega, le_refl _, hne⟩
      · rintro ⟨j, hpos, hle, hne⟩
        obtain hlt | rfl := Nat.lt_or_eq_of_le hle
        · exact .inl ⟨j, hpos, by omega, hne⟩
        · exact .inr hne

/-! ## Arithmetic shift to the right -/

theorem asr_v : (shiftResult (asrOnce sz) k sz v x).v = trunc sz ((sext sz v).sshiftRight k) := by
  induction k with
  | zero => simp [shiftResult, shiftLoop]
  | succ k ih =>
    rw [shiftResult_succ, asrOnce, ih, sext_trunc, sext_sshiftRight_sext, ← BitVec.sshiftRight_add]

/-- C is the last bit out at the bottom, none for a count of 0. -/
theorem asr_c : (shiftResult (asrOnce sz) k sz v x).c =
    (decide (0 < k) && ((sext sz v).sshiftRight (k - 1)).getLsbD 0) := by
  cases k with
  | zero => rfl
  | succ k =>
    rw [shiftResult_succ, asrOnce, asr_v, getLsbD_trunc]
    simp [bits_pos sz]

theorem asr_ov : (shiftResult (asrOnce sz) k sz v x).ov = false := by
  induction k with
  | zero => rfl
  | succ k ih => rw [shiftResult_succ, asrOnce, ih]

end

/-! ## The register forms -/

section
variable {once : ShiftAcc → ShiftAcc} {sz : Size} {count : ShiftCount} {r : RegNum} {s : State}

theorem shiftReg_getD : (shiftReg once sz count r s).getD r =
    mergeLow sz (s.getD r) (shiftResult once (shiftCount s count) sz (s.getD r) s.ccr.x).v :=
  State.getD_setD_same s r _

/-- N is the top bit of what the register holds. -/
theorem shiftReg_n : (shiftReg once sz count r s).ccr.n =
    ((shiftReg once sz count r s).getD r).getLsbD (sz.bits - 1) := by
  rw [shiftReg_getD, ← msb_eq, ← msb_trunc, trunc_mergeLow, msb_trunc]
  rfl

/-- Z says that what the register holds is zero at the size. -/
theorem shiftReg_z : (shiftReg once sz count r s).ccr.z = true ↔
    uval sz ((shiftReg once sz count r s).getD r) = 0 := by
  rw [shiftReg_getD, ← isZero_iff, ← isZero_trunc, trunc_mergeLow, isZero_trunc]
  rfl

end

/-- Settles O41: the count by its definition, the value, C, X and V by the closed forms of the loops. -/
theorem shiftRegisterClosedForm : Obligations.ShiftRegisterClosedForm := by
  intro s sz count r
  refine ⟨⟨rfl, fun c hc => if_neg hc, rfl⟩, ⟨_, rfl, rfl, ?_, asl_c sz _ _ _, ?_, ?_, shiftReg_n, shiftReg_z⟩,
    ⟨_, rfl, rfl, ?_, asr_c sz _ _ _, ?_, asr_ov sz _ _ _, shiftReg_n, shiftReg_z⟩⟩
  · rw [shiftReg_getD, asl_v, mergeLow_trunc]
  · exact shiftResult_x sz _ _ _ fun _ => rfl
  · simp only [← msb_eq, msb_trunc]
    exact asl_ov sz _ _ _
  · rw [shiftReg_getD, asr_v, mergeLow_trunc]
  · exact shiftResult_x sz _ _ _ fun _ => rfl

/-! ## The memory forms -/

section
variable {s u v t : State} {ea : Ea} {loc : Loc} {x : Long}

/-- A shift of a word in memory completes with what one step of the loop gives. -/
theorem shiftMem_completes {once : ShiftAcc → ShiftAcc} (hdec : eaDecode s .word (s.pcPlus 1) ea = .ok (loc, u))
    (hget : eaGet u .word loc = .ok (x, v))
    (hput : eaPut v .word loc (shiftResult once 1 .word x s.ccr.x).v = .ok t) :
    finish s (shiftMem once ea s) = .next ((t.setCcr (shiftFlags .word (shiftResult once 1 .word x s.ccr.x))).setPc
      (s.pc + BitVec.ofNat 32 (2 * (1 + eaLen ea)))) :=
  modifyOperand_completes _ hdec hget hput

/-- The flags of a word shifted one bit to the left. -/
theorem shiftFlags_asl_one (n : Long) (b : Bool) : shiftFlags .word (shiftResult (aslOnce .word) 1 .word n b) =
    ⟨n.getLsbD 15, n.getLsbD 14, isZero .word (n <<< 1), n.getLsbD 15 != n.getLsbD 14, n.getLsbD 15⟩ := by
  have hc : (shiftResult (aslOnce .word) 1 .word n b).c = n.getLsbD 15 := asl_c .word n b 1
  have hx : (shiftResult (aslOnce .word) 1 .word n b).x = n.getLsbD 15 := hc
  have hn : msb .word (n <<< 1) = n.getLsbD 14 := msb_shiftLeft .word n 1
  have hv : (shiftResult (aslOnce .word) 1 .word n b).ov = (n.getLsbD 15 != n.getLsbD 14) := by
    rw [asl_ov_succ, hn, BitVec.shiftLeft_zero, bne_comm]
    rfl
  rw [shiftFlags, hx, hv, hc, asl_v, msb_trunc, isZero_trunc, hn]

/-- The flags of a word shifted one bit to the right, its sign copied. -/
theorem shiftFlags_asr_one (n : Long) (b : Bool) : shiftFlags .word (shiftResult (asrOnce .word) 1 .word n b) =
    ⟨n.getLsbD 0, n.getLsbD 15, isZero .word ((sext .word n).sshiftRight 1), false, n.getLsbD 0⟩ := by
  have hc : (shiftResult (asrOnce .word) 1 .word n b).c = n.getLsbD 0 :=
    (asr_c .word n b 1).trans (getLsbD_sshiftRight_sext .word n 0 0 (by decide))
  have hx : (shiftResult (asrOnce .word) 1 .word n b).x = n.getLsbD 0 := hc
  have hn : msb .word ((sext .word n).sshiftRight 1) = n.getLsbD 15 :=
    getLsbD_sshiftRight_sext .word n 1 15 (by decide)
  rw [shiftFlags, hx, hc, asr_v, asr_ov, msb_trunc, isZero_trunc, hn]

theorem execAslMem_completes (hdec : eaDecode s .word (s.pcPlus 1) ea = .ok (loc, u))
    (hget : eaGet u .word loc = .ok (x, v)) (hput : eaPut v .word loc (trunc .word (x <<< 1)) = .ok t) :
    execAslMem ea s = .next ((t.setCcr ⟨x.getLsbD 15, x.getLsbD 14, isZero .word (x <<< 1),
      x.getLsbD 15 != x.getLsbD 14, x.getLsbD 15⟩).setPc (s.pc + BitVec.ofNat 32 (2 * (1 + eaLen ea)))) := by
  rw [← asl_v .word x s.ccr.x] at hput
  rw [execAslMem, shiftMem_completes hdec hget hput, shiftFlags_asl_one]

theorem execAsrMem_completes (hdec : eaDecode s .word (s.pcPlus 1) ea = .ok (loc, u))
    (hget : eaGet u .word loc = .ok (x, v))
    (hput : eaPut v .word loc (trunc .word ((sext .word x).sshiftRight 1)) = .ok t) :
    execAsrMem ea s = .next ((t.setCcr ⟨x.getLsbD 0, x.getLsbD 15, isZero .word ((sext .word x).sshiftRight 1),
      false, x.getLsbD 0⟩).setPc (s.pc + BitVec.ofNat 32 (2 * (1 + eaLen ea)))) := by
  rw [← asr_v .word x s.ccr.x] at hput
  rw [execAsrMem, shiftMem_completes hdec hget hput, shiftFlags_asr_one]

end

/-- Settles O42: each direction as one step of its loop on an operand in place. -/
theorem shiftMemoryCompletes : Obligations.ShiftMemoryCompletes := fun _ _ _ _ _ _ _ hdec hget =>
  ⟨execAslMem_completes hdec hget, execAsrMem_completes hdec hget⟩

end Sys2Proof.Machine
end

section
/-! SUPPORT and PROOFS. The bit manipulation instructions: one bit of a data register or of a byte tested or changed, Z
from the bit before. -/

namespace Sys2Proof.Machine

section
variable {s u v t : State} {own : Nat} {ea : Ea} {a x : Long}

/-- A data register has no address. -/
theorem ne_dreg_of_eaAddr {sz : Size} {pcx : Long} (h : eaAddr s sz pcx ea = .ok (a, u)) (n : RegNum) :
    ea ≠ .dreg n := by
  rintro rfl
  cases h

/-- A change of a data register's bit always completes, whatever `f` makes of the bit. -/
theorem changeBit_dreg_completes (s : State) (own raw : Nat) (n : RegNum) (f : Bool → Bool) :
    ∃ t, finish s (changeBit s own raw (.dreg n) f) = .next t ∧ t.pc = s.pc + BitVec.ofNat 32 (2 * own) ∧
      t.ccr = { s.ccr with z := !(s.getD n).getLsbD (raw % 32) } ∧
      (∀ j, j < 32 → (t.getD n).getLsbD j =
        if j = raw % 32 then f ((s.getD n).getLsbD (raw % 32)) else (s.getD n).getLsbD j) := by
  refine ⟨_, rfl, rfl, rfl, fun j hj => ?_⟩
  simp only [State.advance, State.getD_setPc, State.getD_setCcr, State.getD_setD_same]
  exact getLsbD_withBit _ _ _ j hj

/-- A change of a bit of a byte in memory completes once the byte is read and written. -/
theorem changeBit_mem_completes (raw : Nat) (f : Bool → Bool) (haddr : eaAddr s .byte (s.pcPlus own) ea = .ok (a, u))
    (hread : memRead u .byte a = .ok (x, v))
    (hwrite : memWrite v .byte a (withBit x (raw % 8) (f (x.getLsbD (raw % 8)))) = .ok t) :
    finish s (changeBit s own raw ea f) = .next ((t.setCcr { s.ccr with z := !x.getLsbD (raw % 8) }).setPc
      (s.pc + BitVec.ofNat 32 (2 * (own + eaLen ea)))) := by
  rw [changeBit_byte s own raw f (ne_dreg_of_eaAddr haddr)]
  exact modifyOperand_completes _ (eaDecode_of_eaAddr haddr) hread hwrite

/-- A test of a bit of a byte completes once the byte is read. -/
theorem testBit_byte_completes (raw : Nat) (hea : ∀ m, ea ≠ .dreg m) (hread : eaRead s .byte own ea = .ok (x, u)) :
    finish s (testBit s own raw ea) = .next ((u.setCcr { s.ccr with z := !x.getLsbD (raw % 8) }).setPc
      (s.pc + BitVec.ofNat 32 (2 * (own + eaLen ea)))) := by
  rw [testBit_byte s own raw hea, withOperand_completes _ hread rfl, eaRead_ccr hread, bitFlags]

end

/-- Settles O44: each of the six forms is the change of one bit by its own `f`. -/
theorem bitChangeOnRegister : Obligations.BitChangeOnRegister := by
  intro s r n k i b f h
  obtain ⟨rfl, rfl, rfl⟩ | ⟨rfl, rfl, rfl⟩ | ⟨rfl, rfl, rfl⟩ |
    ⟨rfl, rfl, rfl⟩ | ⟨rfl, rfl, rfl⟩ | ⟨rfl, rfl, rfl⟩ := h
  · exact changeBit_dreg_completes s 1 (s.getD r).toNat n not
  · exact changeBit_dreg_completes s 2 k.toNat n not
  · exact changeBit_dreg_completes s 1 (s.getD r).toNat n fun _ => false
  · exact changeBit_dreg_completes s 2 k.toNat n fun _ => false
  · exact changeBit_dreg_completes s 1 (s.getD r).toNat n fun _ => true
  · exact changeBit_dreg_completes s 2 k.toNat n fun _ => true

/-- Settles O43: a data register's bit by definition, any other operand by its read. -/
theorem bitTestCompletes : Obligations.BitTestCompletes := fun s _ r _ k _ _ =>
  ⟨rfl, rfl, testBit_byte_completes (s.getD r).toNat, testBit_byte_completes k.toNat⟩

/-- Settles O45: each of the six forms is the change of one bit by its own `f`. -/
theorem bitChangeOnMemory : Obligations.BitChangeOnMemory := fun s _ _ _ r k _ _ _ =>
  ⟨fun haddr hread =>
    ⟨changeBit_mem_completes (s.getD r).toNat not haddr hread,
      changeBit_mem_completes (s.getD r).toNat (fun _ => false) haddr hread,
      changeBit_mem_completes (s.getD r).toNat (fun _ => true) haddr hread⟩,
    fun haddr hread =>
    ⟨changeBit_mem_completes k.toNat not haddr hread,
      changeBit_mem_completes k.toNat (fun _ => false) haddr hread,
      changeBit_mem_completes k.toNat (fun _ => true) haddr hread⟩⟩

end Sys2Proof.Machine
end

section
/-! SUPPORT. The bits of a bit field: of its buffer, of the rotated data register, and of the bytes it lies in. -/

namespace Sys2Proof.Machine

/-! ## The buffer, bit by bit -/

section
variable {w : Nat}

/-- `w` ones are the bits below `w`. -/
theorem getLsbD_bfOnes (hw : w ≤ 32) (i : Nat) : (bfOnes w).getLsbD i = decide (i < w) := by
  have hpow : 2 ^ w ≤ 2 ^ 32 := Nat.pow_le_pow_right (by decide) hw
  have hpos : 0 < 2 ^ w := Nat.two_pow_pos w
  have hval : (bfOnes w).toNat = 2 ^ w - 1 := by
    have hone : (1#40).toNat = 1 := rfl
    change (1#40 <<< w - 1#40).toNat = _
    rw [BitVec.toNat_sub, BitVec.toNat_shiftLeft, Nat.shiftLeft_eq, hone]
    omega
  rw [BitVec.getLsbD, hval, Nat.testBit_two_pow_sub_one]

theorem getLsbD_bfField (hw : w ≤ 32) (buf : BitVec 40) (below j : Nat) :
    (bfField buf below w).getLsbD j = (decide (j < w) && buf.getLsbD (below + j)) := by
  simp only [bfField, BitVec.getLsbD_setWidth, BitVec.getLsbD_and, BitVec.getLsbD_ushiftRight, getLsbD_bfOnes hw]
  by_cases hj : j < w
  · simp [hj, show j < 32 by omega]
  · simp [hj]

/-- A field has no bits above its width. -/
theorem getLsbD_bfField_of_ge (hw : w ≤ 32) (buf : BitVec 40) (below : Nat) {j : Nat} (hj : w ≤ j) :
    (bfField buf below w).getLsbD j = false := by
  rw [getLsbD_bfField hw, decide_eq_false (by omega), Bool.false_and]

theorem getLsbD_bfLow (hw : w ≤ 32) (v : Long) (j : Nat) :
    (bfLow w v).getLsbD j = (decide (j < w) && v.getLsbD j) := by
  simp only [bfLow, BitVec.getLsbD_setWidth, BitVec.getLsbD_and, getLsbD_bfOnes hw]
  by_cases hj : j < w
  · simp [hj, show j < 32 by omega, show j < 40 by omega]
  · simp [hj]

theorem getLsbD_bfReplace (hw : w ≤ 32) (buf : BitVec 40) (below : Nat) (new : Long) {i : Nat} (hi : i < 40) :
    (bfReplace buf below w new).getLsbD i =
      if below ≤ i ∧ i < below + w then new.getLsbD (i - below) else buf.getLsbD i := by
  simp only [bfReplace, BitVec.getLsbD_or, BitVec.getLsbD_and, BitVec.getLsbD_not, BitVec.getLsbD_shiftLeft,
    BitVec.getLsbD_setWidth, getLsbD_bfOnes hw, hi, decide_true, Bool.true_and]
  by_cases hlow : i < below
  · simp [hlow, show ¬ below ≤ i by omega]
  · by_cases hin : i < below + w
    · simp [hlow, hin, show below ≤ i by omega, show i - below < w by omega, show i - below < 40 by omega]
    · simp [hlow, hin, show ¬ i - below < w by omega]

end

/-! ## A field's value -/

/-- A field is below two to its width. -/
theorem bfField_lt {w : Nat} (hw : w ≤ 32) (buf : BitVec 40) (below : Nat) : (bfField buf below w).toNat < 2 ^ w :=
  Nat.lt_pow_two_of_testBit _ fun _ hj => getLsbD_bfField_of_ge hw buf below hj

/-- The first bit of a field says whether its value is in the upper half. -/
theorem getLsbD_of_lt_two_pow_succ {m : Nat} {f : Long} (hf : f.toNat < 2 ^ (m + 1)) :
    f.getLsbD m = decide (2 ^ m ≤ f.toNat) := by
  have hpos := Nat.two_pow_pos m
  rw [BitVec.getLsbD]
  by_cases h : 2 ^ m ≤ f.toNat
  · rw [decide_eq_true h, Nat.testBit_of_two_pow_le_and_two_pow_add_one_gt h hf]
  · rw [decide_eq_false h, Nat.testBit_lt_two_pow (by omega)]

/-- The exact value of a sign-extended field, `m + 1` bits wide (R264). -/
theorem toInt_bfSext {m : Nat} (hm : m < 32) {f : Long} (hf : f.toNat < 2 ^ (m + 1)) :
    (bfSext (m + 1) f).toInt = f.toNat - (if f.getLsbD m then 2 ^ (m + 1) else 0 : Int) := by
  obtain ⟨k, hk⟩ : ∃ k, k = 32 - (m + 1) := ⟨_, rfl⟩
  have hscale : (2 : Int) ^ m * 2 ^ k = 2 ^ 31 := by rw [← pow_add, show m + k = 31 by omega]
  have hpos : (0 : Int) < 2 ^ k := by positivity
  have hlt : (f.toNat : Int) < 2 ^ (m + 1) := by exact_mod_cast hf
  have hshift : ((f.toNat * 2 ^ k : Nat) : Int).bmod (2 ^ 32) =
      (f.toNat - (if f.getLsbD m then 2 ^ (m + 1) else 0 : Int)) * 2 ^ k := by
    rw [Int.bmod_eq_iff (by decide), getLsbD_of_lt_two_pow_succ hf]
    by_cases h : 2 ^ m ≤ f.toNat
    · have hle : (2 : Int) ^ m ≤ f.toNat := by exact_mod_cast h
      have hhalf := mul_nonneg (sub_nonneg.mpr hle) hpos.le
      have htop := mul_pos (sub_pos.mpr hlt) hpos
      simp only [h, decide_true, if_true]
      push_cast
      rw [pow_succ] at htop ⊢
      exact ⟨by linarith, by linarith, -1, by linear_combination (-2) * hscale⟩
    · have hlt : (f.toNat : Int) < 2 ^ m := by exact_mod_cast not_le.mp h
      simp only [h, decide_false, Bool.false_eq_true, if_false]
      push_cast
      have hhalf := mul_pos (sub_pos.mpr hlt) hpos
      have hnonneg := mul_nonneg (Int.natCast_nonneg f.toNat) hpos.le
      exact ⟨by linarith, by linarith, 0, by ring⟩
  rw [bfSext, ← hk, BitVec.toInt_sshiftRight, BitVec.toInt_shiftLeft, Nat.shiftLeft_eq, hshift,
    Int.shiftRight_eq_div_pow]
  exact_mod_cast Int.mul_ediv_cancel _ hpos.ne'

/-- Sign extension of a field takes two to its width off where its first bit is set (R264). -/
theorem bfSext_eq_ite {w : Nat} (hpos : 1 ≤ w) (hw : w ≤ 32) {f : Long} (hf : f.toNat < 2 ^ w) :
    bfSext w f = if f.getLsbD (w - 1) then f - BitVec.ofNat 32 (2 ^ w) else f := by
  obtain ⟨m, rfl⟩ : ∃ m, w = m + 1 := ⟨w - 1, by omega⟩
  rw [← BitVec.ofInt_toInt (x := bfSext (m + 1) f), toInt_bfSext (by omega) hf, Nat.add_sub_cancel]
  split
  · rw [Int.sub_eq_add_neg, BitVec.ofInt_add, BitVec.ofInt_neg, ← BitVec.sub_eq_add_neg, BitVec.ofInt_natCast,
      BitVec.ofNat_toNat, BitVec.setWidth_eq]
    exact congrArg (f - ·) (BitVec.ofInt_natCast 32 (2 ^ (m + 1)))
  · rw [Int.sub_zero, BitVec.ofInt_natCast, BitVec.ofNat_toNat, BitVec.setWidth_eq]

/-! ## A data register -/

/-- Bit `r` of a rotated register, counted from its first, lies at offset `off + r` of the register (R261). -/
theorem getLsbD_rotateLeft_offset (v : Long) (off : Int) {r : Nat} (hr : r < 32) :
    (v.rotateLeft (off % 32).toNat).getLsbD (31 - r) = v.getLsbD (31 - ((off + r) % 32).toNat) := by
  rw [BitVec.getLsbD_rotateLeft, Bool.cond_decide, decide_eq_true (by omega : 31 - r < 32), Bool.true_and]
  split <;> exact congrArg v.getLsbD (by omega)

/-- Rotated back, that bit lies at its offset again (R261). -/
theorem getLsbD_rotateRight_offset (v : Long) (off : Int) {r : Nat} (hr : r < 32) :
    (v.rotateRight (off % 32).toNat).getLsbD (31 - ((off + r) % 32).toNat) = v.getLsbD (31 - r) := by
  rw [BitVec.getLsbD_rotateRight, Bool.cond_decide,
    decide_eq_true (by omega : 31 - ((off + r) % 32).toNat < 32), Bool.true_and]
  split <;> exact congrArg v.getLsbD (by omega)

/-- A register's field: its bit `j`, counted from its last, is the register's bit at offset `off + w - 1 - j` (R261). -/
theorem getLsbD_regField {w : Nat} (hw : w ≤ 32) (v : Long) (off : Int) {j : Nat} (hj : j < w) :
    (bfField ((v.rotateLeft (off % 32).toNat).setWidth 40) (32 - w) w).getLsbD j =
      v.getLsbD (31 - ((off + w - 1 - j) % 32).toNat) := by
  have hbit := getLsbD_rotateLeft_offset v off (r := w - 1 - j) (by omega)
  rw [show 31 - (w - 1 - j) = 32 - w + j by omega,
    show off + ((w - 1 - j : Nat) : Int) = off + w - 1 - j by omega] at hbit
  rw [getLsbD_bfField hw, BitVec.getLsbD_setWidth, hbit]
  simp [hj, show 32 - w + j < 40 by omega]

/-- A register with its field replaced: the field's bits are the new ones, the others are kept (R261). -/
theorem getLsbD_regReplace {w : Nat} (hw : w ≤ 32) (v new : Long) (off : Int) {r : Nat} (hr : r < 32) :
    (((bfReplace ((v.rotateLeft (off % 32).toNat).setWidth 40) (32 - w) w new).extractLsb' 0 32).rotateRight
        (off % 32).toNat).getLsbD (31 - ((off + r) % 32).toNat) =
      if r < w then new.getLsbD (w - 1 - r) else v.getLsbD (31 - ((off + r) % 32).toNat) := by
  rw [getLsbD_rotateRight_offset _ off hr, BitVec.getLsbD_extractLsb', Nat.zero_add,
    getLsbD_bfReplace hw _ _ _ (by omega), BitVec.getLsbD_setWidth, getLsbD_rotateLeft_offset v off hr,
    decide_eq_true (by omega : 31 - r < 32), decide_eq_true (by omega : 31 - r < 40), Bool.true_and, Bool.true_and]
  by_cases hin : r < w
  · rw [if_pos hin, if_pos (by omega), show 31 - r - (32 - w) = w - 1 - r by omega]
  · rw [if_neg hin, if_neg (by omega)]

/-! ## Bytes of memory -/

/-- Bytes less than eight apart are different bytes of memory that has at least three address bits, past the top of the
address space too. -/
theorem State.physical_add_ne_of_three {s : State} (hbits : 3 ≤ s.config.addrBits) (a : Long) {k : Nat} (hk : 0 < k)
    (hk8 : k < 8) : s.physical (a + BitVec.ofNat 32 k) ≠ s.physical a := by
  intro h
  have hdvd : 8 ∣ 2 ^ s.config.addrBits := pow_dvd_pow 2 hbits
  have hmod : (a + BitVec.ofNat 32 k).toNat % 8 = a.toNat % 8 := by
    rw [← Nat.mod_mod_of_dvd _ hdvd, ← Nat.mod_mod_of_dvd a.toNat hdvd]
    exact congrArg (· % 8) h
  rw [BitVec.toNat_add, BitVec.toNat_ofNat] at hmod
  omega

/-- The `n` bytes from `a` are the low bytes of a buffer, the most significant first (R261). -/
def HoldsBuffer (s : State) (n : Nat) (a : Long) (buf : BitVec 40) : Prop :=
  ∀ k, k < n → s.peek (a + BitVec.ofNat 32 k) = some (buf.extractLsb' (8 * (n - 1 - k)) 8)

section
variable {s : State} {n : Nat} {a : Long} {buf : BitVec 40}

theorem holdsBuffer_succ : HoldsBuffer s (n + 1) a buf ↔
    s.peek a = some (buf.extractLsb' (8 * n) 8) ∧ HoldsBuffer s n (a + 1) buf := by
  have hindex (k : Nat) : n - 1 - k = n + 1 - 1 - (k + 1) := by omega
  unfold HoldsBuffer
  rw [forall_bytes_succ (P := fun b k => s.peek b = some (buf.extractLsb' (8 * (n + 1 - 1 - k)) 8))]
  simp only [hindex, Nat.add_sub_cancel, Nat.sub_zero]

/-- The bytes a field can be loaded from: plain memory that was written. -/
def WrittenRam (s : State) (a : Long) (n : Nat) : Prop :=
  ∀ k, k < n → s.kindAt (a + BitVec.ofNat 32 k) = .ram ∧ ∃ b, s.peek (a + BitVec.ofNat 32 k) = some b

theorem snocByte_zero (b : Byte) : snocByte 0 b = ofByte b := by
  apply BitVec.eq_of_getLsbD_eq
  intro i hi
  rw [snocByte, ofByte, BitVec.getLsbD_append, BitVec.getLsbD_setWidth, decide_eq_true hi, Bool.true_and]
  split
  next => rfl
  next h => simp [BitVec.getLsbD_of_ge b i (by omega)]

/-- A Byte can be accessed anywhere (R67). -/
theorem accessible_byte (s : State) (a : Long) : Accessible s .byte a := ⟨rfl, a.isLt⟩

theorem memRead_byte_written (hram : s.kindAt a = .ram) {b : Byte} (hpeek : s.peek a = some b) :
    memRead s .byte a = .ok (ofByte b, s) := by
  have hbyte : Holds s 1 a fun _ => b := holds_succ.mpr ⟨⟨hram, hpeek⟩, fun k hk => by omega⟩
  rw [memRead_of_holds (accessible_byte s a) hbyte, ← snocByte_zero]
  rfl

theorem plainRam_one : PlainRam s a 1 ↔ s.inText a = false ∧ s.kindAt a = .ram := by
  simp [PlainRam]

theorem memWrite_byte_plain (h : PlainRam s a 1) (b : Byte) : memWrite s .byte a (ofByte b) = .ok (s.poke a b) := by
  rw [memWrite_plain (accessible_byte s a) h]
  simp only [Size.bytes, storeBytes, byteAt_ofByte, storeByte, (plainRam_one.mp h).2, reduceCtorEq, if_false]

/-- Loading written plain memory answers its bytes, below the bits that came before, and changes nothing (R261). -/
theorem bfLoad_written (hn : n ≤ 5) (h : WrittenRam s a n) (acc : BitVec 40) :
    ∃ buf, bfLoad n a acc s = .ok (buf, s) ∧ HoldsBuffer s n a buf ∧
      ∀ i, i + 8 * n < 40 → buf.getLsbD (i + 8 * n) = acc.getLsbD i := by
  induction n generalizing a acc with
  | zero => exact ⟨acc, rfl, nofun, fun i _ => rfl⟩
  | succ n ih =>
    obtain ⟨⟨hram, b, hpeek⟩, hrest⟩ :=
      (forall_bytes_succ (P := fun b _ => s.kindAt b = .ram ∧ ∃ c, s.peek b = some c)).mp h
    have hbyte : (ofByte b).extractLsb' 0 8 = b := byteAt_ofByte b
    obtain ⟨buf, hload, hbuf, habove⟩ := ih (by omega) hrest (acc.extractLsb' 0 32 ++ b)
    refine ⟨buf, ?_, holdsBuffer_succ.mpr ⟨?_, hbuf⟩, fun i hi => ?_⟩
    · simp only [bfLoad, memRead_byte_written hram hpeek, bind, Except.bind, hbyte]
      exact hload
    · rw [hpeek]
      congr 1
      apply BitVec.eq_of_getLsbD_eq
      intro j hj
      rw [BitVec.getLsbD_extractLsb', decide_eq_true hj, Bool.true_and, Nat.add_comm, habove j (by omega),
        BitVec.getLsbD_append, if_pos hj]
    · rw [show i + 8 * (n + 1) = i + 8 + 8 * n by omega, habove (i + 8) (by omega), BitVec.getLsbD_append,
        if_neg (by omega), BitVec.getLsbD_extractLsb']
      simp [show i < 32 by omega]

/-- A buffer stored to plain memory outside the program is there afterwards (R261). -/
theorem bfStore_plain (hbits : 3 ≤ s.config.addrBits) (hn : n ≤ 5) (h : PlainRam s a n) (buf : BitVec 40) :
    ∃ t, bfStore n a buf s = .ok t ∧ HoldsBuffer t n a buf := by
  induction n generalizing a s with
  | zero => exact ⟨s, rfl, nofun⟩
  | succ n ih =>
    obtain ⟨hfirst, hrest⟩ := h.succ
    obtain ⟨t, hstore, hbuf⟩ :=
      ih (s := s.poke a (buf.extractLsb' (8 * n) 8)) hbits (by omega) ((plainRam_congr rfl).mpr hrest)
    refine ⟨t, ?_, holdsBuffer_succ.mpr ⟨?_, hbuf⟩⟩
    · simp only [bfStore, memWrite_byte_plain (plainRam_one.mpr hfirst), bind, Except.bind]
      exact hstore
    · have hapart : Outside (s.poke a (buf.extractLsb' (8 * n) 8)) (a + 1) n a := fun k hk => by
        rw [add_succ_ofNat]
        exact State.physical_add_ne_of_three hbits a (by omega) (by omega)
      obtain ⟨_, _, -, houtside, -⟩ := bfStore_wrote hstore
      rw [houtside a hapart]
      exact s.peek_poke_same a _

end

/-! ## A field in memory -/

section
variable {s : State} {n : Nat} {base : Long} {off : Int} {buf : BitVec 40}

theorem fieldByte_address (base : Long) {q : Int} {m : Nat} (hq : q / 8 = off / 8 + m) :
    base + BitVec.ofInt 32 (off / 8) + BitVec.ofNat 32 m = base + BitVec.ofInt 32 (q / 8) := by
  rw [hq, BitVec.ofInt_add, BitVec.ofInt_natCast, BitVec.add_assoc]

/-- What holds of the byte of every bit of a field holds of all the bytes it lies in: each has one of its bits. -/
theorem forall_bytes_of_forall_bits {P : Long → Prop} {w : Nat} (hw : 0 < w)
    (h : ∀ k : Nat, k < w → P (base + BitVec.ofInt 32 ((off + k) / 8))) (m : Nat)
    (hm : m < ((off % 8).toNat + w + 7) / 8) : P (base + BitVec.ofInt 32 (off / 8) + BitVec.ofNat 32 m) := by
  rw [fieldByte_address base (q := off + (8 * m - (off % 8).toNat : Nat)) (by omega)]
  exact h _ (by omega)

/-- A buffer with its field replaced, the bits counted from the first of its bytes (R261). -/
theorem getLsbD_memReplace {bo w : Nat} (hw : w ≤ 32) (hn : n ≤ 5) (hfit : bo + w ≤ 8 * n) (buf : BitVec 40)
    (new : Long) {r : Nat} (hr : r < 8 * n) :
    (bfReplace buf (8 * n - bo - w) w new).getLsbD (8 * n - 1 - r) =
      if bo ≤ r ∧ r < bo + w then new.getLsbD (bo + w - 1 - r) else buf.getLsbD (8 * n - 1 - r) := by
  rw [getLsbD_bfReplace hw _ _ _ (by omega)]
  by_cases hin : bo ≤ r ∧ r < bo + w
  · rw [if_pos hin, if_pos (by omega), show 8 * n - 1 - r - (8 * n - bo - w) = bo + w - 1 - r by omega]
  · rw [if_neg hin, if_neg (by omega)]

/-- Where the bytes of a buffer stand in memory, each of its bits lies at its offset (R261). -/
theorem HoldsBuffer.bit (h : HoldsBuffer s n (base + BitVec.ofInt 32 (off / 8)) buf) {q : Int}
    (hlo : off / 8 ≤ q / 8) (hhi : q / 8 < off / 8 + n) :
    ∃ b, s.peek (base + BitVec.ofInt 32 (q / 8)) = some b ∧
      b.getLsbD (7 - (q % 8).toNat) = buf.getLsbD (8 * n - 1 - (q - 8 * (off / 8)).toNat) := by
  have hbyte := h (q / 8 - off / 8).toNat (by omega)
  rw [fieldByte_address base (q := q) (by omega)] at hbyte
  refine ⟨_, hbyte, ?_⟩
  rw [BitVec.getLsbD_extractLsb', decide_eq_true (by omega), Bool.true_and]
  exact congrArg buf.getLsbD (by omega)

end

end Sys2Proof.Machine
end

section
/-! SUPPORT and PROOFS. The bit field instructions: which bits a field is, how an instruction completes once its field
is read and where it changes it written back, and what BFINS leaves. -/

namespace Sys2Proof.Machine

/-! ## Reading a field -/

theorem bfRead_pc {s u : State} {p : BfSpec} {ea : Ea} {r : BfPlace × BitVec 40 × Long}
    (h : bfRead s p ea = .ok (r, u)) : u.pc = s.pc :=
  (bfRead_spec h).1.pc.trans (eaSideEffect_pc s .byte ea)

theorem bfRead_ccr {s u : State} {p : BfSpec} {ea : Ea} {r : BfPlace × BitVec 40 × Long}
    (h : bfRead s p ea = .ok (r, u)) : u.ccr = s.ccr :=
  (bfRead_spec h).1.ccr.trans (eaSideEffect_ccr s .byte ea)

section
variable {s u : State} {p : BfSpec} {ea : Ea} {base : Long}

theorem bfLocate_mem (h : eaAddr s .byte (s.pcPlus 2) ea = .ok (base, u)) :
    bfLocate s p ea = .ok (bfMemPlace base (bfOffset s p) (bfWidth s p), u) := by
  cases ea with
  | dreg n | areg n | imm v => cases h
  | ind | postinc | predec | disp | index | absw | absl | pcdisp | pcindex =>
    simp only [bfLocate, h]
    rfl

/-- How many bytes a field in memory lies in: one to five (R261). -/
def bfBytes (s : State) (p : BfSpec) : Nat := ((bfOffset s p % 8).toNat + bfWidth s p + 7) / 8

theorem bfMemPlace_eq (s : State) (p : BfSpec) (base : Long) :
    bfMemPlace base (bfOffset s p) (bfWidth s p) =
      .mem (base + BitVec.ofInt 32 (bfOffset s p / 8)) (bfOffset s p % 8).toNat (bfBytes s p) := rfl

theorem bfBytes_le (s : State) (p : BfSpec) : bfBytes s p ≤ 5 := by
  have := (bfWidth_bounds s p).2
  unfold bfBytes
  omega

/-- The bytes of a field hold it. -/
theorem le_bfBytes (s : State) (p : BfSpec) : (bfOffset s p % 8).toNat + bfWidth s p ≤ 8 * bfBytes s p := by
  unfold bfBytes
  omega

/-- Their last one is the byte of its last bit. -/
theorem bfBytes_last (s : State) (p : BfSpec) :
    (bfOffset s p + bfWidth s p - 1) / 8 < bfOffset s p / 8 + bfBytes s p := by
  unfold bfBytes
  omega

/-- A field in memory can be read where its bytes are plain memory that was written, and is read from them (R261). -/
theorem bfRead_mem (h : eaAddr s .byte (s.pcPlus 2) ea = .ok (base, u))
    (hbytes : WrittenRam u (base + BitVec.ofInt 32 (bfOffset s p / 8)) (bfBytes s p)) :
    ∃ buf, HoldsBuffer u (bfBytes s p) (base + BitVec.ofInt 32 (bfOffset s p / 8)) buf ∧
      bfRead s p ea = .ok ((bfMemPlace base (bfOffset s p) (bfWidth s p), buf,
        bfField buf (8 * bfBytes s p - (bfOffset s p % 8).toNat - bfWidth s p) (bfWidth s p)), u) := by
  obtain ⟨buf, hload, hbuf, -⟩ := bfLoad_written (bfBytes_le s p) hbytes 0
  refine ⟨buf, hbuf, ?_⟩
  simp only [bfRead, bfLocate_mem h, bind, Except.bind, bfBuffer, bfMemPlace_eq, bfBelow, hload, pure, Except.pure]

end

/-- Settles O46: the field of a rotated register, and the field of the bytes loaded. -/
theorem fieldBits : Obligations.FieldBits := by
  intro s u p n v z ea base
  obtain ⟨hpos, hle⟩ := bfWidth_bounds s p
  refine ⟨⟨rfl, rfl, rfl, rfl⟩, ⟨_, _, _, rfl, fun j hj => getLsbD_regField hle _ _ hj,
    fun j hj => getLsbD_bfField_of_ge hle _ _ hj⟩, ?_⟩
  intro haddr hbits
  obtain ⟨buf, hbuf, hread⟩ := bfRead_mem haddr (forall_bytes_of_forall_bits
    (P := fun a => u.kindAt a = .ram ∧ ∃ b, u.peek a = some b) hpos hbits)
  refine ⟨_, _, _, hread, fun j hj b hb => ?_, fun j hj => getLsbD_bfField_of_ge hle _ _ hj⟩
  obtain ⟨c, hc, hbit⟩ := hbuf.bit (q := bfOffset s p + bfWidth s p - 1 - j) (by omega)
    (lt_of_le_of_lt (by omega) (bfBytes_last s p))
  obtain rfl : b = c := Option.some.inj (hb.symm.trans hc)
  have hfit := le_bfBytes s p
  rw [hbit, getLsbD_bfField hle, decide_eq_true hj, Bool.true_and]
  exact congrArg buf.getLsbD (by omega)

/-! ## What BFFFO writes -/

section
variable {s : State} {p : BfSpec} {dn : RegNum} {ea : Ea} {f : Long}

theorem bfffoWrite_closed (h : bfffoOpen s p ea = false) (t : State) : bfffoWrite s p dn ea f t =
    t.setD dn (BitVec.ofInt 32 (bfOffset s p + leadingZeros (bfWidth s p) f)) := by
  rw [bfffoWrite, h]
  rfl

theorem bfffoWrite_pc (t : State) : (bfffoWrite s p dn ea f t).pc = t.pc := by
  unfold bfffoWrite
  split <;> rfl

theorem bfffoWrite_ccr (t : State) : (bfffoWrite s p dn ea f t).ccr = t.ccr := by
  unfold bfffoWrite
  split <;> rfl

end

/-! ## How an instruction completes -/

section
variable {s u t : State} {p : BfSpec} {ea : Ea} {place : BfPlace} {buf : BitVec 40} {f : Long}

/-- BFTST, BFEXTU, BFEXTS and BFFFO complete once the field is read. -/
theorem bfExtract_completes (use : Long → State → State) (hread : bfRead s p ea = .ok ((place, buf, f), u))
    (hpc : (use f (u.setCcr (bfFlags (bfWidth s p) f s.ccr))).pc = u.pc) :
    finish s (bfExtract s p ea use) = .next ((use f (u.setCcr (bfFlags (bfWidth s p) f s.ccr))).setPc
      (s.pc + BitVec.ofNat 32 (2 * (2 + eaLen ea)))) := by
  rw [← advanceEa_eq_setPc 2 ea (hpc.trans (bfRead_pc hread)), bfExtract, finish_bind_ok _ hread]
  simp only [bfRead_ccr hread]
  rfl

theorem bfWriteBack_pc (h : bfWriteBack place buf u = .ok t) : t.pc = u.pc := by
  obtain ⟨n, o, -, rfl⟩ | ⟨ba, bo, nb, -, hw⟩ := bfWriteBack_spec h
  · rfl
  · exact hw.pc

theorem bfWriteBack_ccr (h : bfWriteBack place buf u = .ok t) : t.ccr = u.ccr := by
  obtain ⟨n, o, -, rfl⟩ | ⟨ba, bo, nb, -, hw⟩ := bfWriteBack_spec h
  · rfl
  · exact hw.ccr

/-- BFCHG, BFCLR, BFSET and BFINS complete once the field is read and written back. -/
theorem bfChange_completes (new tested : Long → Long) (hread : bfRead s p ea = .ok ((place, buf, f), u))
    (hwrite : bfWriteBack place (bfReplace buf (bfBelow place (bfWidth s p)) (bfWidth s p) (new f)) u = .ok t) :
    finish s (bfChange s p ea new tested) = .next ((t.setCcr (bfFlags (bfWidth s p) (tested f) s.ccr)).setPc
      (s.pc + BitVec.ofNat 32 (2 * (2 + eaLen ea)))) := by
  rw [← advanceEa_setCcr 2 ea _ ((bfWriteBack_pc hwrite).trans (bfRead_pc hread)), bfChange, finish_bind_ok _ hread]
  dsimp only
  rw [finish_bind_ok _ hwrite, (bfWriteBack_ccr hwrite).trans (bfRead_ccr hread)]
  rfl

end

/-! ## The statements -/

/-- Settles O47: each form is a read of the field with its own use of it. -/
theorem bitFieldReadsComplete : Obligations.BitFieldReadsComplete := by
  intro s u p dn ea place buf f hread
  obtain ⟨hpos, hle⟩ := bfWidth_bounds s p
  have hf : f.toNat < 2 ^ bfWidth s p := by
    obtain ⟨-, -, rfl⟩ := bfRead_spec hread
    exact bfField_lt hle _ _
  have hffo := bfExtract_completes (bfffoWrite s p dn ea) hread (bfffoWrite_pc _)
  refine ⟨bfExtract_completes (fun _ t => t) hread rfl, bfExtract_completes (fun f t => t.setD dn f) hread rfl, ?_,
    fun hopen => ?_, ?_⟩
  · rw [← bfSext_eq_ite hpos hle hf]
    exact bfExtract_completes (fun f t => t.setD dn (bfSext (bfWidth s p) f)) hread rfl
  · rwa [bfffoWrite_closed hopen] at hffo
  · exact ⟨_, hffo, rfl, bfffoWrite_ccr _⟩

/-- Settles O48: each form is a change of the field by its own new value. -/
theorem bitFieldWritesComplete : Obligations.BitFieldWritesComplete := fun s _ _ p dn _ _ _ _ hread =>
  ⟨bfChange_completes (fun f => ~~~f) id hread, bfChange_completes (fun _ => 0) id hread,
    bfChange_completes (fun _ => 0xFFFFFFFF) id hread,
    bfChange_completes (fun _ => bfLow (bfWidth s p) (s.getD dn)) (fun _ => bfLow (bfWidth s p) (s.getD dn)) hread⟩

/-- BFINS on a data register completes and replaces the field's bits, counted from its first (R261, R267). -/
theorem execBfins_dreg_completes (s : State) (p : BfSpec) (dn n : RegNum) :
    ∃ t, exec (.bfins p dn (.dreg n)) s = .next t ∧ ∀ r : Nat, r < 32 →
      (t.getD n).getLsbD (31 - ((bfOffset s p + r) % 32).toNat) =
        if r < bfWidth s p then (s.getD dn).getLsbD (bfWidth s p - 1 - r)
        else (s.getD n).getLsbD (31 - ((bfOffset s p + r) % 32).toNat) := by
  obtain ⟨hpos, hle⟩ := bfWidth_bounds s p
  refine ⟨_, rfl, fun r hr => ?_⟩
  simp only [advanceEa, State.advance, State.getD_setPc, State.getD_setCcr, State.getD_setD_same]
  rw [bfBelow, getLsbD_regReplace hle _ _ _ hr, getLsbD_bfLow hle, decide_eq_true (by omega), Bool.true_and]

/-- BFINS on plain memory completes and replaces the field's bits among all those of its bytes (R261, R267). -/
theorem execBfins_mem_completes {s u : State} {p : BfSpec} {ea : Ea} {base : Long} (dn : RegNum)
    (hbits : 3 ≤ s.config.addrBits) (haddr : eaAddr s .byte (s.pcPlus 2) ea = .ok (base, u))
    (hplain : PlainRam u (base + BitVec.ofInt 32 (bfOffset s p / 8)) (bfBytes s p))
    (hwritten : WrittenRam u (base + BitVec.ofInt 32 (bfOffset s p / 8)) (bfBytes s p)) :
    ∃ t, exec (.bfins p dn ea) s = .next t ∧
      ∀ q : Int, bfOffset s p / 8 ≤ q / 8 → q / 8 ≤ (bfOffset s p + bfWidth s p - 1) / 8 → ∃ b c,
        t.peek (base + BitVec.ofInt 32 (q / 8)) = some b ∧ u.peek (base + BitVec.ofInt 32 (q / 8)) = some c ∧
        b.getLsbD (7 - (q % 8).toNat) =
          if bfOffset s p ≤ q ∧ q < bfOffset s p + bfWidth s p then
            (s.getD dn).getLsbD (bfOffset s p + bfWidth s p - 1 - q).toNat
          else c.getLsbD (7 - (q % 8).toNat) := by
  obtain ⟨-, hle⟩ := bfWidth_bounds s p
  have hconfig : u.config = s.config := (eaAddr_spec haddr).1.config.trans (eaSideEffect_config s .byte ea)
  obtain ⟨buf, hold, hread⟩ := bfRead_mem haddr hwritten
  obtain ⟨t, hstore, hnew⟩ := bfStore_plain (by rwa [hconfig]) (bfBytes_le s p) hplain
    (bfReplace buf (8 * bfBytes s p - (bfOffset s p % 8).toNat - bfWidth s p) (bfWidth s p)
      (bfLow (bfWidth s p) (s.getD dn)))
  refine ⟨_, bfChange_completes (fun _ => bfLow (bfWidth s p) (s.getD dn))
    (fun _ => bfLow (bfWidth s p) (s.getD dn)) hread hstore, fun q hlo hhi => ?_⟩
  have hlast := hhi.trans_lt (bfBytes_last s p)
  obtain ⟨b, hb, hbbit⟩ := hnew.bit hlo hlast
  obtain ⟨c, hc, hcbit⟩ := hold.bit hlo hlast
  refine ⟨b, c, hb, hc, ?_⟩
  rw [hbbit, hcbit, getLsbD_memReplace hle (bfBytes_le s p) (le_bfBytes s p) _ _ (by omega)]
  by_cases hin : bfOffset s p ≤ q ∧ q < bfOffset s p + bfWidth s p
  · rw [if_pos hin, if_pos (by omega), getLsbD_bfLow hle, decide_eq_true (by omega), Bool.true_and]
    exact congrArg (s.getD dn).getLsbD (by omega)
  · rw [if_neg hin, if_neg (by omega)]

/-- Settles O49: each bit of the register or of the bytes, by whether it is one of the field. -/
theorem insertedFieldReadsBack : Obligations.InsertedFieldReadsBack := by
  intro s u p dn n ea base
  obtain ⟨hpos, hle⟩ := bfWidth_bounds s p
  constructor
  · obtain ⟨t, hrun, hbit⟩ := execBfins_dreg_completes s p dn n
    refine ⟨t, hrun, fun j hj => ?_, fun q hq hout => ?_⟩
    · have hfield := hbit (bfWidth s p - 1 - j) (by omega)
      rwa [if_pos (by omega), show bfWidth s p - 1 - (bfWidth s p - 1 - j) = j by omega,
        show bfOffset s p + ((bfWidth s p - 1 - j : Nat) : Int) = bfOffset s p + bfWidth s p - 1 - j by omega] at hfield
    · obtain ⟨r, hr, hbitNumber⟩ : ∃ r : Nat, r < 32 ∧ 31 - ((bfOffset s p + r) % 32).toNat = q :=
        ⟨((31 - q - bfOffset s p) % 32).toNat, by omega, by omega⟩
      have hnot : ¬ r < bfWidth s p := fun hlt => hout (bfWidth s p - 1 - r) (by omega) (by omega)
      have hkept := hbit r hr
      rwa [if_neg hnot, hbitNumber] at hkept
  · intro hbits haddr hbytes
    have hplain (m : Nat) (hm : m < bfBytes s p) :=
      forall_bytes_of_forall_bits (P := fun a => PlainRam u a 1 ∧ ∃ b, u.peek a = some b) hpos hbytes m hm
    obtain ⟨t, hrun, hbit⟩ := execBfins_mem_completes dn hbits haddr
      (fun m hm => plainRam_one.mp (hplain m hm).1)
      (fun m hm => ⟨(plainRam_one.mp (hplain m hm).1).2, (hplain m hm).2⟩)
    refine ⟨t, hrun, fun j hj => ?_, fun q hout hlo hhi => ?_⟩
    · obtain ⟨b, _, hb, -, hval⟩ := hbit (bfOffset s p + bfWidth s p - 1 - j) (by omega) (by omega)
      rw [if_pos (by omega)] at hval
      exact ⟨b, hb, hval.trans (congrArg (s.getD dn).getLsbD (by omega))⟩
    · obtain ⟨b, c, hb, hc, hval⟩ := hbit q hlo hhi
      rw [if_neg (by omega)] at hval
      exact ⟨b, c, hb, hc, hval⟩

end Sys2Proof.Machine
end

section
/-! SUPPORT and PROOFS. ABCD: packed BCD bytes, the decimal sum, and both forms from operands to next state. -/

namespace Sys2Proof.Machine

/-! ## Packed BCD bytes -/

theorem bcdValid_iff (v : Long) :
    bcdValid v = true ↔ (v.extractLsb' 4 4).toNat ≤ 9 ∧ (v.extractLsb' 0 4).toNat ≤ 9 := by
  rw [bcdValid, Bool.and_eq_true, decide_eq_true_eq, decide_eq_true_eq]

theorem bcdVal_lt_of_valid {v : Long} (h : bcdValid v = true) : bcdVal v < 100 := by
  obtain ⟨htens, hunits⟩ := (bcdValid_iff v).mp h
  unfold bcdVal
  omega

/-- The digits of a byte made of two digits. -/
theorem extractLsb'_ofByte_append (tens units : BitVec 4) :
    (ofByte (tens ++ units)).extractLsb' 4 4 = tens ∧ (ofByte (tens ++ units)).extractLsb' 0 4 = units := by
  constructor
  · rw [ofByte, BitVec.extractLsb'_setWidth_of_le (by decide), BitVec.extractLsb'_append_eq_left]
  · rw [ofByte, BitVec.extractLsb'_setWidth_of_le (by decide), BitVec.extractLsb'_append_eq_right]

section
variable {r : Nat}

/-- The digits of a number below 100 are those of its packed byte (R290). -/
theorem bcdPack_digits (h : r < 100) :
    ((bcdPack r).extractLsb' 4 4).toNat = r / 10 ∧ ((bcdPack r).extractLsb' 0 4).toNat = r % 10 := by
  obtain ⟨htens, hunits⟩ := extractLsb'_ofByte_append (BitVec.ofNat 4 (r / 10)) (BitVec.ofNat 4 (r % 10))
  rw [bcdPack, htens, hunits, BitVec.toNat_ofNat, BitVec.toNat_ofNat]
  omega

theorem bcdValid_bcdPack (h : r < 100) : bcdValid (bcdPack r) = true := by
  obtain ⟨htens, hunits⟩ := bcdPack_digits h
  rw [bcdValid_iff, htens, hunits]
  omega

theorem bcdVal_bcdPack (h : r < 100) : bcdVal (bcdPack r) = r := by
  obtain ⟨htens, hunits⟩ := bcdPack_digits h
  rw [bcdVal, htens, hunits]
  omega

end

section
variable (old new : Long)

/-- The digits of a register whose low byte was replaced are those of the new byte (R21). -/
theorem mergeLow_byte_digit {k : Nat} (h : k + 4 ≤ 8) :
    (mergeLow .byte old new).extractLsb' k 4 = new.extractLsb' k 4 := by
  apply BitVec.eq_of_getLsbD_eq
  intro i hi
  have hlow : k + i < Size.byte.bits := by
    rw [Size.bits]
    omega
  rw [BitVec.getLsbD_extractLsb', BitVec.getLsbD_extractLsb', getLsbD_mergeLow .byte old new _ (by omega), if_pos hlow]

@[simp] theorem bcdValid_mergeLow : bcdValid (mergeLow .byte old new) = bcdValid new := by
  simp only [bcdValid, mergeLow_byte_digit old new (k := 4) (by decide),
    mergeLow_byte_digit old new (k := 0) (by decide)]

@[simp] theorem bcdVal_mergeLow : bcdVal (mergeLow .byte old new) = bcdVal new := by
  simp only [bcdVal, mergeLow_byte_digit old new (k := 4) (by decide),
    mergeLow_byte_digit old new (k := 0) (by decide)]

/-- Replacing the low byte of a register keeps the others (R21). -/
theorem mergeLow_byte_upper : (mergeLow .byte old new).extractLsb' 8 24 = old.extractLsb' 8 24 :=
  BitVec.extractLsb'_append_eq_left

end

/-! ## The decimal sum -/

section
variable {src dst : Long} {x : Bool}

/-- Adding draws free values at most. -/
theorem bcdAdd_draws (src dst : Long) (x : Bool) (s : State) : ∃ k, (bcdAdd src dst x s).2 = { s with draws := k } := by
  unfold bcdAdd
  split
  · exact ⟨s.draws, rfl⟩
  · exact ⟨s.draws + 2, rfl⟩

/-- The sum of packed BCD bytes (R290). -/
theorem bcdAdd_valid (hsrc : bcdValid src = true) (hdst : bcdValid dst = true) (s : State) :
    (bcdAdd src dst x s).1 = (bcdPack ((bcdVal src + bcdVal dst + (if x then 1 else 0)) % 100),
      decide (100 ≤ bcdVal src + bcdVal dst + (if x then 1 else 0))) := by
  rw [bcdAdd, hsrc, hdst]
  rfl

/-- The sum of packed BCD bytes is packed BCD, and with the carry as its hundreds it is exact (R290): two digits each
and the extend bit stay below 200. -/
theorem bcdAdd_exact (hsrc : bcdValid src = true) (hdst : bcdValid dst = true) (s : State) :
    bcdValid (bcdAdd src dst x s).1.1 = true ∧
      bcdVal (bcdAdd src dst x s).1.1 + (if (bcdAdd src dst x s).1.2 then 100 else 0) =
        bcdVal src + bcdVal dst + (if x then 1 else 0) := by
  have hlt : bcdVal src + bcdVal dst + (if x then 1 else 0) < 200 := by
    have hs := bcdVal_lt_of_valid hsrc
    have hd := bcdVal_lt_of_valid hdst
    split <;> omega
  rw [bcdAdd_valid hsrc hdst]
  generalize bcdVal src + bcdVal dst + (if x then 1 else 0) = sum at hlt
  have hmod : sum % 100 < 100 := Nat.mod_lt _ (by decide)
  refine ⟨bcdValid_bcdPack hmod, ?_⟩
  simp only [bcdVal_bcdPack hmod, decide_eq_true_eq]
  split <;> omega

end

/-! ## The flags -/

section
variable (s : State) (old : Ccr) (res : Long) (cy : Bool)

/-- Z is cleared by a result that is not zero and else unchanged (R290). -/
theorem abcdFlags_z : (abcdFlags s old res cy).ccr.z = true ↔ old.z = true ∧ uval .byte res = 0 := by
  rw [← isZero_iff, and_comm, ← Bool.and_eq_true]
  rfl

end

/-! ## A byte written after free values were drawn -/

section
variable {s t : State} {n : Nat} {a v : Long}

theorem checkPresent_congr (hc : t.config = s.config) (write : Bool) (n : Nat) (a : Long) :
    checkPresent t write n a = checkPresent s write n a := by
  induction n generalizing a with
  | zero => rfl
  | succ n ih => simp only [checkPresent, State.kindAt_congr hc, ih]

theorem touchesDevice_congr (hc : t.config = s.config) (n : Nat) (a : Long) :
    touchesDevice t n a = touchesDevice s n a := by
  induction n generalizing a with
  | zero => rfl
  | succ n ih => simp only [touchesDevice, State.kindAt_congr hc, ih]

/-- How many free values were drawn has no part in what a byte stored changes. -/
theorem storeByte_draws (s : State) (k : Nat) (a : Long) (b : Byte) :
    storeByte { s with draws := k } a b = { storeByte s a b with draws := k } := by
  have hkind : State.kindAt { s with draws := k } a = s.kindAt a := State.kindAt_congr rfl a
  rw [storeByte, storeByte, hkind]
  split <;> rfl

theorem storeBytes_draws (n : Nat) (a v : Long) (s : State) (k : Nat) :
    storeBytes n a v { s with draws := k } = { storeBytes n a v s with draws := k } := by
  induction n generalizing a s with
  | zero => rfl
  | succ n ih => rw [storeBytes, storeBytes, storeByte_draws, ih]

theorem State.logAccess_draws (s : State) (k : Nat) (write : Bool) (n : Nat) (a v : Long) :
    State.logAccess { s with draws := k } write n a v = { s.logAccess write n a v with draws := k } := by
  have htouch : touchesDevice { s with draws := k } n a = touchesDevice s n a := touchesDevice_congr (by rfl) n a
  rw [State.logAccess, State.logAccess, htouch]
  split <;> rfl

/-- A write access that completes with one value completes with every value, however many free values were drawn. -/
theorem writeAccess_completes (h : writeAccess n a v s = .ok t) (w : Long) : ∃ u : State, ∀ k,
    writeAccess n a w { s with draws := k } = .ok { u with draws := k } := by
  obtain ⟨_, hpresent, h⟩ := except_bind_ok h
  obtain ⟨_, htext, -⟩ := except_bind_ok h
  refine ⟨(storeBytes n a w s).logAccess true n a w, fun k => ?_⟩
  have hconfig : State.config { s with draws := k } = s.config := rfl
  rw [← State.logAccess_draws, ← storeBytes_draws, writeAccess, checkPresent_congr hconfig, checkNotText_congr hconfig,
    hpresent, htext]
  rfl

/-- A Byte is written in one access (R67). -/
theorem memWrite_byte (s : State) (a v : Long) : memWrite s .byte a v = writeAccess 1 a (trunc .byte v) s := by
  obtain ⟨haligned, -⟩ := accessible_byte s a
  simp only [memWrite, haligned, not_wraps (accessible_byte s a), Bool.false_eq_true, if_false]
  rfl

/-- A Byte that can be written with one value can be written with every value, however many free values were drawn. -/
theorem memWrite_byte_completes (h : memWrite s .byte a v = .ok t) (w : Long) : ∃ u : State, ∀ k,
    memWrite { s with draws := k } .byte a w = .ok { u with draws := k } := by
  simp only [memWrite_byte] at h ⊢
  exact writeAccess_completes h _

end

/-! ## ABCD -/

/-- ABCD on registers always completes: the sum in the low byte of the destination, the carry in X and C (R290). -/
theorem execAbcd_data_completes (s : State) (x y : RegNum) :
    ∃ t, execAbcd .data x y s = .next t ∧ t.pc = s.pc + 2 ∧
      t.getD x = mergeLow .byte (s.getD x) (bcdAdd (s.getD y) (s.getD x) s.ccr.x s).1.1 ∧
      t.ccr.x = (bcdAdd (s.getD y) (s.getD x) s.ccr.x s).1.2 ∧
      t.ccr.c = (bcdAdd (s.getD y) (s.getD x) s.ccr.x s).1.2 ∧
      (t.ccr.z = true ↔ s.ccr.z = true ∧ uval .byte (bcdAdd (s.getD y) (s.getD x) s.ccr.x s).1.1 = 0) := by
  obtain ⟨k, hk⟩ := bcdAdd_draws (s.getD y) (s.getD x) s.ccr.x s
  have hpc := congrArg State.pc hk
  have hold := congrArg (State.getD · x) hk
  exact ⟨_, rfl, congrArg (· + 2) hpc, (State.getD_setD_same _ x _).trans (congrArg (mergeLow .byte · _) hold), rfl,
    rfl, abcdFlags_z _ _ _ _⟩

/-- Settles O50: the low byte of the destination is the sum, exact where both operands are packed BCD. -/
theorem abcdOnRegisters : Obligations.AbcdOnRegisters := by
  intro s x y
  obtain ⟨t, hrun, hpc, hdest, hx, hc, hz⟩ := execAbcd_data_completes s x y
  refine ⟨t, hrun, hpc, hx.trans hc.symm, ?_, ?_, fun hsrc hdst => ?_⟩
  · rwa [hdest, uval, trunc_mergeLow]
  · rw [hdest, mergeLow_byte_upper]
  · rw [hdest, hc, bcdValid_mergeLow, bcdVal_mergeLow]
    exact bcdAdd_exact hsrc hdst s

section
variable {s t u : State} {x y : RegNum} {src dst : Long}

/-- ABCD on memory completes once its operands are read and the sum written. -/
theorem execAbcd_predec_completes (hpair : predecPair s .byte x y = .ok ((src, dst), u))
    (hwrite : memWrite (bcdAdd src dst s.ccr.x u).2 .byte (predecDest s .byte x y) (bcdAdd src dst s.ccr.x u).1.1 =
      .ok t) :
    execAbcd .predec x y s = .next ((abcdFlags t s.ccr (bcdAdd src dst s.ccr.x u).1.1
      (bcdAdd src dst s.ccr.x u).1.2).setPc (s.pc + 2)) := by
  obtain ⟨hread, hdest⟩ := predecPair_spec hpair
  obtain ⟨k, hk⟩ := bcdAdd_draws src dst s.ccr.x u
  have haddr : (bcdAdd src dst s.ccr.x u).2.getA x = predecDest s .byte x y := by
    rw [hk, ← hdest]
    rfl
  have hpc : t.pc = s.pc := by simpa [hk, hread.pc] using (memWrite_spec hwrite).pc
  rw [← haddr] at hwrite
  rw [← advance_one_eq_setPc (t := abcdFlags t _ _ _) hpc]
  exact (finish_bind_ok _ hpair).trans (finish_bind_ok _ hwrite)

end

/-- Settles O51: the write that completes with a zero completes with the sum. -/
theorem abcdOnMemory : Obligations.AbcdOnMemory := by
  intro s u w x y src dst hpair hzero
  obtain ⟨hread, -⟩ := predecPair_spec hpair
  obtain ⟨k, hk⟩ := bcdAdd_draws src dst s.ccr.x u
  obtain ⟨t, hwrite⟩ := memWrite_byte_completes hzero (bcdAdd src dst s.ccr.x u).1.1
  have hrun := execAbcd_predec_completes hpair (hk ▸ hwrite k)
  have hwrote := memWrite_spec (hwrite u.draws)
  refine ⟨_, _, _, hwrite u.draws, hrun, rfl, rfl, rfl, ?_, hwrote.a, hwrote.stacks, rfl, abcdFlags_z _ _ _ _,
    fun hsrc hdst => ?_⟩
  · exact hwrote.d.trans (by simpa using hread.d)
  · rw [bcdAdd_valid hsrc hdst]
    exact ⟨rfl, decide_eq_true_iff⟩

end Sys2Proof.Machine
end

section
/-! SUPPORT and PROOFS. Branches: the fourteen conditions as bits of the status register, and BSR from a stack in plain
memory to its return address, read back there. -/

namespace Sys2Proof.Machine

/-! ## The conditions -/

/-- The flags are bits 3 to 0 of the status register (R28, R31). -/
theorem State.sr_flags (s : State) : s.sr.getLsbD 3 = s.ccr.n ∧ s.sr.getLsbD 2 = s.ccr.z ∧
    s.sr.getLsbD 1 = s.ccr.v ∧ s.sr.getLsbD 0 = s.ccr.c := by
  have hback := ccrOf_ccrByte s.ccr
  rw [s.sr_low 3 (by decide), s.sr_low 2 (by decide), s.sr_low 1 (by decide), s.sr_low 0 (by decide)]
  exact ⟨congrArg Ccr.n hback, congrArg Ccr.z hback, congrArg Ccr.v hback, congrArg Ccr.c hback⟩

/-- Settles O52: Bcc and BRA have no part that can stop; the conditions go from the flags to their
bits, the signed ones by N and V being equal or not. -/
theorem branchesComplete : Obligations.BranchesComplete := by
  intro s c off
  obtain ⟨hn, hz, hv, hc⟩ := s.sr_flags
  refine ⟨rfl, rfl, ?_⟩
  rw [hn, hz, hv, hc]
  cases c with
  | cs | eq | vs | mi => exact Iff.rfl
  | cc | ne | vc | pl => exact iff_of_eq (Bool.not_eq_true' _)
  | hi | ls | ge | lt | gt | le => simp [condHolds]

/-! ## A push to plain memory -/

section
variable {s t : State} {sz : Size} {n : Nat} {a v : Long}

/-- What memory holds depends on the parameters and the memory list alone. -/
theorem Holds.congr {f : Nat → Byte} (h : Holds s n a f) (hc : t.config = s.config) (hm : t.mem = s.mem) :
    Holds t n a f := fun k hk =>
  have ⟨hram, hpeek⟩ := h k hk
  ⟨(State.kindAt_congr hc _).trans hram, (State.peek_congr hc hm _).trans hpeek⟩

theorem Accessible.congr (h : Accessible s sz a) (hc : t.config = s.config) : Accessible t sz a := by
  simpa only [Accessible, State.faultsMisaligned, hc] using h

/-- A7 is no part of memory. -/
theorem WroteAt.sp (h : WroteAt s t a n) : t.sp = s.sp :=
  have ⟨husp, hisp, hmsp⟩ := h.stacks
  State.sp_congr h.sys h.config husp hisp hmsp

/-- What a write to plain memory stored reads back in every state with the memory it left (R64, R67). -/
theorem memRead_of_memWrite (hbits : 2 ≤ s.config.addrBits) (hplain : PlainRam s a sz.bytes)
    (hacc : Accessible s sz a) {u : State} (hwrite : memWrite s sz a v = .ok u) (hc : t.config = s.config)
    (hm : t.mem = u.mem) : memRead t sz a = .ok (trunc sz v, t) := by
  obtain rfl : storeBytes sz.bytes a v s = u := Except.ok.inj ((memWrite_plain hacc hplain v).symm.trans hwrite)
  have hholds := storeBytes_holds hbits hplain (by cases sz <;> decide) hacc.2 v
  rw [memRead_of_holds (hacc.congr hc) (hholds.congr (hc.trans (storeBytes_config _ a v s).symm) hm),
    bigEndian_byteAt]

/-- A push onto plain memory completes: A7 names the value, which every state with that memory reads there (R23). -/
theorem push_plain (hbits : 2 ≤ s.config.addrBits) (hplain : PlainRam s (s.sp - BitVec.ofNat 32 sz.bytes) sz.bytes)
    (hacc : Accessible s sz (s.sp - BitVec.ofNat 32 sz.bytes)) (v : Long) :
    ∃ u, push s sz v = .ok u ∧ u.sp = s.sp - BitVec.ofNat 32 sz.bytes ∧ u.sr = s.sr ∧
      ∀ t : State, t.config = u.config → t.mem = u.mem → memRead t sz u.sp = .ok (trunc sz v, t) := by
  have hconfig := s.setSp_config (s.sp - BitVec.ofNat 32 sz.bytes)
  have hplain' := (plainRam_congr hconfig).mpr hplain
  have hacc' := hacc.congr hconfig
  have hwrite := memWrite_plain hacc' hplain' v
  have hwrote := memWrite_spec hwrite
  have hsp := hwrote.sp.trans (s.sp_setSp _)
  refine ⟨_, hwrite, hsp, hwrote.sr.trans (s.setSp_sr _), fun t hc hm => ?_⟩
  rw [hsp]
  exact memRead_of_memWrite (hconfig ▸ hbits) hplain' hacc' hwrite (hc.trans hwrote.config) hm

end

/-! ## BSR -/

/-- BSR goes to its target once the address after it is pushed (R322). -/
theorem execBsr_completes {s u : State} {off : BranchOff} (h : push s .long (branchNext s off) = .ok u) :
    exec (.bsr off) s = .next (u.setPc (branchTarget s off)) :=
  finish_bind_ok _ h

/-- Settles O53: the long pushed is the address after BSR, and it is still read there after the jump. -/
theorem bsrCompletes : Obligations.BsrCompletes := by
  intro s off hbits hplain hacc
  obtain ⟨u, hpush, hsp, hsr, hread⟩ := push_plain (sz := .long) hbits hplain hacc (branchNext s off)
  exact ⟨u.setPc (branchTarget s off), execBsr_completes hpush, hsp, rfl, hsr, hread _ rfl rfl⟩

end Sys2Proof.Machine
end

section
/-! PROOFS. Under `TRAP_MODEL = fault` the system byte only loses bits; and how taking an exception ends under each
`TRAP_MODEL`. -/

namespace Sys2Proof.Machine

/-! ## The system byte -/

/-- Under `TRAP_MODEL = fault` no bit of the system byte is set in the second state that is clear in the first. -/
def LosesSysBits (s t : State) : Prop :=
  s.config.trapModel = .fault →
    t.config = s.config ∧ ∀ j, t.sys.getLsbD j = true → s.sys.getLsbD j = true

theorem LosesSysBits.of_eq {s t : State} (hc : t.config = s.config) (hs : t.sys = s.sys) : LosesSysBits s t :=
  fun _ => ⟨hc, fun _ h => hs ▸ h⟩

theorem LosesSysBits.trans {s t u : State} (h : LosesSysBits s t) (g : LosesSysBits t u) : LosesSysBits s u := by
  intro hf
  obtain ⟨hc, hbits⟩ := h hf
  obtain ⟨gc, gbits⟩ := g (hc ▸ hf)
  exact ⟨gc.trans hc, fun j hj => hbits j (gbits j hj)⟩

/-- ANDI to SR can only clear bits, and every other part of an instruction leaves the byte as it is. -/
theorem losesSysBits_stepClosed : StepClosed LosesSysBits where
  trans _ _ _ := .trans
  sample _ _ _ := .of_eq rfl rfl
  frame _ _ _ h := .of_eq h.config h.sys
  setPc _ _ := .of_eq rfl rfl
  andiToSr _ m _ _ _ := ⟨rfl, fun j hj => by
    rw [State.setCcr_sys, State.setSys_sys, BitVec.getLsbD_and, Bool.and_eq_true] at hj
    exact hj.1⟩
  exception e s t h hf := by rw [(takeException_next h).1] at hf; cases hf

/-- Settles O21: every part of a step loses bits at most, and bits 15 to 8 of SR are the system byte. -/
theorem systemByteOnlyLosesBits : Obligations.SystemByteOnlyLosesBits := by
  intro s t hf h j hj _ hbit
  obtain ⟨-, hbits⟩ := losesSysBits_stepClosed.step h hf
  rw [t.sr_high j hj] at hbit
  rw [s.sr_high j hj]
  exact hbits _ hbit

/-! ## How taking an exception ends -/

section
variable {e : Exc} {s t : State}

/-- Under `TRAP_MODEL = fault` an exception ends the run as its record (R421). -/
theorem takeException_fault (h : s.config.trapModel = .fault) (e : Exc) :
    takeException e s = .fault (.exception e e.vector (e.instrAddr s)) := by
  simp [takeException, h]

/-- Under `TRAP_MODEL = frame` an exception that is not terminal goes on at the handler when the entry can be made
(R446). -/
theorem takeException_frame (h : s.config.trapModel = .frame) (he : e.terminal = false)
    (hentry : enterHandler e s = .ok t) : takeException e s = .next t := by
  simp [takeException, h, he, hentry]

end

theorem IrqAck.vector_auto (level : BitVec 3) : (IrqAck.auto.vector level).toNat = 24 + level.toNat := by
  have := level.isLt
  have h24 : (24 : Byte).toNat = 24 := rfl
  rw [IrqAck.vector, BitVec.toNat_add, BitVec.toNat_setWidth, h24]
  omega

/-- Settles O11: each exception by its record, and the vector numbers of the acknowledge cycle. -/
theorem exceptionRecord : Obligations.ExceptionRecord := fun _ _ _ _ _ _ _ level _ h =>
  ⟨takeException_fault h _, takeException_fault h _, takeException_fault h _, takeException_fault h _,
    takeException_fault h _, takeException_fault h _, takeException_fault h _, takeException_fault h _,
    takeException_fault h _, IrqAck.vector_auto level, rfl, rfl⟩

/-- Settles O55: BKPT is the illegal instruction exception, which is not terminal. -/
theorem bkptTakesException : Obligations.BkptTakesException := fun _ _ _ =>
  ⟨fun h => takeException_fault h _, fun h hentry => takeException_frame h rfl hentry⟩

end Sys2Proof.Machine
end

section
/-! PROOFS. One step around `exec`: the interrupt test before the fetch, the gate of a coprocessor form, and the trace
exception after the instruction. -/

namespace Sys2Proof.Machine

/-! ## The interrupt test -/

section
variable {s t : State} {e : Exc} {r : IrqSample} {rs : List IrqSample}

theorem irqTaken_iff (mask last level : BitVec 3) :
    irqTaken mask last level = true ↔ level.toNat > mask.toNat ∨ (level = 7 ∧ last ≠ 7) := by
  simp [irqTaken]

theorem sampleIrq_taken (h : s.irq = r :: rs) (ht : irqTaken s.irqMask s.irqLast r.level = true) :
    sampleIrq s = (some (.interrupt r.level (r.ack.vector r.level)), { s with irq := rs, irqLast := r.level }) := by
  simp [sampleIrq, h, ht]

theorem sampleIrq_not_taken (h : s.irq = r :: rs) (ht : irqTaken s.irqMask s.irqLast r.level = false) :
    sampleIrq s = (none, { s with irq := rs, irqLast := r.level }) := by
  simp [sampleIrq, h, ht]

theorem sampleIrq_nil (h : s.irq = []) : sampleIrq s = (none, { s with irqLast := 0 }) := by
  simp [sampleIrq, h]

/-- Away from `END_PC` a request that is taken is all of the step. -/
theorem step_of_request (hend : s.config.endPc ≠ some s.pc) (h : sampleIrq s = (some e, t)) :
    step s = takeException e t := by
  simp [step, cycle, hend, h]

/-- Away from `END_PC` a step with no request taken is the instruction. -/
theorem step_of_no_request (hend : s.config.endPc ≠ some s.pc) (h : sampleIrq s = (none, t)) :
    step s = runInstruction t := by
  simp [step, cycle, hend, h]

end

/-- Settles O14: the sample is taken, turned down, or there is none. -/
theorem interruptTest : Obligations.InterruptTest := by
  intro s r rs hend
  refine ⟨fun h ht => ?_, fun h ht => ?_, fun h => step_of_no_request hend (sampleIrq_nil h)⟩
  · exact step_of_request hend (sampleIrq_taken h ((irqTaken_iff _ _ _).mpr ht))
  · rw [← irqTaken_iff, Bool.not_eq_true] at ht
    exact step_of_no_request hend (sampleIrq_not_taken h ht)

/-! ## What is turned away and what changes the flow -/

/-- Is it one of the two privileged coprocessor forms (R393, R394)? -/
def cpPrivileged : Instr → Bool
  | .cpRestore _ _ | .cpSave _ _ => true
  | _ => false

section
variable {i : Instr} {s : State} {w : Word} {id : BitVec 3} {p : Bool}

theorem cpPrivileged_iff (hi : coprocId i = some id) :
    cpPrivileged i = true ↔ ∃ field, i = .cpRestore id field ∨ i = .cpSave id field := by
  cases i <;> cases hi <;> simp [cpPrivileged]

/-- A member or a CP-ID without coprocessor forms (R388). -/
theorem cpGate_no_form (h : s.config.cpu.is020 = false ∨ id = 0) : cpGate s w id p = .error (.raise (.lineF w)) := by
  rcases h with h | rfl
  · simp [cpGate, h]
  · simp [cpGate]

/-- What is left to test on a member that has the form (R388). -/
theorem cpGate_form (hcpu : s.config.cpu.is020 = true) (hid : id ≠ 0) :
    cpGate s w id p = if p && !s.supervisor then .error (.raise (.privilege w))
      else if s.config.coproc.contains id then .ok () else .error (.raise (.lineF w)) := by
  rw [cpGate, if_neg (by simpa [hcpu] using hid)]

/-- The privilege comes before the question which coprocessors are there (R388, R440). -/
theorem cpGate_user (hcpu : s.config.cpu.is020 = true) (hid : id ≠ 0) (hp : p = true) (hs : s.supervisor = false) :
    cpGate s w id p = .error (.raise (.privilege w)) := by
  simp [cpGate_form hcpu hid, hp, hs]

theorem cpGate_absent (hcpu : s.config.cpu.is020 = true) (hid : id ≠ 0) (hp : p = true → s.supervisor = true)
    (h : id ∉ s.config.coproc) : cpGate s w id p = .error (.raise (.lineF w)) := by
  simpa [cpGate_form hcpu hid, h] using hp

theorem cpGate_present (hcpu : s.config.cpu.is020 = true) (hid : id ≠ 0) (hp : p = true → s.supervisor = true)
    (h : id ∈ s.config.coproc) : cpGate s w id p = .ok () := by
  simpa [cpGate_form hcpu hid, h] using hp

/-- The gate stops a form for one of these reasons. -/
theorem cpGate_ne_ok_iff : cpGate s w id p ≠ .ok () ↔ s.config.cpu.is020 = false ∨ id = 0 ∨ id ∉ s.config.coproc ∨
    (s.supervisor = false ∧ p = true) := by
  by_cases hform : s.config.cpu.is020 = false ∨ id = 0
  · have hor (q : Prop) : s.config.cpu.is020 = false ∨ id = 0 ∨ q := hform.imp_right .inl
    simp only [cpGate_no_form hform, hor, ne_eq, reduceCtorEq, not_false_eq_true]
  · simp only [not_or, Bool.not_eq_false] at hform
    obtain ⟨hcpu, hid⟩ := hform
    by_cases hpriv : s.supervisor = false ∧ p = true
    · rw [cpGate_user hcpu hid hpriv.2 hpriv.1]
      simp [hpriv]
    · have hp : p = true → s.supervisor = true := by simpa using not_and'.mp hpriv
      by_cases hin : id ∈ s.config.coproc
      · rw [cpGate_present hcpu hid hp hin]
        simpa [hcpu, hin, hpriv] using hid
      · simp [cpGate_absent hcpu hid hp hin, hin]

/-- A coprocessor form is turned away when the gate stops it. -/
theorem turnedAway_coproc (hi : coprocId i = some id) :
    turnedAway i s = true ↔ cpGate s 0 id (cpPrivileged i) ≠ .ok () := by
  cases i <;> cases hi
  case cpRestore | cpSave =>
    simp only [turnedAway, cpPrivileged]
    cases cpGate s 0 id true <;> simp
  all_goals
    simp only [turnedAway, cpPrivileged]
    cases cpGate s 0 id false <;> simp

end

/-- What is turned away before it begins: ANDI to SR in user state, and a coprocessor form the gate stops (R388,
R440). -/
theorem turnedAway_iff (i : Instr) (s : State) :
    turnedAway i s = true ↔ (s.supervisor = false ∧ ∃ v, i = .andiToSr v) ∨
      ∃ id, coprocId i = some id ∧ (s.config.cpu.is020 = false ∨ id = 0 ∨ id ∉ s.config.coproc ∨
        (s.supervisor = false ∧ ∃ field, i = .cpRestore id field ∨ i = .cpSave id field)) := by
  cases hi : coprocId i with
  | some id =>
    have hne (v : Word) : i ≠ .andiToSr v := by rintro rfl; cases hi
    rw [turnedAway_coproc hi, cpGate_ne_ok_iff, cpPrivileged_iff hi]
    simp [hne]
  | none =>
    cases i <;> cases hi <;> simp [turnedAway]

/-- What changes the flow: a branch that is taken (R452). -/
theorem changesFlow_iff (i : Instr) (s : State) :
    changesFlow i s = true ↔ (∃ d, i = .bra d ∨ i = .bsr d) ∨ (∃ c d, i = .bcc c d ∧ condHolds c s.ccr = true) ∨
      (∃ id isLong cond r rs, i = .cpBcc id isLong cond ∧ s.cpAnswers = r :: rs ∧ r.cond = true) ∨
      (∃ id n r rs, i = .cpDBcc id n ∧ s.cpAnswers = r :: rs ∧ r.cond = false ∧ uval .word (s.getD n) ≠ 0) := by
  cases i
  case cpBcc | cpDBcc => cases h : s.cpAnswers <;> simp [changesFlow, h]
  all_goals simp [changesFlow]

/-! ## The trace exception -/

section
variable {i : Instr} {s t : State}

theorem State.traceAll_eq (s : State) : s.traceAll = s.sr.getLsbD 15 := (s.sr_high 15 (by decide)).symm

theorem State.traceFlow_eq (s : State) : s.traceFlow = (s.config.cpu.is020 && s.sr.getLsbD 14) := by
  rw [s.sr_high 14 (by decide)]
  rfl

/-- The trace bits an instruction begins with ask for the exception (R452). -/
theorem traced_iff (i : Instr) (s : State) : traced i s = true ↔ turnedAway i s = false ∧ (s.sr.getLsbD 15 = true ∨
    (s.config.cpu.is020 = true ∧ s.sr.getLsbD 14 = true ∧ changesFlow i s = true)) := by
  rw [traced, s.traceAll_eq, s.traceFlow_eq]
  simp only [Bool.and_eq_true, Bool.or_eq_true, Bool.not_eq_true', and_assoc]
  exact and_comm

theorem traceAfter_traced (h : traced i s = true) : traceAfter i s (.next t) = takeException (.trace s.pc) t := by
  simp [traceAfter, h]

theorem traceAfter_not_traced (h : traced i s = false) (o : Host.Outcome State Fault Refusal) :
    traceAfter i s o = o := by
  cases o <;> simp [traceAfter, h]

/-- An instruction that does not lead on ends as it is (R452). -/
theorem traceAfter_stopped {o : Host.Outcome State Fault Refusal} (h : ∀ t, o ≠ .next t) : traceAfter i s o = o := by
  cases o with
  | next t => exact absurd rfl (h t)
  | fault | refused => rfl

end

/-- Settles O15: with no sample and no level before it the step is the instruction itself; the trace bits then decide by
`traced_iff`. -/
theorem stepRunsDecoded : Obligations.StepRunsDecoded := by
  intro s i
  refine ⟨turnedAway_iff i s, changesFlow_iff i s, fun hend hirq hlast hdec => ?_⟩
  have hstep : step s = traceAfter i s (exec i s) := by
    have hsame : { s with irqLast := 0 } = s := by rw [← hlast]
    have hsample : sampleIrq s = (none, s) := hsame ▸ sampleIrq_nil hirq
    rw [step_of_no_request hend hsample, runInstruction, hdec]
  have hplain (hno : ¬ traced i s = true) : step s = exec i s :=
    hstep.trans (traceAfter_not_traced (Bool.not_eq_true _ ▸ hno) _)
  refine ⟨hstep, fun h15 h14 => hplain ?_, ?_, fun t ht haway => ⟨fun htrace => ?_, fun h15 hflow => ?_⟩⟩
  · rw [traced_iff, h15, h14]
    simp
  · rintro (hstop | haway)
    · exact hstep.trans (traceAfter_stopped hstop)
    · exact hplain (by simp [traced_iff, haway])
  · rw [hstep, ht, traceAfter_traced ((traced_iff i s).mpr ⟨haway, htrace⟩)]
  · rw [hplain, ht]
    rw [traced_iff, h15]
    rcases hflow with hflow | hflow <;> simp [hflow]

end Sys2Proof.Machine
end

section
/-! PROOFS. CHK and CHK2 within and outside their bounds, and ANDI to the two parts of the status register. -/

namespace Sys2Proof.Machine

/-! ## CHK -/

section
variable {s t u : State} {sz : Size} {own : Nat} {r : RegNum} {ea : Ea} {bound : Long}

/-- CHK is its test against zero and the bound it read (R351). -/
theorem chkOperand_of_read (r : RegNum) (hread : eaRead s sz 1 ea = .ok (bound, u)) :
    chkOperand sz r ea s = settleCheck s 1 ea (.ok (checkBound u sz (s.getD r) bound)) := by
  rw [chkOperand, hread, ← eaRead_getD hread r]
  rfl

/-- A check that does not trap goes on with the next instruction. -/
theorem settleCheck_passes {trap : Bool} (h : trap = false) (ht : t.pc = s.pc) :
    settleCheck s own ea (.ok (trap, t)) = .next (t.setPc (s.pc + BitVec.ofNat 32 (2 * (own + eaLen ea)))) := by
  rw [h, ← advanceEa_eq_setPc own ea ht]
  rfl

/-- A check that traps takes the exception with the next instruction's address and the flags written (R425). -/
theorem settleCheck_traps {trap : Bool} (h : trap = true) : settleCheck s own ea (.ok (trap, t)) =
    takeException (.chk (s.pc + BitVec.ofNat 32 (2 * (own + eaLen ea))) t.ccr) t := by
  rw [h]
  rfl

end

/-- Settles O56: reading the bound changes address registers and the device log alone, the test draws values and writes
flags. -/
theorem chkChecksBounds : Obligations.ChkChecksBounds := by
  intro s u r ea sz i bound hi hread
  have hexec : exec i s = chkOperand sz r ea s := by obtain ⟨rfl, rfl⟩ | ⟨rfl, rfl⟩ := hi <;> rfl
  have hu := eaRead_spec hread
  have hd : u.d = s.d := hu.d.trans (eaSideEffect_d s sz ea)
  have hmem : u.mem = s.mem := hu.mem.trans (eaSideEffect_mem s sz ea)
  have hpc : u.pc = s.pc := eaRead_pc hread
  obtain ⟨k, f, hcheck, hx, hn⟩ := checkBound_spec u sz (s.getD r) bound
  rw [eaRead_ccr hread] at hx
  rw [hexec, chkOperand_of_read r hread, hcheck]
  refine ⟨fun hlow hhigh => ?_, fun hout => ?_⟩
  · have hpass : (decide (sval sz (s.getD r) < 0) || decide (sval sz (s.getD r) > sval sz bound)) = false := by
      simp [hlow, hhigh]
    exact ⟨_, settleCheck_passes hpass hpc, rfl, hd, rfl, ⟨rfl, rfl, rfl⟩, hmem, hx⟩
  · have htrap : (decide (sval sz (s.getD r) < 0) || decide (sval sz (s.getD r) > sval sz bound)) = true := by
      rwa [← Bool.decide_or, decide_eq_true_iff]
    exact ⟨f, _, settleCheck_traps htrap, rfl, hx, hn hout, hpc, hd, hmem, hu.config.trans (eaSideEffect_config s sz ea)⟩

/-! ## CHK2 -/

/-- Outside the bounds is equal to neither (R172). -/
theorem ne_bounds_of_outOfBounds {sz : Size} {r lo hi : Long} (h : outOfBounds sz r lo hi = some true) :
    uval sz r ≠ uval sz lo ∧ uval sz r ≠ uval sz hi := by
  have hmod := outOfBounds_modular r h
  have hr := uval_sub_cases sz r lo
  have hhi := uval_sub_cases sz hi lo
  have hlt := uval_lt sz (hi - lo)
  have hlt' := uval_lt sz (r - lo)
  rw [eq_comm, decide_eq_true_iff] at hmod
  omega

/-- With bounds in neither order C is the first value drawn (R172). -/
theorem boundsFlags_c_free {s : State} {sz : Size} {rn : GReg} {lo hi : Long}
    (h : outOfBounds (boundsSize sz rn) (s.getR rn) (boundVal sz rn lo) (boundVal sz rn hi) = none) :
    (boundsFlags s sz rn lo hi).ccr.c = (drawBit s).1 := by
  show (boundsCarry s (boundsSize sz rn) (s.getR rn) (boundVal sz rn lo) (boundVal sz rn hi)).1 = _
  rw [boundsCarry, h]

/-- CHK2 is its test against the bounds it read, C deciding (R352). -/
theorem execChk2_of_read {s u : State} {sz : Size} {rn : GReg} {ea : Ea} {lo hi : Long}
    (hread : readBounds s sz 2 ea = .ok ((lo, hi), u)) : exec (.chk2 sz rn ea) s =
      settleCheck s 2 ea (.ok ((boundsFlags u sz rn lo hi).ccr.c, boundsFlags u sz rn lo hi)) := by
  show execChk2 sz rn ea s = _
  rw [execChk2, hread]
  rfl

/-- Settles O57: reading the bounds changes address registers and the device log alone; C is what the bounds test
answers, or the value drawn. -/
theorem chk2ChecksBounds : Obligations.Chk2ChecksBounds := by
  intro s u sz rn ea lo hi hread
  have hu := readBounds_spec hread
  have hd : u.d = s.d := hu.d.trans (eaSideEffect_d s sz ea)
  have hmem : u.mem = s.mem := hu.mem.trans (eaSideEffect_mem s sz ea)
  have hpc : u.pc = s.pc := hu.pc.trans (eaSideEffect_pc s sz ea)
  have hconfig : u.config = s.config := hu.config.trans (eaSideEffect_config s sz ea)
  have hfree := boundsFlags_c_free (s := u) (sz := sz) (rn := rn) (lo := lo) (hi := hi)
  obtain ⟨k, f, hflags, hx, hz, hc⟩ := boundsFlags_spec u sz rn lo hi
  rw [hu.ccr, eaSideEffect_ccr] at hx
  rw [← Bool.coe_iff_coe, Bool.or_eq_true, beq_iff_eq, beq_iff_eq, ← uval_inj, ← uval_inj] at hz
  rw [execChk2_of_read hread]
  rw [hflags] at hfree ⊢
  refine ⟨fun hin => ?_, fun hout => ?_, fun hnone => ?_⟩
  · have hfc := hc false hin
    exact ⟨_, settleCheck_passes hfc hpc, rfl, hd, rfl, ⟨rfl, rfl, rfl⟩, hmem, hx, hfc, hz⟩
  · have hfc := hc true hout
    have hfz : f.z = false := by
      obtain ⟨hlo, hhi⟩ := ne_bounds_of_outOfBounds hout
      exact Bool.eq_false_iff.mpr fun h => (hz.mp h).elim hlo hhi
    exact ⟨f, _, settleCheck_traps hfc, rfl, hx, hfc, hfz, hpc, hd, hmem, hconfig⟩
  · have hdrawn := hfree hnone
    rcases Bool.eq_false_or_eq_true f.c with hfc | hfc
    · exact ⟨f, { u with draws := k, ccr := f }, rfl, hx, hdrawn, hd, rfl, ⟨rfl, rfl, rfl⟩, hmem, hconfig, hz,
        fun h => absurd (hfc.symm.trans h) nofun, fun _ => ⟨hpc, settleCheck_traps hfc⟩⟩
    · exact ⟨f, State.setPc { u with draws := k, ccr := f } _, rfl, hx, hdrawn, hd, rfl, ⟨rfl, rfl, rfl⟩, hmem,
        hconfig, hz, fun _ => ⟨settleCheck_passes hfc hpc, rfl⟩, fun h => absurd (hfc.symm.trans h) nofun⟩

/-! ## ANDI to SR and to CCR -/

/-- The flags of a byte AND are those cleared where the other byte is (R342, R370). -/
theorem ccrOf_and (f : Ccr) (b : Byte) : ccrOf (ccrByte f &&& b) = f.and b := by
  have hand : ccrOf (ccrByte f &&& b) = (ccrOf (ccrByte f)).and b := by
    simp only [ccrOf, Ccr.and, BitVec.getLsbD_and]
  rw [hand, ccrOf_ccrByte]

/-- An AND with the status register is one with each of its halves (R31). -/
theorem State.setSr_and (s : State) (v : Word) : s.setSr (s.sr &&& v) =
    (s.setSys (s.sys &&& v.extractLsb' 8 8)).setCcr (s.ccr.and (v.extractLsb' 0 8)) := by
  have hhigh : (s.sr &&& v).extractLsb' 8 8 = s.sys &&& v.extractLsb' 8 8 := by
    rw [BitVec.extractLsb'_and, State.sr, BitVec.extractLsb'_append_eq_left]
  have hlow : (s.sr &&& v).extractLsb' 0 8 = ccrByte s.ccr &&& v.extractLsb' 0 8 := by
    rw [BitVec.extractLsb'_and, State.sr, BitVec.extractLsb'_append_eq_right]
  rw [State.setSr, hhigh, hlow, ccrOf_and]

theorem execAndiToCcr_completes (s : State) (b : Byte) :
    exec (.andiToCcr b) s = .next ((s.setSr (s.sr &&& (0xFF#8 ++ b))).setPc (s.pc + 4)) := by
  have hsys : s.sys &&& 0xFF#8 = s.sys := BitVec.and_allOnes
  rw [State.setSr_and, BitVec.extractLsb'_append_eq_left, BitVec.extractLsb'_append_eq_right, hsys]
  rfl

theorem execAndiToSr_completes {s : State} (h : s.supervisor = true) (v : Word) :
    exec (.andiToSr v) s = .next ((s.setSr (s.sr &&& v)).setPc (s.pc + 4)) := by
  show execAndiToSr v s = _
  rw [execAndiToSr, privilegedCheck, if_pos h, State.setSr_and]
  rfl

/-- In user state ANDI to SR is the privilege violation (R440). -/
theorem execAndiToSr_user {s : State} (h : s.supervisor = false) (v : Word) :
    exec (.andiToSr v) s = takeException (.privilege 0x027C) s := by
  show execAndiToSr v s = _
  rw [execAndiToSr, privilegedCheck, h]
  rfl

/-- S after an AND with the status register is bit 13 of both. -/
theorem State.supervisor_setSr_and (s : State) (v : Word) :
    (s.setSr (s.sr &&& v)).supervisor = (s.supervisor && v.getLsbD 13) := by
  rw [State.setSr_and]
  simp [State.supervisor]

/-- M after an AND with the status register is bit 12 of both, from MC68020 on. -/
theorem State.master_setSr_and (s : State) (v : Word) :
    (s.setSr (s.sr &&& v)).master = (s.config.cpu.is020 && s.sr.getLsbD 12 && v.getLsbD 12) := by
  rw [State.setSr_and, s.sr_high 12 (by decide)]
  simp [State.master, Bool.and_assoc]

/-- Settles O54: both forms as an AND with the status register; A7 then follows S and M. -/
theorem andiToStatusCompletes : Obligations.AndiToStatusCompletes := by
  intro s v b
  refine ⟨execAndiToCcr_completes s b, fun hs => execAndiToSr_completes hs v,
    fun hs h13 => ⟨_, execAndiToSr_completes hs v, ?_, ?_⟩,
    fun hs h13 => ⟨_, execAndiToSr_completes hs v, ?_, ?_⟩, fun hs => execAndiToSr_user hs v⟩
  all_goals
    have hsup := s.supervisor_setSr_and v
    rw [hs, h13] at hsup
  · exact hsup
  · show State.sp (s.setSr (s.sr &&& v)) = s.usp
    rw [State.sp, hsup]
    rfl
  · exact hsup
  · show State.sp (s.setSr (s.sr &&& v)) = _
    rw [State.sp, hsup, State.master_setSr_and]
    rfl

end Sys2Proof.Machine
end

section
/-! PROOFS. CAS and CAS2 from their reads to the swap or the load. -/

namespace Sys2Proof.Machine

/-! ## CAS -/

section
variable {s u v w t : State} {sz : Size} {dc du : RegNum} {ea : Ea} {a x y : Long}

/-- CAS once its operand is read: the swap or the load, then the flags (R382). -/
theorem execCas_completes (haddr : eaAddr s sz (s.pcPlus 2) ea = .ok (a, u)) (hread : memRead u sz a = .ok (x, v))
    (hput : (if (cmpFlags sz (v.getD dc) x v.ccr).z then memWrite v sz a (v.getD du) else .ok (v.setDLow sz dc x)) =
      .ok t) :
    exec (.cas sz du dc ea) s = .next (advanceEa (t.setCcr (cmpFlags sz (v.getD dc) x v.ccr)) 2 ea) :=
  (finish_bind_ok _ (eaDecode_of_eaAddr haddr)).trans ((finish_bind_ok _ hread).trans (finish_ite_bind_ok _ hput))

/-- The next state of CAS in terms of the state it began in: the reads keep data registers, flags and pc. -/
theorem execCas_next (haddr : eaAddr s sz (s.pcPlus 2) ea = .ok (a, u)) (hread : memRead u sz a = .ok (x, v))
    (hput : (if (cmpFlags sz (s.getD dc) x s.ccr).z then memWrite v sz a (s.getD du) else .ok (v.setDLow sz dc x)) =
      .ok t) (hpc : t.pc = v.pc) :
    exec (.cas sz du dc ea) s = .next ((t.setCcr (cmpFlags sz (s.getD dc) x s.ccr)).setPc
      (s.pc + BitVec.ofNat 32 (2 * (2 + eaLen ea)))) := by
  have hv := (eaAddr_spec haddr).1.trans (memRead_spec hread)
  have hd (n : RegNum) : v.getD n = s.getD n := State.getD_congr (hv.d.trans (eaSideEffect_d s sz ea)) n
  have hccr : v.ccr = s.ccr := hv.ccr.trans (eaSideEffect_ccr s sz ea)
  rw [← hd, ← hd, ← hccr] at hput
  rw [execCas_completes haddr hread hput, hd, hccr,
    advanceEa_setCcr 2 ea _ (hpc.trans (hv.pc.trans (eaSideEffect_pc s sz ea)))]

/-! ## CAS2 -/

theorem cas2Flags_of_eq {c1 d1 : Long} (h : uval sz d1 = uval sz c1) (c2 d2 : Long) (old : Ccr) :
    cas2Flags sz c1 d1 c2 d2 old = cmpFlags sz c2 d2 old := if_pos ((cmpFlags_z sz c1 d1 old).mpr h)

theorem cas2Flags_of_ne {c1 d1 : Long} (h : uval sz d1 ≠ uval sz c1) (c2 d2 : Long) (old : Ccr) :
    cas2Flags sz c1 d1 c2 d2 old = cmpFlags sz c1 d1 old := if_neg (mt (cmpFlags_z sz c1 d1 old).mp h)

/-- CAS2 goes on three words further. -/
theorem advance_three_setCcr (f : Ccr) (h : t.pc = s.pc) : (t.setCcr f).advance 3 = (t.setCcr f).setPc (s.pc + 6) := by
  simp only [State.advance, State.pcPlus, State.setCcr_pc, h]
  rfl

variable {p q : CasPair}

/-- CAS2 once its operands are read and equal to both Dc: both Du are stored (R383). -/
theorem cas2_swaps (hread1 : memRead s sz (s.getR p.rn) = .ok (x, u)) (hread2 : memRead u sz (s.getR q.rn) = .ok (y, v))
    (h1 : uval sz x = uval sz (s.getD p.dc)) (h2 : uval sz y = uval sz (s.getD q.dc))
    (hwrite1 : memWrite v sz (s.getR p.rn) (s.getD p.du) = .ok w)
    (hwrite2 : memWrite w sz (s.getR q.rn) (s.getD q.du) = .ok t) :
    finish s (cas2Operands sz p q s) =
      .next ((t.setCcr (cmpFlags sz (s.getD q.dc) y s.ccr)).setPc (s.pc + 6)) := by
  have hv := (memRead_spec hread1).trans (memRead_spec hread2)
  have hpc : t.pc = s.pc := (memWrite_spec hwrite2).pc.trans ((memWrite_spec hwrite1).pc.trans hv.pc)
  refine (finish_bind_ok _ hread1).trans ((finish_bind_ok _ hread2).trans ?_)
  dsimp only
  rw [hv.getD, hv.getD, hv.getD, hv.getD, hv.ccr, cas2Flags_of_eq h1, if_pos ((cmpFlags_z sz _ _ _).mpr h2),
    ← advance_three_setCcr _ hpc]
  exact (finish_bind_ok _ hwrite1).trans (finish_bind_ok _ hwrite2)

/-- CAS2 once its operands are read and one is not equal to its Dc: both are loaded (R383). -/
theorem cas2_loads (hread1 : memRead s sz (s.getR p.rn) = .ok (x, u)) (hread2 : memRead u sz (s.getR q.rn) = .ok (y, v))
    {f : Ccr} (hf : cas2Flags sz (s.getD p.dc) x (s.getD q.dc) y s.ccr = f) (hz : ¬ f.z = true) :
    finish s (cas2Operands sz p q s) =
      .next ((((v.setDLow sz p.dc x).setDLow sz q.dc y).setCcr f).setPc (s.pc + 6)) := by
  have hv := (memRead_spec hread1).trans (memRead_spec hread2)
  refine (finish_bind_ok _ hread1).trans ((finish_bind_ok _ hread2).trans ?_)
  dsimp only
  rw [hv.getD, hv.getD, hv.ccr, hf, if_neg hz,
    ← advance_three_setCcr (t := (v.setDLow sz p.dc x).setDLow sz q.dc y) f hv.pc]
  rfl

end

/-- Settles O58: in each case the comparison decides between the writes and the loads. -/
theorem compareAndSwapCompletes : Obligations.CompareAndSwapCompletes := by
  intro s u v w t sz i p q du dc ea a x y
  refine ⟨fun haddr hread => ⟨fun heq hwrite => ?_, fun hne => ?_⟩, fun hi hread1 hread2 => ?_⟩
  · exact execCas_next haddr hread (by rwa [if_pos ((cmpFlags_z sz _ _ _).mpr heq)]) (memWrite_spec hwrite).pc
  · exact execCas_next haddr hread (if_neg (mt (cmpFlags_z sz _ _ _).mp hne)) rfl
  · have hexec : exec i s = finish s (cas2Operands sz p q s) := by obtain ⟨rfl, rfl⟩ | ⟨rfl, rfl⟩ := hi <;> rfl
    rw [hexec]
    refine ⟨fun h1 h2 hwrite1 hwrite2 => cas2_swaps hread1 hread2 h1 h2 hwrite1 hwrite2, fun h1 => ?_, fun h1 h2 => ?_⟩
    · exact cas2_loads hread1 hread2 (cas2Flags_of_ne h1 _ _ _) (mt (cmpFlags_z sz _ _ _).mp h1)
    · exact cas2_loads hread1 hread2 (cas2Flags_of_eq h1 _ _ _) (mt (cmpFlags_z sz _ _ _).mp h2)

end Sys2Proof.Machine
end

section
/-! PROOFS. The coprocessor forms: what the gate of R388 stops, what stays opaque, and the conditions a present
coprocessor answers. -/

namespace Sys2Proof.Machine

section
variable {i : Instr} {s t : State} {id : BitVec 3} {stop : Stop} {r : CpAnswer} {rs : List CpAnswer}

/-! ## The gate -/

theorem cpAsk_of_cpGate_error (h : cpGate s (opWord i) id false = .error stop) : cpAsk s i id = .error stop := by
  rw [cpAsk, h]
  rfl

theorem cpOpaque_of_cpGate_error {p : Bool} (h : cpGate s (opWord i) id p = .error stop) :
    cpOpaque s i id p = .error stop := by
  rw [cpOpaque, h]
  rfl

/-- An instruction ends where a part of it stops. -/
theorem finish_bind_error {α : Type} {y : Except Stop α} (f : α → Except Stop State) (h : y = .error stop) :
    finish s (y >>= f) = finish s (.error stop) := by
  rw [h]
  rfl

/-- A coprocessor form the gate stops ends there (R388). -/
theorem exec_of_cpGate_error (hi : coprocId i = some id)
    (h : cpGate s (opWord i) id (cpPrivileged i) = .error stop) : exec i s = finish s (.error stop) := by
  cases i <;> cases hi
  case cpGen | cpRestore | cpSave => exact congrArg (finish s) (cpOpaque_of_cpGate_error h)
  case cpBcc | cpDBcc | cpScc => exact finish_bind_error _ (cpAsk_of_cpGate_error h)

/-- The three forms whose part is not given are refused behind the gate (R389, R392, R393, R394). -/
theorem exec_of_cpGate_ok {field : BitVec 6} (hi : i = .cpGen id field ∨ i = .cpRestore id field ∨ i = .cpSave id field)
    (h : cpGate s (opWord i) id (cpPrivileged i) = .ok ()) : exec i s = .refused (.coprocessorOpaque id i) := by
  have hopaque : cpOpaque s i id (cpPrivileged i) = .error (.refuse (.coprocessorOpaque id i)) := by
    rw [cpOpaque, h]
    rfl
  obtain rfl | rfl | rfl := hi <;> exact congrArg (finish s) hopaque

/-- A condition a present coprocessor has no answer to is refused (R389). -/
theorem exec_of_no_answer {isLong : Bool} {cond field : BitVec 6} {n : RegNum}
    (hi : i = .cpBcc id isLong cond ∨ i = .cpDBcc id n ∨ i = .cpScc id field)
    (h : cpGate s (opWord i) id (cpPrivileged i) = .ok ()) (hnone : s.cpAnswers = []) :
    exec i s = .refused (.coprocessorOpaque id i) := by
  have hp : cpPrivileged i = false := by obtain rfl | rfl | rfl := hi <;> rfl
  have hask : cpAsk s i id = .error (.refuse (.coprocessorOpaque id i)) := by
    rw [cpAsk, ← hp, h]
    simp only [cpAnswer, hnone]
    rfl
  obtain rfl | rfl | rfl := hi <;> exact finish_bind_error _ hask

/-- A line F form is the exception, which under `TRAP_MODEL = frame` goes on at the handler (R388, R446). -/
theorem exec_lineF (hi : coprocId i = some id)
    (h : cpGate s (opWord i) id (cpPrivileged i) = .error (.raise (.lineF (opWord i)))) :
    exec i s = takeException (.lineF (opWord i)) s ∧
      ∀ t, s.config.trapModel = .frame → enterHandler (.lineF (opWord i)) s = .ok t → exec i s = .next t := by
  have hexec : exec i s = takeException (.lineF (opWord i)) s := exec_of_cpGate_error hi h
  exact ⟨hexec, fun t hm hentry => hexec.trans (takeException_frame hm rfl hentry)⟩

/-- Settles O60: each clause by the part of the gate that decides it. -/
theorem coprocessorGate : Obligations.CoprocessorGate := by
  intro s id isLong cond field n i
  refine ⟨fun hgate hi => ?_, fun hcpu hid hs hi => ?_, fun hcpu hid hin hi => ?_⟩
  · have hid : coprocId i = some id := by obtain rfl | rfl | rfl | rfl | rfl | rfl := hi <;> rfl
    refine exec_lineF hid ?_
    by_cases hform : s.config.cpu.is020 = false ∨ id = 0
    · exact cpGate_no_form hform
    · simp only [not_or, Bool.not_eq_false] at hform
      obtain ⟨hcpu, hne⟩ := hform
      obtain ⟨habs, hpriv⟩ : id ∉ s.config.coproc ∧
          (s.supervisor = true ∨ (i ≠ .cpRestore id field ∧ i ≠ .cpSave id field)) := by
        rcases hgate with h | h | h
        · rw [hcpu] at h; cases h
        · exact absurd h hne
        · exact h
      refine cpGate_absent hcpu hne (fun hp => ?_) habs
      rcases hpriv with h | ⟨hrestore, hsave⟩
      · exact h
      · rcases hi with rfl | rfl | rfl | rfl | rfl | rfl
        · cases hp
        · cases hp
        · cases hp
        · exact absurd rfl hrestore
        · exact absurd rfl hsave
        · cases hp
  · have hcoproc : coprocId i = some id := by obtain rfl | rfl := hi <;> rfl
    have hp : cpPrivileged i = true := (cpPrivileged_iff hcoproc).mpr ⟨field, hi⟩
    exact exec_of_cpGate_error hcoproc (cpGate_user hcpu hid hp hs)
  · rcases hi with rfl | ⟨hs, hi⟩ | ⟨hnone, hi⟩
    · exact exec_of_cpGate_ok (.inl rfl) (cpGate_present hcpu hid nofun hin)
    · exact exec_of_cpGate_ok (.inr hi) (cpGate_present hcpu hid (fun _ => hs) hin)
    · have hp : cpPrivileged i = false := by obtain rfl | rfl | rfl := hi <;> rfl
      exact exec_of_no_answer hi (cpGate_present hcpu hid (fun h => absurd (hp.symm.trans h) nofun) hin) hnone

/-! ## Conditions -/

/-- A present coprocessor whose answer is given answers with it (R389). -/
theorem cpAsk_answered (i : Instr) (hcpu : s.config.cpu.is020 = true) (hid : id ≠ 0) (hin : id ∈ s.config.coproc)
    (hans : s.cpAnswers = r :: rs) : cpAsk s i id = .ok (r, { s with cpAnswers := rs }) := by
  rw [cpAsk, cpGate_present (p := false) hcpu hid nofun hin]
  simp only [cpAnswer, hans]
  rfl

/-- The condition word is read as memory and the parameters have it. -/
theorem cpCondWord_ok {w : Word} (hpc : t.pc = s.pc) (hc : t.config = s.config) (hm : t.mem = s.mem)
    (hfetch : fetch16 s (s.pcPlus 1) = .ok w) (hw : w.extractLsb' 6 10 = 0) : cpCondWord t = .ok w := by
  have hat : t.pcPlus 1 = s.pcPlus 1 := by rw [State.pcPlus, hpc, State.pcPlus]
  rw [cpCondWord, hat, fetch16_congr hc hm, hfetch]
  simp only [bind, Except.bind, hw]
  rfl

theorem cpOffset_congr (hc : t.config = s.config) (hm : t.mem = s.mem) (scan : Long) (isLong : Bool) :
    cpOffset t scan isLong = cpOffset s scan isLong := by
  simp only [cpOffset, fetch16_congr hc hm]

/-- The counter of cpDBcc is -1 after the decrement where its low word was 0 (R391). -/
theorem trunc_mergeLow_sub_one (v : Long) :
    trunc .word (mergeLow .word v (v - 1)) = 0xFFFF ↔ uval .word v = 0 := by
  have hminus : (0xFFFF : Long).toNat = 0xFFFF := rfl
  have hone : (1 : Long).toNat = 1 := rfl
  have := v.isLt
  rw [trunc_mergeLow, ← BitVec.toNat_inj, toNat_trunc, BitVec.toNat_sub, uval_eq_mod, hminus, hone]
  simp only [Size.bits]
  omega

variable (hcpu : s.config.cpu.is020 = true) (hid : id ≠ 0) (hin : id ∈ s.config.coproc) (hans : s.cpAnswers = r :: rs)
include hcpu hid hin hans

/-- cpBcc with its answer goes to the address after its offset, or to that of the first offset word plus the offset
(R390). -/
theorem execCpBcc_completes {isLong : Bool} (cond : BitVec 6) {off : Long}
    (hoff : cpOffset s (s.pcPlus (1 + r.k)) isLong = .ok off) :
    exec (.cpBcc id isLong cond) s = .next { s with
      cpAnswers := rs
      pc := s.pcPlus (1 + r.k) + (if r.cond then off else if isLong then 4 else 2) } := by
  have hoff' : cpOffset { s with cpAnswers := rs } (s.pcPlus (1 + r.k)) isLong = .ok off :=
    (cpOffset_congr rfl rfl _ _).trans hoff
  refine (finish_bind_ok _ (cpAsk_answered _ hcpu hid hin hans)).trans ((finish_bind_ok _ hoff').trans ?_)
  cases r.cond <;> rfl

/-- cpDBcc with its answer goes past its offset where the condition is true; else it decrements the counter and goes past
the offset where that makes it -1, or to the address of the offset word plus the offset (R391). -/
theorem execCpDBcc_completes (n : RegNum) {cw : Word} {off : Long} (hfetch : fetch16 s (s.pcPlus 1) = .ok cw)
    (hcw : cw.extractLsb' 6 10 = 0) (hoff : cpOffset s (s.pcPlus (2 + r.k)) false = .ok off) :
    (r.cond = true → exec (.cpDBcc id n) s = .next { s with cpAnswers := rs, pc := s.pcPlus (3 + r.k) }) ∧
    (r.cond = false → exec (.cpDBcc id n) s = .next { s.setDLow .word n (s.getD n - 1) with
      cpAnswers := rs
      pc := if uval .word (s.getD n) = 0 then s.pcPlus (3 + r.k) else s.pcPlus (2 + r.k) + off }) := by
  have hcond := cpCondWord_ok (t := { s with cpAnswers := rs }) rfl rfl rfl hfetch hcw
  have hoff' := (cpOffset_congr (t := { s with cpAnswers := rs }) rfl rfl _ _).trans hoff
  have hnext : s.pcPlus (2 + r.k) + 2 = s.pcPlus (3 + r.k) := by
    rw [State.pcPlus_succ]
    congr 1
    omega
  refine ⟨fun hr => ?_, fun hr => ?_⟩
  all_goals
    refine (finish_bind_ok _ (cpAsk_answered _ hcpu hid hin hans)).trans ((finish_bind_ok _ hcond).trans
      ((finish_bind_ok _ hoff').trans ?_))
  · rw [if_pos hr, ← hnext]
    rfl
  · have hcount := trunc_mergeLow_sub_one (s.getD n)
    rw [← State.getD_setD_same s n (mergeLow .word (s.getD n) (s.getD n - 1))] at hcount
    rw [if_neg (Bool.eq_false_iff.mp hr), ← hnext]
    simp only [← hcount]
    rfl

/-- cpScc with its answer and its operand decoded writes FF or 00 there (R395). -/
theorem execCpScc_completes {field : BitVec 6} {ea : Ea} {cw : Word} {loc : Loc} {u : State}
    (hfetch : fetch16 s (s.pcPlus 1) = .ok cw) (hcw : cw.extractLsb' 6 10 = 0)
    (hea : fetchParse s (takeEa s.config.cpu .byte field) maxWords (s.pcPlus (2 + r.k)) [] = .ok ea)
    (hdec : eaDecode { s with cpAnswers := rs } .byte (s.pcPlus (2 + r.k)) ea = .ok (loc, u))
    (hput : eaPut u .byte loc (if r.cond then 0xFF else 0) = .ok t) :
    exec (.cpScc id field) s = .next (t.setPc (s.pc + BitVec.ofNat 32 (2 * (2 + r.k + eaLen ea)))) := by
  have hcond := cpCondWord_ok (t := { s with cpAnswers := rs }) rfl rfl rfl hfetch hcw
  have hea' := (fetchParse_congr (s := s) (t := { s with cpAnswers := rs }) rfl rfl _ _ _ _).trans hea
  have hpc : t.pc = s.pc := (eaPut_pc hput).trans (eaDecode_pc (s := { s with cpAnswers := rs }) hdec)
  rw [← advanceEa_eq_setPc _ _ hpc]
  exact (finish_bind_ok _ (cpAsk_answered _ hcpu hid hin hans)).trans ((finish_bind_ok _ hcond).trans
    ((finish_bind_ok _ hea').trans ((finish_bind_ok _ hdec).trans (finish_bind_ok _ hput))))

end

/-- Settles O59: each form from the coprocessor's answer on. -/
theorem coprocessorConditionsComplete : Obligations.CoprocessorConditionsComplete := by
  intro s id r rs hcpu hid hin hans
  refine ⟨fun _ cond _ => execCpBcc_completes hcpu hid hin hans cond,
    fun n _ _ => execCpDBcc_completes hcpu hid hin hans n, fun n cw hfetch hcw => ?_,
    fun field ea cw u t a hfetch hcw hea haddr hwrite =>
      execCpScc_completes hcpu hid hin hans hfetch hcw hea (eaDecode_of_eaAddr haddr) hwrite⟩
  have hea : fetchParse s (takeEa s.config.cpu .byte (0b000#3 ++ n)) maxWords (s.pcPlus (2 + r.k)) [] =
      .ok (.dreg n) := by
    have hread : takeEa s.config.cpu .byte (0b000#3 ++ n) [] = .ok (.dreg n, []) :=
      (reads_takeEa (set := .dataAlt) (ea := .dreg n) rfl).whole []
    rw [maxWords, fetchParse, hread]
  have hrun := execCpScc_completes (t := State.setDLow { s with cpAnswers := rs } .byte n (if r.cond then 0xFF else 0))
    hcpu hid hin hans hfetch hcw hea rfl rfl
  exact hrun

end Sys2Proof.Machine
end

section
/-! PROOFS. The state an exception's handler starts in (R446): the system byte of the entry, what the pushes keep, and
the vector, read again where it is plain memory. -/

namespace Sys2Proof.Machine

/-! ## The system byte of an entry -/

section
variable {s t u : State} {e : Exc}

theorem getLsbD_sysOnEntry (b : Byte) :
    (sysOnEntry b).getLsbD 7 = false ∧ (sysOnEntry b).getLsbD 6 = false ∧ (sysOnEntry b).getLsbD 5 = true ∧
      (sysOnEntry b).getLsbD 4 = b.getLsbD 4 ∧ (sysOnEntry b).extractLsb' 0 3 = b.extractLsb' 0 3 := by
  revert b
  decide

/-- Replacing the mask keeps the bits above it. -/
theorem getLsbD_sysWithMask (b : Byte) (level : BitVec 3) {j : Nat} (hj : 3 ≤ j) :
    (sysWithMask b level).getLsbD j = b.getLsbD j := by
  rw [sysWithMask, BitVec.getLsbD_append, if_neg (by omega), BitVec.getLsbD_extractLsb',
    show 3 + (j - 3) = j by omega]
  by_cases h : j < 8
  · simp [show j - 3 < 5 by omega]
  · simp [BitVec.getLsbD_of_ge b j (by omega)]

/-- Above the mask the byte of an entry is that of R446 whatever the exception. -/
theorem getLsbD_sysForEntry (e : Exc) (b : Byte) {j : Nat} (hj : 3 ≤ j) :
    (sysForEntry e b).getLsbD j = (sysOnEntry b).getLsbD j := by
  cases e
  case interrupt level v => exact getLsbD_sysWithMask _ level hj
  all_goals rfl

/-- The state an entry pushes its frame in: the system byte is new, all else is as it was (R446). -/
def entered (e : Exc) (s : State) : State := s.setSys (sysForEntry e s.sys)

theorem entered_supervisor (e : Exc) (s : State) : (entered e s).supervisor = true :=
  (getLsbD_sysForEntry e s.sys (by decide)).trans (getLsbD_sysOnEntry s.sys).2.2.1

theorem entered_master (e : Exc) (s : State) : (entered e s).master = s.master :=
  congrArg (s.config.cpu.is020 && ·)
    ((getLsbD_sysForEntry e s.sys (by decide)).trans (getLsbD_sysOnEntry s.sys).2.2.2.1)

/-- The system byte a handler starts with: M is clear after a throwaway frame (R446). -/
def handlerSys (e : Exc) (s : State) : Byte :=
  if throwsAway e s then sysWithoutM (sysForEntry e s.sys) else sysForEntry e s.sys

theorem getLsbD_sysWithoutM (b : Byte) :
    (sysWithoutM b).getLsbD 7 = b.getLsbD 7 ∧ (sysWithoutM b).getLsbD 6 = b.getLsbD 6 ∧
      (sysWithoutM b).getLsbD 5 = b.getLsbD 5 ∧ (sysWithoutM b).getLsbD 4 = false ∧
      (sysWithoutM b).extractLsb' 0 3 = b.extractLsb' 0 3 := by
  revert b
  decide

/-- A handler starts in supervisor state with tracing off (R446). -/
theorem getLsbD_handlerSys (e : Exc) (s : State) :
    (handlerSys e s).getLsbD 7 = false ∧ (handlerSys e s).getLsbD 6 = false ∧ (handlerSys e s).getLsbD 5 = true := by
  have hentry (j : Nat) (hj : 3 ≤ j) := getLsbD_sysForEntry e s.sys hj
  obtain ⟨h7, h6, h5, -, -⟩ := getLsbD_sysOnEntry s.sys
  obtain ⟨m7, m6, m5, -, -⟩ := getLsbD_sysWithoutM (sysForEntry e s.sys)
  rw [← hentry _ (by decide)] at h7 h6 h5
  unfold handlerSys
  split
  · exact ⟨m7.trans h7, m6.trans h6, m5.trans h5⟩
  · exact ⟨h7, h6, h5⟩

/-- An interrupt's handler starts with its level in the mask and M clear (R446). -/
theorem handlerSys_interrupt (level : BitVec 3) (v : Byte) (hsys : t.sys = handlerSys (.interrupt level v) s)
    (hc : t.config = s.config) : t.irqMask = level ∧ t.master = false := by
  have hmask : (sysForEntry (.interrupt level v) s.sys).extractLsb' 0 3 = level := BitVec.extractLsb'_append_eq_right
  obtain ⟨-, -, -, m4, mmask⟩ := getLsbD_sysWithoutM (sysForEntry (.interrupt level v) s.sys)
  rw [handlerSys] at hsys
  split at hsys
  case isTrue => exact ⟨by rw [State.irqMask, hsys, mmask, hmask], by rw [State.master, hsys, m4, Bool.and_false]⟩
  case isFalse hthrow =>
    have hmaster : (entered (.interrupt level v) s).master = false :=
      (entered_master _ s).trans (Bool.eq_false_iff.mpr hthrow)
    exact ⟨by rw [State.irqMask, hsys, hmask], by rw [State.master, hsys, hc]; exact hmaster⟩

/-- Any other handler starts with the mask and M as they were (R446). -/
theorem handlerSys_other (he : ∀ level v, e ≠ .interrupt level v) (hsys : t.sys = handlerSys e s)
    (hc : t.config = s.config) : t.irqMask = s.irqMask ∧ t.master = s.master := by
  have hentry : handlerSys e s = sysOnEntry s.sys := by
    cases e
    case interrupt level v => exact absurd rfl (he level v)
    all_goals rfl
  obtain ⟨-, -, -, h4, hmask⟩ := getLsbD_sysOnEntry s.sys
  rw [hentry] at hsys
  exact ⟨by rw [State.irqMask, hsys, hmask]; rfl, by rw [State.master, hsys, h4, hc]; rfl⟩

/-! ## What an entry keeps -/

/-- The registers no entry changes (R446). -/
structure EntryKeeps (s t : State) : Prop where
  data    : ∀ n, t.getD n = s.getD n
  a       : t.a = s.a
  ccr     : t.ccr = s.ccr
  usp     : t.usp = s.usp
  control : SameControl s t

theorem EntryKeeps.trans (h : EntryKeeps s t) (g : EntryKeeps t u) : EntryKeeps s u where
  data n := (g.data n).trans (h.data n)
  a := g.a.trans h.a
  ccr := g.ccr.trans h.ccr
  usp := g.usp.trans h.usp
  control := h.control.trans g.control

theorem EntryKeeps.setSys (s : State) (b : Byte) : EntryKeeps s (s.setSys b) :=
  ⟨fun _ => rfl, rfl, rfl, rfl, .refl s⟩

theorem EntryKeeps.setPc (s : State) (p : Long) : EntryKeeps s (s.setPc p) :=
  ⟨fun _ => rfl, rfl, rfl, rfl, .refl s⟩

theorem Keeps.eq_of_all_holds {f g : Ccr} (h : Keeps.all.holds f g) : g = f := by
  obtain ⟨hx, hn, hz, hv, hc⟩ := h
  cases f
  cases g
  exact Ccr.mk.injEq .. ▸ ⟨hx rfl, hn rfl, hz rfl, hv rfl, hc rfl⟩

/-- Pushes in supervisor state move a supervisor stack pointer. -/
theorem Frame.entryKeeps (h : Frame entryScope s t) (hs : s.supervisor = true) : EntryKeeps s t where
  data n := h.data n List.not_mem_nil
  a := by
    refine Vector.ext fun i hi => ?_
    have hindex : (BitVec.ofNat 3 i).toNat = i := Nat.mod_eq_of_lt (by omega)
    have hne : BitVec.ofNat 3 i ∉ entryScope.addr := by
      rw [entryScope, List.mem_singleton, ← BitVec.toNat_inj, hindex]
      exact Nat.ne_of_lt hi
    simpa only [hindex] using h.addr _ hne (by omega)
  ccr := Keeps.eq_of_all_holds h.flags
  usp := by
    obtain ⟨v, husp, -, -⟩ := h.inactive
    rw [husp, State.usp_setSp, if_pos hs]
  control := h.control

theorem throwsAway_congr (hm : t.master = s.master) (e : Exc) : throwsAway e t = throwsAway e s := by
  cases e
  case interrupt => exact hm
  all_goals rfl

theorem vectorBase_congr (h : SameControl s t) : t.vectorBase = s.vectorBase := by
  obtain ⟨hc, hv, -⟩ := h
  simp only [State.vectorBase, hc, hv]

theorem Frame.supervisor_eq {c : Scope} (h : Frame c s t) : t.supervisor = s.supervisor := by
  simp only [State.supervisor, h.sys]

theorem Frame.master_eq {c : Scope} (h : Frame c s t) : t.master = s.master := by
  simp only [State.master, h.sys, h.config]

/-- ALL an exception entry can do, part by part: a frame, the throwaway frame where one is pushed, the vector. -/
theorem enterHandler_parts (h : enterHandler e s = .ok t) : ∃ u v w handler,
    pushFrame (entered e s) (frameKind s.config.cpu e) s.sr (e.stackedPc s) (e.instrAddr s) e.vector = .ok u ∧
    Frame entryScope (entered e s) u ∧
    (if throwsAway e s then pushFour (u.setSys (sysWithoutM u.sys)) s.sr (e.stackedPc s) 1 e.vector else .ok u) = .ok v ∧
    EntryKeeps s v ∧ v.sys = handlerSys e s ∧
    memRead v .long (s.vectorBase + BitVec.ofNat 32 (4 * e.vector)) = .ok (handler, w) ∧ t = w.setPc handler := by
  obtain ⟨u, v, w, hpush, hthrow, handler, hread, rfl⟩ := enterHandler_spec h
  have h7 : 7 ∈ entryScope.addr := List.mem_singleton_self 7
  have hu : Frame entryScope (entered e s) u := pushFrame_frame h7 hpush
  have hsup : u.supervisor = true := hu.supervisor_eq.trans (entered_supervisor e s)
  have hku : EntryKeeps s u := (EntryKeeps.setSys s _).trans (hu.entryKeeps (entered_supervisor e s))
  rw [throwsAway_congr (hu.master_eq.trans (entered_master e s))] at hthrow
  have hkv : EntryKeeps s v ∧ v.sys = handlerSys e s := by
    rw [handlerSys]
    split at hthrow
    case isTrue hyes =>
      have hv := pushFour_frame h7 hthrow
      have hsup' : (u.setSys (sysWithoutM u.sys)).supervisor = true :=
        (getLsbD_sysWithoutM u.sys).2.2.1.trans hsup
      rw [if_pos hyes]
      exact ⟨(hku.trans (.setSys u _)).trans (hv.entryKeeps hsup'), hv.sys.trans (congrArg sysWithoutM hu.sys)⟩
    case isFalse hno =>
      cases hthrow
      rw [if_neg hno]
      exact ⟨hku, hu.sys⟩
  rw [vectorBase_congr hkv.1.control] at hread
  exact ⟨u, v, w, handler, hpush, hu, hthrow, hkv.1, hkv.2, hread, rfl⟩

/-- What a handler starts with besides its stack: these registers as they were, the system byte, and what was read of
the vector. -/
theorem enterHandler_keeps (h : enterHandler e s = .ok t) : EntryKeeps s t ∧ t.sys = handlerSys e s := by
  obtain ⟨_, v, w, handler, -, -, -, hkeeps, hsys, hread, rfl⟩ := enterHandler_parts h
  have hw := memRead_spec hread
  exact ⟨(hkeeps.trans ⟨hw.getD, hw.a, hw.ccr, hw.stacks.1, hw.control⟩).trans (.setPc w handler), hw.sys.trans hsys⟩

end

/-! ## A read repeated -/

section
variable {s t : State} {sz : Size} {n : Nat} {a acc x : Long}

/-- Written plain memory holds the bytes it lists. -/
theorem WrittenRam.holds (h : WrittenRam s a n) : Holds s n a fun k => (s.peek (a + BitVec.ofNat 32 k)).getD 0 := by
  intro k hk
  obtain ⟨hram, b, hb⟩ := h k hk
  exact ⟨hram, by simp [hb]⟩

theorem writtenRam_of_loadBytes (hram : ∀ k, k < n → s.kindAt (a + BitVec.ofNat 32 k) = .ram)
    (h : loadBytes n a acc s = .ok (x, t)) : WrittenRam s a n := by
  induction n generalizing a acc with
  | zero => exact fun k hk => absurd hk (Nat.not_lt_zero k)
  | succ n ih =>
    obtain ⟨hfirst, hrest⟩ := (forall_bytes_succ (P := fun b _ => s.kindAt b = .ram)).mp hram
    obtain ⟨⟨b, u⟩, hbyte, h⟩ := except_bind_ok h
    simp only [loadByte, hfirst, reduceCtorEq, if_false] at hbyte
    split at hbyte
    case h_1 c hc =>
      cases hbyte
      exact (forall_bytes_succ (P := fun b _ => s.kindAt b = .ram ∧ ∃ c, s.peek b = some c)).mpr
        ⟨⟨hfirst, _, hc⟩, ih hrest h⟩
    case h_2 => cases hbyte

theorem writtenRam_of_readAccess (hram : ∀ k, k < n → s.kindAt (a + BitVec.ofNat 32 k) = .ram)
    (h : readAccess n a s = .ok (x, t)) : WrittenRam s a n := by
  obtain ⟨_, -, h⟩ := except_bind_ok h
  obtain ⟨_, hload, -⟩ := except_bind_ok h
  exact writtenRam_of_loadBytes hram hload

theorem writtenRam_of_readEach (hram : ∀ k, k < n → s.kindAt (a + BitVec.ofNat 32 k) = .ram)
    (h : readEach n a acc s = .ok (x, t)) : WrittenRam s a n := by
  induction n generalizing a acc s with
  | zero => exact fun k hk => absurd hk (Nat.not_lt_zero k)
  | succ n ih =>
    obtain ⟨⟨v, u⟩, hread, h⟩ := except_bind_ok h
    have hu := readAccess_spec hread
    have hone := writtenRam_of_readAccess (fun k hk => hram k (by omega)) hread
    have hrest := ih (fun k hk => by rw [State.kindAt_congr hu.config, add_succ_ofNat]; exact hram _ (by omega)) h
    refine (forall_bytes_succ (P := fun b _ => s.kindAt b = .ram ∧ ∃ c, s.peek b = some c)).mpr
      ⟨by simpa using hone 0 (by omega), fun k hk => ?_⟩
    have hk' := hrest k hk
    rwa [State.kindAt_congr hu.config, State.peek_congr hu.config hu.mem] at hk'

/-- A read that answered was one that may be made. -/
theorem accessible_of_memRead (h : memRead s sz a = .ok (x, t)) : Accessible s sz a := by
  unfold memRead at h
  split at h
  · cases h
  · split at h
    · cases h
    · rename_i hmis hwrap
      exact ⟨Bool.eq_false_iff.mpr hmis, by simpa [wraps] using hwrap⟩

/-- A read of plain memory that answered found all its bytes written. -/
theorem writtenRam_of_memRead (hram : ∀ k, k < sz.bytes → s.kindAt (a + BitVec.ofNat 32 k) = .ram)
    (h : memRead s sz a = .ok (x, t)) : WrittenRam s a sz.bytes := by
  obtain ⟨hmis, hwrap⟩ := accessible_of_memRead h
  simp only [memRead, hmis, not_wraps ⟨hmis, hwrap⟩, Bool.false_eq_true, if_false] at h
  split at h
  · exact writtenRam_of_readEach hram h
  · exact writtenRam_of_readAccess hram h

/-- A read of plain memory answers the same in every state with that memory, and changes nothing. -/
theorem memRead_again (hram : ∀ k, k < sz.bytes → s.kindAt (a + BitVec.ofNat 32 k) = .ram) {u : State}
    (h : memRead s sz a = .ok (x, u)) (hc : t.config = s.config) (hm : t.mem = s.mem) :
    memRead t sz a = .ok (x, t) := by
  have hacc := accessible_of_memRead h
  have hholds := (writtenRam_of_memRead hram h).holds
  rw [memRead_of_holds hacc hholds] at h
  cases h
  exact memRead_of_holds (hacc.congr hc) (hholds.congr hc hm)

end

/-- Settles O12: the system byte bit by bit, what every part of the entry keeps, and the vector read again. -/
theorem handlerEntryState : Obligations.HandlerEntryState := by
  intro e s t h
  obtain ⟨hkeeps, hsys⟩ := enterHandler_keeps h
  obtain ⟨h7, h6, h5⟩ := getLsbD_handlerSys e s
  have hc := hkeeps.control.1
  refine ⟨by rw [State.supervisor, hsys, h5], by rw [t.sr_high 15 (by decide), hsys, h7],
    by rw [t.sr_high 14 (by decide), hsys, h6], hkeeps.ccr, ?_, fun he => handlerSys_other he hsys hc, hkeeps.data,
    hkeeps.a, hkeeps.usp, hkeeps.control, fun hram => ?_⟩
  · rintro level v rfl
    exact handlerSys_interrupt level v hsys hc
  · obtain ⟨_, v, w, handler, -, -, -, hv, -, hread, rfl⟩ := enterHandler_parts h
    have hw := memRead_spec hread
    exact memRead_again (fun k hk => (State.kindAt_congr hv.control.1 _).trans (hram k hk)) hread hw.config hw.mem

end Sys2Proof.Machine
end

section
/-! PROOFS. A return from a handler that changed nothing (R449): the frame stands on the stack as it was pushed, so that
what is read back is the status register and the pc, and dropping it leaves the stack pointer as it was. -/

namespace Sys2Proof.Machine

/-! ## Values on a stack -/

/-- Bytes less than sixteen apart are different bytes of memory that has at least four address bits, past the top of the
address space too. -/
theorem State.physical_ne_of_four {s : State} (hbits : 4 ≤ s.config.addrBits) (a : Long) {j k : Nat} (hjk : j < k)
    (hk : k < 16) : s.physical (a + BitVec.ofNat 32 j) ≠ s.physical (a + BitVec.ofNat 32 k) := by
  intro h
  have hdvd : 16 ∣ 2 ^ s.config.addrBits := pow_dvd_pow 2 hbits
  have hmod : (a + BitVec.ofNat 32 j).toNat % 16 = (a + BitVec.ofNat 32 k).toNat % 16 := by
    rw [← Nat.mod_mod_of_dvd _ hdvd, ← Nat.mod_mod_of_dvd (a + BitVec.ofNat 32 k).toNat hdvd]
    exact congrArg (· % 16) h
  rw [BitVec.toNat_add, BitVec.toNat_add, BitVec.toNat_ofNat, BitVec.toNat_ofNat] at hmod
  omega

theorem add_ofNat_add (a : Long) (m n : Nat) :
    a + BitVec.ofNat 32 m + BitVec.ofNat 32 n = a + BitVec.ofNat 32 (m + n) := by
  rw [BitVec.add_assoc, BitVec.ofNat_add]

/-- Part of plain memory is plain memory. -/
theorem PlainRam.part {s : State} {a : Long} {m n k : Nat} (h : PlainRam s a n) (hk : k + m ≤ n) :
    PlainRam s (a + BitVec.ofNat 32 k) m := by
  intro j hj
  rw [add_ofNat_add]
  exact h (k + j) (by omega)

/-- How many bytes the values pushed take. -/
def stackBytes : List (Size × Long) → Nat
  | [] => 0
  | (sz, _) :: rest => sz.bytes + stackBytes rest

/-- Plain memory holds these values one after the other from `a` on, each where it may be accessed. -/
def Stacked (s : State) : Long → List (Size × Long) → Prop
  | _, [] => True
  | a, (sz, v) :: rest => Accessible s sz a ∧ Holds s sz.bytes a (fun k => byteAt v (sz.bytes - 1 - k)) ∧
      Stacked s (a + BitVec.ofNat 32 sz.bytes) rest

section
variable {s t : State} {a b v x base : Long} {sz : Size} {n m : Nat} {items : List (Size × Long)}

theorem Stacked.congr (h : Stacked s a items) (hc : t.config = s.config) (hm : t.mem = s.mem) : Stacked t a items := by
  induction items generalizing a with
  | nil => trivial
  | cons item rest ih =>
    obtain ⟨hacc, hholds, hrest⟩ := h
    exact ⟨hacc.congr hc, hholds.congr hc hm, ih hrest⟩

/-- The value on top reads back (R64, R67). -/
theorem Stacked.read (h : Stacked s a ((sz, v) :: items)) : memRead s sz a = .ok (trunc sz v, s) := by
  obtain ⟨hacc, hholds, -⟩ := h
  rw [memRead_of_holds hacc hholds, bigEndian_byteAt]

/-- A write just below values on a stack leaves them. -/
theorem Stacked.of_wroteAt (hbits : 4 ≤ s.config.addrBits) (hwrote : WroteAt s t b n)
    (h : Stacked s (b + BitVec.ofNat 32 m) items) (hbelow : n ≤ m) (hroom : m + stackBytes items ≤ 16) :
    Stacked t (b + BitVec.ofNat 32 m) items := by
  induction items generalizing m with
  | nil => trivial
  | cons item rest ih =>
    obtain ⟨sz, v⟩ := item
    rw [stackBytes] at hroom
    obtain ⟨hacc, hholds, hrest⟩ := h
    rw [add_ofNat_add] at hrest
    refine ⟨hacc.congr hwrote.config, fun k hk => ?_, ?_⟩
    · obtain ⟨hram, hpeek⟩ := hholds k hk
      have houtside : Outside s b n (b + BitVec.ofNat 32 m + BitVec.ofNat 32 k) := fun j hj => by
        rw [add_ofNat_add]
        exact State.physical_ne_of_four hbits b (by omega) (by omega)
      obtain ⟨_, _, -, hkept, -⟩ := id hwrote
      exact ⟨(State.kindAt_congr hwrote.config _).trans hram, (hkept _ houtside).trans hpeek⟩
    · rw [add_ofNat_add]
      exact ih hrest (by omega) (by omega)

/-- A write that completed was one that may be made. -/
theorem accessible_of_memWrite (h : memWrite s sz a v = .ok t) : Accessible s sz a := by
  unfold memWrite at h
  split at h
  · cases h
  · split at h
    · cases h
    · rename_i hmis hwrap
      exact ⟨Bool.eq_false_iff.mpr hmis, by simpa [wraps] using hwrap⟩

/-- These values and nothing else stand between A7 and an address with twelve bytes of plain memory below it. -/
structure PushedBelow (s : State) (base : Long) (items : List (Size × Long)) : Prop where
  bits    : 4 ≤ s.config.addrBits
  plain   : PlainRam s (base - 12) 12
  sp      : s.sp + BitVec.ofNat 32 (stackBytes items) = base
  stacked : Stacked s s.sp items

theorem PushedBelow.congr (h : PushedBelow s base items) (hc : t.config = s.config) (hm : t.mem = s.mem)
    (hsp : t.sp = s.sp) : PushedBelow t base items where
  bits := hc ▸ h.bits
  plain := (plainRam_congr hc).mpr h.plain
  sp := hsp ▸ h.sp
  stacked := hsp ▸ h.stacked.congr hc hm

theorem sub_twelve_add (a : Long) {p : Nat} (hp : p ≤ 12) :
    a + BitVec.ofNat 32 p - 12 + BitVec.ofNat 32 (12 - p) = a := by
  have htwelve : BitVec.ofNat 32 p + BitVec.ofNat 32 (12 - p) = 12 := by
    rw [← BitVec.ofNat_add, Nat.add_sub_cancel' hp]
    rfl
  rw [BitVec.sub_eq_add_neg, BitVec.add_assoc, BitVec.add_comm (-12), ← BitVec.add_assoc, BitVec.add_assoc a, htwelve,
    ← BitVec.sub_eq_add_neg, BitVec.add_sub_cancel]

/-- A push puts its value on top of those pushed before, while all fit into the twelve bytes (R23). -/
theorem PushedBelow.push (h : PushedBelow s base items) (hroom : sz.bytes + stackBytes items ≤ 12)
    (hpush : push s sz v = .ok t) : PushedBelow t base ((sz, v) :: items) := by
  obtain ⟨hbits, hplain, hbase, hstacked⟩ := h
  have hwrite : memWrite (s.setSp (s.sp - BitVec.ofNat 32 sz.bytes)) sz (s.sp - BitVec.ofNat 32 sz.bytes) v = .ok t :=
    hpush
  have hsp : t.sp = s.sp - BitVec.ofNat 32 sz.bytes := (push_spec hpush).sp.trans (s.sp_setSp _)
  rw [← hsp] at hwrite
  have hwrote := memWrite_spec hwrite
  have hconfig : (s.setSp t.sp).config = s.config := s.setSp_config _
  have hback : t.sp + BitVec.ofNat 32 sz.bytes = s.sp := by rw [hsp, BitVec.sub_add_cancel]
  have hsum : t.sp + BitVec.ofNat 32 (sz.bytes + stackBytes items) = base := by rw [← add_ofNat_add, hback, hbase]
  have hplain' : PlainRam (s.setSp t.sp) t.sp sz.bytes := by
    rw [plainRam_congr hconfig, ← sub_twelve_add t.sp hroom, hsum]
    exact hplain.part (by omega)
  have hacc := accessible_of_memWrite hwrite
  have hstored : storeBytes sz.bytes t.sp v (s.setSp t.sp) = t :=
    Except.ok.inj ((memWrite_plain hacc hplain' v).symm.trans hwrite)
  have hholds := storeBytes_holds (by rw [hconfig]; omega) hplain' (by cases sz <;> decide) hacc.2 v
  rw [hstored] at hholds
  have hbelow : Stacked (s.setSp t.sp) (t.sp + BitVec.ofNat 32 sz.bytes) items :=
    hback ▸ hstacked.congr hconfig (s.setSp_mem _)
  exact {
    bits := by rwa [hwrote.config, hconfig]
    plain := (plainRam_congr (hwrote.config.trans hconfig)).mpr hplain
    sp := hsum
    stacked := ⟨hacc.congr hwrote.config, hholds,
      hbelow.of_wroteAt (hconfig ▸ hbits) hwrote (Nat.le_refl _) (by omega)⟩ }

end

/-! ## Frames -/

/-- The values of a frame from the lowest address on (R447). -/
def frameItems (kind : FrameKind) (sr : BitVec 16) (pc instr : Long) (vector : Nat) : List (Size × Long) :=
  match kind with
  | .threeWord => [(.word, ofWord sr), (.long, pc)]
  | .fourWord  => [(.word, ofWord sr), (.long, pc), (.word, formatWord 0 vector)]
  | .sixWord   => [(.word, ofWord sr), (.long, pc), (.word, formatWord 2 vector), (.long, instr)]

section
variable {s t : State} {base : Long} {items : List (Size × Long)} {sr : BitVec 16} {pc instr fw : Long}
  {format : BitVec 4} {vector : Nat}

theorem PushedBelow.pushFour (h : PushedBelow s base items) (hroom : 8 + stackBytes items ≤ 12)
    (hpush : pushFour s sr pc format vector = .ok t) :
    PushedBelow t base ((.word, ofWord sr) :: (.long, pc) :: (.word, formatWord format vector) :: items) := by
  obtain ⟨u, v, hfw, hpc, hsr⟩ := pushFour_spec hpush
  have hu := h.push (sz := .word) (by simp only [Size.bytes]; omega) hfw
  have hv := hu.push (sz := .long) (by simp only [stackBytes, Size.bytes]; omega) hpc
  exact hv.push (sz := .word) (by simp only [stackBytes, Size.bytes]; omega) hsr

/-- A frame pushed to plain memory stands there (R447). -/
theorem pushFrame_pushes {kind : FrameKind} (hbits : 4 ≤ s.config.addrBits) (hplain : PlainRam s (s.sp - 12) 12)
    (h : pushFrame s kind sr pc instr vector = .ok t) :
    PushedBelow t s.sp (frameItems kind sr pc instr vector) := by
  have hnil : PushedBelow s s.sp [] := ⟨hbits, hplain, BitVec.add_zero _, trivial⟩
  cases kind with
  | threeWord =>
    obtain ⟨u, hpc, hsr⟩ := except_bind_ok h
    exact (hnil.push (sz := .long) (by decide) hpc).push (sz := .word) (by simp [stackBytes, Size.bytes]) hsr
  | fourWord => exact hnil.pushFour (by decide) h
  | sixWord =>
    obtain ⟨u, hinstr, h⟩ := except_bind_ok h
    exact (hnil.push (sz := .long) (by decide) hinstr).pushFour (by simp [stackBytes, Size.bytes]) h

theorem trunc_ofWord (w : Word) : trunc .word (ofWord w) = ofWord w := by
  have hlow : (ofWord w).extractLsb' 0 16 = w := by
    rw [ofWord, ← BitVec.setWidth_eq_extractLsb' (by decide), BitVec.setWidth_setWidth_of_le _ (by decide),
      BitVec.setWidth_eq]
  rw [trunc, hlow, ofWord]

/-- The SR and the PC on top of a stack read back. -/
theorem PushedBelow.read_sr_pc (h : PushedBelow s base ((.word, ofWord sr) :: (.long, pc) :: items)) :
    memRead s .word s.sp = .ok (ofWord sr, s) ∧ memRead s .long (s.sp + 2) = .ok (pc, s) := by
  have hsr := h.stacked.read
  rw [trunc_ofWord] at hsr
  exact ⟨hsr, h.stacked.2.2.read⟩

theorem formatWord_format (format : BitVec 4) (vector : Nat) :
    (trunc .word (formatWord format vector)).extractLsb' 12 4 = format := by
  rw [formatWord, trunc_ofWord, ofWord, BitVec.extractLsb'_setWidth_of_le (by decide),
    BitVec.extractLsb'_append_eq_left]

/-- A frame with a format word reads back (R447). -/
theorem PushedBelow.readFrame
    (h : PushedBelow s base ((.word, ofWord sr) :: (.long, pc) :: (.word, formatWord format vector) :: items)) :
    readFrame s = .ok ((ofWord sr, pc, format), s) := by
  obtain ⟨hsr, hpc⟩ := h.read_sr_pc
  have hfw := h.stacked.2.2.2.2.read
  rw [add_ofNat_add] at hfw
  have hsix : memRead s .word (s.sp + 6) = _ := hfw
  simp only [Machine.readFrame, hsr, hpc, hsix, bind, Except.bind, pure, Except.pure, formatWord_format]

/-- Unstacking the frame a member pushed for an exception drops it whole and restores the SR and the PC it holds
(R449). -/
theorem unstack_pushed {e : Exc} (h : PushedBelow s base (frameItems (frameKind s.config.cpu e) sr pc instr vector)) :
    unstack s = .ok (restore s (stackBytes (frameItems (frameKind s.config.cpu e) sr pc instr vector)) (ofWord sr) pc) := by
  cases hcpu : s.config.cpu
  case mc68000 | mc68hc000 =>
    rw [hcpu] at h
    obtain ⟨hsr, hpc⟩ := h.read_sr_pc
    simp only [unstack, hcpu, hsr, hpc, bind, Except.bind]
    rfl
  case mc68010 =>
    rw [hcpu] at h
    simp only [unstack, hcpu, h.readFrame, bind, Except.bind, unstackPlain]
    rfl
  case mc68020 | mc68030 =>
    rw [hcpu] at h
    cases e
    all_goals
      simp only [unstack, hcpu, PushedBelow.readFrame (s := s) h, bind, Except.bind, unstackPlain]
      rfl

end

/-! ## The return -/

section
variable {s t : State} {n : Nat} {base pc : Long}

/-- Where A7's stack pointer alone may differ, writing it back makes all three agree. -/
theorem SameInactiveStacks.setSp_sp (h : SameInactiveStacks s t) (hsup : t.supervisor = s.supervisor)
    (hmas : t.master = s.master) : SameStacks s (t.setSp s.sp) := by
  obtain ⟨v, husp, hisp, hmsp⟩ := h
  unfold SameStacks State.sp
  simp only [State.usp_setSp, State.isp_setSp, State.msp_setSp, hsup, hmas] at husp hisp hmsp ⊢
  cases hs : s.supervisor <;> cases hm : s.master <;> simp_all

/-- The status register restored is the one pushed, where it has implemented bits alone (R32, R449). -/
theorem restore_sr (hsys : s.sys &&& sysImplemented s.config.cpu = s.sys) (hc : t.config = s.config) :
    (restore t n (ofWord s.sr) pc).sr = s.sr := by
  have hlow : (ofWord s.sr).extractLsb' 0 8 = ccrByte s.ccr := by
    rw [ofWord, BitVec.extractLsb'_setWidth_of_le (by decide), State.sr, BitVec.extractLsb'_append_eq_right]
  have hhigh : (ofWord s.sr).extractLsb' 8 8 = s.sys := by
    rw [ofWord, BitVec.extractLsb'_setWidth_of_le (by decide), State.sr, BitVec.extractLsb'_append_eq_left]
  refine State.sr_congr ?_ ?_
  · rw [restore, State.setPc_sys, State.setCcr_sys, State.setSys_sys, hhigh, hc, hsys]
  · rw [restore, State.setPc_ccr, State.setCcr_ccr, hlow, ccrOf_ccrByte]

/-- Besides SR and the pc a return changes A7's stack pointer alone (R449). -/
theorem restore_keeps (t : State) (n : Nat) (sr pc : Long) :
    (∀ m, (restore t n sr pc).getD m = t.getD m) ∧ (restore t n sr pc).a = t.a ∧
      SameStacks (t.setSp (t.sp + BitVec.ofNat 32 n)) (restore t n sr pc) := by
  simp [restore, SameStacks, State.getD]

theorem returnFromException_ok {u : State} (w : Word) (hs : s.supervisor = true) (h : unstack s = .ok u) :
    returnFromException w s = .next u := by
  rw [returnFromException, privilegedCheck, if_pos hs, h]
  rfl

end

/-- Settles O13: without a throwaway frame the handler finds one frame on A7's stack, which the return reads and drops
whole. -/
theorem entryThenReturn : Obligations.EntryThenReturn := by
  intro e s t w hinv hbits hno hplain h
  obtain ⟨hkeeps, hsys⟩ := enterHandler_keeps h
  have hsup : t.supervisor = true := by rw [State.supervisor, hsys, (getLsbD_handlerSys e s).2.2]
  have hc : t.config = s.config := hkeeps.control.1
  obtain ⟨u, v, x, handler, hpush, hframe, hthrow, -, -, hread, rfl⟩ := enterHandler_parts h
  rw [hno] at hthrow
  cases hthrow
  have hx := memRead_spec hread
  have hentry : Frame entryScope (entered e s) x := hframe.trans hx.frame
  have hpushed : PushedBelow (x.setPc handler) (entered e s).sp
      (frameItems (frameKind (x.setPc handler).config.cpu e) s.sr (e.stackedPc s) (e.instrAddr s) e.vector) := by
    have hsp : x.sp = u.sp := State.sp_congr hx.sys hx.config hx.stacks.1 hx.stacks.2.1 hx.stacks.2.2
    rw [hc]
    exact (pushFrame_pushes (s := entered e s) hbits ((plainRam_congr rfl).mpr hplain) hpush).congr hx.config hx.mem hsp
  have hstacks : SameStacks (entered e s) ((x.setPc handler).setSp (entered e s).sp) :=
    SameInactiveStacks.setSp_sp hentry.inactive hentry.supervisor_eq hentry.master_eq
  rw [← hpushed.sp] at hstacks
  obtain ⟨hdata, ha, hbanks⟩ := restore_keeps (x.setPc handler)
    (stackBytes (frameItems (frameKind (x.setPc handler).config.cpu e) s.sr (e.stackedPc s) (e.instrAddr s) e.vector))
    (ofWord s.sr) (e.stackedPc s)
  exact ⟨_, returnFromException_ok w hsup (unstack_pushed hpushed), restore_sr hinv.2 hc, rfl, hstacks.trans hbanks,
    fun n => (hdata n).trans (hkeeps.data n), ha.trans hkeeps.a⟩

end Sys2Proof.Machine
end
